-- ==== Sys2Proof/Word.lean ====
section
/-! DEFINITION. The word types of the Molaera M4: bytes, 16-, 32- and 64-bit words, register numbers. -/

namespace Sys2Proof

/-- One byte of memory (R7: multi-byte values are little-endian). -/
abbrev Byte := BitVec 8

/-- A 16-bit parcel, route word or register-address word. -/
abbrev Half := BitVec 16

/-- A 32-bit lane register value, accumulator element or instruction word. -/
abbrev W32 := BitVec 32

/-- A 64-bit control-core register. -/
abbrev Word := BitVec 64

/-- A control-core register number x0-x31 or f0-f31. -/
abbrev Reg := BitVec 5

/-- A 3-bit tile-unit register number tm0-tm7, acc0-acc7 or lut0-lut3 (R134). -/
abbrev TReg := BitVec 3

/-- A scope code of Table 00-1. -/
abbrev Scope := BitVec 3

/-- Sign extension to 64 bits. -/
def sx {n : Nat} (x : BitVec n) : Word := x.signExtend 64

/-- Zero extension to 64 bits. -/
def zx {n : Nat} (x : BitVec n) : Word := x.zeroExtend 64

end Sys2Proof
end

