-- ==== Sys2Proof/Syntax.lean ====
section
/-! DEFINITION. The syntax of the M4: the one inductive `Instr`, one constructor for each row of
spec/opcode_table.json. The rows with an encoding are the Zarni instructions of the control core
(spec/09, Tables 09-7 to 09-10); the row STANDARD_INSTRUCTION carries a standard RISC-V operation
(R126); the other rows are the steps the device's agents, the host and runtime firmware take
(spec/95), with the numbers that say which unit takes the step. -/

namespace Sys2Proof

/-- Branch conditions of RV64I. -/
inductive BranchOp where
  | beq | bne | blt | bge | bltu | bgeu
deriving DecidableEq, Repr

/-- Integer loads of RV64I. -/
inductive LoadOp where
  | lb | lh | lw | ld | lbu | lhu | lwu
deriving DecidableEq, Repr

/-- Integer stores of RV64I. -/
inductive StoreOp where
  | sb | sh | sw | sd
deriving DecidableEq, Repr

/-- Register-immediate operations with a 12-bit immediate. -/
inductive ImmOp where
  | addi | slti | sltiu | xori | ori | andi | addiw
deriving DecidableEq, Repr

/-- Register-immediate shifts and single-bit rotates (the amount is 0 to 63). -/
inductive ShiftOp where
  | slli | srli | srai | rori | slliUw
deriving DecidableEq, Repr

/-- Register-immediate shifts of 32-bit values (the amount is 0 to 31). -/
inductive ShiftWOp where
  | slliw | srliw | sraiw | roriw
deriving DecidableEq, Repr

/-- Register-register operations of RV64I, M, Zba and Zbb. -/
inductive RegOp where
  | add | sub | sll | slt | sltu | xor | srl | sra | or | and
  | addw | subw | sllw | srlw | sraw
  | mul | mulh | mulhsu | mulhu | div | divu | rem | remu
  | mulw | divw | divuw | remw | remuw
  | addUw | sh1add | sh2add | sh3add | sh1addUw | sh2addUw | sh3addUw
  | andn | orn | xnor | max | maxu | min | minu | rol | ror | rolw | rorw
deriving DecidableEq, Repr

/-- One-operand operations of Zbb. -/
inductive UnaryOp where
  | clz | ctz | cpop | clzw | ctzw | cpopw | sextB | sextH | zextH | orcB | rev8
deriving DecidableEq, Repr

/-- The read-modify-write operations of the A extension. -/
inductive AmoOp where
  | swap | add | xor | and | or | min | max | minu | maxu
deriving DecidableEq, Repr

/-- The CSR operations of Zicsr. -/
inductive CsrOp where
  | rw | rs | rc
deriving DecidableEq, Repr

/-- The source of a CSR operation: a register or a 5-bit immediate. -/
inductive CsrSrc where
  | reg (rs1 : Reg)
  | imm (z : BitVec 5)
deriving DecidableEq, Repr

/-- The floating-point formats of the F and D extensions. -/
inductive FFmt where
  | s | d
deriving DecidableEq, Repr

/-- Two-operand floating-point arithmetic. -/
inductive FBinOp where
  | add | sub | mul | div
deriving DecidableEq, Repr

/-- Fused multiply-add forms. -/
inductive FmaOp where
  | madd | msub | nmsub | nmadd
deriving DecidableEq, Repr

/-- Sign injection and minimum/maximum. -/
inductive FSelOp where
  | sgnj | sgnjn | sgnjx | min | max
deriving DecidableEq, Repr

/-- Floating-point comparisons. -/
inductive FCmpOp where
  | feq | flt | fle
deriving DecidableEq, Repr

/-- The integer types of float conversions. -/
inductive FIntTy where
  | w | wu | l | lu
deriving DecidableEq, Repr

/-- The standard instructions of RV64IMAFD, Zicsr, Zifencei, Zba and Zbb (R126). The 16-bit encodings
of C stand for these same operations. `rm` is the rounding-mode field (7 is dynamic). -/
inductive Std where
  | lui (rd : Reg) (imm : BitVec 20)
  | auipc (rd : Reg) (imm : BitVec 20)
  | jal (rd : Reg) (off : BitVec 20)
  | jalr (rd rs1 : Reg) (imm : BitVec 12)
  | branch (op : BranchOp) (rs1 rs2 : Reg) (off : BitVec 12)
  | load (op : LoadOp) (rd rs1 : Reg) (imm : BitVec 12)
  | store (op : StoreOp) (rs1 rs2 : Reg) (imm : BitVec 12)
  | immOp (op : ImmOp) (rd rs1 : Reg) (imm : BitVec 12)
  | shift (op : ShiftOp) (rd rs1 : Reg) (sh : BitVec 6)
  | shiftW (op : ShiftWOp) (rd rs1 : Reg) (sh : BitVec 5)
  | regOp (op : RegOp) (rd rs1 rs2 : Reg)
  | unary (op : UnaryOp) (rd rs1 : Reg)
  | fence (fm pred succ : BitVec 4) (rd rs1 : Reg)
  | fenceI (rd rs1 : Reg) (imm : BitVec 12)
  | ecall
  | ebreak
  | wfi
  | csr (op : CsrOp) (rd : Reg) (src : CsrSrc) (num : BitVec 12)
  | lr (dbl aq rl : Bool) (rd rs1 : Reg)
  | sc (dbl aq rl : Bool) (rd rs1 rs2 : Reg)
  | amo (op : AmoOp) (dbl aq rl : Bool) (rd rs1 rs2 : Reg)
  | fload (fmt : FFmt) (rd rs1 : Reg) (imm : BitVec 12)
  | fstore (fmt : FFmt) (rs1 rs2 : Reg) (imm : BitVec 12)
  | fma (op : FmaOp) (fmt : FFmt) (rm : BitVec 3) (rd rs1 rs2 rs3 : Reg)
  | fbin (op : FBinOp) (fmt : FFmt) (rm : BitVec 3) (rd rs1 rs2 : Reg)
  | fsqrt (fmt : FFmt) (rm : BitVec 3) (rd rs1 : Reg)
  | fsel (op : FSelOp) (fmt : FFmt) (rd rs1 rs2 : Reg)
  | fcmp (op : FCmpOp) (fmt : FFmt) (rd rs1 rs2 : Reg)
  | fclass (fmt : FFmt) (rd rs1 : Reg)
  | fcvtToInt (ty : FIntTy) (fmt : FFmt) (rm : BitVec 3) (rd rs1 : Reg)
  | fcvtFromInt (ty : FIntTy) (fmt : FFmt) (rm : BitVec 3) (rd rs1 : Reg)
  | fcvtFmt (dst : FFmt) (rm : BitVec 3) (rd rs1 : Reg)
  | fmvToInt (fmt : FFmt) (rd rs1 : Reg)
  | fmvFromInt (fmt : FFmt) (rd rs1 : Reg)
deriving DecidableEq, Repr

/-- The M-mode and configuration registers of the part that no other step writes with an effect of its
own (REGISTER_WRITE, R7): each of a core's control page or a die's configuration page. -/
inductive RegName where
  | ctxa (core slot : Nat)      -- CTXAn, Table 23-7
  | prqb (die : Nat)            -- PRQBd, R384
  | abtd (die : Nat)            -- ABTd, R380
  | scrb (die : Nat)            -- SCRBd, R380
  | podid                       -- PODID, R371
  | zfrec (core : Nat)          -- zfrec, R190
  | route (pkg : Nat)           -- the route table's entry for another package, R371
deriving DecidableEq, Repr

/-- A flit, by its number, of a pod link: what FLIT_REPLAY sends again (R371 counts the replays of one flit). -/
structure LinkFlit where
  link : Nat
  flit : Nat
deriving DecidableEq, Repr

/-- A protected storage word in which a bit error can arise (Table 05-7). -/
inductive Loc where
  | mem (granule : Nat)                       -- the 8-byte word at 8*granule of HBM or LLS
  | spad (core word : Nat)                    -- the 4-byte word of a scratchpad
  | lane (core lane reg : Nat)                -- 0-23 physical w, 24-31 c, 32-35 latches N E S W, 36 the predicates, 37 iA, 38 iB
  | tm (core reg word : Nat)                  -- 4-byte word of a tile register of the core's tile unit
  | acc (core reg elem : Nat)                 -- accumulator element
  | lut (core reg word : Nat)                 -- 4-byte word of a codebook register
  | bank (core bank lane word : Nat)          -- word of a configuration bank
  | cache (core line : Nat)                   -- line of the control core's instruction cache (0-511) or data cache (512-1023): clean, refetched
  | image (core line : Nat)                   -- line of the configuration-image cache: clean, refetched
  | tlb (core entry : Nat)                    -- entry of the core's translation cache: clean, refetched
  | walk (die entry : Nat)                    -- entry of a die's walk cache: clean, refetched
  | range (core port entry : Nat)             -- range entry of an edge port, ports numbered as a RELATCH token passes them
deriving DecidableEq, Repr

/-- One instruction or step: a row of spec/opcode_table.json. -/
inductive Instr where
  -- custom-0, group 000: region (R151 to R159)
  | rcfg (rd rs1 rs2 : Reg)
  | rlnch (rd rs1 rs2 : Reg)
  | rwait (rd : Reg)
  | rhalt (rd : Reg)
  | rsave (rd rs1 : Reg)
  | rrstr (rd rs1 : Reg)
  | rstat (rd rs1 : Reg)
  | riter (rd : Reg)
  -- custom-0, group 001: loops (R160, R162)
  | loop (l : BitVec 2) (bl : BitVec 8) (rs1 : Reg)
  | loopi (l : BitVec 2) (bl : BitVec 8) (cnt : BitVec 5)
  | lbrk (l : BitVec 2)
  -- custom-0, group 010: barriers (R165 to R169)
  | binit (rd rs1 rs2 : Reg)
  | barv (rs1 : Reg)
  | bwait (rd rs1 : Reg)
  | barw (rd rs1 : Reg)
  | btest (rd rs1 : Reg)
  | bphase (rd rs1 : Reg)
  -- custom-0, group 011: messages and events (R170, R173)
  | ssig (rd rs1 rs2 : Reg)
  | evpop (rd : Reg)
  | evpeek (rd : Reg)
  | evcnt (rd : Reg)
  -- custom-0, group 100: ordering and atomics (R174, R175)
  | zfence (sc : Scope) (pred succ : BitVec 2)
  | aaddW (sc : Scope) (rs2 rs1 : Reg) (aq rl : Bool) (rdc : BitVec 3)
  | aminsW (sc : Scope) (rs2 rs1 : Reg) (aq rl : Bool) (rdc : BitVec 3)
  | amaxsW (sc : Scope) (rs2 rs1 : Reg) (aq rl : Bool) (rdc : BitVec 3)
  | axchgW (sc : Scope) (rs2 rs1 : Reg) (aq rl : Bool) (rdc : BitVec 3)
  | acasW (sc : Scope) (rs2 rs1 : Reg) (aq rl : Bool) (rdc : BitVec 3)
  | aaddD (sc : Scope) (rs2 rs1 : Reg) (aq rl : Bool) (rdc : BitVec 3)
  | aminsD (sc : Scope) (rs2 rs1 : Reg) (aq rl : Bool) (rdc : BitVec 3)
  | amaxsD (sc : Scope) (rs2 rs1 : Reg) (aq rl : Bool) (rdc : BitVec 3)
  | axchgD (sc : Scope) (rs2 rs1 : Reg) (aq rl : Bool) (rdc : BitVec 3)
  | acasD (sc : Scope) (rs2 rs1 : Reg) (aq rl : Bool) (rdc : BitVec 3)
  -- custom-0, groups 101 and 110: tasks, budget and time (R178 to R184)
  | tend (rs1 : Reg)
  | tyield
  | thand (rd rs1 : Reg)
  | tslot (rd : Reg)
  | tspawn (rd rs1 rs2 : Reg)
  | budq (rd rs1 : Reg)
  | tstamp (rd : Reg)
  -- custom-0, group 111: prefixes (R176, R177)
  | scope (sc : Scope)
  | logp (fa fb fc : BitVec 2) (rs2 rs1 : Reg)
  -- custom-3 (R185 to R189)
  | icinv (sc : Scope) (rs2 rs1 : Reg)
  | tlbinv (sc : Scope) (rs2 rs1 : Reg)
  | relatch (sc : Scope) (rs2 rs1 : Reg)
  | partctl (rd rs1 : Reg)
  | hint (imm : BitVec 12) (rs1 rd : Reg)
  -- custom-1: tile instructions (spec/15)
  | tld (td : TReg) (rs1 : Reg) (tm : Bool)
  | tst (ta : TReg) (rs1 : Reg) (tm : Bool)
  | tzero (td : TReg) (tm : Bool)
  | thdr (td : TReg) (rs1 : Reg)
  | thdrGet (td : TReg) (rs1 : Reg)
  | thdrFlags (rs1 : Reg)
  | thdrFlagsClr (rs1 : Reg)
  | tlut (td : TReg) (rs1 : Reg)
  | tmma (td ta tb : TReg) (rs1 : Reg) (new sat neg : Bool)
  | tmms (td ta tb : TReg) (rs1 : Reg) (new sat neg : Bool) (n : BitVec 2)
  | tmmc (td ta tb : TReg) (rs1 : Reg) (i8 new sat neg : Bool)
  | tdist (td ta tb : TReg) (rs1 : Reg) (new : Bool) (mode metric : BitVec 2)
  | tcupd (td ta tb : TReg) (rs1 : Reg)
  | tcdiv (td ta : TReg) (rs1 : Reg) (int : Bool)
  | tcvt (td ta : TReg) (rs1 : Reg) (sat rtz int tm : Bool)
  | tadd (td ta tb : TReg) (sat int : Bool)
  | tmul (td ta tb : TReg) (sat int : Bool)
  | tact (td ta : TReg) (fn : BitVec 2)
  | tactD (td ta tb : TReg) (fn : BitVec 2)
  | tscl (td ta : TReg) (rs1 : Reg) (int : Bool) (vec : BitVec 2)
  | tred (td ta : TReg) (int : Bool) (op : BitVec 2) (col : Bool)
  | ttrn (td ta : TReg) (rs1 : Reg) (tm : Bool)
  | mxhint
  -- custom-2: streams, copies, collectives, mould (spec/17, spec/19)
  | shape (rd rs1 rs2 : Reg)
  | sbind (rd rs1 rs2 : Reg)
  | sunb (rd rs1 : Reg)
  | cpy (cq : BitVec 2) (rd rs1 rs2 : Reg)
  | cpyg (cq : BitVec 2) (rd rs1 rs2 : Reg)
  | cpyx (cq : BitVec 2) (rd rs1 rs2 : Reg)
  | ccmd (rd rs1 rs2 : Reg)
  | cbwait (rs1 rs2 : Reg)
  | cbtest (rd rs1 rs2 : Reg)
  | mould (rs1 : Reg)
  | cast (rd rs1 : Reg)
  | mstat (rd : Reg)
  | qfence (set : BitVec 8)
  -- standard instructions and the fate of other encodings (R126, R127, R163)
  | standard (op : Std) (short : Bool)
  | mret
  | illegal (bits : BitVec 32) (sub : BitVec 8)
  -- region steps
  | rowAdvance (core : Nat)
  | holdCycle (core : Nat)
  | deadlineFault (core : Nat)
  | regionComplete (core : Nat)
  | ldgReply (core lane lslot : Nat)
  | storeQueuePerform (core : Nat)
  | translationWalk (core : Nat) (vi : Nat) (va : BitVec 64) (acc : BitVec 2)
  | relatchToken (token : Nat)
  | armatureLoadDone (core : Nat)
  | tqEntryStart (core : Nat)
  | tqEntryComplete (core : Nat)
  | castEntry (core : Nat)
  | arrayRampDown (core : Nat)
  -- engine steps
  | engineCommandStart (core slot queue : Nat)
  | chunkComplete (core slot queue chunk : Nat)
  | commandComplete (core slot queue : Nat)
  | pageRequestPost (core slot queue : Nat)
  | prqaWrite (die : Nat) (value : Word)
  | streamStart (core port : Nat)
  | beatArrival (core port : Nat)
  | beatWrite (core port : Nat)
  | streamEnd (core port : Nat)
  | collectiveBegin (core slot : Nat)
  | collectiveTimeout (core slot : Nat)
  | barrierArrival (flight : Nat)
  | messageDelivery (flight : Nat)
  -- scheduler steps
  | notify (vi q : Nat)
  | queueMap (die hw vi q : Nat)
  | queueUnmap (die hw : Nat)
  | cardAccept (die hw : Nat)
  | deal (die hw : Nat) (places : List Nat)
  | taskStart (core slot : Nat)
  | cardComplete (vi q card : Nat)
  | periodBoundary (vi q : Nat)
  | budgetExhausted (vi q which : Nat)
  | activityBudgetExhausted (die vi kind unit : Nat)
  | sliceExpiry (core : Nat)
  | preemptRequest (core slot : Nat)
  | coreStop (core : Nat)
  | dispatch (core : Nat)
  | asyncTrap (core : Nat)
  | faultRecord (core : Nat)
  | waitComplete (core : Nat)
  -- M-mode register writes
  | swinWrite (core slot : Nat) (value : W32)
  | xrootWrite (vi : Nat) (value : Word)
  | carvdWrite (die : Nat) (value : Word)
  | zlcWrite (core level : Nat) (value : Word)
  | ctxcmdHalt (core slot : Nat)
  | ctxcmdSave (core slot : Nat)
  | ctxcmdLoad (core slot : Nat)
  | ctxcmdRelease (core slot : Nat)
  | ctxcmdDone (core : Nat)
  | registerWrite (name : RegName) (value : Word)
  -- host steps
  | commandDoorbell (vi : Nat) (value : Nat)
  | qcreate (vi : Nat)
  | qmap (vi : Nat)
  | qunmap (vi : Nat)
  | qdestroy (vi : Nat)
  | epattach (vi : Nat)
  | epdetach (vi : Nat)
  | coload (vi : Nat)
  | counload (vi : Nat)
  | partchg (vi : Nat)
  | quota (vi : Nat)
  | keyset (vi : Nat)
  | quote (vi : Nat)
  | bar2Access (vi : Nat) (off : Nat) (write : Option (List Byte)) (len : Nat)
  | traceWindowRead (die : Nat)
  | functionLevelReset (vi : Nat)
  | interfaceEnable (vi die ringBase ringK journalBase : Nat)
  | interfaceDisable (vi : Nat)
  | partctlQuiesced (core : Nat)
  | partctlQuiesceTimeout (core : Nat)
  | linkDown (link : Nat)
  | coldReset
  | warmReset
  | debugUnlock (token : List Byte)
  | thermalWarning (die : Nat)
  | thermalStop
  | watchdogExpiry (die : Nat)
  | scrub (granule : Nat)
  | packageTimerTick
  | rowTablePassComplete (core : Nat)
  | flitReplay (rep : LinkFlit)
  | storageBitError (loc : Loc) (double : Bool)
  | permanentFault (core : Nat)
  | firmwareTaskEnd (core slot : Nat)
deriving DecidableEq, Repr

end Sys2Proof
end

