-- ==== Sys2Proof/WellFormed.lean ====
section
/-! DEFINITION. Which terms of `Instr` are instructions: each check is one the encoding rules of
spec/09 and spec/15 make (R2, R127, R128, R130 to R135, R237, R246, Table 15-3). The steps of the
device's agents carry no encoding and are all well-formed. -/

namespace Sys2Proof

/-- Scope codes 110 and 111 are unassigned (R2). -/
def scopeOk (c : Scope) : Bool := c.toNat < 6

/-- A rounding-mode field a static or dynamic encoding may hold. -/
def rmOk (rm : BitVec 3) : Bool := rm.toNat < 5 || rm == 7

/-- Loop levels are zlc0 to zlc2; L = 11 is unassigned (R130). -/
def levelOk (l : BitVec 2) : Bool := l != 3

/-- The registers a TMMS spans must exist: ta + r - 1 <= 7 (R246). -/
def tmmsOk (ta : TReg) (n : BitVec 2) : Bool :=
  (n == 0 && ta.toNat + 1 ≤ 7) || ((n == 1 || n == 2) && ta.toNat + 3 ≤ 7)

/-- A standard operation whose fields the ratified encodings assign. -/
def Std.wf : Std → Bool
  | .fma _ _ rm _ _ _ _ => rmOk rm
  | .fbin _ _ rm _ _ _ => rmOk rm
  | .fsqrt _ rm _ _ => rmOk rm
  | .fcvtToInt _ _ rm _ _ => rmOk rm
  | .fcvtFromInt _ _ rm _ _ => rmOk rm
  | .fcvtFmt _ rm _ _ => rmOk rm
  | _ => true

/-- The well-formed instructions. -/
def Instr.wf : Instr → Bool
  | .loop l _ _ => levelOk l
  | .loopi l _ _ => levelOk l
  | .lbrk l => levelOk l
  | .zfence sc _ _ => scopeOk sc
  | .aaddW sc .. => scopeOk sc
  | .aminsW sc .. => scopeOk sc
  | .amaxsW sc .. => scopeOk sc
  | .axchgW sc .. => scopeOk sc
  | .acasW sc .. => scopeOk sc
  | .aaddD sc .. => scopeOk sc
  | .aminsD sc .. => scopeOk sc
  | .amaxsD sc .. => scopeOk sc
  | .axchgD sc .. => scopeOk sc
  | .acasD sc .. => scopeOk sc
  | .scope sc => scopeOk sc
  | .logp fa fb fc _ _ => fa != 3 && fb != 3 && fc != 3
  | .icinv sc _ _ => scopeOk sc
  | .tlbinv sc _ _ => scopeOk sc
  | .relatch sc _ _ => scopeOk sc
  | .tlut td _ => td.toNat < 4
  | .tmms _ ta _ _ _ _ _ n => tmmsOk ta n
  | .tdist _ _ _ _ new mode metric => metric != 3 && !(new && (mode == 1 || mode == 2))
  | .tadd _ _ _ sat int => !sat || int
  | .tmul _ _ _ sat int => !sat || int
  | .tscl _ _ _ _ vec => vec != 3
  | .tred _ _ _ op _ => op != 3
  | .ttrn _ _ rs1 tm => tm || rs1 == 0
  | .standard op short => op.wf && !short
  | .illegal _ _ => false
  | _ => true

end Sys2Proof
end

