-- ==== Sys2Proof/Decode.lean ====
section
/-! DEFINITION. The decoder, total on any bits (R127), and after it the encoder, both written from the
field tables of spec/09 and spec/15 (Zarni) and from the ratified RISC-V encodings that R126 names.
Every encoding that is no instruction decodes to `Instr.illegal` with its bits and the subcode of
Table 09-11. -/

namespace Sys2Proof

/-! ## Fields of a 32-bit word (Table 09-5) -/

def Enc.opc (w : BitVec 32) : BitVec 7 := w.extractLsb' 0 7
def Enc.rd (w : BitVec 32) : Reg := w.extractLsb' 7 5
def Enc.f3 (w : BitVec 32) : BitVec 3 := w.extractLsb' 12 3
def Enc.rs1 (w : BitVec 32) : Reg := w.extractLsb' 15 5
def Enc.rs2 (w : BitVec 32) : Reg := w.extractLsb' 20 5
def Enc.f7 (w : BitVec 32) : BitVec 7 := w.extractLsb' 25 7

/-- Format ZR and the standard R format: f7, rs2, rs1, f3, rd, opc. -/
def Enc.fmtR (f7 : BitVec 7) (rs2 rs1 : Reg) (f3 : BitVec 3) (rd : Reg) (opc : BitVec 7) : BitVec 32 :=
  f7 ++ rs2 ++ rs1 ++ f3 ++ rd ++ opc

def Enc.top (w : BitVec 32) : BitVec 5 := w.extractLsb' 27 5
def Enc.ta (w : BitVec 32) : TReg := w.extractLsb' 24 3
def Enc.tb (w : BitVec 32) : TReg := w.extractLsb' 21 3
def Enc.td (w : BitVec 32) : TReg := w.extractLsb' 18 3
def Enc.trs1 (w : BitVec 32) : Reg := w.extractLsb' 13 5
def Enc.fl (w : BitVec 32) : BitVec 5 := w.extractLsb' 8 5
def Enc.sb (w : BitVec 32) : BitVec 1 := w.extractLsb' 7 1

/-- Format ZT: top, ta, tb, td, rs1, fl, sb, opc. -/
def Enc.fmtZ (top : BitVec 5) (ta tb td : TReg) (rs1 : Reg) (fl : BitVec 5) (sb : BitVec 1) : BitVec 32 :=
  top ++ ta ++ tb ++ td ++ rs1 ++ fl ++ sb ++ (0x2B#7)

/-- The bit of a field as a Bool, and back. -/
def Enc.bit {n : Nat} (x : BitVec n) (i : Nat) : Bool := x.getLsbD i
def Enc.b1 (b : Bool) : BitVec 1 := if b then 1#1 else 0#1

/-! ## Subcodes of Table 09-11 -/

def Enc.subStandard : BitVec 8 := 0x00
def Enc.subUnassigned : BitVec 8 := 0x01
def Enc.subRsv : BitVec 8 := 0x02
def Enc.subMismatch : BitVec 8 := 0x03
def Enc.subRepeat : BitVec 8 := 0x04
def Enc.subPriv : BitVec 8 := 0x05

def Enc.unassigned (w : BitVec 32) : Instr := .illegal w Enc.subUnassigned
def Enc.standardIllegal (w : BitVec 32) : Instr := .illegal w Enc.subStandard

/-- An instruction whose unused fields must be zero (R128). -/
def Enc.rsv (w : BitVec 32) (zero : Bool) (i : Instr) : Instr :=
  if zero then i else .illegal w Enc.subRsv

/-! ## Custom-0 (R129 to R132) -/

/-- The region group, f3 = 000. -/
def Enc.decRegion (w : BitVec 32) : Instr :=
  let rd := Enc.rd w; let rs1 := Enc.rs1 w; let rs2 := Enc.rs2 w
  match (Enc.f7 w).toNat with
  | 0x00 => .rcfg rd rs1 rs2
  | 0x01 => .rlnch rd rs1 rs2
  | 0x02 => Enc.rsv w (rs1 == 0 && rs2 == 0) (.rwait rd)
  | 0x03 => Enc.rsv w (rs1 == 0 && rs2 == 0) (.rhalt rd)
  | 0x04 => Enc.rsv w (rs2 == 0) (.rsave rd rs1)
  | 0x05 => Enc.rsv w (rs2 == 0) (.rrstr rd rs1)
  | 0x06 => Enc.rsv w (rs2 == 0) (.rstat rd rs1)
  | 0x07 => Enc.rsv w (rs1 == 0 && rs2 == 0) (.riter rd)
  | _ => Enc.unassigned w

/-- The loop group, f3 = 001 (R130): imm12 = sub, L, BL. A word that is unassigned and has an unused field that is not zero
is UNASSIGNED, here and in every group below (log entry 68). -/
def Enc.decLoop (w : BitVec 32) : Instr :=
  let f7 := Enc.f7 w
  let sub := f7.extractLsb' 5 2
  let l := f7.extractLsb' 3 2
  let bl : BitVec 8 := f7.extractLsb' 0 3 ++ Enc.rs2 w
  let rs1 := Enc.rs1 w
  if sub == 3 || l == 3 then Enc.unassigned w
  else if sub == 0 then Enc.rsv w (Enc.rd w == 0) (.loop l bl rs1)
  else if sub == 1 then Enc.rsv w (Enc.rd w == 0) (.loopi l bl rs1)
  else Enc.rsv w (Enc.rd w == 0 && rs1 == 0 && bl == 0) (.lbrk l)

/-- The barrier group, f3 = 010. -/
def Enc.decBarrier (w : BitVec 32) : Instr :=
  let rd := Enc.rd w; let rs1 := Enc.rs1 w; let rs2 := Enc.rs2 w
  match (Enc.f7 w).toNat with
  | 0x00 => .binit rd rs1 rs2
  | 0x01 => Enc.rsv w (rd == 0 && rs2 == 0) (.barv rs1)
  | 0x02 => Enc.rsv w (rs2 == 0) (.bwait rd rs1)
  | 0x03 => Enc.rsv w (rs2 == 0) (.barw rd rs1)
  | 0x04 => Enc.rsv w (rs2 == 0) (.btest rd rs1)
  | 0x05 => Enc.rsv w (rs2 == 0) (.bphase rd rs1)
  | _ => Enc.unassigned w

/-- The message and event group, f3 = 011. -/
def Enc.decMessage (w : BitVec 32) : Instr :=
  let rd := Enc.rd w; let rs1 := Enc.rs1 w; let rs2 := Enc.rs2 w
  match (Enc.f7 w).toNat with
  | 0x00 => .ssig rd rs1 rs2
  | 0x01 => Enc.rsv w (rs1 == 0 && rs2 == 0) (.evpop rd)
  | 0x02 => Enc.rsv w (rs1 == 0 && rs2 == 0) (.evpeek rd)
  | 0x03 => Enc.rsv w (rs1 == 0 && rs2 == 0) (.evcnt rd)
  | _ => Enc.unassigned w

/-- The ordering group, f3 = 100 (R131): bits [31:28] select, bits [27:25] are the scope. A reserved scope is UNASSIGNED
before any field is looked at (log entry 68). -/
def Enc.decOrdering (w : BitVec 32) : Instr :=
  let f7 := Enc.f7 w
  let sel := f7.extractLsb' 3 4
  let sc : Scope := f7.extractLsb' 0 3
  let rd := Enc.rd w; let rs1 := Enc.rs1 w; let rs2 := Enc.rs2 w
  let aq := Enc.bit rd 4
  let rl := Enc.bit rd 3
  let rdc : BitVec 3 := rd.extractLsb' 0 3
  if !scopeOk sc then Enc.unassigned w
  else match sel.toNat with
  | 0 => Enc.rsv w (rs2 == 0 && rs1.extractLsb' 2 3 == 0 && rd.extractLsb' 2 3 == 0)
      (.zfence sc (rs1.extractLsb' 0 2) (rd.extractLsb' 0 2))
  | 1 => .aaddW sc rs2 rs1 aq rl rdc
  | 2 => .aminsW sc rs2 rs1 aq rl rdc
  | 3 => .amaxsW sc rs2 rs1 aq rl rdc
  | 4 => .axchgW sc rs2 rs1 aq rl rdc
  | 5 => .acasW sc rs2 rs1 aq rl rdc
  | 9 => .aaddD sc rs2 rs1 aq rl rdc
  | 10 => .aminsD sc rs2 rs1 aq rl rdc
  | 11 => .amaxsD sc rs2 rs1 aq rl rdc
  | 12 => .axchgD sc rs2 rs1 aq rl rdc
  | 13 => .acasD sc rs2 rs1 aq rl rdc
  | _ => Enc.unassigned w

/-- The task group, f3 = 101. -/
def Enc.decTask (w : BitVec 32) : Instr :=
  let rd := Enc.rd w; let rs1 := Enc.rs1 w; let rs2 := Enc.rs2 w
  match (Enc.f7 w).toNat with
  | 0x00 => Enc.rsv w (rd == 0 && rs2 == 0) (.tend rs1)
  | 0x01 => Enc.rsv w (rd == 0 && rs1 == 0 && rs2 == 0) .tyield
  | 0x02 => Enc.rsv w (rs2 == 0) (.thand rd rs1)
  | 0x03 => Enc.rsv w (rs1 == 0 && rs2 == 0) (.tslot rd)
  | 0x04 => .tspawn rd rs1 rs2
  | _ => Enc.unassigned w

/-- The budget and time group, f3 = 110. -/
def Enc.decBudget (w : BitVec 32) : Instr :=
  let rd := Enc.rd w; let rs1 := Enc.rs1 w; let rs2 := Enc.rs2 w
  match (Enc.f7 w).toNat with
  | 0x00 => Enc.rsv w (rs2 == 0) (.budq rd rs1)
  | 0x01 => Enc.rsv w (rs1 == 0 && rs2 == 0) (.tstamp rd)
  | _ => Enc.unassigned w

/-- The prefix group, f3 = 111 (R132): the rd field selects the kind. UNASSIGNED comes before an unused field (log entry
68). -/
def Enc.decPrefix (w : BitVec 32) : Instr :=
  let f7 := Enc.f7 w
  let sc : Scope := f7.extractLsb' 0 3
  let rs1 := Enc.rs1 w; let rs2 := Enc.rs2 w
  if Enc.rd w == 0 then
    if !scopeOk sc then Enc.unassigned w
    else Enc.rsv w (f7.extractLsb' 3 4 == 0 && rs1 == 0 && rs2 == 0) (.scope sc)
  else if Enc.rd w == 1 then
    let fa : BitVec 2 := f7.extractLsb' 5 2
    let fb : BitVec 2 := f7.extractLsb' 3 2
    let fc : BitVec 2 := f7.extractLsb' 1 2
    if fa == 3 || fb == 3 || fc == 3 then Enc.unassigned w
    else Enc.rsv w (f7.extractLsb' 0 1 == 0) (.logp fa fb fc rs2 rs1)
  else Enc.unassigned w

def Enc.decCustom0 (w : BitVec 32) : Instr :=
  match (Enc.f3 w).toNat with
  | 0 => Enc.decRegion w
  | 1 => Enc.decLoop w
  | 2 => Enc.decBarrier w
  | 3 => Enc.decMessage w
  | 4 => Enc.decOrdering w
  | 5 => Enc.decTask w
  | 6 => Enc.decBudget w
  | _ => Enc.decPrefix w

/-! ## Custom-1: tile instructions (R134, R237, Tables 15-2 and 15-3) -/

/-- Each tile instruction checks its unassigned fl values first, then its unused fields. -/
def Enc.decTile (w : BitVec 32) : Instr :=
  let ta := Enc.ta w; let tb := Enc.tb w; let td := Enc.td w
  let rs1 := Enc.trs1 w; let fl := Enc.fl w; let sb := Enc.sb w
  let f := Enc.bit fl
  let tm := Enc.bit sb 0
  match (Enc.top w).toNat with
  | 0 => Enc.rsv w (ta == 0 && tb == 0 && fl == 0) (.tld td rs1 tm)
  | 1 => Enc.rsv w (td == 0 && tb == 0 && fl == 0) (.tst ta rs1 tm)
  | 2 => Enc.rsv w (ta == 0 && tb == 0 && rs1 == 0 && fl == 0) (.tzero td tm)
  | 3 =>
    match (fl.extractLsb' 0 2).toNat with
    | 0 => Enc.rsv w (ta == 0 && tb == 0 && fl.extractLsb' 2 3 == 0 && sb == 0) (.thdr td rs1)
    | 1 => Enc.rsv w (ta == 0 && tb == 0 && fl.extractLsb' 2 3 == 0 && sb == 0) (.thdrGet td rs1)
    | 2 => Enc.rsv w (ta == 0 && tb == 0 && td == 0 && fl.extractLsb' 2 3 == 0 && sb == 0) (.thdrFlags rs1)
    | _ => Enc.rsv w (ta == 0 && tb == 0 && td == 0 && fl.extractLsb' 2 3 == 0 && sb == 0) (.thdrFlagsClr rs1)
  | 4 => Enc.rsv w (ta == 0 && tb == 0 && fl == 0 && sb == 0 && td.toNat < 4) (.tlut td rs1)
  | 5 => Enc.rsv w (fl.extractLsb' 3 2 == 0 && sb == 0) (.tmma td ta tb rs1 (f 2) (f 1) (f 0))
  | 6 =>
    let n : BitVec 2 := fl.extractLsb' 0 2
    if n == 3 then Enc.unassigned w
    else Enc.rsv w (sb == 0 && tmmsOk ta n) (.tmms td ta tb rs1 (f 4) (f 3) (f 2) n)
  | 7 => Enc.rsv w (fl.extractLsb' 4 1 == 0 && sb == 0) (.tmmc td ta tb rs1 (f 3) (f 2) (f 1) (f 0))
  | 8 =>
    let metric : BitVec 2 := fl.extractLsb' 0 2
    let mode : BitVec 2 := fl.extractLsb' 2 2
    if metric == 3 || (f 4 && (mode == 1 || mode == 2)) then Enc.unassigned w
    else Enc.rsv w (sb == 0) (.tdist td ta tb rs1 (f 4) mode metric)
  | 9 => Enc.rsv w (fl == 0 && sb == 0) (.tcupd td ta tb rs1)
  | 10 => Enc.rsv w (tb == 0 && fl.extractLsb' 1 4 == 0 && sb == 0) (.tcdiv td ta rs1 (f 0))
  | 11 => Enc.rsv w (tb == 0 && fl.extractLsb' 3 2 == 0) (.tcvt td ta rs1 (f 2) (f 1) (f 0) tm)
  | 12 =>
    if f 1 && !f 0 then Enc.unassigned w
    else Enc.rsv w (rs1 == 0 && fl.extractLsb' 2 3 == 0 && sb == 0) (.tadd td ta tb (f 1) (f 0))
  | 13 =>
    if f 1 && !f 0 then Enc.unassigned w
    else Enc.rsv w (rs1 == 0 && fl.extractLsb' 2 3 == 0 && sb == 0) (.tmul td ta tb (f 1) (f 0))
  | 14 =>
    if f 2 then Enc.rsv w (rs1 == 0 && fl.extractLsb' 3 2 == 0 && sb == 0) (.tactD td ta tb (fl.extractLsb' 0 2))
    else Enc.rsv w (tb == 0 && rs1 == 0 && fl.extractLsb' 3 2 == 0 && sb == 0) (.tact td ta (fl.extractLsb' 0 2))
  | 15 =>
    let v : BitVec 2 := fl.extractLsb' 0 2
    if v == 3 then Enc.unassigned w
    else Enc.rsv w (tb == 0 && fl.extractLsb' 3 2 == 0 && sb == 0) (.tscl td ta rs1 (f 2) v)
  | 16 =>
    let op : BitVec 2 := fl.extractLsb' 1 2
    if op == 3 then Enc.unassigned w
    else Enc.rsv w (tb == 0 && rs1 == 0 && fl.extractLsb' 4 1 == 0 && sb == 0) (.tred td ta (f 3) op (f 0))
  | 17 => Enc.rsv w (tb == 0 && fl == 0 && (tm || rs1 == 0)) (.ttrn td ta rs1 tm)
  | 18 => Enc.rsv w (ta == 0 && tb == 0 && td == 0 && rs1 == 0 && fl == 0 && sb == 0) .mxhint
  | _ => Enc.unassigned w

/-! ## Custom-2 (R135) and custom-3 (R136, R137) -/

def Enc.decCustom2 (w : BitVec 32) : Instr :=
  let f7 := Enc.f7 w
  let rd := Enc.rd w; let rs1 := Enc.rs1 w; let rs2 := Enc.rs2 w
  match (Enc.f3 w).toNat with
  | 0 =>
    match f7.toNat with
    | 0 => .shape rd rs1 rs2
    | 1 => .sbind rd rs1 rs2
    | 2 => Enc.rsv w (rs2 == 0) (.sunb rd rs1)
    | _ => Enc.unassigned w
  | 1 =>
    let cq : BitVec 2 := f7.extractLsb' 0 2
    match (f7.extractLsb' 2 5).toNat with
    | 0 => .cpy cq rd rs1 rs2
    | 1 => .cpyg cq rd rs1 rs2
    | 2 => .cpyx cq rd rs1 rs2
    | 3 => if cq == 0 then .ccmd rd rs1 rs2 else Enc.unassigned w
    | _ => Enc.unassigned w
  | 2 =>
    match f7.toNat with
    | 0 => Enc.rsv w (rd == 0) (.cbwait rs1 rs2)
    | 1 => .cbtest rd rs1 rs2
    | _ => Enc.unassigned w
  | 3 =>
    match f7.toNat with
    | 0 => Enc.rsv w (rd == 0 && rs2 == 0) (.mould rs1)
    | 1 => Enc.rsv w (rs2 == 0) (.cast rd rs1)
    | 2 => Enc.rsv w (rs1 == 0 && rs2 == 0) (.mstat rd)
    | _ => Enc.unassigned w
  | 5 => Enc.rsv w (f7.extractLsb' 3 4 == 0 && rs1 == 0 && rd == 0)
      (.qfence (f7.extractLsb' 0 3 ++ rs2))
  | _ => Enc.unassigned w

/-- Custom-3 (R136, R137). UNASSIGNED comes before an unused field (log entry 68). -/
def Enc.decCustom3 (w : BitVec 32) : Instr :=
  let f7 := Enc.f7 w
  let sc : Scope := f7.extractLsb' 0 3
  let rd := Enc.rd w; let rs1 := Enc.rs1 w; let rs2 := Enc.rs2 w
  match (Enc.f3 w).toNat with
  | 0 => if !scopeOk sc then Enc.unassigned w
    else Enc.rsv w (f7.extractLsb' 3 4 == 0 && rd == 0) (.icinv sc rs2 rs1)
  | 1 => if !scopeOk sc then Enc.unassigned w
    else Enc.rsv w (f7.extractLsb' 3 4 == 0 && rd == 0) (.tlbinv sc rs2 rs1)
  | 2 => if !scopeOk sc then Enc.unassigned w
    else Enc.rsv w (f7.extractLsb' 3 4 == 0 && rd == 0) (.relatch sc rs2 rs1)
  | 3 => if f7 != 0 then Enc.unassigned w else Enc.rsv w (rs2 == 0) (.partctl rd rs1)
  | 7 => .hint (f7 ++ rs2) rs1 rd
  | _ => Enc.unassigned w

/-! ## Standard 32-bit encodings (R126) -/

def Enc.immI (w : BitVec 32) : BitVec 12 := Enc.f7 w ++ Enc.rs2 w
def Enc.immS (w : BitVec 32) : BitVec 12 := Enc.f7 w ++ Enc.rd w

/-- Branch offset[12:1], from the B format. -/
def Enc.immB (w : BitVec 32) : BitVec 12 :=
  let f7 := Enc.f7 w; let rd := Enc.rd w
  f7.extractLsb' 6 1 ++ rd.extractLsb' 0 1 ++ f7.extractLsb' 0 6 ++ rd.extractLsb' 1 4

/-- The 20 bits [31:12] of the U and J formats. -/
def Enc.imm20 (w : BitVec 32) : BitVec 20 := Enc.f7 w ++ Enc.rs2 w ++ Enc.rs1 w ++ Enc.f3 w

/-- Jump offset[20:1], from the J format's 20 bits. -/
def Enc.immJ (u : BitVec 20) : BitVec 20 :=
  u.extractLsb' 19 1 ++ u.extractLsb' 0 8 ++ u.extractLsb' 8 1 ++ u.extractLsb' 9 10

def Enc.std (w : BitVec 32) (o : Option Std) : Instr :=
  match o with
  | some op => .standard op false
  | none => Enc.standardIllegal w

def Enc.branchOp : Nat → Option BranchOp
  | 0 => some .beq | 1 => some .bne | 4 => some .blt | 5 => some .bge | 6 => some .bltu | 7 => some .bgeu
  | _ => none

def Enc.loadOp : Nat → Option LoadOp
  | 0 => some .lb | 1 => some .lh | 2 => some .lw | 3 => some .ld | 4 => some .lbu | 5 => some .lhu | 6 => some .lwu
  | _ => none

def Enc.storeOp : Nat → Option StoreOp
  | 0 => some .sb | 1 => some .sh | 2 => some .sw | 3 => some .sd
  | _ => none

def Enc.decOpImm (w : BitVec 32) : Option Std :=
  let rd := Enc.rd w; let rs1 := Enc.rs1 w
  let imm := Enc.immI w
  let f6 : BitVec 6 := imm.extractLsb' 6 6
  let sh : BitVec 6 := imm.extractLsb' 0 6
  match (Enc.f3 w).toNat with
  | 0 => some (.immOp .addi rd rs1 imm)
  | 2 => some (.immOp .slti rd rs1 imm)
  | 3 => some (.immOp .sltiu rd rs1 imm)
  | 4 => some (.immOp .xori rd rs1 imm)
  | 6 => some (.immOp .ori rd rs1 imm)
  | 7 => some (.immOp .andi rd rs1 imm)
  | 1 =>
    if f6 == 0 then some (.shift .slli rd rs1 sh)
    else match imm.toNat with
      | 0x600 => some (.unary .clz rd rs1)
      | 0x601 => some (.unary .ctz rd rs1)
      | 0x602 => some (.unary .cpop rd rs1)
      | 0x604 => some (.unary .sextB rd rs1)
      | 0x605 => some (.unary .sextH rd rs1)
      | _ => none
  | _ =>
    if f6 == 0 then some (.shift .srli rd rs1 sh)
    else if f6 == 0x10 then some (.shift .srai rd rs1 sh)
    else if f6 == 0x18 then some (.shift .rori rd rs1 sh)
    else if imm == 0x287 then some (.unary .orcB rd rs1)
    else if imm == 0x6B8 then some (.unary .rev8 rd rs1)
    else none

def Enc.decOpImm32 (w : BitVec 32) : Option Std :=
  let rd := Enc.rd w; let rs1 := Enc.rs1 w
  let f7 := Enc.f7 w
  let sh := Enc.rs2 w
  let imm := Enc.immI w
  match (Enc.f3 w).toNat with
  | 0 => some (.immOp .addiw rd rs1 imm)
  | 1 =>
    if f7 == 0 then some (.shiftW .slliw rd rs1 sh)
    else if f7.extractLsb' 1 6 == 0x02#6 then some (.shift .slliUw rd rs1 (imm.extractLsb' 0 6))
    else match imm.toNat with
      | 0x600 => some (.unary .clzw rd rs1)
      | 0x601 => some (.unary .ctzw rd rs1)
      | 0x602 => some (.unary .cpopw rd rs1)
      | _ => none
  | 5 =>
    if f7 == 0 then some (.shiftW .srliw rd rs1 sh)
    else if f7 == 0x20 then some (.shiftW .sraiw rd rs1 sh)
    else if f7 == 0x30 then some (.shiftW .roriw rd rs1 sh)
    else none
  | _ => none

/-- The register-register operation that f7 and f3 select in OP (0x33). -/
def Enc.regOp (f7 f3 : Nat) : Option RegOp :=
  match f7, f3 with
  | 0x00, 0 => some .add | 0x00, 1 => some .sll | 0x00, 2 => some .slt | 0x00, 3 => some .sltu
  | 0x00, 4 => some .xor | 0x00, 5 => some .srl | 0x00, 6 => some .or | 0x00, 7 => some .and
  | 0x20, 0 => some .sub | 0x20, 5 => some .sra | 0x20, 4 => some .xnor | 0x20, 6 => some .orn | 0x20, 7 => some .andn
  | 0x01, 0 => some .mul | 0x01, 1 => some .mulh | 0x01, 2 => some .mulhsu | 0x01, 3 => some .mulhu
  | 0x01, 4 => some .div | 0x01, 5 => some .divu | 0x01, 6 => some .rem | 0x01, 7 => some .remu
  | 0x05, 4 => some .min | 0x05, 5 => some .minu | 0x05, 6 => some .max | 0x05, 7 => some .maxu
  | 0x10, 2 => some .sh1add | 0x10, 4 => some .sh2add | 0x10, 6 => some .sh3add
  | 0x30, 1 => some .rol | 0x30, 5 => some .ror
  | _, _ => none

/-- The operation that f7 and f3 select in OP-32 (0x3B). -/
def Enc.regOpW (f7 f3 : Nat) : Option RegOp :=
  match f7, f3 with
  | 0x00, 0 => some .addw | 0x00, 1 => some .sllw | 0x00, 5 => some .srlw
  | 0x20, 0 => some .subw | 0x20, 5 => some .sraw
  | 0x01, 0 => some .mulw | 0x01, 4 => some .divw | 0x01, 5 => some .divuw | 0x01, 6 => some .remw | 0x01, 7 => some .remuw
  | 0x04, 0 => some .addUw
  | 0x10, 2 => some .sh1addUw | 0x10, 4 => some .sh2addUw | 0x10, 6 => some .sh3addUw
  | 0x30, 1 => some .rolw | 0x30, 5 => some .rorw
  | _, _ => none

def Enc.decOp (w : BitVec 32) : Option Std :=
  (Enc.regOp (Enc.f7 w).toNat (Enc.f3 w).toNat).map fun op => .regOp op (Enc.rd w) (Enc.rs1 w) (Enc.rs2 w)

def Enc.decOp32 (w : BitVec 32) : Option Std :=
  if Enc.f7 w == 0x04 && Enc.f3 w == 4 then
    if Enc.rs2 w == 0 then some (.unary .zextH (Enc.rd w) (Enc.rs1 w)) else none
  else
    (Enc.regOpW (Enc.f7 w).toNat (Enc.f3 w).toNat).map fun op => .regOp op (Enc.rd w) (Enc.rs1 w) (Enc.rs2 w)

def Enc.decAmo (w : BitVec 32) : Option Std :=
  let f7 := Enc.f7 w
  let aq := Enc.bit f7 1
  let rl := Enc.bit f7 0
  let rd := Enc.rd w; let rs1 := Enc.rs1 w; let rs2 := Enc.rs2 w
  if Enc.f3 w == 2 || Enc.f3 w == 3 then
    let dbl := Enc.f3 w == 3
    match (f7.extractLsb' 2 5).toNat with
    | 0x02 => if rs2 == 0 then some (.lr dbl aq rl rd rs1) else none
    | 0x03 => some (.sc dbl aq rl rd rs1 rs2)
    | 0x01 => some (.amo .swap dbl aq rl rd rs1 rs2)
    | 0x00 => some (.amo .add dbl aq rl rd rs1 rs2)
    | 0x04 => some (.amo .xor dbl aq rl rd rs1 rs2)
    | 0x0C => some (.amo .and dbl aq rl rd rs1 rs2)
    | 0x08 => some (.amo .or dbl aq rl rd rs1 rs2)
    | 0x10 => some (.amo .min dbl aq rl rd rs1 rs2)
    | 0x14 => some (.amo .max dbl aq rl rd rs1 rs2)
    | 0x18 => some (.amo .minu dbl aq rl rd rs1 rs2)
    | 0x1C => some (.amo .maxu dbl aq rl rd rs1 rs2)
    | _ => none
  else none

def Enc.ffmt : Nat → Option FFmt
  | 0 => some .s | 1 => some .d
  | _ => none

def Enc.fint : Nat → Option FIntTy
  | 0 => some .w | 1 => some .wu | 2 => some .l | 3 => some .lu
  | _ => none

def Enc.decFma (op : FmaOp) (w : BitVec 32) : Option Std :=
  let f7 := Enc.f7 w
  if rmOk (Enc.f3 w) then
    (Enc.ffmt (f7.extractLsb' 0 2).toNat).map fun fmt =>
      .fma op fmt (Enc.f3 w) (Enc.rd w) (Enc.rs1 w) (Enc.rs2 w) (f7.extractLsb' 2 5)
  else none

/-- Guards an encoding with a rounding-mode field. -/
def Enc.needRm (w : BitVec 32) (op : Std) : Option Std := if rmOk (Enc.f3 w) then some op else none

def Enc.decFp (w : BitVec 32) : Option Std :=
  let f7 := Enc.f7 w
  let rm := Enc.f3 w
  let rd := Enc.rd w; let rs1 := Enc.rs1 w; let rs2 := Enc.rs2 w
  match Enc.ffmt (f7.extractLsb' 0 2).toNat with
  | none => none
  | some fmt =>
    match (f7.extractLsb' 2 5).toNat with
    | 0x00 => Enc.needRm w (.fbin .add fmt rm rd rs1 rs2)
    | 0x01 => Enc.needRm w (.fbin .sub fmt rm rd rs1 rs2)
    | 0x02 => Enc.needRm w (.fbin .mul fmt rm rd rs1 rs2)
    | 0x03 => Enc.needRm w (.fbin .div fmt rm rd rs1 rs2)
    | 0x0B => if rs2 == 0 then Enc.needRm w (.fsqrt fmt rm rd rs1) else none
    | 0x04 =>
      match rm.toNat with
      | 0 => some (.fsel .sgnj fmt rd rs1 rs2)
      | 1 => some (.fsel .sgnjn fmt rd rs1 rs2)
      | 2 => some (.fsel .sgnjx fmt rd rs1 rs2)
      | _ => none
    | 0x05 =>
      match rm.toNat with
      | 0 => some (.fsel .min fmt rd rs1 rs2)
      | 1 => some (.fsel .max fmt rd rs1 rs2)
      | _ => none
    | 0x14 =>
      match rm.toNat with
      | 0 => some (.fcmp .fle fmt rd rs1 rs2)
      | 1 => some (.fcmp .flt fmt rd rs1 rs2)
      | 2 => some (.fcmp .feq fmt rd rs1 rs2)
      | _ => none
    | 0x18 =>
      match Enc.fint rs2.toNat with
      | some ty => Enc.needRm w (.fcvtToInt ty fmt rm rd rs1)
      | none => none
    | 0x1A =>
      match Enc.fint rs2.toNat with
      | some ty => Enc.needRm w (.fcvtFromInt ty fmt rm rd rs1)
      | none => none
    | 0x08 =>
      match fmt with
      | .s => if rs2 == 1 then Enc.needRm w (.fcvtFmt .s rm rd rs1) else none
      | .d => if rs2 == 0 then Enc.needRm w (.fcvtFmt .d rm rd rs1) else none
    | 0x1C =>
      if rs2 == 0 then
        match rm.toNat with
        | 0 => some (.fmvToInt fmt rd rs1)
        | 1 => some (.fclass fmt rd rs1)
        | _ => none
      else none
    | 0x1E => if rs2 == 0 && rm == 0 then some (.fmvFromInt fmt rd rs1) else none
    | _ => none

def Enc.decSystem (w : BitVec 32) : Instr :=
  let rd := Enc.rd w; let rs1 := Enc.rs1 w
  let num := Enc.immI w
  match (Enc.f3 w).toNat with
  | 0 =>
    if w == 0x00000073 then .standard .ecall false
    else if w == 0x00100073 then .standard .ebreak false
    else if w == 0x30200073 then .mret
    else if w == 0x10500073 then .standard .wfi false
    else Enc.standardIllegal w
  | 1 => .standard (.csr .rw rd (.reg rs1) num) false
  | 2 => .standard (.csr .rs rd (.reg rs1) num) false
  | 3 => .standard (.csr .rc rd (.reg rs1) num) false
  | 5 => .standard (.csr .rw rd (.imm rs1) num) false
  | 6 => .standard (.csr .rs rd (.imm rs1) num) false
  | 7 => .standard (.csr .rc rd (.imm rs1) num) false
  | _ => Enc.standardIllegal w

def Enc.decFence (w : BitVec 32) : Option Std :=
  let imm := Enc.immI w
  match (Enc.f3 w).toNat with
  | 0 => some (.fence (imm.extractLsb' 8 4) (imm.extractLsb' 4 4) (imm.extractLsb' 0 4) (Enc.rd w) (Enc.rs1 w))
  | 1 => some (.fenceI (Enc.rd w) (Enc.rs1 w) imm)
  | _ => none

/-- The 32-bit decoder: exactly one fate for every word (R127). -/
def decode32 (w : BitVec 32) : Instr :=
  let rd := Enc.rd w; let rs1 := Enc.rs1 w; let rs2 := Enc.rs2 w; let f3 := (Enc.f3 w).toNat
  match (Enc.opc w).toNat with
  | 0x0B => Enc.decCustom0 w
  | 0x2B => Enc.decTile w
  | 0x5B => Enc.decCustom2 w
  | 0x7B => Enc.decCustom3 w
  | 0x37 => .standard (.lui rd (Enc.imm20 w)) false
  | 0x17 => .standard (.auipc rd (Enc.imm20 w)) false
  | 0x6F => .standard (.jal rd (Enc.immJ (Enc.imm20 w))) false
  | 0x67 => Enc.std w (if f3 = 0 then some (.jalr rd rs1 (Enc.immI w)) else none)
  | 0x63 => Enc.std w ((Enc.branchOp f3).map fun op => .branch op rs1 rs2 (Enc.immB w))
  | 0x03 => Enc.std w ((Enc.loadOp f3).map fun op => .load op rd rs1 (Enc.immI w))
  | 0x23 => Enc.std w ((Enc.storeOp f3).map fun op => .store op rs1 rs2 (Enc.immS w))
  | 0x13 => Enc.std w (Enc.decOpImm w)
  | 0x1B => Enc.std w (Enc.decOpImm32 w)
  | 0x33 => Enc.std w (Enc.decOp w)
  | 0x3B => Enc.std w (Enc.decOp32 w)
  | 0x0F => Enc.std w (Enc.decFence w)
  | 0x73 => Enc.decSystem w
  | 0x2F => Enc.std w (Enc.decAmo w)
  | 0x07 => Enc.std w (if f3 = 2 then some (.fload .s rd rs1 (Enc.immI w))
      else if f3 = 3 then some (.fload .d rd rs1 (Enc.immI w)) else none)
  | 0x27 => Enc.std w (if f3 = 2 then some (.fstore .s rs1 rs2 (Enc.immS w))
      else if f3 = 3 then some (.fstore .d rs1 rs2 (Enc.immS w)) else none)
  | 0x43 => Enc.std w (Enc.decFma .madd w)
  | 0x47 => Enc.std w (Enc.decFma .msub w)
  | 0x4B => Enc.std w (Enc.decFma .nmsub w)
  | 0x4F => Enc.std w (Enc.decFma .nmadd w)
  | 0x53 => Enc.std w (Enc.decFp w)
  | _ => Enc.standardIllegal w

/-! ## The 16-bit encodings of the C extension (R126), each expanded to its standard operation -/

/-- Register x(8 + n) or f(8 + n) of a 3-bit field. -/
def Enc.creg (n : BitVec 3) : Reg := 0b01#2 ++ n

def Enc.decC0 (p : Half) : Option Std :=
  let rd := Enc.creg (p.extractLsb' 2 3)
  let rs1 := Enc.creg (p.extractLsb' 7 3)
  let b (i n : Nat) := p.extractLsb' i n
  let off8 : BitVec 12 := (0#4 ++ b 5 2 ++ b 10 3 ++ 0#3)
  let off4 : BitVec 12 := (0#5 ++ b 5 1 ++ b 10 3 ++ b 6 1 ++ 0#2)
  let nz : BitVec 12 := (0#2 ++ b 7 4 ++ b 11 2 ++ b 5 1 ++ b 6 1 ++ 0#2)
  match (p.extractLsb' 13 3).toNat with
  | 0 => if nz == 0 then none else some (.immOp .addi rd 2 nz)
  | 1 => some (.fload .d rd rs1 off8)
  | 2 => some (.load .lw rd rs1 off4)
  | 3 => some (.load .ld rd rs1 off8)
  | 5 => some (.fstore .d rs1 rd off8)
  | 6 => some (.store .sw rs1 rd off4)
  | 7 => some (.store .sd rs1 rd off8)
  | _ => none

def Enc.decC1 (p : Half) : Option Std :=
  let b (i n : Nat) := p.extractLsb' i n
  let rd : Reg := b 7 5
  let imm6 : BitVec 6 := b 12 1 ++ b 2 5
  let imm : BitVec 12 := imm6.signExtend 12
  let rdc := Enc.creg (b 7 3)
  let rs2c := Enc.creg (b 2 3)
  let j : BitVec 11 := b 12 1 ++ b 8 1 ++ b 9 2 ++ b 6 1 ++ b 7 1 ++ b 2 1 ++ b 11 1 ++ b 3 3
  let br : BitVec 8 := b 12 1 ++ b 5 2 ++ b 2 1 ++ b 10 2 ++ b 3 2
  match (b 13 3).toNat with
  | 0 => some (.immOp .addi rd rd imm)
  | 1 => if rd == 0 then none else some (.immOp .addiw rd rd imm)
  | 2 => some (.immOp .addi rd 0 imm)
  | 3 =>
    if rd == 2 then
      let a : BitVec 10 := b 12 1 ++ b 3 2 ++ b 5 1 ++ b 2 1 ++ b 6 1 ++ 0#4
      if a == 0 then none else some (.immOp .addi 2 2 (a.signExtend 12))
    else if imm6 == 0 then none else some (.lui rd (imm6.signExtend 20))
  | 4 =>
    match (b 10 2).toNat with
    | 0 => some (.shift .srli rdc rdc imm6)
    | 1 => some (.shift .srai rdc rdc imm6)
    | 2 => some (.immOp .andi rdc rdc imm)
    | _ =>
      match (b 12 1 ++ b 5 2 : BitVec 3).toNat with
      | 0 => some (.regOp .sub rdc rdc rs2c)
      | 1 => some (.regOp .xor rdc rdc rs2c)
      | 2 => some (.regOp .or rdc rdc rs2c)
      | 3 => some (.regOp .and rdc rdc rs2c)
      | 4 => some (.regOp .subw rdc rdc rs2c)
      | 5 => some (.regOp .addw rdc rdc rs2c)
      | _ => none
  | 5 => some (.jal 0 (j.signExtend 20))
  | 6 => some (.branch .beq rdc 0 (br.signExtend 12))
  | _ => some (.branch .bne rdc 0 (br.signExtend 12))

def Enc.decC2 (p : Half) : Option Std :=
  let b (i n : Nat) := p.extractLsb' i n
  let rd : Reg := b 7 5
  let rs2 : Reg := b 2 5
  let sh : BitVec 6 := b 12 1 ++ b 2 5
  let ld8 : BitVec 12 := 0#3 ++ b 2 3 ++ b 12 1 ++ b 5 2 ++ 0#3
  let ld4 : BitVec 12 := 0#4 ++ b 2 2 ++ b 12 1 ++ b 4 3 ++ 0#2
  let st8 : BitVec 12 := 0#3 ++ b 7 3 ++ b 10 3 ++ 0#3
  let st4 : BitVec 12 := 0#4 ++ b 7 2 ++ b 9 4 ++ 0#2
  match (b 13 3).toNat with
  | 0 => some (.shift .slli rd rd sh)
  | 1 => some (.fload .d rd 2 ld8)
  | 2 => if rd == 0 then none else some (.load .lw rd 2 ld4)
  | 3 => if rd == 0 then none else some (.load .ld rd 2 ld8)
  | 4 =>
    if b 12 1 == 0#1 then
      if rs2 == 0 then (if rd == 0 then none else some (.jalr 0 rd 0))
      else some (.regOp .add rd 0 rs2)
    else if rs2 == 0 then (if rd == 0 then some .ebreak else some (.jalr 1 rd 0))
    else some (.regOp .add rd rd rs2)
  | 5 => some (.fstore .d 2 rs2 st8)
  | 6 => some (.store .sw 2 rs2 st4)
  | _ => some (.store .sd 2 rs2 st8)

/-- The 16-bit decoder; bits [1:0] are not 11. -/
def decode16 (p : Half) : Instr :=
  let o := match (p.extractLsb' 0 2).toNat with
    | 0 => Enc.decC0 p
    | 1 => Enc.decC1 p
    | 2 => Enc.decC2 p
    | _ => none
  match o with
  | some op => .standard op true
  | none => .illegal (p.zeroExtend 32) Enc.subStandard

/-- An instruction and its length in bytes from the parcel at the program counter and the next. An
encoding longer than 32 bits is illegal (R125, R127). -/
def decode (lo hi : Half) : Instr × Nat :=
  if lo.extractLsb' 0 2 == 3#2 then
    if lo.extractLsb' 2 3 == 7#3 then (.illegal (hi ++ lo) Enc.subStandard, 4)
    else (decode32 (hi ++ lo), 4)
  else (decode16 lo, 2)

/-- Decoding from bytes, lowest address first; answers the instruction and the bytes left. -/
def decodeBytes : List Byte → Option (Instr × List Byte)
  | b0 :: b1 :: b2 :: b3 :: rest =>
    let (i, n) := decode (b1 ++ b0) (b3 ++ b2)
    some (i, if n = 2 then b2 :: b3 :: rest else rest)
  | [b0, b1] =>
    let (i, n) := decode (b1 ++ b0) 0
    if n = 2 then some (i, []) else none
  | _ => none

/-- What the decoder reads from an instruction whose bits are `w`, bit 0 the least significant bit of
its first parcel; the bits above `nbits` are zero. -/
def decodeTableWord (nbits w : Nat) : Option Instr :=
  let v : BitVec 32 := BitVec.ofNat 32 (w % 2 ^ nbits)
  let bytes : List Byte := [v.extractLsb' 0 8, v.extractLsb' 8 8, v.extractLsb' 16 8, v.extractLsb' 24 8]
  match decodeBytes bytes with
  | some (.illegal _ _, _) => none
  | some (i, _) => some i
  | none => none

/-! ## The encoder, from the same tables -/

/-- Format R with f7 given by its value. -/
def Enc.zr (opc : BitVec 7) (f3 : BitVec 3) (f7 : BitVec 7) (rd rs1 rs2 : Reg) : BitVec 32 :=
  Enc.fmtR f7 rs2 rs1 f3 rd opc

def Enc.c0 : BitVec 7 := 0x0B
def Enc.c2 : BitVec 7 := 0x5B
def Enc.c3 : BitVec 7 := 0x7B

/-- A scoped atomic (R131). -/
def Enc.atom (sel : BitVec 4) (sc : Scope) (rs2 rs1 : Reg) (aq rl : Bool) (rdc : BitVec 3) : BitVec 32 :=
  Enc.fmtR (sel ++ sc) rs2 rs1 4 (Enc.b1 aq ++ Enc.b1 rl ++ rdc) Enc.c0

def BranchOp.f3 : BranchOp → BitVec 3
  | .beq => 0 | .bne => 1 | .blt => 4 | .bge => 5 | .bltu => 6 | .bgeu => 7

def LoadOp.f3 : LoadOp → BitVec 3
  | .lb => 0 | .lh => 1 | .lw => 2 | .ld => 3 | .lbu => 4 | .lhu => 5 | .lwu => 6

def StoreOp.f3 : StoreOp → BitVec 3
  | .sb => 0 | .sh => 1 | .sw => 2 | .sd => 3

def FFmt.code : FFmt → BitVec 2
  | .s => 0 | .d => 1

def FIntTy.code : FIntTy → BitVec 5
  | .w => 0 | .wu => 1 | .l => 2 | .lu => 3

/-- The opcode, f7 and f3 of a register-register operation. -/
def RegOp.code : RegOp → BitVec 7 × BitVec 7 × BitVec 3
  | .add => (0x33, 0x00, 0) | .sll => (0x33, 0x00, 1) | .slt => (0x33, 0x00, 2) | .sltu => (0x33, 0x00, 3)
  | .xor => (0x33, 0x00, 4) | .srl => (0x33, 0x00, 5) | .or => (0x33, 0x00, 6) | .and => (0x33, 0x00, 7)
  | .sub => (0x33, 0x20, 0) | .sra => (0x33, 0x20, 5) | .xnor => (0x33, 0x20, 4) | .orn => (0x33, 0x20, 6)
  | .andn => (0x33, 0x20, 7)
  | .mul => (0x33, 0x01, 0) | .mulh => (0x33, 0x01, 1) | .mulhsu => (0x33, 0x01, 2) | .mulhu => (0x33, 0x01, 3)
  | .div => (0x33, 0x01, 4) | .divu => (0x33, 0x01, 5) | .rem => (0x33, 0x01, 6) | .remu => (0x33, 0x01, 7)
  | .min => (0x33, 0x05, 4) | .minu => (0x33, 0x05, 5) | .max => (0x33, 0x05, 6) | .maxu => (0x33, 0x05, 7)
  | .sh1add => (0x33, 0x10, 2) | .sh2add => (0x33, 0x10, 4) | .sh3add => (0x33, 0x10, 6)
  | .rol => (0x33, 0x30, 1) | .ror => (0x33, 0x30, 5)
  | .addw => (0x3B, 0x00, 0) | .sllw => (0x3B, 0x00, 1) | .srlw => (0x3B, 0x00, 5)
  | .subw => (0x3B, 0x20, 0) | .sraw => (0x3B, 0x20, 5)
  | .mulw => (0x3B, 0x01, 0) | .divw => (0x3B, 0x01, 4) | .divuw => (0x3B, 0x01, 5)
  | .remw => (0x3B, 0x01, 6) | .remuw => (0x3B, 0x01, 7)
  | .addUw => (0x3B, 0x04, 0)
  | .sh1addUw => (0x3B, 0x10, 2) | .sh2addUw => (0x3B, 0x10, 4) | .sh3addUw => (0x3B, 0x10, 6)
  | .rolw => (0x3B, 0x30, 1) | .rorw => (0x3B, 0x30, 5)

/-- The f5 field of an A-extension read-modify-write. -/
def AmoOp.f5 : AmoOp → BitVec 5
  | .swap => 0x01 | .add => 0x00 | .xor => 0x04 | .and => 0x0C | .or => 0x08
  | .min => 0x10 | .max => 0x14 | .minu => 0x18 | .maxu => 0x1C

/-- Format I from a 12-bit immediate. -/
def Enc.fmtI (imm : BitVec 12) (rs1 : Reg) (f3 : BitVec 3) (rd : Reg) (opc : BitVec 7) : BitVec 32 :=
  Enc.fmtR (imm.extractLsb' 5 7) (imm.extractLsb' 0 5) rs1 f3 rd opc

/-- Format S from a 12-bit immediate. -/
def Enc.fmtS (imm : BitVec 12) (rs2 rs1 : Reg) (f3 : BitVec 3) (opc : BitVec 7) : BitVec 32 :=
  Enc.fmtR (imm.extractLsb' 5 7) rs2 rs1 f3 (imm.extractLsb' 0 5) opc

/-- Format B from offset[12:1]. -/
def Enc.fmtB (off : BitVec 12) (rs2 rs1 : Reg) (f3 : BitVec 3) (opc : BitVec 7) : BitVec 32 :=
  Enc.fmtR (off.extractLsb' 11 1 ++ off.extractLsb' 4 6) rs2 rs1 f3
    (off.extractLsb' 0 4 ++ off.extractLsb' 10 1) opc

/-- Formats U and J from the 20 bits [31:12]. -/
def Enc.fmtU (u : BitVec 20) (rd : Reg) (opc : BitVec 7) : BitVec 32 :=
  Enc.fmtR (u.extractLsb' 13 7) (u.extractLsb' 8 5) (u.extractLsb' 3 5) (u.extractLsb' 0 3) rd opc

/-- The J format's 20 bits from offset[20:1]. -/
def Enc.packJ (o : BitVec 20) : BitVec 20 :=
  o.extractLsb' 19 1 ++ o.extractLsb' 0 10 ++ o.extractLsb' 10 1 ++ o.extractLsb' 11 8

def encodeStd : Std → BitVec 32
  | .lui rd imm => Enc.fmtU imm rd 0x37
  | .auipc rd imm => Enc.fmtU imm rd 0x17
  | .jal rd off => Enc.fmtU (Enc.packJ off) rd 0x6F
  | .jalr rd rs1 imm => Enc.fmtI imm rs1 0 rd 0x67
  | .branch op rs1 rs2 off => Enc.fmtB off rs2 rs1 op.f3 0x63
  | .load op rd rs1 imm => Enc.fmtI imm rs1 op.f3 rd 0x03
  | .store op rs1 rs2 imm => Enc.fmtS imm rs2 rs1 op.f3 0x23
  | .immOp op rd rs1 imm =>
    match op with
    | .addi => Enc.fmtI imm rs1 0 rd 0x13
    | .slti => Enc.fmtI imm rs1 2 rd 0x13
    | .sltiu => Enc.fmtI imm rs1 3 rd 0x13
    | .xori => Enc.fmtI imm rs1 4 rd 0x13
    | .ori => Enc.fmtI imm rs1 6 rd 0x13
    | .andi => Enc.fmtI imm rs1 7 rd 0x13
    | .addiw => Enc.fmtI imm rs1 0 rd 0x1B
  | .shift op rd rs1 sh =>
    match op with
    | .slli => Enc.fmtI (0x00#6 ++ sh) rs1 1 rd 0x13
    | .srli => Enc.fmtI (0x00#6 ++ sh) rs1 5 rd 0x13
    | .srai => Enc.fmtI (0x10#6 ++ sh) rs1 5 rd 0x13
    | .rori => Enc.fmtI (0x18#6 ++ sh) rs1 5 rd 0x13
    | .slliUw => Enc.fmtI (0x02#6 ++ sh) rs1 1 rd 0x1B
  | .shiftW op rd rs1 sh =>
    match op with
    | .slliw => Enc.fmtR 0x00 sh rs1 1 rd 0x1B
    | .srliw => Enc.fmtR 0x00 sh rs1 5 rd 0x1B
    | .sraiw => Enc.fmtR 0x20 sh rs1 5 rd 0x1B
    | .roriw => Enc.fmtR 0x30 sh rs1 5 rd 0x1B
  | .regOp op rd rs1 rs2 => Enc.fmtR op.code.2.1 rs2 rs1 op.code.2.2 rd op.code.1
  | .unary op rd rs1 =>
    match op with
    | .clz => Enc.fmtI 0x600 rs1 1 rd 0x13
    | .ctz => Enc.fmtI 0x601 rs1 1 rd 0x13
    | .cpop => Enc.fmtI 0x602 rs1 1 rd 0x13
    | .sextB => Enc.fmtI 0x604 rs1 1 rd 0x13
    | .sextH => Enc.fmtI 0x605 rs1 1 rd 0x13
    | .clzw => Enc.fmtI 0x600 rs1 1 rd 0x1B
    | .ctzw => Enc.fmtI 0x601 rs1 1 rd 0x1B
    | .cpopw => Enc.fmtI 0x602 rs1 1 rd 0x1B
    | .zextH => Enc.fmtR 0x04 0 rs1 4 rd 0x3B
    | .orcB => Enc.fmtI 0x287 rs1 5 rd 0x13
    | .rev8 => Enc.fmtI 0x6B8 rs1 5 rd 0x13
  | .fence fm p s rd rs1 => Enc.fmtI (fm ++ p ++ s) rs1 0 rd 0x0F
  | .fenceI rd rs1 imm => Enc.fmtI imm rs1 1 rd 0x0F
  | .ecall => 0x00000073
  | .ebreak => 0x00100073
  | .wfi => 0x10500073
  | .csr op rd src num =>
    match op, src with
    | .rw, .reg r => Enc.fmtI num r 1 rd 0x73
    | .rs, .reg r => Enc.fmtI num r 2 rd 0x73
    | .rc, .reg r => Enc.fmtI num r 3 rd 0x73
    | .rw, .imm z => Enc.fmtI num z 5 rd 0x73
    | .rs, .imm z => Enc.fmtI num z 6 rd 0x73
    | .rc, .imm z => Enc.fmtI num z 7 rd 0x73
  | .lr dbl aq rl rd rs1 => Enc.fmtR (0x02#5 ++ Enc.b1 aq ++ Enc.b1 rl) 0 rs1 (if dbl then 3 else 2) rd 0x2F
  | .sc dbl aq rl rd rs1 rs2 => Enc.fmtR (0x03#5 ++ Enc.b1 aq ++ Enc.b1 rl) rs2 rs1 (if dbl then 3 else 2) rd 0x2F
  | .amo op dbl aq rl rd rs1 rs2 => Enc.fmtR (op.f5 ++ Enc.b1 aq ++ Enc.b1 rl) rs2 rs1 (if dbl then 3 else 2) rd 0x2F
  | .fload fmt rd rs1 imm => Enc.fmtI imm rs1 (match fmt with | .s => 2 | .d => 3) rd 0x07
  | .fstore fmt rs1 rs2 imm => Enc.fmtS imm rs2 rs1 (match fmt with | .s => 2 | .d => 3) 0x27
  | .fma op fmt rm rd rs1 rs2 rs3 =>
    Enc.fmtR (rs3 ++ fmt.code) rs2 rs1 rm rd
      (match op with | .madd => 0x43 | .msub => 0x47 | .nmsub => 0x4B | .nmadd => 0x4F)
  | .fbin op fmt rm rd rs1 rs2 =>
    Enc.fmtR ((match op with | .add => 0x00#5 | .sub => 0x01#5 | .mul => 0x02#5 | .div => 0x03#5) ++ fmt.code)
      rs2 rs1 rm rd 0x53
  | .fsqrt fmt rm rd rs1 => Enc.fmtR (0x0B#5 ++ fmt.code) 0 rs1 rm rd 0x53
  | .fsel op fmt rd rs1 rs2 =>
    match op with
    | .sgnj => Enc.fmtR (0x04#5 ++ fmt.code) rs2 rs1 0 rd 0x53
    | .sgnjn => Enc.fmtR (0x04#5 ++ fmt.code) rs2 rs1 1 rd 0x53
    | .sgnjx => Enc.fmtR (0x04#5 ++ fmt.code) rs2 rs1 2 rd 0x53
    | .min => Enc.fmtR (0x05#5 ++ fmt.code) rs2 rs1 0 rd 0x53
    | .max => Enc.fmtR (0x05#5 ++ fmt.code) rs2 rs1 1 rd 0x53
  | .fcmp op fmt rd rs1 rs2 =>
    Enc.fmtR (0x14#5 ++ fmt.code) rs2 rs1 (match op with | .fle => 0 | .flt => 1 | .feq => 2) rd 0x53
  | .fclass fmt rd rs1 => Enc.fmtR (0x1C#5 ++ fmt.code) 0 rs1 1 rd 0x53
  | .fcvtToInt ty fmt rm rd rs1 => Enc.fmtR (0x18#5 ++ fmt.code) ty.code rs1 rm rd 0x53
  | .fcvtFromInt ty fmt rm rd rs1 => Enc.fmtR (0x1A#5 ++ fmt.code) ty.code rs1 rm rd 0x53
  | .fcvtFmt dst rm rd rs1 => Enc.fmtR (0x08#5 ++ dst.code) (match dst with | .s => 1 | .d => 0) rs1 rm rd 0x53
  | .fmvToInt fmt rd rs1 => Enc.fmtR (0x1C#5 ++ fmt.code) 0 rs1 0 rd 0x53
  | .fmvFromInt fmt rd rs1 => Enc.fmtR (0x1E#5 ++ fmt.code) 0 rs1 0 rd 0x53

/-- The 32-bit word of an instruction; none for a step that has no encoding and for the 16-bit forms. -/
def encode : Instr → Option (BitVec 32)
  | .rcfg rd rs1 rs2 => some (Enc.zr Enc.c0 0 0x00 rd rs1 rs2)
  | .rlnch rd rs1 rs2 => some (Enc.zr Enc.c0 0 0x01 rd rs1 rs2)
  | .rwait rd => some (Enc.zr Enc.c0 0 0x02 rd 0 0)
  | .rhalt rd => some (Enc.zr Enc.c0 0 0x03 rd 0 0)
  | .rsave rd rs1 => some (Enc.zr Enc.c0 0 0x04 rd rs1 0)
  | .rrstr rd rs1 => some (Enc.zr Enc.c0 0 0x05 rd rs1 0)
  | .rstat rd rs1 => some (Enc.zr Enc.c0 0 0x06 rd rs1 0)
  | .riter rd => some (Enc.zr Enc.c0 0 0x07 rd 0 0)
  | .loop l bl rs1 => some (Enc.fmtR (0#2 ++ l ++ bl.extractLsb' 5 3) (bl.extractLsb' 0 5) rs1 1 0 Enc.c0)
  | .loopi l bl cnt => some (Enc.fmtR (1#2 ++ l ++ bl.extractLsb' 5 3) (bl.extractLsb' 0 5) cnt 1 0 Enc.c0)
  | .lbrk l => some (Enc.fmtR (2#2 ++ l ++ 0#3) 0 0 1 0 Enc.c0)
  | .binit rd rs1 rs2 => some (Enc.zr Enc.c0 2 0x00 rd rs1 rs2)
  | .barv rs1 => some (Enc.zr Enc.c0 2 0x01 0 rs1 0)
  | .bwait rd rs1 => some (Enc.zr Enc.c0 2 0x02 rd rs1 0)
  | .barw rd rs1 => some (Enc.zr Enc.c0 2 0x03 rd rs1 0)
  | .btest rd rs1 => some (Enc.zr Enc.c0 2 0x04 rd rs1 0)
  | .bphase rd rs1 => some (Enc.zr Enc.c0 2 0x05 rd rs1 0)
  | .ssig rd rs1 rs2 => some (Enc.zr Enc.c0 3 0x00 rd rs1 rs2)
  | .evpop rd => some (Enc.zr Enc.c0 3 0x01 rd 0 0)
  | .evpeek rd => some (Enc.zr Enc.c0 3 0x02 rd 0 0)
  | .evcnt rd => some (Enc.zr Enc.c0 3 0x03 rd 0 0)
  | .zfence sc p q => some (Enc.fmtR (0#4 ++ sc) 0 (0#3 ++ p) 4 (0#3 ++ q) Enc.c0)
  | .aaddW sc rs2 rs1 aq rl rdc => some (Enc.atom 1 sc rs2 rs1 aq rl rdc)
  | .aminsW sc rs2 rs1 aq rl rdc => some (Enc.atom 2 sc rs2 rs1 aq rl rdc)
  | .amaxsW sc rs2 rs1 aq rl rdc => some (Enc.atom 3 sc rs2 rs1 aq rl rdc)
  | .axchgW sc rs2 rs1 aq rl rdc => some (Enc.atom 4 sc rs2 rs1 aq rl rdc)
  | .acasW sc rs2 rs1 aq rl rdc => some (Enc.atom 5 sc rs2 rs1 aq rl rdc)
  | .aaddD sc rs2 rs1 aq rl rdc => some (Enc.atom 9 sc rs2 rs1 aq rl rdc)
  | .aminsD sc rs2 rs1 aq rl rdc => some (Enc.atom 10 sc rs2 rs1 aq rl rdc)
  | .amaxsD sc rs2 rs1 aq rl rdc => some (Enc.atom 11 sc rs2 rs1 aq rl rdc)
  | .axchgD sc rs2 rs1 aq rl rdc => some (Enc.atom 12 sc rs2 rs1 aq rl rdc)
  | .acasD sc rs2 rs1 aq rl rdc => some (Enc.atom 13 sc rs2 rs1 aq rl rdc)
  | .tend rs1 => some (Enc.zr Enc.c0 5 0x00 0 rs1 0)
  | .tyield => some (Enc.zr Enc.c0 5 0x01 0 0 0)
  | .thand rd rs1 => some (Enc.zr Enc.c0 5 0x02 rd rs1 0)
  | .tslot rd => some (Enc.zr Enc.c0 5 0x03 rd 0 0)
  | .tspawn rd rs1 rs2 => some (Enc.zr Enc.c0 5 0x04 rd rs1 rs2)
  | .budq rd rs1 => some (Enc.zr Enc.c0 6 0x00 rd rs1 0)
  | .tstamp rd => some (Enc.zr Enc.c0 6 0x01 rd 0 0)
  | .scope sc => some (Enc.fmtR (0#4 ++ sc) 0 0 7 0 Enc.c0)
  | .logp fa fb fc rs2 rs1 => some (Enc.fmtR (fa ++ fb ++ fc ++ 0#1) rs2 rs1 7 1 Enc.c0)
  | .icinv sc rs2 rs1 => some (Enc.fmtR (0#4 ++ sc) rs2 rs1 0 0 Enc.c3)
  | .tlbinv sc rs2 rs1 => some (Enc.fmtR (0#4 ++ sc) rs2 rs1 1 0 Enc.c3)
  | .relatch sc rs2 rs1 => some (Enc.fmtR (0#4 ++ sc) rs2 rs1 2 0 Enc.c3)
  | .partctl rd rs1 => some (Enc.zr Enc.c3 3 0x00 rd rs1 0)
  | .hint imm rs1 rd => some (Enc.fmtI imm rs1 7 rd Enc.c3)
  | .tld td rs1 tm => some (Enc.fmtZ 0 0 0 td rs1 0 (Enc.b1 tm))
  | .tst ta rs1 tm => some (Enc.fmtZ 1 ta 0 0 rs1 0 (Enc.b1 tm))
  | .tzero td tm => some (Enc.fmtZ 2 0 0 td 0 0 (Enc.b1 tm))
  | .thdr td rs1 => some (Enc.fmtZ 3 0 0 td rs1 0 0)
  | .thdrGet td rs1 => some (Enc.fmtZ 3 0 0 td rs1 1 0)
  | .thdrFlags rs1 => some (Enc.fmtZ 3 0 0 0 rs1 2 0)
  | .thdrFlagsClr rs1 => some (Enc.fmtZ 3 0 0 0 rs1 3 0)
  | .tlut td rs1 => some (Enc.fmtZ 4 0 0 td rs1 0 0)
  | .tmma td ta tb rs1 new sat neg =>
    some (Enc.fmtZ 5 ta tb td rs1 (0#2 ++ Enc.b1 new ++ Enc.b1 sat ++ Enc.b1 neg) 0)
  | .tmms td ta tb rs1 new sat neg n =>
    some (Enc.fmtZ 6 ta tb td rs1 (Enc.b1 new ++ Enc.b1 sat ++ Enc.b1 neg ++ n) 0)
  | .tmmc td ta tb rs1 i8 new sat neg =>
    some (Enc.fmtZ 7 ta tb td rs1 (0#1 ++ Enc.b1 i8 ++ Enc.b1 new ++ Enc.b1 sat ++ Enc.b1 neg) 0)
  | .tdist td ta tb rs1 new mode metric => some (Enc.fmtZ 8 ta tb td rs1 (Enc.b1 new ++ mode ++ metric) 0)
  | .tcupd td ta tb rs1 => some (Enc.fmtZ 9 ta tb td rs1 0 0)
  | .tcdiv td ta rs1 int => some (Enc.fmtZ 10 ta 0 td rs1 (0#4 ++ Enc.b1 int) 0)
  | .tcvt td ta rs1 sat rtz int tm =>
    some (Enc.fmtZ 11 ta 0 td rs1 (0#2 ++ Enc.b1 sat ++ Enc.b1 rtz ++ Enc.b1 int) (Enc.b1 tm))
  | .tadd td ta tb sat int => some (Enc.fmtZ 12 ta tb td 0 (0#3 ++ Enc.b1 sat ++ Enc.b1 int) 0)
  | .tmul td ta tb sat int => some (Enc.fmtZ 13 ta tb td 0 (0#3 ++ Enc.b1 sat ++ Enc.b1 int) 0)
  | .tact td ta fn => some (Enc.fmtZ 14 ta 0 td 0 (0#3 ++ fn) 0)
  | .tactD td ta tb fn => some (Enc.fmtZ 14 ta tb td 0 (1#3 ++ fn) 0)
  | .tscl td ta rs1 int vec => some (Enc.fmtZ 15 ta 0 td rs1 (0#2 ++ Enc.b1 int ++ vec) 0)
  | .tred td ta int op col => some (Enc.fmtZ 16 ta 0 td 0 (0#1 ++ Enc.b1 int ++ op ++ Enc.b1 col) 0)
  | .ttrn td ta rs1 tm => some (Enc.fmtZ 17 ta 0 td rs1 0 (Enc.b1 tm))
  | .mxhint => some (Enc.fmtZ 18 0 0 0 0 0 0)
  | .shape rd rs1 rs2 => some (Enc.zr Enc.c2 0 0x00 rd rs1 rs2)
  | .sbind rd rs1 rs2 => some (Enc.zr Enc.c2 0 0x01 rd rs1 rs2)
  | .sunb rd rs1 => some (Enc.zr Enc.c2 0 0x02 rd rs1 0)
  | .cpy cq rd rs1 rs2 => some (Enc.fmtR (0#5 ++ cq) rs2 rs1 1 rd Enc.c2)
  | .cpyg cq rd rs1 rs2 => some (Enc.fmtR (1#5 ++ cq) rs2 rs1 1 rd Enc.c2)
  | .cpyx cq rd rs1 rs2 => some (Enc.fmtR (2#5 ++ cq) rs2 rs1 1 rd Enc.c2)
  | .ccmd rd rs1 rs2 => some (Enc.zr Enc.c2 1 0x0C rd rs1 rs2)
  | .cbwait rs1 rs2 => some (Enc.zr Enc.c2 2 0x00 0 rs1 rs2)
  | .cbtest rd rs1 rs2 => some (Enc.zr Enc.c2 2 0x01 rd rs1 rs2)
  | .mould rs1 => some (Enc.zr Enc.c2 3 0x00 0 rs1 0)
  | .cast rd rs1 => some (Enc.zr Enc.c2 3 0x01 rd rs1 0)
  | .mstat rd => some (Enc.zr Enc.c2 3 0x02 rd 0 0)
  | .qfence set => some (Enc.fmtR (0#4 ++ set.extractLsb' 5 3) (set.extractLsb' 0 5) 0 5 0 Enc.c2)
  | .standard op short => if short then none else some (encodeStd op)
  | .mret => some 0x30200073
  | _ => none

end Sys2Proof
end

