-- ==== Sys2Proof/Config.lean ====
section
/-! DEFINITION. What an implementation fixes and the manual leaves open: constants without a body, so that
nothing can be proved about their values. -/

namespace Sys2Proof

/-- Free values: the n-th value the manual leaves open (log entry 7). -/
opaque Config.freeWord : Nat → Word

/-- A byte of HBM that a partition change or a destroyed key leaves unpredictable (R370; log entry 11). -/
opaque Config.fogByte : Nat → Nat → Byte

/-- Identification CSRs of the control core (log entry 6). -/
opaque Config.mvendorid : Word
opaque Config.marchid : Word
opaque Config.mimpid : Word
opaque Config.mconfigptr : Word

/-- The 16-byte device identifier (R373, R375). -/
opaque Config.deviceId : Nat → Byte

/-- Whether a FIRMWARE image verifies against the fused Daloavin key (R376; log entry 18). -/
opaque Config.firmwareVerifies : List Byte → Bool

/-- Whether a debug-unlock token carries a valid Daloavin signature and names this device and PROD (R373). -/
opaque Config.tokenVerifies : List Byte → Bool

/-- The digest a boot stage is measured by, and whether the stage verifies (R372). -/
opaque Config.bootDigest : Nat → Nat → Byte
opaque Config.bootVerifies : Nat → Bool

/-- The attestation signature over a quote (R375). -/
opaque Config.attest : List Byte → Nat → Byte

/-- How many messages beyond the first a die's mailbox area holds. -/
opaque Config.mailboxMore : Nat

/-- How many messages a die's mailbox area holds: runtime firmware sizes it (R337), for one message at least. -/
def Config.mailboxSize : Nat := Config.mailboxMore + 1

/-- How many 512 MiB units of a partition's HBM runtime firmware keeps for itself (R365; log entry 21). -/
opaque Config.firmwareUnits : Nat

/-- The VA that a completion record gives for a fault record, which lies at a physical address: by interface and address
(Table 21-5, R190; log entry 74). -/
opaque Config.recordVa : Nat → Nat → Word

/-- CODE and payload bytes of a trace entry: the manual lists the events and not their codes (R379). -/
opaque Config.traceCode : Nat → Half
opaque Config.tracePayload : Nat → Nat → Nat → Nat → Byte

end Sys2Proof
end

