-- ==== Sys2Proof/Machine/Tab.lean ====
section
/-! DEFINITION. Finite maps as plain data: a list of (key, value) pairs with strictly rising keys. What an
unlisted key reads as is the default each use names. Memory is such a map in which, besides, no entry equals
the default (`Tab.canon`). -/

namespace Sys2Proof

/-- A finite map from numbers, as a list of pairs with rising keys. -/
abbrev Tab (α : Type) := List (Nat × α)

/-- The value at `k`, `d` where the key is not listed. -/
def Tab.get {α : Type} (d : α) : Tab α → Nat → α
  | [], _ => d
  | (j, v) :: t, k => if k = j then v else Tab.get d t k

/-- Set the value at `k`, keeping the keys in rising order. -/
def Tab.set {α : Type} : Tab α → Nat → α → Tab α
  | [], k, v => [(k, v)]
  | (j, u) :: t, k, v =>
    if k < j then (k, v) :: (j, u) :: t
    else if k = j then (k, v) :: t
    else (j, u) :: Tab.set t k v

/-- Remove the entry at `k`. -/
def Tab.del {α : Type} : Tab α → Nat → Tab α
  | [], _ => []
  | (j, u) :: t, k => if k = j then Tab.del t k else (j, u) :: Tab.del t k

/-- Change the value at `k`. -/
def Tab.upd {α : Type} (d : α) (t : Tab α) (k : Nat) (f : α → α) : Tab α :=
  Tab.set t k (f (Tab.get d t k))

/-- Set the value at `k` in canonical form: an entry equal to the default is not listed. -/
def Tab.put {α : Type} [DecidableEq α] (d : α) (t : Tab α) (k : Nat) (v : α) : Tab α :=
  if v = d then Tab.del t k else Tab.set t k v

/-- Every key of the list is above `k`. -/
def Tab.above {α : Type} (k : Nat) : Tab α → Bool
  | [] => true
  | (j, _) :: t => decide (k < j) && Tab.above k t

/-- The keys rise strictly. -/
def Tab.sorted {α : Type} : Tab α → Bool
  | [] => true
  | (k, _) :: t => Tab.above k t && Tab.sorted t

/-- No entry equals the default. -/
def Tab.noDefault {α : Type} [DecidableEq α] (d : α) : Tab α → Bool
  | [] => true
  | (_, v) :: t => decide (v ≠ d) && Tab.noDefault d t

/-- The canonical form: keys rise strictly and no entry equals the default. -/
def Tab.canon {α : Type} [DecidableEq α] (d : α) (t : Tab α) : Bool :=
  Tab.sorted t && Tab.noDefault d t

end Sys2Proof
end

