-- ==== Sys2Proof/Machine/Bits.lean ====
section
/-! DEFINITION. Bytes and fields: little-endian numbers (R7), bit fields and signed values. -/

namespace Sys2Proof

/-- The number a little-endian byte list holds. -/
def leNat : List Byte → Nat
  | [] => 0
  | b :: bs => b.toNat + 256 * leNat bs

/-- The `n` low bytes of a number, lowest first. -/
def toLE : Nat → Nat → List Byte
  | 0, _ => []
  | n + 1, x => BitVec.ofNat 8 x :: toLE n (x / 256)

/-- The little-endian number in `n` bytes of a record at offset `off`; bytes beyond the record read zero. -/
def fld (b : List Byte) (off n : Nat) : Nat := leNat ((b.drop off).take n)

/-- The field `[lo+n-1:lo]` of a number. -/
def bits (x lo n : Nat) : Nat := x / 2 ^ lo % 2 ^ n

/-- A bit of a number. -/
def bitAt (x i : Nat) : Bool := x.testBit i

/-- The value of the low `n` bits of a number, read as two's complement. -/
def sgn (n x : Nat) : Int :=
  let y := x % 2 ^ n
  if y < 2 ^ (n - 1) then (y : Int) else (y : Int) - (2 ^ n : Nat)

/-- An integer reduced modulo 2^n. -/
def wrapN (n : Nat) (x : Int) : Nat := (x % (2 ^ n : Nat)).toNat

/-- A number as bits, a Boolean as 0 or 1. -/
def b2n (b : Bool) : Nat := if b then 1 else 0

/-- Every byte of a part of a record is zero. -/
def zeroAt (b : List Byte) (off n : Nat) : Bool := ((b.drop off).take n).all (· == 0)

/-- Replace `n` bytes at an offset of a record. -/
def patch (b : List Byte) (off : Nat) (v : List Byte) : List Byte :=
  b.take off ++ v ++ b.drop (off + v.length)

/-- Consecutive numbers from `a`. -/
def upFrom (a : Nat) : Nat → List Nat
  | 0 => []
  | n + 1 => a :: upFrom (a + 1) n

/-- The first number below `n` from `a` up that satisfies `p`. -/
def firstFrom (p : Nat → Bool) (a : Nat) : Nat → Option Nat
  | 0 => none
  | n + 1 => if p a then some a else firstFrom p (a + 1) n

/-- Round up to a multiple of `m`. -/
def roundUp (x m : Nat) : Nat := (x + m - 1) / m * m

/-- Read `n` bytes of a table of bytes. -/
def Tab.bytes (d : Byte) (t : Tab Byte) (a : Nat) : Nat → List Byte
  | 0 => []
  | n + 1 => Tab.get d t a :: Tab.bytes d t (a + 1) n

/-- Write bytes into a table of bytes whose default is 0, in canonical form. -/
def Tab.putBytes (t : Tab Byte) (a : Nat) : List Byte → Tab Byte
  | [] => t
  | b :: bs => Tab.putBytes (Tab.put 0 t a b) (a + 1) bs

/-- A saturating 16-bit increment. -/
def sat16 (x : Half) : Half := if x.toNat = 0xFFFF then x else x + 1

end Sys2Proof
end

