-- ==== Sys2Proof/Machine/State.lean ====
section
/-! DEFINITION. The state of the M4 package as plain data: every register, queue, table and memory the spec names,
its reset value, and the reasons a step can stop. INVENTORY.md lists each piece with its rule. -/

namespace Sys2Proof.Machine

/-! ## Control core -/

/-- The privilege modes (R126). -/
inductive Mode where
  | u
  | m
deriving DecidableEq, Repr

/-- One hardware loop level (R160, R163, Table 11-4). `start` and `stop` are the body's addresses, which it has once it
has been opened (`body`); a CSR write takes them away, and MRET forms them from mepc and the OFF written. -/
structure LoopLevel where
  act : Bool := false
  susp : Bool := false
  pw : Bool := false
  off : BitVec 9 := 0
  bl : BitVec 8 := 0
  cnt : W32 := 0
  start : Word := 0
  stop : Word := 0
  body : Bool := false
deriving DecidableEq, Repr

/-- The operands of a pending LOGP (R132, R177). -/
structure LogArgs where
  fa : BitVec 2
  fb : BitVec 2
  fc : BitVec 2
  sa : Word
  sb : Word
deriving DecidableEq, Repr

/-- A pending prefix group (R133): the address of its first prefix and what it supplies. -/
structure Prefixes where
  first : Word
  scope : Option Scope := none
  logp : Option LogArgs := none
deriving DecidableEq, Repr

/-- An instruction that waits (R148): the instruction, its length in bytes, the operands it captured, and a
number its own rule needs (the target phase of BARW, the token of RELATCH, the fence of QFENCE). -/
structure Waiting where
  instr : Instr
  len : Nat
  a : Word := 0
  b : Word := 0
  n : Nat := 0
deriving DecidableEq, Repr

/-- The control-core state that belongs to a context slot (R359, R299 to R301). -/
structure Ctl where
  pc : Word := 0
  x : Tab Word := []
  f : Tab Word := []
  fcsr : BitVec 8 := 0
  loops : Tab LoopLevel := []
  zmlbase : Word := 0
  zmllim : Word := 0
  zmlptr : Word := 0
  zmlcast : Word := 0x8000000000000000#64
  zmlmode : Word := 0
  pre : Option Prefixes := none
  wait : Option Waiting := none
deriving DecidableEq, Repr

/-- The machine-mode CSRs of a core (R126, R344, R172). -/
structure MCsr where
  mstatus : Word := 0
  mie : Word := 0
  mtvec : Word := 0
  mscratch : Word := 0
  mepc : Word := 0
  mcause : Word := 0
  mtval : Word := 0
  mcounteren : Word := 0
  mcountinhibit : Word := 0
  mcycle : Word := 0               -- what it holds beyond the package cycles it counts (mcountinhibit[0] clear)
  minstret : Word := 0
  menvcfg : Word := 0
  mip16 : Bool := false
  zfrec : Word := 0
deriving DecidableEq, Repr

/-- An asynchronous cause pending for a slot (R344). -/
structure Pending where
  cause : Nat
  mtval : Word
deriving DecidableEq, Repr

/-! ## Tasks and slots -/

/-- A page request an engine has to post, has posted or has had answered (R384, R284). -/
structure Pause where
  va : Nat
  tag : Nat
  posted : Bool := false
  answered : Bool := false
  declined : Bool := false
deriving DecidableEq, Repr

/-- The task a context slot holds (R331, R333). -/
structure Task where
  vi : Nat
  q : Nat
  card : Nat
  chunk : Nat
  gidx : Nat
  die : Nat
  gang : List (Nat × Nat)          -- (package core, slot) of each gang index
  gen : Nat                        -- IG at dealing (R377)
  first : Word := 0                -- VA of the chunk's first record
  ops : List Nat := []             -- operand-list entries not yet moved (R329)
  opPause : Option Pause := none   -- the page request a move waits for
  started : Bool := false          -- its start step has been taken (R334)
  ran : Bool := false              -- it has been dispatched
  ownHalt : Bool := false          -- its own RHALT has halted its region (R178)
  claim : Option Word := none      -- the ownership handle it waits for (R331)
  claimed : Bool := false
  bb : Nat := 0
  nbar : Nat := 0
  periods : Nat := 0               -- zbud.PER
  ucyc : Nat := 0                  -- core cycles since placement (BUDQ 5)
  dcyc : Nat := 0                  -- cycles not yet subtracted from DC (R338)
  uhbm : Nat := 0
  upas : Nat := 0
deriving DecidableEq, Repr

/-- A reservation in the mould log (R311): the address, the header as decided at issue, and the length in bytes. -/
structure LogEntry where
  addr : Word
  header : List Byte
  bytes : Nat
  saved : Bool := false            -- its header was written by a save and is read back (R320)
deriving DecidableEq, Repr

/-- A tile-queue entry (R233): issue number, instruction address, word (0 for a marker) and captured operand. -/
structure TqEntry where
  seq : Nat
  va : Word
  zt : W32
  arg : Word
  log : Option LogEntry := none
  begun : Bool := false            -- a CAST that has passed or cast at least one log entry
deriving DecidableEq, Repr

/-- The kinds of commands of rq, cq0-cq3 and kq (Table 17-1). -/
inductive CmdKind where
  | cpy
  | cpyg
  | cpyx
  | ccmd
  | sbind
  | sunb
deriving DecidableEq, Repr

/-- A latched range entry of an edge port (R90). -/
structure RangeEntry where
  vi : Nat
  va : Nat
  len : Nat
  pa : Nat
  r : Bool
  w : Bool
  mt : BitVec 2
  ev : Bool
deriving DecidableEq, Repr

/-- A command of rq, a copy queue or kq, with everything it captured at issue (R266, R269, R275). -/
structure Cmd where
  seq : Nat
  kind : CmdKind
  vi : Nat
  block : List Byte                -- copy block, collective block or bind record
  word : Word                      -- copy word, bind word or unbind word
  cw : Nat := 0                    -- VA of the completion word
  src : List Byte := []            -- shape records as read at issue
  dst : List Byte := []
  count : Nat := 0                 -- elements
  chunks : Nat := 0                -- 512-byte chunks of the destination sequence
  todo : List Nat := []            -- chunks not yet performed
  started : Bool := false
  issued : Nat := 0                -- package cycle of the issue (R295)
  idx : Option Nat := none         -- lowest offending element (R282, R283)
  status : Option (Nat × Nat) := none   -- end status and translation kind, once decided
  pause : Option Pause := none
  ranges : List RangeEntry := []
  group : List Byte := []          -- group record of a collective
  done : Bool := false             -- a collective whose data has been moved
deriving DecidableEq, Repr

/-- The queues of a slot other than tq, in the order of QFENCE's set bits 1 to 6. -/
abbrev Queues := Tab (List Cmd)

/-- A QFENCE marker set: the queues named and the issue number it stands at (R287). -/
structure Fence where
  set : BitVec 7
  seq : Nat
deriving DecidableEq, Repr

/-- A producer-map entry (R302): the index of the entry that last wrote the register, and G. -/
structure Producer where
  idx : W32
  g : Bool
deriving DecidableEq, Repr

/-- A context slot of a core (R359). -/
structure Slot where
  task : Option Task := none
  ctl : Ctl := {}
  shapes : Tab (List Byte) := []   -- sh0-sh63; an unlisted entry is empty
  events : List Word := []
  dead : Half := 0
  lost : Half := 0
  pend : List Pending := []
  tq : List TqEntry := []
  queues : Queues := []
  fences : List Fence := []
  nseq : Nat := 0
  prod : Tab (Option Producer) := []   -- tm0-tm7 are 0-7, acc0-acc7 are 8-15
  demoted : Half := 0
  appended : W32 := 0
  held : Bool := false             -- held by CTXCMD HALT (R363)
  haltReq : Bool := false          -- a pre-emption has been requested (R353)
  yielding : Bool := false         -- it leaves by TYIELD (R179)
  since : Nat := 0                 -- package cycle in which it became ready (R339)
  launch : Nat := 0                -- the number of the launch it last made; 0 is none (R154)
  copyOf : Nat := 0                -- the launch of the region last taken out for it, to be restored (R154, R358)
  copyFrom : Option (Nat × Nat) := none   -- core and slot that issued that launch, where another slot did (R348)
  tqDead : Option (Option LogEntry) := none   -- a tq fault whose trap is not yet taken: the first log entry to roll back (R315)
  castDone : Option Word := none   -- the status of a CAST that ended before it was executed again (R319)
  savedTile : Bool := false        -- its tile state is in the context area (R359)
  savedRegion : Bool := false      -- its region block is in the context area
  savedPorts : List Nat := []      -- ports whose state is in the context area
deriving DecidableEq, Repr

/-- A barrier (R164). -/
structure Barrier where
  owner : Nat
  sc : Scope := 0
  exp : Half := 0
  arr : Half := 0
  ph : Half := 0
  ep : Bool := false
  el : Bool := false
  te : Bool := false
deriving DecidableEq, Repr

/-! ## Region, tile unit and ports -/

/-- The words of one lane in a configuration bank (R13). -/
structure Pattern where
  ops : List (BitVec 24)
  routes : List Half
  ras : List Half
  smap : List (BitVec 3)
deriving DecidableEq, Repr

/-- A configuration bank; tag 0 is empty (R13). Lanes not listed hold NOP (R10). -/
structure Bank where
  tag : W32 := 0
  lanes : Tab Pattern := []
deriving DecidableEq, Repr

/-- A landing slot (R30). `reply` is the value that has arrived, `amo` marks an AMOG. -/
structure Landing where
  va : Word
  amo : Bool := false
  ty : BitVec 3 := 0
  rem : Nat                        -- rows to landing
  dest : Nat
  nw : Bool := false
  om : BitVec 4 := 0
  op : Bool := false
  reply : Option W32 := none
  pois : Bool := false
  ahead : Nat := 0                 -- store-queue entries issued before it and not yet performed (R109)
  opw : BitVec 24 := 0             -- the operation word, iteration and operands, for a fault record
  iter : W32 := 0
  opa : W32 := 0
  opb : W32 := 0
deriving DecidableEq, Repr

/-- A result not yet written back (R357). -/
structure Result where
  rem : Nat
  op : Bool := false
  om : BitVec 4 := 0
  pr : Bool := false
  nw : Bool := false
  dest : Nat
  value : W32
  pois : Bool := false
deriving DecidableEq, Repr

/-- A lane (R23): physical rotating registers, static registers, predicates, out latches N E S W. The in
latches iA and iB are the port's presented beat (R28), and oP is the port's open beat. -/
structure Lane where
  w : Tab W32 := []
  c : Tab W32 := []
  p : BitVec 8 := 1
  lat : Tab W32 := []
  land : Tab (Option Landing) := []
  res : List Result := []
deriving DecidableEq, Repr

/-- Region states (Table 01-1). -/
inductive RegionState where
  | idle
  | running
  | halted
  | frozen
deriving DecidableEq, Repr

/-- A row-table pass that has started (R22, R347): the accumulator elements and flags it will write. -/
structure RowPass where
  writes : List (Nat × Nat × W32)  -- accumulator, element, value
  flags : BitVec 3
  rows : Nat                       -- advancing rows since its start
deriving DecidableEq, Repr

/-- The fault a freeze will record (R348): the 64-byte record and the owning slot. -/
structure FaultRec where
  slot : Nat
  bytes : List Byte
  cause : Nat
deriving DecidableEq, Repr

/-- The region of a core: sequencer (R31), descriptor as read, and lanes. -/
structure Region where
  st : RegionState := .idle
  owner : Option Nat := none
  leftBy : Option Nat := none      -- the slot whose save has left its static registers behind (R152)
  dva : Word := 0
  desc : List Byte := []
  tag : W32 := 0
  ioff : W32 := 0
  kcp : Nat := 0
  ncp : Nat := 0
  t : Nat := 0
  k : W32 := 0
  rrb : Nat := 0
  mask : BitVec 8 := 0
  nxt : W32 := 0
  exited : Bool := false
  hacc : Nat := 0
  holds : Word := 0
  flags : BitVec 3 := 0            -- NV, OF, ST (R58)
  aux : Tab W32 := []
  bph : Half := 0                  -- the barrier phase the next qualified hm.bar row awaits
  lanes : Tab Lane := []
  passes : List RowPass := []
  haltReq : Bool := false
  asked : Option (Nat × Mode × Word) := none   -- slot, mode and pc of an RHALT that has not yet reported the halt it requested (R155)
  bankHold : Nat := 0              -- hold cycles in which the bank condition of this row stood
  ramp : Nat := 0                  -- filler cycles the pass start of this row still waits, once begun
  done : Bool := false             -- a boundary has found the mask zero (finish of R31)
  skip : Bool := false             -- resume at the row after (R227)
  dln : Bool := false              -- frozen by DEADLINE
  stuck : Bool := false            -- a fault at its head has stopped the store queue (R350)
  launch : Nat := 0                -- launch number, the same for every copy; 0 is none (R154)
  issuer : Nat × Nat := (0, 0)         -- package core and slot that issued the launch (R348)
deriving DecidableEq, Repr

/-- A store-queue entry (R109, R219, R223, R224). `kind` is the operation code of R357: 0 STG, 1-8 AMOG,
9 BSIG, 10 SSEND. -/
structure StqEntry where
  slot : Nat
  kind : Nat
  ty : BitVec 3 := 0
  va : Word := 0
  data : Word := 0
  cmp : W32 := 0
  lane : Nat := 0
  lslot : Nat := 0
  opw : BitVec 24 := 0             -- the operation word, iteration and operands, for a fault record; not in the tail
  iter : W32 := 0
  opa : W32 := 0
  opb : W32 := 0
  flags : Byte := 0
  handle : Word := 0
  doff : W32 := 0
  bn : Half := 0
  pois : Bool := false
deriving DecidableEq, Repr

/-- The tile unit (R232): registers, headers, accumulators, codebooks and flags of the owner slot, the entry
in progress, and the state of the array's ramp (R261). -/
structure TileUnit where
  owner : Option Nat := none
  tm : Tab Byte := []              -- byte 6144*n + 192*row + offset
  acc : Tab W32 := []              -- element 1024*n + 32*i + j
  lut : Tab Half := []             -- entry 16*n + e
  hdr : Tab Word := []
  flags : BitVec 3 := 0
  busy : Option TqEntry := none
  rampedDown : Bool := true
  hintAt : Option Nat := none      -- package cycle of the latest MXHINT since the ramp-down
  idleAt : Nat := 0                -- package cycle from which the idle count runs
deriving DecidableEq, Repr

/-- A bind, pending or carried by a port (R289). -/
structure Bind where
  slot : Nat
  vi : Nat
  word : Word
  record : List Byte
  shape : List Byte
  cw : Nat
deriving DecidableEq, Repr

/-- A beat of a stream: sixteen positions, of which some may be poisoned. -/
structure Beat where
  vals : List W32
  pois : BitVec 16 := 0
deriving DecidableEq, Repr

/-- A stream carried by a port (R290, R356). Beats are numbered over all repetitions. -/
structure Stream where
  bind : Bind
  tile : Option (Nat × Nat) := none   -- die and tile of the memory-tile engine that runs it (R82)
  no : Nat := 0                    -- number of the presented input beat, or of the open output beat
  beats : List Beat := []          -- input beats read, from number `no` on; the first is presented
  pushed : Tab W32 := []           -- positions pushed into the open output beat and not yet written
  pushedPois : BitVec 16 := 0
  saved : BitVec 16 := 0           -- PMASK: positions of the open beat written before a save
  closed : List (Nat × Tab W32 × BitVec 16) := []   -- output beats and parts of beats not yet written
  ended : Bool := false            -- its completion word has been written
  stop : Bool := false             -- SUNB has ended it; its closed beats are still to be written
  ranges : List RangeEntry := []
  pause : Option Pause := none
  status : Option (Nat × Nat) := none
deriving DecidableEq, Repr

/-- A stream port (R288). -/
structure Port where
  stream : Option Stream := none
  pending : List Bind := []
deriving DecidableEq, Repr

/-- An armature load in issue order (R15, R151, R152). -/
structure ArmLoad where
  slot : Option Nat
  rd : Option Reg
  addr : Word
  bank : Nat
  sreg : Bool
  phys : Bool
  vi : Nat
  early : Option Nat := none       -- a status decided at issue
deriving DecidableEq, Repr

/-- One cached leaf translation (R90). -/
structure TlbEntry where
  vi : Nat
  va : Nat
  sz : Nat
  pa : Nat
  r : Bool
  w : Bool
  x : Bool
  mt : BitVec 2
  ev : Bool
deriving DecidableEq, Repr

/-- A 64-byte line of an instruction or configuration-image cache (R118, R185). -/
structure Line where
  pa : Nat
  bytes : List Byte
deriving DecidableEq, Repr

/-- The CTXCMD operation in progress (R363): its code (1 HALT, 2 SAVE, 3 LOAD) and slot. -/
structure CtxOp where
  cmd : Nat
  slot : Nat
deriving DecidableEq, Repr

/-- A core. -/
structure Core where
  mode : Mode := .m
  running : Option Nat := none     -- the context slot that runs
  fw : Ctl := {}                   -- the control-core state of runtime firmware while no slot runs
  csr : MCsr := {}
  slots : Tab Slot := []
  swin : Tab (Nat × Nat) := []     -- BASE and SIZE of SWINn; unlisted is (4n, 4)
  ctxa : Tab Word := []
  ctxStatus : Nat := 0
  ctxSlot : Nat := 0
  ctxBusy : Option CtxOp := none
  bars : Tab (Option Barrier) := []
  spad : Tab Byte := []
  banks : Tab Bank := []
  arm : List ArmLoad := []
  region : Region := {}
  tile : TileUnit := {}
  ports : Tab Port := []
  stq : List StqEntry := []
  frq : List FaultRec := []        -- fault records waiting to be written (R348)
  tlb : List TlbEntry := []
  icache : List Line := []
  dcache : List Nat := []          -- the lines the data cache holds, by cell address (R4; log entry 73)
  imcache : List Line := []
  sliceUsed : Nat := 0             -- cycles since the running slot was dispatched (R339)
  parkTrap : Option Nat := none    -- the slot whose BUDGET trap is being handled (R346)
  lastVi : Tab Nat := []           -- per slot, the interface of the task last placed in it (R76)
  outOfUse : Bool := false         -- a permanent fault was recorded (R382)
deriving DecidableEq, Repr

/-! ## Dies, interfaces, package -/

/-- An entry of a die's event trace (R379). -/
structure TraceEntry where
  time : Nat
  core : Nat
  kind : Nat                       -- which event (see Mem.lean); the CODE it is written with is not given
  a : Nat
  b : Nat
deriving DecidableEq, Repr

/-- The event trace of a die: up to 8,192 entries, oldest first. -/
structure Trace where
  entries : List TraceEntry := []
  frozen : Bool := false
  reading : Nat := 0               -- entries read through the window since the freeze
deriving DecidableEq, Repr

/-- A signal-store message (R170, R171): target handle, contents, and the sender. -/
structure Message where
  target : Word
  data : Word
  doff : W32
  bn : Half
  flags : Byte
  pois : Bool := false
  sender : Option (Nat × Nat) := none   -- package core and slot
  senderTask : Word := 0
deriving DecidableEq, Repr

/-- A walk-cache entry: the pointer entry a walker read (R90). -/
structure WalkEntry where
  vi : Nat
  level : Nat
  va : Nat
  table : Nat
deriving DecidableEq, Repr

/-- Remaining budget of an activity (R343, R380): kind 0 copy engine of a quad, 1 collective engine, 2 armature
of a core, 3 scrubber; per interface; and the period it runs in. -/
structure ActBudget where
  kind : Nat
  unit : Nat
  vi : Nat
  used : Nat
  parked : Bool := false
deriving DecidableEq, Repr

/-- A compute die. -/
structure Die where
  first : Nat                      -- ILV.FIRST
  size : Nat := 1                  -- dies of the partition (ILV.SIZE)
  pooled : Bool := false           -- ILV.LLSM
  gen : Half := 0                  -- ILV.GEN
  mbnd : BitVec 4 := 0
  carv : Nat := 0
  prqb : Word := 0
  prqw : Nat := 0                  -- entries posted
  prqAns : Nat := 0                -- entries answered
  nextTag : Nat := 0
  abtd : Word := 0
  scrb : Word := 0
  temp : Nat := 0                  -- TEMPd in 0.125 degree C
  hwq : Tab (Option (Nat × Nat)) := []   -- hardware queue slot: interface and queue
  rr : Tab Nat := []               -- per priority, the hardware slot the next visit starts at (R338)
  trace : Trace := {}
  mail : List Message := []        -- mailbox area for tasks not yet placed (R337)
  walks : List WalkEntry := []
  acts : List ActBudget := []
  actLim : Tab (Nat × Nat × Nat × Nat) := []   -- per interface, as last read: PER, copy, collective, armature (R380)
  actAt : Tab Nat := []            -- per interface, package cycle of the last activity boundary processed
  corrected : Nat := 0             -- corrected-error counter (R95)
  scrubbed : Nat := 0
  quiet : Bool := false            -- dealing and acceptance stopped by PARTCTL (R370)
  fatal : Bool := false            -- stopped by a fatal error (R379, R381)
deriving DecidableEq, Repr

/-- A host endpoint (R85). -/
structure Endpoint where
  attached : Bool := false
  addr : Nat := 0
  extent : Nat := 0
  r : Bool := false
  w : Bool := false
deriving DecidableEq, Repr

/-- An accepted card that has not completed (R326, R335). -/
structure Card where
  num : Nat
  bytes : List Byte
  remaining : Nat
  next : Nat := 0                  -- index of the next record
  ordinal : Nat := 0               -- chunks dealt
  out : Nat := 0                   -- dealt tasks not yet retired
  retired : List Nat := []         -- chunks all of whose tasks have retired
  live : List (Nat × Nat) := []    -- (chunk, tasks not yet retired)
  status : Nat := 0
  exit : Nat := 0
  faults : Nat := 0
  tstart : Option Nat := none
  tfin : Nat := 0
  ucyc : Nat := 0
  uhbm : Nat := 0
  upas : Nat := 0
  frec : Nat := 0                  -- physical address of the first fault record; 0 is none
  cancelled : Bool := false
  stopAt : Option Nat := none      -- the chunk whose operand move failed: it and every later one are not started (R329)
deriving DecidableEq, Repr

/-- The notify state of a queue (R324). -/
inductive QState where
  | unmapped
  | pending
  | mapped (hw : Nat)
deriving DecidableEq, Repr

/-- A user queue (R321 to R325, R338, R342). -/
structure Queue where
  die : Nat
  desc : List Byte
  descVa : Nat := 0                -- VA of the descriptor, read again at every map (R321)
  st : QState := .unmapped
  journal : Bool := false          -- the journal has mapped it (QMAP)
  r : Nat := 0                     -- cards accepted
  w : Nat := 0                     -- W as last read
  dc : Int := 0
  cyc : Int := 0                   -- budgets left
  pas : Int := 0
  hbm : Int := 0
  xc : Bool := false
  xp : Bool := false
  xb : Bool := false
  parked : Bool := false
  perAt : Nat := 0                 -- package cycle of the last period boundary processed
  cards : List Card := []
  dones : List Nat := []           -- complete cards whose records are still to be written, in completion order (R335)
  widths : Tab Nat := []           -- gang width of each card read, by its number modulo 2^16 (R333)
  destroyed : Bool := false
deriving DecidableEq, Repr

/-- A loaded code object (R376, R377): its pages, code pages, and the generation it is unloaded under. -/
structure Obj where
  id : Nat
  base : Nat
  secs : List (Nat × Nat × Bool)   -- VA, length, executable
  unload : Option Nat := none
deriving DecidableEq, Repr

/-- A host command read from a ring (R366). -/
structure HostCmd where
  pos : Nat                        -- running count of the command
  bytes : List Byte
  begun : Bool := false            -- a command whose reply waits (QDESTROY, EPDETACH, PARTCHG)
  internal : Bool := false         -- performed for a function-level reset (R367): it has no place in the ring
  pois : Bool := false             -- read from a poisoned ring entry: it is refused (log entry 50)
deriving DecidableEq, Repr

/-- A virtual interface (Table 25-1). -/
structure Iface where
  enabled : Bool := false
  die : Nat := 0                   -- first die of its partition
  xroot : Option Word := none
  hbm : List Nat := []             -- granted 512 MiB units
  lls : List (Nat × Nat) := []     -- granted LLS blocks: (die, block); die 4 is the pooled range
  qHbm : Nat := 0
  qLls : Nat := 0
  winShare : Nat := 4
  barShare : Nat := 256
  eps : Tab Endpoint := []
  queues : Tab (Option Queue) := []
  objs : List Obj := []
  nextObj : Nat := 0
  ig : Nat := 0
  keyHash : List Byte := []        -- SHA-512 of the code-signing modulus; [] is none
  hbmKey : Option Nat := none      -- which generated key is in force
  ringBase : Nat := 0
  ringK : Nat := 4
  cmdRead : Nat := 0
  cmds : List HostCmd := []
  jbase : Nat := 0
  jnext : Nat := 1
  imreg : List Byte := []          -- [] is zero
  msix : List Byte := []           -- the 32 KiB of BAR4, the MSI-X table (R364); [] is zero (log entry 72)
deriving DecidableEq, Repr

/-- An arrival in flight to a barrier (R166): the target package, core and barrier, ERR, and the sender. -/
structure Arrival where
  pkg : Nat
  core : Nat
  bn : Nat
  err : Bool
  vi : Nat
  sender : Option (Nat × Nat)      -- package core and slot; none for a card's CSIG (R336)
  sendDie : Nat := 0
  senderTask : Word := 0
deriving DecidableEq, Repr

/-- What is in flight on the arrival and message networks. -/
inductive Flight where
  | arrival (a : Arrival)
  | message (m : Message)
deriving DecidableEq, Repr

/-- A RELATCH token in flight (R92): its range, its interface, and the ports it has still to pass. -/
structure Token where
  num : Nat
  core : Nat                       -- the core whose RELATCH sent it
  base : Nat
  len : Option Nat
  vi : Option Nat
  ports : List (Nat × Nat)
deriving DecidableEq, Repr

/-- A load-reserve reservation (R104): the 64-byte granule and the scope of the LR. -/
structure Resv where
  core : Nat
  granule : Nat
  scope : Scope
deriving DecidableEq, Repr

/-- An ownership handle of THAND (R180, R332). -/
structure Handle where
  handle : Word
  vi : Nat
  q : Nat
  card : Nat
  core : Nat
  slot : Nat
  base : Nat
  count : Nat
  handed : Bool := false           -- its creator has ended
  claimed : Bool := false          -- a dealt task has claimed it
  released : Bool := false
deriving DecidableEq, Repr

/-- A task whose context is saved in memory (R363): the physical address of its area and the placement facts the
area does not hold. -/
structure SavedTask where
  area : Nat
  task : Task
  launch : Nat := 0
  copyOf : Nat := 0
  copyFrom : Option (Nat × Nat) := none
  nmail : Nat := 0
  castDone : Option Word := none   -- the status of a CAST that ended before it was executed again (R319)
  pend : List Pending := []        -- causes it has not taken yet (R344)
  dead : Option (Option LogEntry) := none   -- a tq fault whose trap is not yet taken (R315)
  fences : List Fence := []        -- QFENCE markers that still stand, counted in the tq entries before them (R112)
  logs : List LogEntry := []       -- the reservations of its tq entries, as decided at issue (R320)
deriving DecidableEq, Repr

/-- The lifecycle states (R373). -/
inductive Lifecycle where
  | manuf
  | prod
  | debug
  | rma
deriving DecidableEq, Repr

/-- A PARTCTL in progress (R370). -/
structure PartOp where
  core : Nat
  req : List Byte
  addr : Word
  began : Nat
  cmdVi : Option Nat := none       -- performed by runtime firmware for a PARTCHG command
deriving DecidableEq, Repr

/-- What the device has sent to the host, newest first: MSI-X messages, endpoint writes, and the bytes that a host read of
a BAR has returned. -/
inductive HostOut where
  | msix (vi vector : Nat)
  | write (vi ep off : Nat) (byte : Byte)
  | read (vi : Nat) (bytes : List Byte)
deriving DecidableEq, Repr

/-- A pod link (R371). -/
structure Link where
  up : Bool := true
  flit : Nat := 0                  -- the flit last replayed
  replays : Nat := 0               -- its replays
deriving DecidableEq, Repr

/-- The next thing that takes a step: an event of another agent, or the control core of a package core. The
list is the model's own: it says, as plain data, how the agents' steps interleave. -/
inductive Item where
  | event (i : Instr)
  | control (core : Nat)
deriving DecidableEq, Repr

/-- The state of a package. -/
structure State where
  cur : Nat := 0                   -- the package core whose control core steps next
  agenda : List Item := []
  cores : Tab Core := []
  dies : Tab Die := []
  ifaces : Tab Iface := []
  mem : List Host.Cell := []       -- HBM4E and private LLS by physical address
  fog : List (Nat × Nat × Nat) := []   -- ranges whose bytes are unpredictable (R370), or zero again: base, length, number (0: zero)
  poison : List Loc := []
  resvs : List Resv := []
  net : Tab Flight := []
  netNo : Nat := 0
  tokens : List Token := []
  tokenNo : Nat := 0
  launchNo : Nat := 0
  handles : List Handle := []
  saved : List SavedTask := []
  links : Tab Link := []
  routes : Tab Nat := []           -- the other packages of the pod, each with the pod link of its path (R371)
  podid : Byte := 0
  cycles : Nat := 0                -- package clock cycles since cold reset (R184)
  life : Lifecycle := .prod
  mregs : Tab (List Byte) := []    -- MREG0-MREG7; [] is zero
  bootFailed : Option Nat := none
  debugOpen : Bool := false
  part : List PartOp := []         -- PARTCTLs, the first in progress
  ir : W32 := 0                    -- the model's own: the instruction bits last fetched, for mtval (R127)
  keyNo : Nat := 0
  out : List HostOut := []
  free : Nat := 0                  -- the model's own: how many free values have been taken
deriving DecidableEq, Repr

/-! ## Why a step stops -/

/-- The reasons a step faults. -/
inductive Fault where
  /-- Raised by an M-mode access to a physical address Table 05-2 reserves (R73). Safe: the spec gives such an
  access no effect. -/
  | reservedAddress (pa : Nat)
deriving DecidableEq, Repr

/-- The reasons a step is refused. -/
inductive Refusal where
  /-- Raised by the dispatch arm of an instruction that has no meaning yet. Safe. -/
  | notModelled (mnemonic : String)
deriving DecidableEq, Repr

/-! ## Reset -/

/-- A die after reset: one partition per die (R369). -/
def Die.reset (d : Nat) : Die := { first := d }

/-- The package right after cold reset: every core in M mode with no task placed, one partition per die, no
interface enabled, the timer zero, memory with nothing listed. -/
def State.reset : State :=
  { dies := [(0, Die.reset 0), (1, Die.reset 1), (2, Die.reset 2), (3, Die.reset 3)] }

end Sys2Proof.Machine
end

