-- ==== Sys2Proof/Machine/Access.lean ====
section
/-! DEFINITION. Named reads and updates of the state: cores, slots, control contexts, dies, interfaces, queues. -/

namespace Sys2Proof.Machine

/-- The outcome of a step. -/
abbrev Out := Host.Outcome State Fault Refusal

def State.core (s : State) (c : Nat) : Core := Tab.get {} s.cores c
def State.setCore (s : State) (c : Nat) (k : Core) : State := { s with cores := Tab.set s.cores c k }
def State.modCore (s : State) (c : Nat) (f : Core → Core) : State := s.setCore c (f (s.core c))

def Core.slot (k : Core) (n : Nat) : Slot := Tab.get {} k.slots n
def Core.setSlot (k : Core) (n : Nat) (v : Slot) : Core := { k with slots := Tab.set k.slots n v }
def Core.modSlot (k : Core) (n : Nat) (f : Slot → Slot) : Core := k.setSlot n (f (k.slot n))

def State.slot (s : State) (c n : Nat) : Slot := (s.core c).slot n
def State.modSlot (s : State) (c n : Nat) (f : Slot → Slot) : State := s.modCore c fun k => k.modSlot n f

/-- The control-core state in use: the running slot's, else runtime firmware's (log entry 13). -/
def Core.ctl (k : Core) : Ctl :=
  match k.running with
  | some n => (k.slot n).ctl
  | none => k.fw

def Core.setCtl (k : Core) (v : Ctl) : Core :=
  match k.running with
  | some n => k.modSlot n fun l => { l with ctl := v }
  | none => { k with fw := v }

def State.ctl (s : State) (c : Nat) : Ctl := (s.core c).ctl
def State.modCtl (s : State) (c : Nat) (f : Ctl → Ctl) : State :=
  s.modCore c fun k => k.setCtl (f k.ctl)

/-- The control-core state of the core that steps. -/
def State.me (s : State) : Ctl := s.ctl s.cur
def State.modMe (s : State) (f : Ctl → Ctl) : State := s.modCtl s.cur f

/-- x0 reads zero (R126). -/
def Ctl.getX (k : Ctl) (r : Reg) : Word := if r = 0 then 0 else Tab.get 0 k.x r.toNat
/-- A result written to x0 is discarded (R147). -/
def Ctl.setX (k : Ctl) (r : Reg) (v : Word) : Ctl :=
  if r = 0 then k else { k with x := Tab.put 0 k.x r.toNat v }
def Ctl.getF (k : Ctl) (r : Reg) : Word := Tab.get 0 k.f r.toNat
def Ctl.setF (k : Ctl) (r : Reg) (v : Word) : Ctl := { k with f := Tab.put 0 k.f r.toNat v }
def Ctl.loop (k : Ctl) (l : Nat) : LoopLevel := Tab.get {} k.loops l
def Ctl.setLoop (k : Ctl) (l : Nat) (v : LoopLevel) : Ctl := { k with loops := Tab.set k.loops l v }

def State.getX (s : State) (r : Reg) : Word := s.me.getX r
def State.setX (s : State) (r : Reg) (v : Word) : State := s.modMe fun k => k.setX r v
def State.getF (s : State) (r : Reg) : Word := s.me.getF r
def State.setF (s : State) (r : Reg) (v : Word) : State := s.modMe fun k => k.setF r v

def State.die (s : State) (d : Nat) : Die := Tab.get (Die.reset d) s.dies d
def State.modDie (s : State) (d : Nat) (f : Die → Die) : State :=
  { s with dies := Tab.set s.dies d (f (s.die d)) }

/-- The die and the quad of a package core (R3). -/
def dieOf (c : Nat) : Nat := c / 160
def quadOf (c : Nat) : Nat := c / 4

def State.iface (s : State) (vi : Nat) : Iface := Tab.get {} s.ifaces vi
def State.modIface (s : State) (vi : Nat) (f : Iface → Iface) : State :=
  { s with ifaces := Tab.set s.ifaces vi (f (s.iface vi)) }

def State.queue (s : State) (vi q : Nat) : Option Queue := Tab.get none (s.iface vi).queues q
def State.setQueue (s : State) (vi q : Nat) (v : Option Queue) : State :=
  s.modIface vi fun i => { i with queues := Tab.set i.queues q v }
def State.modQueue (s : State) (vi q : Nat) (f : Queue → Queue) : State :=
  match s.queue vi q with
  | some k => s.setQueue vi q (some (f k))
  | none => s

/-- Change the accepted card with a number. -/
def Queue.modCard (k : Queue) (n : Nat) (f : Card → Card) : Queue :=
  { k with cards := k.cards.map fun d => if d.num = n then f d else d }
def Queue.card (k : Queue) (n : Nat) : Option Card := k.cards.find? fun d => d.num = n
def State.modCard (s : State) (vi q n : Nat) (f : Card → Card) : State :=
  s.modQueue vi q fun k => k.modCard n f

/-- The slot that runs on a core, and its task and interface. -/
def State.runTask (s : State) (c : Nat) : Option Task :=
  match (s.core c).running with
  | some n => (s.slot c n).task
  | none => none
def State.runVi (s : State) (c : Nat) : Nat :=
  match s.runTask c with
  | some t => t.vi
  | none => 0

/-- Free values are taken one after another (log entry 7). -/
def State.freeVal (s : State) : Word := Config.freeWord s.free
def State.takeFree (s : State) : State := { s with free := s.free + 1 }

/-- The package timer in nanoseconds (R184). -/
def State.time (s : State) : Nat := 4 * (s.cycles / 5)

def Core.region' (k : Core) (f : Region → Region) : Core := { k with region := f k.region }
def State.modRegion (s : State) (c : Nat) (f : Region → Region) : State := s.modCore c fun k => k.region' f
def State.region (s : State) (c : Nat) : Region := (s.core c).region
def Region.lane (r : Region) (l : Nat) : Lane := Tab.get {} r.lanes l
def Region.setLane (r : Region) (l : Nat) (v : Lane) : Region := { r with lanes := Tab.set r.lanes l v }
def Region.modLane (r : Region) (l : Nat) (f : Lane → Lane) : Region := r.setLane l (f (r.lane l))

def State.tile (s : State) (c : Nat) : TileUnit := (s.core c).tile
def State.modTile (s : State) (c : Nat) (f : TileUnit → TileUnit) : State :=
  s.modCore c fun k => { k with tile := f k.tile }

def State.port (s : State) (c p : Nat) : Port := Tab.get {} (s.core c).ports p
def State.modPort (s : State) (c p : Nat) (f : Port → Port) : State :=
  s.modCore c fun k => { k with ports := Tab.set k.ports p (f (Tab.get {} k.ports p)) }

/-- The window of a slot: first bank and size in banks (R76, Table 05-3). -/
def Core.win (k : Core) (n : Nat) : Nat × Nat := Tab.get (4 * n, 4) k.swin n
/-- The window size of a slot in bytes. -/
def Core.winBytes (k : Core) (n : Nat) : Nat := (k.win n).2 * 0x10000
/-- The scratchpad address of a window offset (R76). -/
def Core.spadAddr (k : Core) (n o : Nat) : Nat := (k.win n).1 * 0x10000 + o

def Core.bar (k : Core) (n : Nat) : Option Barrier := Tab.get none k.bars n
def State.setBar (s : State) (c n : Nat) (b : Option Barrier) : State :=
  s.modCore c fun k => { k with bars := Tab.set k.bars n b }

def Slot.queue (l : Slot) (n : Nat) : List Cmd := Tab.get [] l.queues n
def Slot.setQueue (l : Slot) (n : Nat) (v : List Cmd) : Slot := { l with queues := Tab.set l.queues n v }

/-- Send an MSI-X message or an endpoint byte to the host. -/
def State.send (s : State) (o : HostOut) : State := { s with out := o :: s.out }

/-- Cores whose region, slots or queues can hold work: those the state lists. -/
def State.coreNums (s : State) : List Nat := s.cores.map Prod.fst

end Sys2Proof.Machine
end

