-- ==== Sys2Proof/Machine/Mem.lean ====
section
/-! DEFINITION. Memory: the physical map (R73, R79), bytes and poison (R95), reservations (R104), the page walk
(R87, R88) and the translation caches (R90), and the charges and trace entries accesses give rise to. -/

namespace Sys2Proof.Machine

/-! ## Physical addresses -/

def hbmTop : Nat := 0xC000000000
def llsSize : Nat := 0x30000000
def llsBase (d : Nat) : Nat := 0x400000000000 + d * 0x40000000
def poolBase : Nat := 0x600000000000
def hbmShare : Nat := 0x3000000000

/-- The die whose private LLS range holds an address (Table 05-2). -/
def llsDie (pa : Nat) : Option Nat :=
  [0, 1, 2, 3].find? fun d => llsBase d ≤ pa && pa < llsBase d + llsSize

/-- The cell a physical address names for an agent of die `d`: HBM of its partition's share by its own address (R83), in a
private partition the LLS of its own die, in a pooled one the pooled LLS by the private address of the byte's die (R79);
none for an address that is reserved for it (R73). -/
def State.home (s : State) (d pa : Nat) : Option Nat :=
  let k := s.die d
  if pa < hbmTop then
    if k.first * hbmShare ≤ pa && pa < (k.first + k.size) * hbmShare then some pa else none
  else if llsDie pa = some d then
    if k.pooled then none else some pa
  else
    if k.pooled && poolBase ≤ pa && pa < poolBase + k.size * llsSize then
      let o := pa - poolBase
      let g := o / 0x1000
      some (llsBase (k.first + g % k.size) + g / k.size * 0x1000 + o % 0x1000)
    else none

/-! ## Bytes -/

/-- What an unlisted byte reads as: 0 (log entry 5), except where a partition change or a destroyed key has left
HBM unpredictable (R370; log entry 11). -/
def fogDefault : List (Nat × Nat × Nat) → Nat → Byte
  | [], _ => 0
  | (b, n, g) :: t, a => if b ≤ a ∧ a < b + n then (if g = 0 then 0 else Config.fogByte g a) else fogDefault t a

def State.memDefault (s : State) (a : Nat) : Byte := fogDefault s.fog a

/-- One byte of memory. -/
def State.memByte (s : State) (a : Nat) : Byte := Tab.get (s.memDefault a) s.mem a

def State.memBytes (s : State) (a : Nat) : Nat → List Byte
  | 0 => []
  | n + 1 => s.memByte a :: State.memBytes s (a + 1) n

/-- The number in `n` bytes of memory, little-endian (R7). -/
def State.memNat (s : State) (a n : Nat) : Nat := leNat (s.memBytes a n)

/-- Store bytes in the list alone. -/
def State.pokeBytes (s : State) (a : Nat) : List Byte → State
  | [] => s
  | b :: bs => State.pokeBytes { s with mem := Tab.put (s.memDefault a) s.mem a b } (a + 1) bs

/-- A protected word is poisoned (R95). -/
def State.isPois (s : State) (l : Loc) : Bool := s.poison.contains l

def State.setPois (s : State) (l : Loc) (p : Bool) : State :=
  if p then (if s.poison.contains l then s else { s with poison := l :: s.poison })
  else { s with poison := s.poison.filter (· != l) }

/-- Some 8-byte word of `[a, a+n)` is poisoned. -/
def State.memPois (s : State) (a n : Nat) : Bool :=
  s.poison.any fun l => match l with
    | .mem g => decide (a < 8 * g + 8 ∧ 8 * g < a + n)
    | _ => false

/-- A write loses every reservation of a granule it touches (R104). -/
def State.dropResv (s : State) (a n : Nat) : State :=
  { s with resvs := s.resvs.filter fun r => !(decide (a < 64 * r.granule + 64 ∧ 64 * r.granule < a + n)) }

/-- The words a store covers whole lose their poison (R95). -/
def State.curePois (s : State) (a n : Nat) : State :=
  { s with poison := s.poison.filter fun l => match l with
      | .mem g => !(decide (a ≤ 8 * g ∧ 8 * g + 8 ≤ a + n))
      | _ => true }

/-- A store of bytes at a cell address. -/
def State.memWrite (s : State) (a : Nat) (bs : List Byte) : State :=
  if bs.isEmpty then s else ((s.pokeBytes a bs).dropResv a bs.length).curePois a bs.length

/-- A store whose data is poisoned: each 8-byte word it touches is poisoned. -/
def State.memWritePois (s : State) (a : Nat) (bs : List Byte) : State :=
  (upFrom (a / 8) ((a + bs.length + 7) / 8 - a / 8)).foldl (fun t g => t.setPois (.mem g) true) (s.memWrite a bs)

/-- Memory is in canonical form: addresses rise strictly and no listed byte equals what an unlisted address
reads as. -/
def memWfFrom (fog : List (Nat × Nat × Nat)) : List Host.Cell → Bool
  | [] => true
  | (a, b) :: t => Tab.above a t && decide (b ≠ fogDefault fog a) && memWfFrom fog t

def Memory.wf (s : State) : Bool := memWfFrom s.fog s.mem

/-- Make a range unpredictable: nothing stays listed in it (R370, R373). -/
def State.addFog (s : State) (b n : Nat) : State :=
  { s with fog := (b, n, s.fog.length + 1) :: s.fog,
           mem := s.mem.filter fun c => !(decide (b ≤ c.1 ∧ c.1 < b + n)) }

/-- Zero a range (R80): nothing stays listed in it, and where part of it was unpredictable it reads 0 again. -/
def State.zeroRange (s : State) (b n : Nat) : State :=
  { s with fog := if s.fog.any fun (x, m, _) => decide (b < x + m ∧ x < b + n) then (b, n, 0) :: s.fog else s.fog,
           mem := s.mem.filter fun c => !(decide (b ≤ c.1 ∧ c.1 < b + n)),
           poison := s.poison.filter fun l => match l with
             | .mem g => !(decide (b ≤ 8 * g ∧ 8 * g < b + n))
             | _ => true }

/-! ## Scratchpad -/

def Core.spadBytes (k : Core) (a n : Nat) : List Byte := Tab.bytes 0 k.spad a n

def State.spadPois (s : State) (c a n : Nat) : Bool :=
  s.poison.any fun l => match l with
    | .spad c' w => decide (c' = c ∧ a < 4 * w + 4 ∧ 4 * w < a + n)
    | _ => false

/-- A store to a core's scratchpad; the 4-byte words it covers whole lose their poison. -/
def State.spadWrite (s : State) (c a : Nat) (bs : List Byte) : State :=
  let s := s.modCore c fun k => { k with spad := Tab.putBytes k.spad a bs }
  { s with poison := s.poison.filter fun l => match l with
      | .spad c' w => !(decide (c' = c ∧ a ≤ 4 * w ∧ 4 * w + 4 ≤ a + bs.length))
      | _ => true }

/-- A store of poisoned data to a scratchpad. -/
def State.spadWritePois (s : State) (c a : Nat) (bs : List Byte) : State :=
  (upFrom (a / 4) ((a + bs.length + 3) / 4 - a / 4)).foldl (fun t w => t.setPois (.spad c w) true)
    (s.spadWrite c a bs)

/-- Runtime firmware zeroes `n` banks of a scratchpad from bank `b` on (R76). -/
def State.zeroBanks (s : State) (c b n : Nat) : State :=
  let inside (a : Nat) : Bool := decide (b * 0x10000 ≤ a ∧ a < (b + n) * 0x10000)
  let s := s.modCore c fun k => { k with spad := k.spad.filter fun x => !inside x.1 }
  { s with poison := s.poison.filter fun l => match l with
      | .spad c' w => !(decide (c' = c) && inside (4 * w))
      | _ => true }

/-! ## The event trace (R379) -/

/-- Kinds of trace entries: 1 card discarded, 2 poison consumed, 3 link down, 4 thermal warning, 5 fatal error,
6 completion record or word not written, 7 queue not readable, 8 dead letter no slot counts, 9 permanent fault,
10 double-bit error. -/
def State.traceAdd (s : State) (d core kind a b : Nat) : State :=
  s.modDie d fun k =>
    if k.trace.frozen then k
    else
      let es := k.trace.entries ++ [⟨s.time, core, kind, a, b⟩]
      { k with trace := { k.trace with entries := if es.length > 8192 then es.drop 1 else es } }

/-- Consumption of poison is recorded (R96), with the core within its die (R3). -/
def State.tracePois (s : State) (c a : Nat) : State := s.traceAdd (dieOf c) (c % 160) 2 a 0

/-- A fatal error of a die: the trace records it and freezes (R379). -/
def State.fatalError (s : State) (d why : Nat) : State :=
  (s.traceAdd d 0 5 why 0).modDie d fun k => { k with trace := { k.trace with frozen := true } }

/-- A cell of HBM that is granted to no interface: runtime firmware keeps it for itself (R83). -/
def State.firmwareOwn (s : State) (a : Nat) : Bool :=
  decide (a < hbmTop) && s.ifaces.all fun (_, i) => !i.hbm.contains (a / 0x20000000)

/-- The control core of `c` consumes poison at `va` in the cells `l`: recorded, and a fatal error where firmware reads its
own memory (R379). -/
def State.consumed (s : State) (c va : Nat) (mode : Mode) (l : List (Nat × Nat)) : State :=
  let s := s.tracePois c va
  if mode = .m ∧ l.any fun p => s.firmwareOwn p.1 then s.fatalError (dieOf c) 3 else s

/-! ## Charges (R342) -/

/-- Charge HBM bytes to a task's queue, its card and itself. -/
def State.chargeTask (s : State) (t : Task) (n : Nat) : State :=
  let s := s.modQueue t.vi t.q fun q => { q with hbm := q.hbm - n }
  s.modCard t.vi t.q t.card fun d => { d with uhbm := d.uhbm + n }

def State.chargeHbm (s : State) (c slot n : Nat) : State :=
  match (s.slot c slot).task with
  | some t =>
    (s.chargeTask t n).modSlot c slot fun l => { l with task := l.task.map fun t => { t with uhbm := t.uhbm + n } }
  | none => s

/-- Every 64-byte line an access touches is charged, if it lies in HBM (log entry 10). -/
def hbmCost (pa n : Nat) : Nat := if pa < hbmTop then 64 * ((pa + n + 63) / 64 - pa / 64) else 0

/-! ## The page walk (R87, R88) -/

/-- The kinds of access a translation is for. -/
inductive Acc where
  | read
  | write
  | rmw
  | fetch
deriving DecidableEq, Repr

namespace Kind
def range := 1
def notValid := 2
def level := 3
def reserved := 4
def span := 5
def align := 6
def perm := 7
def pa := 8
def die := 9
def grant := 10
def poison := 11
end Kind

/-- Page-table entry fields (Table 05-4). -/
def pteV (e : Nat) : Bool := bitAt e 0
def pteLeaf (e : Nat) : Bool := bitAt e 1
def pteSpan (e : Nat) : Bool := bitAt e 2
def pteMt (e : Nat) : Nat := bits e 8 2
def ptePa (e : Nat) : Nat := bits e 16 32 * 0x10000

/-- Reserved bits or values of an entry (R88). -/
def pteReserved (e : Nat) : Bool :=
  bits e 48 16 != 0 || bits e 10 6 != 0 || bitAt e 3 || pteMt e == 3
    || (!pteLeaf e && (bits e 4 6 != 0 || pteSpan e)) || (bitAt e 7 && pteMt e == 2)

/-- Every 512 MiB unit of an HBM range is granted to the interface (R84). -/
def Iface.hbmGranted (i : Iface) (a n : Nat) : Bool :=
  (upFrom (a / 0x20000000) ((a + n + 0x1FFFFFFF) / 0x20000000 - a / 0x20000000)).all fun u => i.hbm.contains u

/-- Every LLS block of a range at offset `o` of die `d` (4: the pooled range) is granted. -/
def Iface.llsGranted (i : Iface) (d o n : Nat) : Bool :=
  (upFrom (o / 0x100000) ((o + n + 0xFFFFF) / 0x100000 - o / 0x100000)).all fun b => i.lls.contains (d, b)

/-- The partition of an interface: first die and size (R369). -/
def State.partOf (s : State) (i : Iface) : Nat × Nat := (i.die, (s.die i.die).size)

/-- check_range of R88: none, or the kind of the first test that fails. -/
def State.checkRange (s : State) (vi d mt pa n : Nat) : Option Nat :=
  let i := s.iface vi
  let (f, m) := s.partOf i
  if mt < 2 then
    if !(f * hbmShare ≤ pa && pa + n ≤ (f + m) * hbmShare) then some Kind.pa
    else if !i.hbmGranted pa n then some Kind.grant else none
  else if (s.die i.die).pooled then
    if !(poolBase ≤ pa && pa + n ≤ poolBase + m * llsSize) then some Kind.pa
    else if !i.llsGranted 4 (pa - poolBase) n then some Kind.grant else none
  else
    match (upFrom f m).find? fun e => llsBase e ≤ pa && pa + n ≤ llsBase e + llsSize with
    | none => some Kind.pa
    | some e =>
      if e != d then some Kind.die
      else if !i.llsGranted e (pa - llsBase e) n then some Kind.grant else none

/-- The outcome of a walk: a kind, or the value. -/
abbrev Walk (α : Type) := Except Nat α

/-- Read entry `i` of the table at `t`. -/
def State.readPte (s : State) (vi t i : Nat) : Walk Nat :=
  if !(t + 0x10000 ≤ hbmTop && (s.iface vi).hbmGranted t 0x10000) then .error Kind.grant
  else if s.memPois (t + 8 * i) 8 then .error Kind.poison
  else
    let e := s.memNat (t + 8 * i) 8
    if pteReserved e then .error Kind.reserved else .ok e

/-- The pointer a walk-cache entry of the die holds, if any. -/
def Die.walkHit (k : Die) (vi level va : Nat) : Option Nat :=
  (k.walks.find? fun w => w.vi == vi && w.level == level && w.va == va).map WalkEntry.table

def Die.addWalk (k : Die) (w : WalkEntry) : Die :=
  if k.walks.contains w then k
  else
    let l := k.walks ++ [w]
    { k with walks := if l.length > 256 then l.drop 1 else l }

/-- The level-1 table for an address, from the walk cache or the level-2 entry. -/
def State.table1 (s : State) (vi d va : Nat) : Walk Nat :=
  match (s.die d).walkHit vi 2 (va / 2 ^ 42) with
  | some t => .ok t
  | none =>
    match (s.iface vi).xroot with
    | none => .error Kind.notValid
    | some root =>
      match s.readPte vi root.toNat (bits va 42 13) with
      | .error k => .error k
      | .ok e =>
        if !pteV e then .error Kind.notValid
        else if pteLeaf e then .error Kind.level
        else .ok (ptePa e)

/-- The leaf entry of an address and its size, and the level-0 table where the walk passed through one. -/
def State.leaf (s : State) (vi d va t1 : Nat) : Walk (Nat × Nat × Option Nat) :=
  let level0 (t0 : Nat) : Walk (Nat × Nat × Option Nat) :=
    match s.readPte vi t0 (bits va 16 13) with
    | .error k => .error k
    | .ok e =>
      if !pteV e then .error Kind.notValid
      else if !pteLeaf e then .error Kind.level
      else if pteSpan e then
        match s.readPte vi t0 (bits va 21 8 * 32) with
        | .error k => .error k
        | .ok e => .ok (e, 21, some t0)
      else .ok (e, 16, some t0)
  match (s.die d).walkHit vi 1 (va / 2 ^ 29) with
  | some t0 => level0 t0
  | none =>
    match s.readPte vi t1 (bits va 29 13) with
    | .error k => .error k
    | .ok e =>
      if !pteV e then .error Kind.notValid
      else if pteLeaf e then
        if pteSpan e then
          match s.readPte vi t1 (bits va 33 9 * 16) with
          | .error k => .error k
          | .ok e => .ok (e, 33, none)
        else .ok (e, 29, none)
      else level0 (ptePa e)

/-- Permission of a leaf for an access (R88). -/
def TlbEntry.permits (e : TlbEntry) : Acc → Bool
  | .read => e.r
  | .write => e.w
  | .rmw => e.r && e.w
  | .fetch => e.x

/-- The walk of R88: the leaf translation and the pointers it read, for the walk cache. -/
def State.walk (s : State) (vi d va : Nat) (acc : Acc) : Walk (TlbEntry × List WalkEntry) :=
  if va / 2 ^ 55 != 0 then .error Kind.range
  else if (s.iface vi).xroot.isNone then .error Kind.notValid
  else
    match s.table1 vi d va with
    | .error k => .error k
    | .ok t1 =>
      match s.leaf vi d va t1 with
      | .error k => .error k
      | .ok (e, sz, t0) =>
        let ent : TlbEntry := ⟨vi, va / 2 ^ sz * 2 ^ sz, sz, ptePa e, bitAt e 4, bitAt e 5, bitAt e 6,
          BitVec.ofNat 2 (pteMt e), bitAt e 7⟩
        let ptrs := ⟨vi, 2, va / 2 ^ 42, t1⟩ :: (match t0 with
          | some t => [⟨vi, 1, va / 2 ^ 29, t⟩]
          | none => [])
        if (sz == 33 || sz == 21) && !(pteV e && pteLeaf e && pteSpan e) then .error Kind.span
        else if ptePa e % 2 ^ sz != 0 then .error Kind.align
        else if !ent.permits acc then .error Kind.perm
        else match s.checkRange vi d (pteMt e) (ptePa e) (2 ^ sz) with
          | some k => .error k
          | none => .ok (ent, ptrs)

/-- A walker that consumes poison for an agent of core `c` is recorded (R96). -/
def State.noteWalk (s : State) (c kind va : Nat) : State := if kind = Kind.poison then s.tracePois c va else s

/-- A cached leaf covers an address. -/
def TlbEntry.covers (e : TlbEntry) (vi va : Nat) : Bool :=
  e.vi == vi && e.va ≤ va && va < e.va + 2 ^ e.sz

/-- Enter a leaf into a core's translation cache of 64 entries, the oldest leaving (R90; log entry 8). -/
def Core.addTlb (k : Core) (e : TlbEntry) : Core :=
  let l := k.tlb.filter (fun x => !(x.covers e.vi e.va)) ++ [e]
  { k with tlb := if l.length > 64 then l.drop 1 else l }

/-- Translate for a core through its translation cache, walking on a miss (R90); poison a walker consumes is recorded
(R96). -/
def State.xlate (s : State) (c vi va : Nat) (acc : Acc) : State × Walk Nat :=
  match (s.core c).tlb.find? fun e => e.covers vi va with
  | some e => (s, if e.permits acc then .ok (e.pa + (va - e.va)) else .error Kind.perm)
  | none =>
    match s.walk vi (dieOf c) va acc with
    | .error k => (s.noteWalk c k va, .error k)
    | .ok (e, ws) =>
      let s := s.modCore c fun k => k.addTlb e
      let s := s.modDie (dieOf c) fun k => ws.foldl Die.addWalk k
      (s, .ok (e.pa + (va - e.va)))

/-- Translate `[va, va+n)` page piece by page piece: the cell address and length of each 4 KiB piece (pooled LLS
interleaves in 4 KiB, R79). All pieces translate, or the kind and address of the first that does not. -/
def State.xlateAll (s : State) (c vi : Nat) (acc : Acc) : Nat → Nat → Nat → State × Except (Nat × Nat) (List (Nat × Nat))
  | 0, _, _ => (s, .ok [])
  | fuel + 1, va, n =>
    if n = 0 then (s, .ok [])
    else
      let len := min n (0x1000 - va % 0x1000)
      match s.xlate c vi va acc with
      | (s, .error k) => (s, .error (k, va))
      | (s, .ok pa) =>
        match s.home (dieOf c) pa with
        | none => (s, .error (Kind.pa, va))
        | some a =>
          match State.xlateAll s c vi acc fuel (va + len) (n - len) with
          | (s, .error e) => (s, .error e)
          | (s, .ok l) => (s, .ok ((a, len) :: l))

/-- How many 4 KiB pieces a length can touch. -/
def pieces (n : Nat) : Nat := n / 0x1000 + 2

/-- Read and write the pieces of a translated range. -/
def State.readPieces (s : State) (l : List (Nat × Nat)) : List Byte :=
  l.flatMap fun (a, n) => s.memBytes a n
def State.poisPieces (s : State) (l : List (Nat × Nat)) : Bool := l.any fun (a, n) => s.memPois a n
def State.writePieces (s : State) : List (Nat × Nat) → List Byte → State
  | [], _ => s
  | (a, n) :: l, bs => State.writePieces (s.memWrite a (bs.take n)) l (bs.drop n)
def costPieces (l : List (Nat × Nat)) : Nat := l.foldl (fun t (a, n) => t + hbmCost a n) 0

end Sys2Proof.Machine
end

