-- ==== Sys2Proof/Machine/Ops.lean ====
section
/-! DEFINITION. The operations control-core instructions share: operands and hazards, advancing the pc through the
loop buffer, taking an exception and returning from one, events, dead letters, virtual accesses. -/

namespace Sys2Proof.Machine

/-! ## mstatus (log entry 6: layout of the ratified privileged specification) -/

def mstMie : Nat := 3
def mstMpie : Nat := 7
def mstMprv : Nat := 17

/-- Put a bit into a word. -/
def setBit (w : Word) (i : Nat) (b : Bool) : Word :=
  if b then w ||| (1#64 <<< i) else w &&& ~~~(1#64 <<< i)

/-- MPP, mstatus[12:11]: 3 is M, 0 is U. -/
def mppOf (m : Word) : Mode := if m.getLsbD 11 then .m else .u
def setMpp (m : Word) (k : Mode) : Word := setBit (setBit m 11 (k == .m)) 12 (k == .m)

/-! ## The loop buffer (R160 to R163) -/

/-- The active unsuspended levels, smallest body first; equal bodies in level order (log entry 23). -/
def insertLevel (k : Ctl) (m : Nat) : List Nat → List Nat
  | [] => [m]
  | l :: ls => if (k.loop m).bl < (k.loop l).bl then m :: l :: ls else l :: insertLevel k m ls

def Ctl.liveLevels (k : Ctl) : List Nat :=
  ([0, 1, 2].filter fun m => (k.loop m).act && !(k.loop m).susp).foldl (fun l m => insertLevel k m l) []

/-- filter of R161: the levels as they become and the next address. `pending` says a prefix group is pending. -/
def loopFilter (pending fall : Bool) : List Nat → Ctl → Word → Ctl × Word
  | [], k, pc => (k, pc)
  | m :: ms, k, pc =>
    let l := k.loop m
    if pc = l.stop ∧ fall then
      if l.pw then (k, l.start)
      else if 1 < l.cnt.toNat then
        (k.setLoop m { l with cnt := l.cnt - 1, pw := l.pw || pending }, l.start)
      else loopFilter pending fall ms (k.setLoop m { l with cnt := l.cnt - 1, act := false, pw := false }) pc
    else if pc < l.start ∨ l.stop ≤ pc then
      loopFilter pending fall ms (k.setLoop m { l with act := false, pw := false }) pc
    else (k, pc)

/-- Filter an address through the levels and make it the pc. -/
def Ctl.goto (k : Ctl) (fall : Bool) (pc : Word) : Ctl :=
  let (k, pc) := loopFilter k.pre.isSome fall k.liveLevels k pc
  { k with pc := pc }

/-- Clear PW in every level that is not suspended (R161: the instruction that takes the group has completed); a suspended
level belongs to the code a trap has interrupted. -/
def Ctl.clearPw (k : Ctl) : Ctl :=
  { k with loops := k.loops.map fun (m, l) => (m, if l.susp then l else { l with pw := false }) }

/-- The instruction that takes a pending group completes: the group is no longer pending. -/
def Ctl.takeGroup (k : Ctl) : Ctl :=
  if k.pre.isSome then { k.clearPw with pre := none } else k

/-- Complete an instruction of `len` bytes: nothing waits, the group is taken, the pc falls through. -/
def Ctl.advance (k : Ctl) (len : Nat) : Ctl :=
  let k := { k with wait := none }
  k.takeGroup.goto true (k.pc + BitVec.ofNat 64 len)

/-- Complete a taken jump or branch. -/
def Ctl.jump (k : Ctl) (target : Word) : Ctl :=
  let k := { k with wait := none }
  k.takeGroup.goto false target

/-- One more instruction retired, unless mcountinhibit[2] stands (log entry 6). -/
def State.countInstr (s : State) : State :=
  s.modCore s.cur fun k =>
    if k.csr.mcountinhibit.getLsbD 2 then k else { k with csr := { k.csr with minstret := k.csr.minstret + 1 } }

/-- Complete the instruction, falling through after `len` bytes. -/
def State.retire (s : State) (len : Nat := 4) : State := s.countInstr.modMe fun k => k.advance len
/-- Complete the instruction, going to `target`. -/
def State.retireTo (s : State) (target : Word) : State := s.countInstr.modMe fun k => k.jump target

/-! ## Taking an exception, and MRET (R344, R345, R163, R104) -/

/-- Trap entry's effect on the loop levels: SUSP in every active level (R163); OFF then reads from mepc. -/
def Ctl.suspend (k : Ctl) : Ctl :=
  { k with loops := k.loops.map fun (m, l) => (m, if l.act then { l with susp := true } else l) }

/-- Take a trap in M mode on a core: mepc, mcause and mtval, mstatus's stack, the levels suspended, the
reservation lost, the wait abandoned, the prefix group gone; the handler's address is mtvec's. -/
def State.takeTrap (s : State) (c : Nat) (interrupt : Bool) (cause : Nat) (tval epc : Word) : State :=
  let s := { s with resvs := s.resvs.filter fun r => r.core != c }
  s.modCore c fun k =>
    let m := k.csr
    let base := m.mtvec &&& ~~~3#64
    let pc := if interrupt && m.mtvec.getLsbD 0 then base + BitVec.ofNat 64 (4 * cause) else base
    let code := BitVec.ofNat 64 cause ||| (if interrupt then 1#64 <<< 63 else 0)
    let mst := setMpp (setBit (setBit m.mstatus mstMpie (m.mstatus.getLsbD mstMie)) mstMie false) k.mode
    let ctl := { k.ctl.suspend with pre := none, wait := none, pc := pc }
    ({ k with mode := .m, csr := { m with mepc := epc, mcause := code, mtval := tval, mstatus := mst } }).setCtl ctl

/-- mepc of a synchronous trap: the instruction, or the first prefix of its group (R133). -/
def Ctl.epc (k : Ctl) : Word :=
  match k.pre with
  | some p => p.first
  | none => k.pc

/-- A synchronous trap on the instruction being executed. -/
def State.trap (s : State) (cause : Nat) (tval : Word) : Out := .next (s.takeTrap s.cur false cause tval s.me.epc)

/-- The bits of an instruction: its encoding, or for a 16-bit form the parcel last fetched. -/
def State.bitsOf (s : State) (i : Instr) : W32 := (encode i).getD s.ir

/-- Cause 2 with the instruction's bits and a subcode (R127): mepc holds the instruction for PREFIX_REPEAT and
PREFIX_MISMATCH, and the first prefix of its group for every other subcode (R133). -/
def State.illegal (s : State) (w : W32) (sub : BitVec 8) : Out :=
  .next (s.takeTrap s.cur false 2 (zx w ||| (zx sub <<< 32))
    (if sub = Enc.subMismatch ∨ sub = Enc.subRepeat then s.me.pc else s.me.epc))

/-- A loop level as MRET leaves it (R163): SUSP clear; a level a CSR write set takes its body from mepc and OFF,
and is inactive where OFF is 0x1FF. -/
def LoopLevel.resume (l : LoopLevel) (mepc : Word) : LoopLevel :=
  if !l.body && l.act then
    let start := mepc - 2 * zx l.off
    { l with susp := false, body := true, start := start, stop := start + 2 * (zx l.bl + 1), act := l.act && l.off != 0x1FF }
  else { l with susp := false }

def Ctl.resume (k : Ctl) (mepc : Word) : Ctl :=
  { k with loops := k.loops.map fun (m, l) => (m, l.resume mepc) }

/-- Return from a trap: the mode and MIE come from mstatus, MPRV is cleared on a return to U mode, SUSP is cleared, and
mepc passes through filter by fall (R126, R161, R163; log entry 6). -/
def State.trapReturn (s : State) : State :=
  s.countInstr.modCore s.cur fun k =>
    let m := k.csr
    let kept := match mppOf m.mstatus with
      | .m => m.mstatus
      | .u => setBit m.mstatus mstMprv false
    let mst := setMpp (setBit (setBit kept mstMie (m.mstatus.getLsbD mstMpie)) mstMpie true) .u
    let ctl := ({ k.ctl with wait := none }).resume m.mepc
    ({ k with mode := mppOf m.mstatus, csr := { m with mstatus := mst } }).setCtl (ctl.goto true m.mepc)

/-! ## Beginning an instruction (R133, R149, R128) -/

/-- Registers an armature load of the running context will write (R149). -/
def Core.pendingRegs (k : Core) : List Reg :=
  k.arm.filterMap fun a => if a.slot == k.running then a.rd else none

/-- An instruction that takes no prefix and uses the registers `rs`: with a prefix group pending it is illegal;
while one of its registers is pending it waits. -/
def State.begin (s : State) (i : Instr) (rs : List Reg) (k : Out) : Out :=
  if s.me.pre.isSome then s.illegal (s.bitsOf i) Enc.subMismatch
  else if rs.any fun r => r != 0 && (s.core s.cur).pendingRegs.contains r then .next s
  else k

/-- The same for an instruction that takes LOGP (custom-1, R133). -/
def State.beginLogp (s : State) (i : Instr) (rs : List Reg) (k : Out) : Out :=
  if s.me.pre.any fun p => p.scope.isSome then s.illegal (s.bitsOf i) Enc.subMismatch
  else if rs.any fun r => r != 0 && (s.core s.cur).pendingRegs.contains r then .next s
  else k

/-- The same for an instruction that takes SCOPE (the A extension, R133). -/
def State.beginScope (s : State) (i : Instr) (rs : List Reg) (k : Out) : Out :=
  if s.me.pre.any fun p => p.logp.isSome then s.illegal (s.bitsOf i) Enc.subMismatch
  else if rs.any fun r => r != 0 && (s.core s.cur).pendingRegs.contains r then .next s
  else k

/-- An M-mode-only Zarni instruction is illegal with PRIV in U mode (R128). -/
def State.priv (s : State) (i : Instr) (k : Out) : Out :=
  if (s.core s.cur).mode = .u then s.illegal (s.bitsOf i) Enc.subPriv else k

/-- Wait: nothing of the instruction has happened and the pc stays (R148). -/
def State.waitOn (s : State) (w : Waiting) : Out := .next (s.modMe fun k => { k with wait := some w })

/-- Write rd and complete. -/
def State.result (s : State) (rd : Reg) (v : Word) (len : Nat := 4) : Out := .next ((s.setX rd v).retire len)

/-- The slot whose resources the control core uses: the running slot; slot 0 for runtime firmware while no slot runs
(log entry 13). -/
def State.mySlot (s : State) : Nat := (s.core s.cur).running.getD 0

/-- A step of an agent of core `c`: nothing for a core that does not exist or on a die a fatal error has stopped. -/
def State.onCore (s : State) (c : Nat) (k : Out) : Out :=
  if 640 ≤ c ∨ (s.die (dieOf c)).fatal then .next s else k

/-- A step of a unit of die `d`, or of runtime firmware there: nothing on a die a fatal error has stopped. -/
def State.onDie (s : State) (d : Nat) (k : Out) : Out := if 4 ≤ d ∨ (s.die d).fatal then .next s else k

/-! ## Events and dead letters (R171 to R173) -/

/-- Post an entry to a slot's event queue, or drop it with LOST. -/
def Slot.post (l : Slot) (kind : Nat) (payload : Nat) : Slot :=
  if l.events.length ≥ 64 then { l with lost := sat16 l.lost }
  else { l with events := l.events ++ [BitVec.ofNat 64 (kind * 2 ^ 56 + payload % 2 ^ 48)] }

def State.post (s : State) (c n kind payload : Nat) : State := s.modSlot c n fun l => l.post kind payload

namespace Event
def deadLetter := 1
def copyErr := 2
def budget := 3
def barErr := 4
end Event

/-- The handle of a task (Table 21-4). -/
def State.handleOf (s : State) (t : Task) : Word :=
  BitVec.ofNat 64 (s.podid.toNat * 2 ^ 56 + t.vi % 2 ^ 11 * 2 ^ 45 + t.q % 2 ^ 12 * 2 ^ 33 + t.card % 2 ^ 16 * 2 ^ 17
    + t.die % 4 * 2 ^ 15 + t.chunk % 2 ^ 10 * 2 ^ 5 + t.gidx % 2 ^ 5)

/-- A dead letter raises DEAD and posts DEADLETTER at the sender slot, while the sending task holds it
(log entry 24). -/
def State.deadLetter (s : State) (sender : Option (Nat × Nat)) (senderTask : Word) (payload : Nat) : State :=
  match sender with
  | none => s
  | some (c, n) =>
    match (s.slot c n).task with
    | some t =>
      if s.handleOf t = senderTask then
        s.modSlot c n fun l => ({ l with dead := sat16 l.dead }).post Event.deadLetter payload
      else s
    | none => s

/-! ## Control-core accesses to memory -/

/-- The mode a load or store acts in: MPRV makes M mode use MPP (log entry 6). -/
def Core.dataMode (k : Core) : Mode :=
  if k.mode = .m ∧ k.csr.mstatus.getLsbD mstMprv then mppOf k.csr.mstatus else k.mode

/-- What a virtual access of the control core found. -/
inductive Found where
  | pieces (l : List (Nat × Nat))
  | fault (kind va : Nat)
  | reserved (pa : Nat)
deriving DecidableEq, Repr

/-- The 4 KiB pieces of a physical range, for an M-mode access (R73; log entry 14). -/
def State.physPieces (s : State) (d : Nat) : Nat → Nat → Nat → Found
  | 0, _, _ => .pieces []
  | fuel + 1, pa, n =>
    if n = 0 then .pieces []
    else
      let len := min n (0x1000 - pa % 0x1000)
      match s.home d pa with
      | none => .reserved pa
      | some a =>
        match State.physPieces s d fuel (pa + len) (n - len) with
        | .pieces l => .pieces ((a, len) :: l)
        | r => r

/-- Locate `[va, va+n)` for an access of the core `c` in a mode. -/
def State.locate (s : State) (c : Nat) (mode : Mode) (va n : Nat) (acc : Acc) : State × Found :=
  match mode with
  | .m => (s, s.physPieces (dieOf c) (pieces n) va n)
  | .u =>
    match s.xlateAll c (s.runVi c) acc (pieces n) va n with
    | (s, .ok l) => (s, .pieces l)
    | (s, .error (k, a)) => (s, .fault k a)

/-- The address of the fault record of a slot (R190). -/
def Core.recordAddr (k : Core) (n : Nat) : Nat := bits k.csr.zfrec.toNat 6 42 * 64 + 64 * n

/-- A 64-byte fault record (Table 23-2). -/
structure RecordFields where
  cause : Nat
  sub : Nat := 0
  kind : Nat := 0
  src : Nat := 0
  lane : Nat := 0xFF
  row : Nat := 0xFF
  port : Nat := 0xFF
  opw : Nat := 0
  iter : Nat := 0
  tag : Nat := 0
  addr : Nat := 0
  opa : Nat := 0
  opb : Nat := 0
  kint : Nat := 0
  hacc : Nat := 0
deriving DecidableEq, Repr

def State.recordBytes (s : State) (c slot : Nat) (f : RecordFields) : List Byte :=
  toLE 1 f.cause ++ toLE 1 f.sub ++ toLE 1 f.kind ++ toLE 1 f.src ++ toLE 1 (dieOf c) ++ toLE 1 slot
    ++ toLE 2 (c % 160) ++ toLE 1 f.lane ++ toLE 1 f.row ++ toLE 1 f.port ++ toLE 1 1 ++ toLE 4 f.opw
    ++ toLE 4 f.iter ++ toLE 4 f.tag ++ toLE 8 f.addr ++ toLE 8 f.opa ++ toLE 8 f.opb ++ toLE 8 s.time
    ++ toLE 4 f.kint ++ toLE 2 f.hacc ++ toLE 2 0

/-- The VALID bit of the record at an address stands (R348). -/
def State.recordBusy (s : State) (a : Nat) : Bool := bitAt (s.memNat (a + 0x0B) 1) 0

/-- A task's fault count, and the first record it produced (Table 21-5). -/
def State.noteFault (s : State) (c n a : Nat) : State :=
  match (s.slot c n).task with
  | some t => s.modCard t.vi t.q t.card fun d =>
      { d with faults := d.faults + 1, frec := if d.frec = 0 then a else d.frec }
  | none => s

/-- Write a fault record for a slot of a core, if VALID is clear there; none while it stands. -/
def State.writeRecord (s : State) (c n : Nat) (bs : List Byte) : Option State :=
  let a := (s.core c).recordAddr n
  if s.recordBusy a then none else some ((s.memWrite a bs).noteFault c n a)

/-- A control-core page fault or SOFT_ERROR: the record is written and then the trap is taken; while VALID stands
at the record's address, the instruction waits (R348). With no slot running no record is written (log entry 13). -/
def State.recordTrap (s : State) (cause kind va : Nat) (epc : Word) : Out :=
  let c := s.cur
  match (s.core c).running with
  | none => .next (s.takeTrap c false cause (BitVec.ofNat 64 va) epc)
  | some n =>
    match s.writeRecord c n (s.recordBytes c n { cause := cause, kind := kind, src := 1, addr := va }) with
    | none => .next s
    | some s => .next (s.takeTrap c false cause (BitVec.ofNat 64 va) epc)

/-- Charge the running slot for the HBM lines an access touches. -/
def State.chargeRun (s : State) (c n : Nat) : State :=
  match (s.core c).running with
  | some k => if n = 0 then s else s.chargeHbm c k n
  | none => s

/-- The 64-byte lines that the pieces of an access touch. -/
def linesOf (l : List (Nat × Nat)) : List Nat :=
  l.flatMap fun (a, n) => (upFrom (a / 64) ((a + n + 63) / 64 - a / 64)).map fun i => 64 * i

/-- Enter a line into the data cache of 512 lines (32 KiB), the oldest leaving. -/
def Core.addDline (k : Core) (a : Nat) : Core :=
  let l := k.dcache ++ [a]
  { k with dcache := if l.length > 512 then l.drop 1 else l }

/-- A read by the control core is charged for the HBM lines its data cache does not hold, and they enter it (R342; log
entry 73). A line with a poisoned word does not. -/
def State.chargeLoad (s : State) (c : Nat) (l : List (Nat × Nat)) : State :=
  let miss := (linesOf l).filter fun a => !(s.core c).dcache.contains a
  (s.chargeRun c (miss.foldl (fun t a => t + hbmCost a 64) 0)).modCore c fun k =>
    (miss.filter fun a => !s.memPois a 64).foldl Core.addDline k

/-- Load `n` bytes at `va` for the control core; the continuation gets the bytes. Page faults take cause 13,
poison cause 31. -/
def State.load (s : State) (va : Word) (n : Nat) (k : State → List Byte → Out) : Out :=
  match s.locate s.cur (s.core s.cur).dataMode va.toNat n .read with
  | (_, .reserved pa) => .fault (.reservedAddress pa)
  | (s, .fault kind a) => s.recordTrap 13 kind a s.me.epc
  | (s, .pieces l) =>
    let s := s.chargeLoad s.cur l
    if s.poisPieces l then (s.consumed s.cur va.toNat (s.core s.cur).dataMode l).recordTrap 31 0 va.toNat s.me.epc
    else k s (s.readPieces l)

/-- A core's own stores drop the lines of its image cache they touch: its RCFG observes them (R107, R118). -/
def State.dropImages (s : State) (c : Nat) (l : List (Nat × Nat)) : State :=
  s.modCore c fun k =>
    { k with imcache := k.imcache.filter fun n => !(l.any fun p => decide (p.1 < n.pa + 64 ∧ n.pa < p.1 + p.2)) }

/-- Locate for a store; the continuation gets the pieces. Page faults take cause 15. -/
def State.forStore (s : State) (va : Word) (n : Nat) (acc : Acc) (k : State → List (Nat × Nat) → Out) : Out :=
  match s.locate s.cur (s.core s.cur).dataMode va.toNat n acc with
  | (_, .reserved pa) => .fault (.reservedAddress pa)
  | (s, .fault kind a) => s.recordTrap 15 kind a s.me.epc
  | (s, .pieces l) => k (s.dropImages s.cur l) l

/-- Store bytes at `va` for the control core. -/
def State.store (s : State) (va : Word) (bs : List Byte) (k : State → Out) : Out :=
  s.forStore va bs.length .write fun s l => k ((s.writePieces l bs).chargeRun s.cur (costPieces l))

end Sys2Proof.Machine
end

