-- ==== Sys2Proof/Machine/Barriers.lean ====
section
/-! DEFINITION. Barriers (R164 to R169): arrivals, and BINIT, BARV, BWAIT, BARW, BTEST, BPHASE. -/

namespace Sys2Proof.Machine

/-- The arrival of R166 on a barrier: counted, and the phase completed when ARR reaches EXP. -/
def Barrier.arrive (b : Barrier) (err : Bool) : Barrier :=
  let arr := b.arr + 1
  let ep := b.ep || err
  if arr = b.exp then { b with ph := b.ph + 1, el := ep, ep := false, arr := 0 }
  else { b with arr := arr, ep := ep }

/-- A dead letter of an arrival: the event's payload names a handle, and an arrival has none, so the payload is a
free value (log entry 7). An arrival no slot counts is traced (R336). -/
def State.deadArrival (s : State) (a : Arrival) : State :=
  match a.sender with
  | none => s.traceAdd a.sendDie 0 8 a.core a.bn
  | some _ => s.takeFree.deadLetter a.sender a.senderTask s.freeVal.toNat

/-- arrive of R166, for an arrival at a barrier of this package. -/
def State.arrive (s : State) (a : Arrival) : State :=
  match (s.core a.core).bar a.bn with
  | none => s.deadArrival a
  | some b =>
    if b.exp = 0 ∨ ((s.slot a.core b.owner).task.map Task.vi) ≠ some a.vi ∨ 640 ≤ a.core then s.deadArrival a
    else
      let b' := b.arrive a.err
      let s := s.setBar a.core a.bn (some b')
      if b.arr + 1 = b.exp ∧ b'.el then s.post a.core b.owner Event.barErr a.bn else s

/-- A package of the pod that the route table reaches over a link that is up (R371). -/
def State.reaches (s : State) (pkg : Nat) : Bool :=
  pkg == s.podid.toNat ||
    match s.routes.find? fun r => r.1 == pkg with
    | some (_, l) => (Tab.get {} s.links l).up
    | none => false

def State.inPod (s : State) (pkg : Nat) : Bool := pkg == s.podid.toNat || s.routes.any fun r => r.1 == pkg

/-- Put something in flight. -/
def State.launchFlight (s : State) (f : Flight) : State :=
  { s with net := Tab.set s.net s.netNo f, netNo := s.netNo + 1 }

/-- The sender fields of the running task. -/
def State.sender (s : State) : Option (Nat × Nat) × Word :=
  match (s.core s.cur).running with
  | some n => (some (s.cur, n), (s.runTask s.cur).elim 0 s.handleOf)
  | none => (none, 0)

/-- The arrival a barrier reference names (R166). -/
def State.arrivalOf (s : State) (ref : Nat) : Arrival :=
  let loc := bitAt ref 12
  { pkg := if loc then s.podid.toNat else bits ref 32 8, core := if loc then s.cur else bits ref 16 10,
    bn := bits ref 0 11, err := bitAt ref 11, vi := s.runVi s.cur, sender := s.sender.1, sendDie := dieOf s.cur,
    senderTask := s.sender.2 }

/-- Send an arrival: one whose core field names no core is a dead letter at once (R166). -/
def State.sendArrival (s : State) (a : Arrival) : State :=
  if 640 ≤ a.core then s.deadArrival a else s.launchFlight (.arrival a)

/-- The barrier, if it is granted to the running slot. -/
def State.myBar (s : State) (bn : Nat) : Option Barrier :=
  match (s.core s.cur).bar bn, (s.core s.cur).running with
  | some b, some n => if b.owner = n then some b else none
  | _, _ => none

/-- Phase `p` has reached `tgt` (R167). -/
def reached (p tgt : Half) : Bool := decide ((p - tgt).toNat < 0x8000)

/-- The wait word of a barrier (Table 11-5); a barrier not granted to the slot reads INV and zeros (log entry 25). -/
def State.waitWord (s : State) (bn tgt : Nat) : Word :=
  let t := BitVec.ofNat 16 tgt
  match s.myBar bn with
  | none => BitVec.ofNat 64 (2 ^ 50 + t.toNat * 2 ^ 16 + bn)
  | some b => BitVec.ofNat 64 (b2n (b.exp == 0) * 2 ^ 50 + b2n (reached b.ph t) * 2 ^ 49 + b2n b.el * 2 ^ 48
      + b.ph.toNat * 2 ^ 32 + t.toNat * 2 ^ 16 + bn)

def waitBn (w : Word) : Nat := bits w.toNat 0 11
def waitTgt (w : Word) : Nat := bits w.toNat 16 16

/-- Complete BWAIT or BARW with a wait word: with RCH and EL set on a barrier whose TE is set, BARRIER_ERROR is
taken at the following instruction, after rd is written (R168). -/
def State.finishWait (s : State) (rd : Reg) (w : Word) : Out :=
  let te := (s.myBar (waitBn w)).elim false Barrier.te
  let s := (s.setX rd w).retire
  if w.getLsbD 49 && w.getLsbD 48 && te then .next (s.takeTrap s.cur false 29 w s.me.pc) else .next s

/-- The condition BWAIT and BARW wait for: RCH or INV (R167). -/
def State.waitReady (s : State) (w : Waiting) : Option Word :=
  let v := s.waitWord (waitBn w.a) (waitTgt w.a)
  if v.getLsbD 49 || v.getLsbD 50 then some v else none

def State.tryBarrier (s : State) (rd : Reg) (w : Waiting) : Out :=
  match s.waitReady w with
  | some v => s.finishWait rd v
  | none => s.waitOn w

def execBinit (rd rs1 rs2 : Reg) (s : State) : Out :=
  s.begin (.binit rd rs1 rs2) [rd, rs1, rs2] <|
    let bn := bits (s.getX rs1).toNat 0 11
    let v := (s.getX rs2).toNat
    match s.myBar bn with
    | none => s.result rd 2
    | some b =>
      let exp := BitVec.ofNat 16 v
      let sc := BitVec.ofNat 3 (bits v 16 3)
      if exp = 0 ∨ ¬ scopeOk sc then s.result rd 1
      else (s.setBar s.cur bn (some { owner := b.owner, sc := sc, exp := exp, te := bitAt v 19 })).result rd 0

def execBarv (rs1 : Reg) (s : State) : Out :=
  s.begin (.barv rs1) [rs1] <| .next (s.sendArrival (s.arrivalOf (s.getX rs1).toNat)).retire

def execBwait (rd rs1 : Reg) (s : State) : Out :=
  s.begin (.bwait rd rs1) [rd, rs1] <|
    s.tryBarrier rd { instr := .bwait rd rs1, len := 4, a := s.getX rs1 }

def execBarw (rd rs1 : Reg) (s : State) : Out :=
  s.begin (.barw rd rs1) [rd, rs1] <|
    let bn := bits (s.getX rs1).toNat 0 11
    let tgt := ((s.core s.cur).bar bn).elim 1 fun b => b.ph + 1
    let a := { s.arrivalOf bn with pkg := s.podid.toNat, core := s.cur }
    let s := s.arrive a
    s.tryBarrier rd { instr := .barw rd rs1, len := 4, a := BitVec.ofNat 64 (tgt.toNat * 2 ^ 16 + bn) }

def execBtest (rd rs1 : Reg) (s : State) : Out :=
  s.begin (.btest rd rs1) [rd, rs1] <|
    s.result rd (s.waitWord (waitBn (s.getX rs1)) (waitTgt (s.getX rs1)))

/-- The state of a barrier as BPHASE returns it (R169); all ones where it is not granted. -/
def barrierWord : Option Barrier → Word
  | none => BitVec.allOnes 64
  | some b => b.exp ++ b.arr ++ (0 : BitVec 10) ++ b.sc ++ BitVec.ofBool b.te ++ BitVec.ofBool b.ep ++
      BitVec.ofBool b.el ++ b.ph

def execBphase (rd rs1 : Reg) (s : State) : Out :=
  s.begin (.bphase rd rs1) [rd, rs1] <|
    s.result rd (barrierWord (s.myBar (bits (s.getX rs1).toNat 0 11)))

/-- An arrival in flight reaches its barrier; one for another package leaves over the pod links, or is a dead
letter where that package cannot be reached (R166, R371). -/
def execBarrierArrival (flight : Nat) (s : State) : Out :=
  match s.net.find? fun f => f.1 == flight with
  | some (_, .arrival a) =>
    s.onDie (dieOf a.core) <|
    let s := { s with net := Tab.del s.net flight }
    if a.pkg = s.podid.toNat then .next (s.arrive a)
    else if s.reaches a.pkg then .next s
    else .next (s.deadArrival a)
  | _ => .next s

end Sys2Proof.Machine
end

