-- ==== Sys2Proof/Machine/Messages.lean ====
section
/-! DEFINITION. Signal-store messages (R170, R171, R333, R337, R115) and the event queue (R172, R173). -/

namespace Sys2Proof.Machine

/-! ## Task handles (Table 21-4) -/

def hPkg (h : Word) : Nat := bits h.toNat 56 8
def hVi (h : Word) : Nat := bits h.toNat 45 11
def hQueue (h : Word) : Nat := bits h.toNat 33 12
def hSeq (h : Word) : Nat := bits h.toNat 17 16
def hDie (h : Word) : Nat := bits h.toNat 15 2
def hChunk (h : Word) : Nat := bits h.toNat 5 10
def hGidx (h : Word) : Nat := bits h.toNat 0 5

/-- The gang width of a card (Table 21-3). -/
def Card.gang (d : Card) : Nat := bits (fld d.bytes 0x16 1) 0 5 + 1

/-- The slot that holds the task a handle names. -/
def State.findTask (s : State) (h : Word) : Option (Nat × Nat) :=
  s.cores.findSome? fun (c, k) => k.slots.findSome? fun (n, l) =>
    match l.task with
    | some t => if s.handleOf t = h then some (c, n) else none
    | none => none

/-- The states of a handle (Table 21-7). -/
inductive HandleState where
  | exited
  | notPlaced
  | placed (core slot : Nat)
  | swapped (area : Nat)
deriving DecidableEq, Repr

/-- S of R337: the number of the queue's oldest card that has not completed. -/
def Queue.oldest (k : Queue) : Nat := (k.cards.head?.map Card.num).getD k.r

/-- The card numbered `seq` modulo 2^16 has completed, by the test of Table 21-7. -/
def Queue.past (k : Queue) (seq : Nat) : Bool := decide (0x8000 ≤ (seq + 0x10000 - k.oldest % 0x10000) % 0x10000)

/-- The card has been accepted: it has completed, or its number lies before R. -/
def Queue.accepted (k : Queue) (seq : Nat) : Bool :=
  k.past seq || decide ((seq + 0x10000 - k.oldest % 0x10000) % 0x10000 < k.r - k.oldest)

def State.handleState (s : State) (h : Word) : HandleState :=
  match s.findTask h with
  | some (c, n) => .placed c n
  | none =>
    match s.saved.find? fun t => s.handleOf t.task == h with
    | some t => .swapped t.area
    | none =>
      match s.queue (hVi h) (hQueue h) with
      | none => .notPlaced
      | some k =>
        if k.past (hSeq h) then .exited
        else if !k.accepted (hSeq h) then .notPlaced
        else
          match k.cards.find? fun d => d.num % 0x10000 == hSeq h with
          | none => .exited
          | some d => if hGidx h < d.gang && d.ordinal ≤ hChunk h && !d.cancelled then .notPlaced else .exited

/-- Send failed: the sender's dead letter, with the target handle. -/
def State.deadMessage (s : State) (m : Message) : State :=
  match m.sender with
  | none => s.traceAdd (hDie m.target) 0 8 m.target.toNat 0
  | some _ => s.deadLetter m.sender m.senderTask m.target.toNat

/-- A task that is placed but waits for the banks it claims: its window is still the handing task's (R331). -/
def Slot.claiming (l : Slot) : Bool := l.task.any fun t => t.claim.isSome && !t.started

/-- The window in which a message to a slot stores, as base and size in banks: of a task that waits for the banks it claims,
those banks (R331; log entry 71). -/
def State.msgWindow (s : State) (c n : Nat) : Nat × Nat :=
  if (s.slot c n).claiming then
    match ((s.slot c n).task.bind Task.claim).bind fun h => s.handles.find? fun x => x.handle == h with
    | some h => (h.base, h.count)
    | none => (s.core c).win n
  else (s.core c).win n

/-- Apply a message to the task in a slot: the store, then the arrival (R171). -/
def State.applyMessage (s : State) (c n : Nat) (m : Message) : State :=
  let w := if m.flags.getLsbD 0 then 8 else 4
  let o := m.doff.toNat
  let stores := m.doff != 0xFFFFFFFF
  let win := s.msgWindow c n
  let inside := decide (o + w ≤ win.2 * 0x10000)
  let bs := toLE w m.data.toNat
  let a := win.1 * 0x10000 + o
  let s := if stores && inside then (if m.pois then s.spadWritePois c a bs else s.spadWrite c a bs) else s
  if m.bn.getLsbD 15 then s
  else
    let bn := bits m.bn.toNat 0 11
    match (s.core c).bar bn with
    | some b =>
      if b.owner = n ∧ b.exp ≠ 0 then
        s.arrive { pkg := s.podid.toNat, core := c, bn := bn, err := m.flags.getLsbD 1 || (stores && !inside),
                   vi := hVi m.target, sender := m.sender, senderTask := m.senderTask }
      else s.deadMessage m
    | none => s.deadMessage m

/-- Hold a message for a task not yet placed in the die's mailbox area: 64 for one task, as many as the area holds. -/
def State.holdMessage (s : State) (m : Message) : State :=
  let k := s.die (hDie m.target)
  if (k.mail.filter fun x => x.target == m.target).length < 64 ∧ k.mail.length < Config.mailboxSize then
    s.modDie (hDie m.target) fun k => { k with mail := k.mail ++ [m] }
  else s.deadMessage m

/-- A message as the saved-context mailbox holds it (Table 23-9): the block, the sender's handle, 8 zero bytes. -/
def messageBytes (m : Message) : List Byte :=
  toLE 8 m.data.toNat ++ toLE 4 m.doff.toNat ++ toLE 2 m.bn.toNat ++ toLE 1 m.flags.toNat ++ toLE 1 0 ++
    toLE 8 m.senderTask.toNat ++ toLE 8 0

/-- Deliver a message of this package by the state of its handle (Table 21-7). -/
def State.deliver (s : State) (m : Message) : State :=
  match s.handleState m.target with
  | .exited => s.deadMessage m
  | .notPlaced => s.holdMessage m
  | .placed c n => s.applyMessage c n m
  | .swapped area =>
    match s.saved.find? fun t => t.area == area with
    | none => s
    | some t =>
      if t.nmail < 64 then
        let s := s.memWrite (area + 0x4000 + 32 * t.nmail) (messageBytes m)
        { s with saved := s.saved.map fun u => if u.area = area then { u with nmail := u.nmail + 1 } else u }
      else s.deadMessage m

/-- A handle an instruction may use: a package of the pod, the sender's own interface, which exists, and, once the
card is accepted, a GIDX inside its gang (R170, R333). -/
def State.handleOk (s : State) (vi : Nat) (h : Word) : Bool :=
  s.inPod (hPkg h) && hVi h == vi && ((s.iface vi).enabled || vi == 0) &&
    match s.queue (hVi h) (hQueue h) with
    | some k =>
      hPkg h != s.podid.toNat || !k.accepted (hSeq h) || decide (hGidx h < Tab.get 32 k.widths (hSeq h))
    | none => true

/-- A message block's reserved fields are zero and DOFF is a multiple of the store width (Table 11-7). -/
def msgBlockOk (b : List Byte) : Bool :=
  let doff := fld b 8 4
  let w := if bitAt (fld b 14 1) 0 then 8 else 4
  bits (fld b 12 2) 11 4 == 0 && bits (fld b 14 1) 2 6 == 0 && fld b 15 1 == 0 &&
    (doff == 0xFFFFFFFF || doff % w == 0)

def State.messageOf (s : State) (h : Word) (b : List Byte) : Message :=
  { target := h, data := BitVec.ofNat 64 (fld b 0 8), doff := BitVec.ofNat 32 (fld b 8 4),
    bn := BitVec.ofNat 16 (fld b 12 2), flags := BitVec.ofNat 8 (fld b 14 1), sender := s.sender.1,
    senderTask := s.sender.2 }

/-- SSIG. Where the handle is malformed and the block is bad too it answers 1: the spec gives no order (log entry 71). -/
def execSsig (rd rs1 rs2 : Reg) (s : State) : Out :=
  s.begin (.ssig rd rs1 rs2) [rd, rs1, rs2] <|
    let h := s.getX rs1
    let va := s.getX rs2
    if va.toNat % 16 ≠ 0 then s.trap 4 va
    else s.load va 16 fun s b =>
      if !s.handleOk (s.runVi s.cur) h then s.result rd 1
      else if !msgBlockOk b then s.result rd 2
      else (s.launchFlight (.message (s.messageOf h b))).result rd 0

/-- No earlier message from the same sender to the same task is still in flight (R115). -/
def State.firstInOrder (s : State) (flight : Nat) (m : Message) : Bool :=
  s.net.all fun (k, f) => match f with
    | .message x => !(decide (k < flight) && x.sender == m.sender && x.target == m.target)
    | .arrival _ => true

def execMessageDelivery (flight : Nat) (s : State) : Out :=
  match s.net.find? fun f => f.1 == flight with
  | some (_, .message m) =>
    if !s.firstInOrder flight m then .next s
    else s.onDie (hDie m.target) <|
      let s := { s with net := Tab.del s.net flight }
      if hPkg m.target = s.podid.toNat then .next (s.deliver m)
      else if s.reaches (hPkg m.target) then .next s
      else .next (s.deadMessage m)
  | _ => .next s

/-! ## Event queue -/

/-- The event queue of the running slot; empty while no slot runs (log entry 13). -/
def State.myEvents (s : State) : List Word :=
  match (s.core s.cur).running with
  | some n => (s.slot s.cur n).events
  | none => []

def State.dropEvent (s : State) : State :=
  match (s.core s.cur).running with
  | some n => s.modSlot s.cur n fun l => { l with events := l.events.drop 1 }
  | none => s

def execEvpop (rd : Reg) (s : State) : Out :=
  s.begin (.evpop rd) [rd] <| s.dropEvent.result rd (s.myEvents.headD 0)

def execEvpeek (rd : Reg) (s : State) : Out :=
  s.begin (.evpeek rd) [rd] <| s.result rd (s.myEvents.headD 0)

def execEvcnt (rd : Reg) (s : State) : Out :=
  s.begin (.evcnt rd) [rd] <| s.result rd (BitVec.ofNat 64 s.myEvents.length)

end Sys2Proof.Machine
end

