-- ==== Sys2Proof/Machine/Device.lean ====
section
/-! DEFINITION. Accesses of the device's own agents (scheduler, engines, firmware for the host) through an
interface's page tables, outside the per-core translation caches. -/

namespace Sys2Proof.Machine

/-- Translate `[va, va+n)` for an agent of die `d`: the pieces, or the kind and address of the first fault. -/
def State.devPieces (s : State) (vi d : Nat) (acc : Acc) : Nat → Nat → Nat → Except (Nat × Nat) (List (Nat × Nat))
  | 0, _, _ => .ok []
  | fuel + 1, va, n =>
    if n = 0 then .ok []
    else
      let len := min n (0x1000 - va % 0x1000)
      match s.walk vi d va acc with
      | .error k => .error (k, va)
      | .ok (e, _) =>
        match s.home d (e.pa + (va - e.va)) with
        | none => .error (Kind.pa, va)
        | some a =>
          match State.devPieces s vi d acc fuel (va + len) (n - len) with
          | .error x => .error x
          | .ok l => .ok ((a, len) :: l)

def State.devLocate (s : State) (vi d : Nat) (acc : Acc) (va n : Nat) : Except (Nat × Nat) (List (Nat × Nat)) :=
  s.devPieces vi d acc (pieces n) va n

/-- Read `n` bytes for the device; none where a byte does not translate or is poisoned. -/
def State.devRead (s : State) (vi d va n : Nat) : Option (List Byte) :=
  match s.devLocate vi d .read va n with
  | .ok l => if s.poisPieces l then none else some (s.readPieces l)
  | .error _ => none

/-- Poison that stops an access of the device's own agents is recorded: of a table their walker reads, or of bytes that are
read (R96). -/
def State.noteAcc (s : State) (acc : Acc) (vi d va n : Nat) : State :=
  match s.devLocate vi d acc va n with
  | .ok l => if acc = .read ∧ s.poisPieces l then s.traceAdd d 0 2 va 0 else s
  | .error (k, a) => if k = Kind.poison then s.traceAdd d 0 2 a 0 else s

def State.noteDev (s : State) (vi d va n : Nat) : State := s.noteAcc .read vi d va n
def State.noteWrite (s : State) (vi d va n : Nat) : State := s.noteAcc .write vi d va n

/-- Write bytes for the device; none where a byte does not translate for writing. -/
def State.devWrite (s : State) (vi d va : Nat) (bs : List Byte) : Option State :=
  match s.devLocate vi d .write va bs.length with
  | .ok l => some (s.writePieces l bs)
  | .error _ => none

end Sys2Proof.Machine
end

