-- ==== Sys2Proof/Machine/Control.lean ====
section
/-! DEFINITION. ICINV, TLBINV, RELATCH (R185 to R187) and the re-latch token (R92). -/

namespace Sys2Proof.Machine

/-- Core `d` lies within scope `sc` of core `c` (Table 00-1); `.lane` acts as `.core` and `.pod` as `.pkg`. -/
def inScope (sc : Scope) (c d : Nat) : Bool :=
  match sc.toNat with
  | 0 | 1 => c == d
  | 2 => quadOf c == quadOf d
  | 3 => dieOf c == dieOf d
  | _ => true

/-- Change every core within a scope. -/
def State.modScope (s : State) (sc : Scope) (c : Nat) (f : Core → Core) : State :=
  { s with cores := s.cores.map fun (d, k) => (d, if inScope sc c d then f k else k) }

/-! ## ICINV -/

/-- The cells of the pages of a range that translate at all, for fetching or for reading. -/
def State.cachePieces (s : State) (vi d : Nat) : Nat → Nat → Nat → List (Nat × Nat)
  | 0, _, _ => []
  | fuel + 1, va, n =>
    if n = 0 then []
    else
      let len := min n (0x1000 - va % 0x1000)
      let rest := State.cachePieces s vi d fuel (va + len) (n - len)
      match s.devPieces vi d .fetch 1 va len, s.devPieces vi d .read 1 va len with
      | .ok l, _ => l ++ rest
      | _, .ok l => l ++ rest
      | _, _ => rest

/-- A line overlaps one of the pieces. -/
def Line.inPieces (n : Line) (l : List (Nat × Nat)) : Bool := l.any fun p => decide (p.1 < n.pa + 64 ∧ n.pa < p.1 + p.2)

/-- Discard the lines over an object's pages in every core: ICINV.pkg over them (R377, R185). -/
def State.dropCode (s : State) (vi : Nat) (o : Obj) : State :=
  let d := (s.iface vi).die
  let l := o.secs.flatMap fun (va, n, _) => s.cachePieces vi d (pieces (roundUp n 0x10000)) va (roundUp n 0x10000)
  let keep (x : Line) : Bool := !x.inPieces l
  { s with cores := s.cores.map fun (c, k) => (c, { k with icache := k.icache.filter keep, imcache := k.imcache.filter keep }) }

/-- Some task of an interface that was dealt under a generation below `u` has not retired (R377). -/
def State.olderTask (s : State) (vi u : Nat) : Bool :=
  let old (t : Task) : Bool := t.vi == vi && decide (t.gen < u)
  (s.cores.any fun (_, k) => k.slots.any fun (_, l) => l.task.any old) || s.saved.any fun t => old t.task

/-- Free the pages of the unloaded objects of an interface that no task can enter any more: ICINV.pkg over their range,
and the object is gone (R377). -/
def State.freeObjects (s : State) (vi : Nat) : State :=
  let done (o : Obj) : Bool := o.unload.any fun u => !s.olderTask vi u
  let gone := (s.iface vi).objs.filter done
  if gone.isEmpty then s
  else (gone.foldl (fun s o => s.dropCode vi o) s).modIface vi fun i => { i with objs := i.objs.filter fun o => !done o }

/-- Ranges longer than 16 MiB discard every line (log entry 9). -/
def icinvLimit : Nat := 2 ^ 24

def execIcinv (sc : Scope) (rs2 rs1 : Reg) (s : State) : Out :=
  s.begin (.icinv sc rs2 rs1) [rs1, rs2] <|
    let va := (s.getX rs1).toNat
    let n := (s.getX rs2).toNat
    let l := if n ≤ icinvLimit then s.cachePieces (s.runVi s.cur) (dieOf s.cur) (pieces n) va n else []
    let keep (x : Line) : Bool := decide (n ≤ icinvLimit) && !x.inPieces l
    .next ((s.modScope sc s.cur fun k => { k with icache := k.icache.filter keep, imcache := k.imcache.filter keep }).retire)

/-! ## TLBINV and RELATCH -/

/-- The range and interface of R186: base, length (none: the whole address space), interface (none: every one). -/
structure Shootdown where
  base : Nat
  len : Option Nat
  vi : Option Nat
deriving DecidableEq, Repr

def shootdownOf (x1 x2 : Word) : Shootdown :=
  let n := bits x2.toNat 0 48
  { base := bits x1.toNat 16 39 * 0x10000, len := if n = 0 then none else some (roundUp n 0x10000),
    vi := if x2.getLsbD 63 then none else some (bits x2.toNat 48 11) }

/-- A range `[va, va+n)` of an interface falls under a shoot-down. -/
def Shootdown.hits (t : Shootdown) (vi va n : Nat) : Bool :=
  (t.vi.all fun v => v == vi) && match t.len with
    | none => true
    | some m => decide (va < t.base + m ∧ t.base < va + n)

/-- The VA range a walk-cache pointer stands for. -/
def WalkEntry.span (w : WalkEntry) : Nat × Nat := if w.level = 2 then (w.va * 2 ^ 42, 2 ^ 42) else (w.va * 2 ^ 29, 2 ^ 29)

/-- Discard the cached translations within a scope (R186, R91). -/
def State.shootTlb (s : State) (sc : Scope) (c : Nat) (t : Shootdown) : State :=
  let s := s.modScope sc c fun k => { k with tlb := k.tlb.filter fun e => !t.hits e.vi e.va (2 ^ e.sz) }
  let ds := if sc.toNat ≤ 3 then [dieOf c] else [0, 1, 2, 3]
  ds.foldl (fun s d => s.modDie d fun k => { k with walks := k.walks.filter fun w => !t.hits w.vi w.span.1 w.span.2 }) s

def execTlbinv (sc : Scope) (rs2 rs1 : Reg) (s : State) : Out :=
  s.priv (.tlbinv sc rs2 rs1) <| s.begin (.tlbinv sc rs2 rs1) [rs1, rs2] <|
    .next ((s.shootTlb sc s.cur (shootdownOf (s.getX rs1) (s.getX rs2))).retire)

/-- The ports a token passes: a stream port is (core, 0 to 7), the engine of queue `q` of slot `n` is
(core, 8 + 8*n + q). -/
def State.edgePorts (s : State) (sc : Scope) (c : Nat) : List (Nat × Nat) :=
  s.cores.flatMap fun (d, k) =>
    if inScope sc c d then
      (k.ports.filterMap fun (p, x) => if x.stream.isSome then some (d, p) else none)
        ++ k.slots.flatMap fun (n, l) => l.queues.filterMap fun (q, es) => if es.isEmpty then none else some (d, 8 + 8 * n + q)
    else []

/-- Send a re-latch token; its number. A scope without an open port is left at once. -/
def State.sendToken (s : State) (sc : Scope) (c : Nat) (t : Shootdown) : State :=
  match s.edgePorts sc c with
  | [] => { s with tokenNo := s.tokenNo + 1 }
  | ps => { s with tokens := s.tokens ++ [⟨s.tokenNo, c, t.base, t.len, t.vi, ps⟩], tokenNo := s.tokenNo + 1 }

/-- RELATCH completes when its token has left the last port, and no earlier than one its core sent before (R187). -/
def State.tryRelatch (s : State) (w : Waiting) : Out :=
  if s.tokens.any fun t => t.core == s.cur && decide (t.num < w.n) then s.waitOn w else .next s.retire

def execRelatch (sc : Scope) (rs2 rs1 : Reg) (s : State) : Out :=
  s.priv (.relatch sc rs2 rs1) <| s.begin (.relatch sc rs2 rs1) [rs1, rs2] <|
    (s.sendToken sc s.cur (shootdownOf (s.getX rs1) (s.getX rs2))).tryRelatch
      { instr := .relatch sc rs2 rs1, len := 4, n := s.tokenNo + 1 }

def Token.shoots (t : Token) : Shootdown := ⟨t.base, t.len, t.vi⟩

def dropRanges (t : Token) (l : List RangeEntry) : List RangeEntry := l.filter fun r => !t.shoots.hits r.vi r.va r.len

/-- A port drops the range entries a token names. What it has translated it has performed (log entry 1). -/
def State.relatchPort (s : State) (t : Token) (c p : Nat) : State :=
  if p < 8 then
    s.modPort c p fun x => { x with stream := x.stream.map fun y => { y with ranges := dropRanges t y.ranges } }
  else
    s.modSlot c ((p - 8) / 8) fun l =>
      l.setQueue ((p - 8) % 8) ((l.queue ((p - 8) % 8)).map fun e => { e with ranges := dropRanges t e.ranges })

/-- RELATCH_TOKEN: the token reaches its next port. -/
def execRelatchToken (token : Nat) (s : State) : Out :=
  match s.tokens.find? fun t => t.num == token with
  | none => .next s
  | some t =>
    s.onDie (dieOf t.core) <|
    match t.ports with
    | [] => .next { s with tokens := s.tokens.filter fun x => x.num != token }
    | (c, p) :: rest =>
      let s := s.relatchPort t c p
      .next { s with tokens := if rest.isEmpty then s.tokens.filter (fun x => x.num != token)
                               else s.tokens.map fun x => if x.num = token then { x with ports := rest } else x }

end Sys2Proof.Machine
end

