-- ==== Sys2Proof/Machine/Queues.lean ====
section
/-! DEFINITION. User queues, notifies, mapping, job cards and their completion (R321 to R328, R335, R336). -/

namespace Sys2Proof.Machine

/-! ## Descriptor and card fields (Tables 21-1 and 21-3) -/

def Queue.ring (k : Queue) : Nat := fld k.desc 0x00 8
def Queue.logn (k : Queue) : Nat := fld k.desc 0x08 1
def Queue.pri (k : Queue) : Nat := bits (fld k.desc 0x09 1) 0 3
def Queue.devenq (k : Queue) : Bool := bitAt (fld k.desc 0x09 1) 7
def Queue.slice (k : Queue) : Nat := fld k.desc 0x0C 4
def Queue.widx (k : Queue) : Nat := fld k.desc 0x10 8
def Queue.ridx (k : Queue) : Nat := fld k.desc 0x18 8
def Queue.per (k : Queue) : Nat := fld k.desc 0x20 4
def Queue.qnt (k : Queue) : Nat := fld k.desc 0x24 4
def Queue.bcyc (k : Queue) : Nat := fld k.desc 0x28 8
def Queue.bhbm (k : Queue) : Nat := fld k.desc 0x30 8
def Queue.bpas (k : Queue) : Nat := fld k.desc 0x38 4
def Queue.cfirst (k : Queue) : Nat := fld k.desc 0x3C 1
def Queue.ccnt (k : Queue) : Nat := fld k.desc 0x3D 1

/-- Every field of a queue descriptor is in range (Table 21-1, R321). -/
def descOk (b : List Byte) : Bool :=
  let q : Queue := { die := 0, desc := b }
  q.ring % 0x1000 == 0 && decide (q.ring < 2 ^ 55) && decide (1 ≤ q.logn ∧ q.logn ≤ 16)
    && bits (fld b 0x09 1) 3 4 == 0 && zeroAt b 0x0A 2
    && decide (1024 ≤ q.slice ∧ q.slice ≤ 2 ^ 24 - 1)
    && q.widx % 8 == 0 && q.ridx % 8 == 0
    && decide (12500 ≤ q.per ∧ q.per ≤ 125000000) && decide (1 ≤ q.qnt)
    && decide (q.cfirst ≤ 159) && decide (1 ≤ q.ccnt ∧ q.ccnt ≤ 160 - q.cfirst) && zeroAt b 0x3E 2

def Card.f (d : Card) (off n : Nat) : Nat := fld d.bytes off n
def Card.kentry (d : Card) : Nat := d.f 0x00 8
def Card.argb (d : Card) : Nat := d.f 0x08 8
def Card.argn (d : Card) : Nat := d.f 0x10 4
def Card.argsz (d : Card) : Nat := d.f 0x14 2
def Card.slotReq (d : Card) : Nat := bits (d.f 0x17 1) 0 6
def Card.nbar (d : Card) : Nat := d.f 0x18 2
def Card.opn (d : Card) : Nat := d.f 0x1A 2
def Card.handin (d : Card) : Nat := d.f 0x20 8
def Card.opl (d : Card) : Nat := d.f 0x28 8
def Card.crec (d : Card) : Nat := d.f 0x30 8
def Card.csig (d : Card) : Nat := d.f 0x38 8
def Card.dep (d : Card) (n : Nat) : Nat := d.f (0x40 + 8 * n) 8
def Card.jobid (d : Card) : Nat := d.f 0x60 8

/-- An operand move of the card has failed (R329). -/
def Card.stopped (d : Card) : Bool := d.stopAt.isSome

/-- A card completes when it holds no undealt record and all its dealt tasks have retired (R335). -/
def Card.complete (d : Card) : Bool := (d.remaining == 0 || d.stopped || d.cancelled) && d.out == 0

/-- The cards that have become complete join the line of records to be written (R335). -/
def Queue.noteDone (k : Queue) : Queue :=
  { k with dones := k.dones ++ ((k.cards.filter fun d => d.complete && !k.dones.contains d.num).map Card.num) }

/-- The card at the head: the oldest that still has records to deal. -/
def Queue.head (k : Queue) : Option Card := k.cards.find? fun d => decide (0 < d.remaining) && !d.stopped && !d.cancelled

/-! ## Notify and mapping (R323 to R325) -/

/-- Read W (R322); where it does not translate or is poisoned, no card is accepted and the trace records it. -/
def State.readW (s : State) (vi q : Nat) : State :=
  match s.queue vi q with
  | none => s
  | some k =>
    match s.devRead vi k.die k.widx 8 with
    | some b => s.modQueue vi q fun k => { k with w := leNat b }
    | none => ((s.noteDev vi k.die k.widx 8).modQueue vi q fun k => { k with w := k.r }).traceAdd k.die 0 7 vi q

/-- A notify of a queue (R324). -/
def State.notify (s : State) (vi q : Nat) : State :=
  match s.queue vi q with
  | none => s
  | some k =>
    match k.st with
    | .mapped _ => s.readW vi q
    | _ => s.modQueue vi q fun k => { k with st := .pending }

def execNotify (vi q : Nat) (s : State) : Out := s.onDie 0 <| .next (s.notify vi q)

/-- A queue the scheduler may map: PENDING or mapped by the journal, on this die, its interface's XROOT valid
(R325, R87). -/
def State.mappable (s : State) (d vi q : Nat) : Bool :=
  match s.queue vi q with
  | some k => k.die == d && !k.destroyed && (s.iface vi).xroot.isSome &&
      (match k.st with
        | .pending => true
        | .unmapped => k.journal
        | .mapped _ => false)
  | none => false

/-- Every queue of every interface: (interface, queue). -/
def State.allQueues (s : State) : List (Nat × Nat) :=
  s.ifaces.flatMap fun (vi, i) => i.queues.filterMap fun (q, k) => k.map fun _ => (vi, q)

def State.priOf (s : State) (vi q : Nat) : Nat := (s.queue vi q).elim 0 Queue.pri

/-- The choice of R325: highest priority, then lowest interface, then lowest queue. -/
def State.chosenForMap (s : State) (d vi q : Nat) : Bool :=
  s.mappable d vi q && s.allQueues.all fun (v, p) =>
    !s.mappable d v p || decide (s.priOf v p < s.priOf vi q)
      || (s.priOf v p == s.priOf vi q && (decide (vi < v) || (vi == v && decide (q ≤ p))))

/-- Map a queue into a free hardware slot: the descriptor is read, then W (R321, R324). -/
def execQueueMap (die hw vi q : Nat) (s : State) : Out :=
  s.onDie die <|
  if hw < 128 ∧ (Tab.get none (s.die die).hwq hw) = none ∧ s.chosenForMap die vi q then
    let s := s.modDie die fun k => { k with hwq := Tab.set k.hwq hw (some (vi, q)) }
    let va := (s.queue vi q).elim 0 Queue.descVa
    let s := match s.devRead vi die va 64 with
      | some b => s.modQueue vi q fun k => { k with desc := b }
      | none => s.noteDev vi die va 64
    let s := s.modQueue vi q fun k => { k with st := .mapped hw }
    .next (s.readW vi q)
  else .next s

/-- Unmap the queue of a hardware slot (R325); the deficit counter and the budgets stay with the queue. -/
def State.unmap (s : State) (d hw : Nat) : State :=
  match Tab.get none (s.die d).hwq hw with
  | none => s
  | some (vi, q) =>
    (s.modDie d fun k => { k with hwq := Tab.set k.hwq hw none }).modQueue vi q fun k => { k with st := .unmapped }

/-- The scheduler unmaps a queue that has nothing left to accept or deal while another waits for a slot. -/
def execQueueUnmap (die hw : Nat) (s : State) : Out :=
  s.onDie die <|
  match Tab.get none (s.die die).hwq hw with
  | none => .next s
  | some (vi, q) =>
    match s.queue vi q with
    | none => .next (s.unmap die hw)
    | some k =>
      if k.w = k.r ∧ k.head = none ∧ (s.allQueues.any fun (v, p) => s.mappable die v p) then .next (s.unmap die hw)
      else .next s

/-! ## Completion (R335, R336) -/

/-- A card's status: the highest of the codes that apply (Table 21-6). -/
def Card.finalStatus (d : Card) : Nat := max d.status (if d.exit ≠ 0 then 1 else 0)

/-- FREC of a card's completion record: the VA of its first fault record, or 0. The record lies at a physical address, and
the spec gives it no VA (log entry 74). -/
def Card.frecVa (d : Card) (vi : Nat) : Nat := if d.frec = 0 then 0 else (Config.recordVa vi d.frec).toNat

/-- Bytes 0x08 to 0x3F of the completion record. -/
def Card.recordTail (d : Card) (vi t0 : Nat) : List Byte :=
  toLE 8 (d.tstart.getD t0) ++ toLE 8 d.tfin ++ toLE 8 d.ucyc ++ toLE 8 d.uhbm ++ toLE 4 d.upas ++ toLE 2 d.ordinal
    ++ toLE 2 0 ++ toLE 8 (d.frecVa vi) ++ toLE 8 d.jobid

def Card.statusWord (d : Card) : Nat :=
  2 ^ 63 + min d.faults 0xFFFF * 2 ^ 32 + d.exit % 2 ^ 16 * 2 ^ 16 + d.finalStatus

/-- Carry out a card's CSIG (R336). -/
def State.csig (s : State) (vi d : Nat) (k : Card) : State :=
  let g := k.csig
  match bits g 62 2 with
  | 1 =>
    let err := bitAt g 11 || k.finalStatus != 0
    s.sendArrival ⟨bits g 32 8, bits g 16 10, bits g 0 11, err, vi, none, d, 0⟩
  | 2 => s.send (.msix vi (bits g 0 11))
  | _ => s

/-- Messages held for chunks a card completes without dealing become dead letters (R337), and so do those for a
gang index the card does not have (R333). -/
def State.dropMail (s : State) (d : Nat) (p : Message → Bool) : State :=
  let dead := (s.die d).mail.filter p
  let s := s.modDie d fun k => { k with mail := k.mail.filter fun m => !p m }
  dead.foldl State.deadMessage s

/-- Release the handed banks of handles no dealt task has claimed, when the handing card's last task retires (R332). -/
def State.releaseHandles (s : State) (vi q num : Nat) : State :=
  { s with handles := s.handles.map fun h =>
      if h.vi = vi ∧ h.q = q ∧ h.card = num ∧ h.handed ∧ ¬ h.claimed then { h with released := true } else h }

/-- Complete a card: the record, then STATUS, then CSIG; the card leaves the queue. Where CREC does not translate
the record is not written and the trace records it (R336). -/
def State.completeCard (s : State) (vi q num : Nat) : State :=
  match s.queue vi q with
  | none => s
  | some k =>
    match k.card num with
    | none => s
    | some d =>
      let s := match s.devWrite vi k.die (d.crec + 8) (d.recordTail vi s.time) with
        | some t =>
          match t.devWrite vi k.die d.crec (toLE 8 d.statusWord) with
          | some u => u
          | none => (t.noteWrite vi k.die d.crec 8).traceAdd k.die 0 6 vi q
        | none => (s.noteWrite vi k.die (d.crec + 8) 56).traceAdd k.die 0 6 vi q
      let s := s.modQueue vi q fun k =>
        { k with cards := k.cards.filter (fun c => c.num != num), dones := k.dones.filter (· != num) }
      let s := s.releaseHandles vi q num
      let s := s.dropMail k.die fun m => hVi m.target == vi && hQueue m.target == q && hSeq m.target == num % 0x10000
      s.csig vi k.die d

/-- CARD_COMPLETE: the records of one queue are written in completion order (R335). -/
def execCardComplete (vi q card : Nat) (s : State) : Out :=
  match s.queue vi q with
  | some k => s.onDie k.die <| .next (if k.dones.head? = some card then s.completeCard vi q card else s)
  | none => .next s

/-! ## Acceptance (R327) -/

/-- The VA lies in an executable page of a loaded CODE section of the interface (R327, R377). -/
def Iface.codeAt (i : Iface) (va : Nat) : Bool :=
  i.objs.any fun o => o.unload.isNone && o.secs.any fun (b, n, x) =>
    x && decide (b ≤ va ∧ va < b + roundUp n 0x10000)

/-- The placement range can hold a gang of `g` (R327): a quad with g cores of it, or g/4 whole quads. -/
def Queue.holdsGang (k : Queue) (g : Nat) : Bool :=
  let inQuad (p : Nat) : Nat := ((upFrom (4 * p) 4).filter fun c => decide (k.cfirst ≤ c ∧ c < k.cfirst + k.ccnt)).length
  if g ≤ 4 then (upFrom 0 40).any fun p => decide (g ≤ inQuad p)
  else decide (g / 4 ≤ ((upFrom 0 40).filter fun p => inQuad p == 4).length)

/-- A dependence's fields are in order (R328). -/
def depOk (x : Nat) : Bool :=
  match bits x 62 2 with
  | 0 => true
  | 1 => bits x 55 7 == 0 && bits x 0 6 == 0
  | 2 => bits x 11 5 == 0 && bits x 26 6 == 0 && bits x 48 14 == 0
  | _ => false

def csigOk (x : Nat) : Bool :=
  match bits x 62 2 with
  | 0 => bits x 0 62 == 0
  | 1 => bits x 40 22 == 0 && !bitAt x 12 && decide (bits x 16 10 < 640)
  | 2 => bits x 11 51 == 0
  | _ => false

/-- The defects of Table 21-3 that refuse a card with BADCARD. -/
def State.badCard (s : State) (vi : Nat) (k : Queue) (d : Card) : Bool :=
  let i := s.iface vi
  let g := d.gang
  let h := d.handin
  !(decide (1 ≤ d.argn ∧ d.argn ≤ 2 ^ 24 - 1) && decide (8 ≤ d.argsz ∧ d.argsz ≤ 4096) && d.argsz % 8 == 0
    && d.argb % 8 == 0 && bits (d.f 0x16 1) 5 3 == 0 && bits (d.f 0x17 1) 6 2 == 0
    && decide (d.slotReq ≤ 32) && decide (d.nbar ≤ 2048) && decide (d.opn ≤ 64) && zeroAt d.bytes 0x1C 4
    && d.opl % 16 == 0 && (d.opn != 0 || d.opl == 0) && zeroAt d.bytes 0x68 24
    && (decide (g ≤ 4) || g % 4 == 0) && k.holdsGang g && i.codeAt d.kentry
    && (upFrom 0 4).all (fun n => depOk (d.dep n)) && csigOk d.csig
    && (h == 0 || (g == 1 && s.handles.any fun x => x.handle.toNat == h && x.vi == vi && !x.released)))

/-- A refused card is complete at once, with NCHUNK 0 and budgets 0 (R327); its record follows those of the cards that
completed before it. -/
def State.refuseCard (s : State) (vi q : Nat) (d : Card) (status : Nat) : State :=
  let d := { d with remaining := 0, status := status, tstart := some s.time, tfin := s.time }
  let first := (s.queue vi q).all fun k => k.dones.isEmpty
  let s := s.modQueue vi q fun k => ({ k with cards := k.cards ++ [d] }).noteDone
  if first then s.completeCard vi q d.num else s

/-- R advances and is written to RIDX (R322). -/
def State.advanceR (s : State) (vi q : Nat) : State :=
  let s := s.modQueue vi q fun k => { k with r := k.r + 1 }
  match s.queue vi q with
  | some k => (s.devWrite vi k.die k.ridx (toLE 8 k.r)).getD (s.noteWrite vi k.die k.ridx 8)
  | none => s

/-- Accept the card at the head of a mapped queue, once every card before it is dealt (R327, R328). -/
def execCardAccept (die hw : Nat) (s : State) : Out :=
  s.onDie die <|
  match Tab.get none (s.die die).hwq hw with
  | none => .next s
  | some (vi, q) =>
    match s.queue vi q with
    | none => .next s
    | some k =>
      if (s.die die).quiet ∨ (s.iface vi).xroot = none ∨ k.destroyed ∨ k.w ≤ k.r ∨ k.head.isSome then .next s
      else
        match s.devRead vi die (k.ring + 128 * (k.r % 2 ^ k.logn)) 128, s.devLocate vi die .write k.ridx 8 with
        | some b, .ok _ =>
          let d : Card := { num := k.r, bytes := b, remaining := fld b 0x10 4 }
          let crecOk := d.crec % 64 == 0 && (s.devLocate vi die .write d.crec 64).toOption.isSome
          let s := if d.crec % 64 = 0 then s.noteWrite vi die d.crec 64 else s
          let s := s.advanceR vi q
          let s := s.modQueue vi q fun k => { k with widths := Tab.set k.widths (d.num % 0x10000) d.gang }
          -- a gang index the card does not have, and every message for a card that is discarded
          let s := s.dropMail die fun m => hVi m.target == vi && hQueue m.target == q
            && hSeq m.target == d.num % 0x10000 && (decide (d.gang ≤ hGidx m.target) || !crecOk)
          if !crecOk then .next (s.traceAdd die 0 1 vi q)
          else if s.badCard vi k d then .next (s.refuseCard vi q d 4)
          else if (s.iface vi).winShare < d.slotReq ∨ (s.iface vi).barShare < d.nbar then .next (s.refuseCard vi q d 3)
          else .next (s.modQueue vi q fun k => { k with cards := k.cards ++ [d] })
        | _, _ =>
          let s := (s.noteDev vi die (k.ring + 128 * (k.r % 2 ^ k.logn)) 128).noteWrite vi die k.ridx 8
          .next ((s.modQueue vi q fun k => { k with w := k.r }).traceAdd die 0 7 vi q)

/-! ## TSPAWN (R182) -/

/-- Charge the running slot for an access of TSPAWN to a VA of its interface (R342). -/
def State.chargeAt (s : State) (acc : Acc) (vi va n : Nat) : State :=
  match s.devLocate vi (dieOf s.cur) acc va n with
  | .ok l => s.chargeRun s.cur (costPieces l)
  | .error _ => s

/-- Enqueue a 128-byte card into a queue as a producer does: the card, then W, then the notify. The reads of W and R and the
writes of the ring entry and W are the running slot's accesses (R342); poison that stops one is recorded (R96). -/
def State.spawn (s : State) (vi q : Nat) (card : List Byte) : State × Nat :=
  match s.queue vi q with
  | none => (s, 2)
  | some k =>
    if k.destroyed || !k.devenq then (s, 2)
    else
      let d := dieOf s.cur
      match s.devRead vi d k.widx 8, s.devRead vi d k.ridx 8 with
      | some wb, some rb =>
        let w := leNat wb
        let at_ := k.ring + 128 * (w % 2 ^ k.logn)
        let s := (s.chargeAt .read vi k.widx 8).chargeAt .read vi k.ridx 8
        if leNat rb + 2 ^ k.logn ≤ w then (s, 1)
        else
          match s.devLocate vi d .write k.widx 8, s.devWrite vi d at_ card with
          | .ok _, some t =>
            let t := (t.chargeAt .write vi at_ 128).chargeAt .write vi k.widx 8
            (((t.devWrite vi d k.widx (toLE 8 (w + 1))).getD t).notify vi q, 0)
          | _, _ => ((s.noteWrite vi d k.widx 8).noteWrite vi d at_ 128, 3)
      | _, _ => ((s.noteDev vi d k.widx 8).noteDev vi d k.ridx 8, 3)

def execTspawn (rd rs1 rs2 : Reg) (s : State) : Out :=
  s.begin (.tspawn rd rs1 rs2) [rd, rs1, rs2] <|
    let va := s.getX rs2
    let q := bits (s.getX rs1).toNat 0 12
    if va.toNat % 64 ≠ 0 then s.trap 4 va
    else s.load va 128 fun s card =>
      let (t, code) := s.spawn (s.runVi s.cur) q card
      t.result rd (BitVec.ofNat 64 code)

end Sys2Proof.Machine
end

