-- ==== Sys2Proof/Machine/Deal.lean ====
section
/-! DEFINITION. Dealing, placement, the start and the end of a task (R329 to R334, R338, R343, R178, R180). -/

namespace Sys2Proof.Machine

/-! ## Activity budgets (R343, R380) -/

/-- Charge an activity: kind 0 copy engine of a quad, 1 collective engine, 2 armature of a core, 3 scrubber. -/
def Die.chargeAct (k : Die) (kind unit vi n : Nat) : Die :=
  let same (a : ActBudget) : Bool := a.kind == kind && a.unit == unit && a.vi == vi
  if k.acts.any same then { k with acts := k.acts.map fun a => if same a then { a with used := a.used + n } else a }
  else { k with acts := k.acts ++ [⟨kind, unit, vi, n, false⟩] }

def Die.actParked (k : Die) (kind unit vi : Nat) : Bool :=
  k.acts.any fun a => a.kind == kind && a.unit == unit && a.vi == vi && a.parked

/-- The budget of an activity as last read; 0 is unlimited. -/
def Die.actLimit (k : Die) (kind vi : Nat) : Nat :=
  let (_, cp, co, ar) := Tab.get (0, 0, 0, 0) k.actLim vi
  match kind with
  | 0 => cp
  | 1 => co
  | 2 => ar
  | _ => bits k.scrb.toNat 0 48

/-! ## Eligible places (R330, R331) -/

/-- Banks `[b, b+n)` overlap no placed slot's window, which may be empty, and no banks handed on and not released. -/
def State.banksFree (s : State) (c b n : Nat) : Bool :=
  let k := s.core c
  let apart (x m : Nat) : Bool := decide (m = 0 ∨ b + n ≤ x ∨ x + m ≤ b)
  k.slots.all (fun (j, l) => l.task.isNone || apart (k.win j).1 (k.win j).2)
    && s.handles.all fun h => !(h.core == c && h.handed && !h.released) || apart h.base h.count

/-- The BASE a window of `n` banks gets in slot `j`: the current one, else the lowest that fits (R331). -/
def State.windowBase (s : State) (c j n : Nat) : Option Nat :=
  let b := ((s.core c).win j).1
  if b + n ≤ 32 && s.banksFree c b n then some b
  else firstFrom (fun x => decide (x + n ≤ 32) && s.banksFree c x n) 0 32

/-- The lowest free context slot of a core. -/
def Core.freeSlot (k : Core) : Option Nat :=
  firstFrom (fun n => (k.slot n).task.isNone && !(k.ctxBusy.any fun o => o.cmd == 3 && o.slot == n)) 0 8

/-- The lowest run of `n` free barriers (R331). -/
def Core.freeBars (k : Core) (n : Nat) : Option Nat :=
  firstFrom (fun b => decide (b + n ≤ 2048) && (upFrom b n).all fun x => (k.bar x).isNone) 0 2048

/-- Window banks of a card on its interface. -/
def State.cardBanks (s : State) (vi : Nat) (d : Card) : Nat :=
  if d.slotReq = 0 then (s.iface vi).winShare else d.slotReq

/-- The handle a card claims. -/
def State.claimOf (s : State) (d : Card) : Option Handle :=
  if d.handin = 0 then none else s.handles.find? fun h => h.handle.toNat == d.handin

/-- A core is eligible for a card (R330); a card that claims a handle only on the core that created it. -/
def State.eligible (s : State) (vi : Nat) (q : Queue) (d : Card) (c : Nat) : Bool :=
  let k := s.core c
  dieOf c == q.die && !k.outOfUse && decide (q.cfirst ≤ c % 160 ∧ c % 160 < q.cfirst + q.ccnt) &&
    match k.freeSlot with
    | none => false
    | some j =>
      (k.freeBars d.nbar).isSome &&
        (if d.handin = 0 then (s.windowBase c j (s.cardBanks vi d)).isSome
         else (s.claimOf d).any fun h => h.core == c)

def State.eligibleCores (s : State) (vi : Nat) (q : Queue) (d : Card) : List Nat :=
  (upFrom (160 * q.die) 160).filter fun c => s.eligible vi q d c

def State.count (s : State) (vi : Nat) (q : Queue) (d : Card) : Nat :=
  max 1 ((s.eligibleCores vi q d).length / d.gang)

/-- A set of cores is a place for a gang (R330). -/
def State.placeOk (s : State) (vi : Nat) (q : Queue) (d : Card) (cs : List Nat) : Bool :=
  let g := d.gang
  cs.length == g && cs.eraseDups.length == g && cs.all (fun c => s.eligible vi q d c) &&
    (if g ≤ 4 then cs.all fun c => quadOf c == quadOf (cs.headD 0)
     else cs.all fun c => (cs.filter fun x => quadOf x == quadOf c).length == 4)

/-- Some place exists: enough eligible cores in one quad, or enough whole quads. -/
def State.placeExists (s : State) (vi : Nat) (q : Queue) (d : Card) : Bool :=
  let es := s.eligibleCores vi q d
  let g := d.gang
  let inQuad (p : Nat) : Nat := (es.filter fun c => quadOf c == p).length
  let quads := upFrom (40 * q.die) 40
  if g ≤ 4 then quads.any fun p => decide (g ≤ inQuad p)
  else decide (g / 4 ≤ (quads.filter fun p => inQuad p == 4).length)

/-! ## Dependences (R328) and the choice of a queue (R338) -/

def State.depMet (s : State) (vi d x : Nat) : Bool :=
  match bits x 62 2 with
  | 0 => true
  | 1 => (s.devRead vi d (bits x 6 49 * 64) 8).any fun b => bitAt (leNat b) 63
  | 2 =>
    -- a barrier of another interface does not exist (R365)
    let c := bits x 16 10
    ((s.core c).bar (bits x 0 11)).any fun b =>
      (s.slot c b.owner).task.any (fun t => t.vi == vi) && reached b.ph (BitVec.ofNat 16 (bits x 32 16))
  | _ => false

/-- The queue has a dealable card: its head card's dependences are met, it is not parked, and a place exists; a
card whose handle claim has failed is dealt no place and needs none. -/
def State.badClaim (s : State) (d : Card) : Bool :=
  d.handin != 0 && (s.claimOf d).all fun h => h.released || h.claimed

def State.dealable (s : State) (vi q : Nat) : Bool :=
  match s.queue vi q with
  | none => false
  | some k =>
    !k.parked && !k.destroyed && !(s.die k.die).quiet && k.head.any fun d =>
      (upFrom 0 4).all (fun n => s.depMet vi k.die (d.dep n)) && (s.badClaim d || s.placeExists vi k d)

/-- The mapped queues of a die with a dealable card, by hardware slot. -/
def State.candidates (s : State) (d : Nat) : List (Nat × Nat × Nat) :=
  (s.die d).hwq.filterMap fun (hw, e) => match e with
    | some (vi, q) => if s.dealable vi q then some (hw, vi, q) else none
    | none => none

def State.topPri (s : State) (d : Nat) : Nat := (s.candidates d).foldl (fun m (_, vi, q) => max m (s.priOf vi q)) 0

/-- Visits of deficit round-robin (R338), starting at hardware slot `at`: queues in ascending slot order,
cyclically; a queue with DC > 0 is chosen, another gains its quantum. Answers the chosen slot and every DC. -/
def drr : Nat → List (Nat × Int × Int) → List (Nat × Int × Int) → Option (Nat × List (Nat × Int × Int))
  | 0, _, _ => none
  | fuel + 1, [], seen => drr fuel seen.reverse []
  | fuel + 1, (hw, dc, qnt) :: rest, seen =>
    if 0 < dc then some (hw, seen.reverse ++ (hw, dc, qnt) :: rest)
    else drr fuel rest ((hw, min (dc + qnt) qnt, qnt) :: seen)

/-- Enough visits for some queue to reach a positive deficit. -/
def drrFuel (l : List (Nat × Int × Int)) : Nat :=
  (l.foldl (fun m (_, dc, qnt) => max m ((-dc).toNat / max 1 qnt.toNat + 2)) 2) * (l.length + 1) + 2

/-- The choice of R338: the hardware slot whose queue deals next and the deficit counters after the visits. -/
def State.choose (s : State) (d : Nat) : Option (Nat × List (Nat × Int × Int)) :=
  let pri := s.topPri d
  let l := (s.candidates d).filterMap fun (hw, vi, q) =>
    match s.queue vi q with
    | some k => if k.pri = pri then some (hw, k.dc, (k.qnt : Int)) else none
    | none => none
  let start := Tab.get 0 (s.die d).rr pri
  let l := (l.filter fun x => decide (start ≤ x.1)) ++ (l.filter fun x => decide (x.1 < start))
  drr (drrFuel l) l []

def State.putDeficits (s : State) (d : Nat) (l : List (Nat × Int × Int)) : State :=
  l.foldl (fun t (hw, dc, _) =>
    match Tab.get none (t.die d).hwq hw with
    | some (vi, q) => t.modQueue vi q fun k => { k with dc := dc }
    | none => t) s

/-! ## Placement (R331) -/

/-- Set a window, first setting to SIZE 0 every window of a free slot it would overlap. -/
def Core.setWindow (k : Core) (j b n : Nat) : Core :=
  let k := (upFrom 0 8).foldl (fun k i =>
    let (x, m) := k.win i
    if i ≠ j ∧ (k.slot i).task.isNone ∧ ¬ (b + n ≤ x ∨ x + m ≤ b) then { k with swin := Tab.set k.swin i (x, 0) }
    else k) k
  { k with swin := Tab.set k.swin j (b, n) }

/-- The registers a task begins with (R331). -/
def startCtl (d : Card) (n bb : Nat) : Ctl :=
  let w := BitVec.ofNat 64
  let k : Ctl := { pc := w d.kentry }
  ((((k.setX 10 (w (d.argb + d.argsz * d.next))).setX 11 (w n)).setX 12 (w d.next)).setX 13 (w d.jobid)).setX 14 (w bb)

/-- The task of a slot takes the messages held for it, in arrival order (R115, R337). -/
def State.takeMail (s : State) (c n : Nat) : State :=
  match (s.slot c n).task with
  | none => s
  | some t =>
    let h := s.handleOf t
    let held := (s.die t.die).mail.filter fun m => m.target == h
    let s := s.modDie t.die fun k => { k with mail := k.mail.filter fun m => m.target != h }
    held.foldl (fun t m => t.applyMessage c n m) s

/-- Place one member of a chunk of `n` records on a core. Its window is zeroed first where the slot last held a task of
another interface (R76), unless it is handed on. -/
def State.placeOn (s : State) (vi q : Nat) (die : Nat) (d : Card) (n : Nat) (gang : List (Nat × Nat)) (gidx c j : Nat) :
    State :=
  let bb := if d.nbar = 0 then 0 else ((s.core c).freeBars d.nbar).getD 0
  let claim := s.claimOf d
  let banks := s.cardBanks vi d
  let task : Task := { vi := vi, q := q, card := d.num, chunk := d.ordinal, gidx := gidx, die := die, gang := gang,
                       gen := (s.iface vi).ig, first := BitVec.ofNat 64 (d.argb + d.argsz * d.next),
                       ops := upFrom 0 d.opn, claim := claim.map Handle.handle, bb := bb, nbar := d.nbar }
  let slot : Slot := { task := some task, ctl := startCtl d n bb }
  let base := (s.windowBase c j banks).getD 0
  let other := Tab.get 2000 (s.core c).lastVi j != vi
  let s := if claim.isNone && other then s.zeroBanks c base banks else s
  let s := s.modCore c fun k =>
    let k := match claim with
      | some _ => { k with swin := Tab.set k.swin j ((k.win j).1, 0) }
      | none => k.setWindow j base banks
    let k := k.setSlot j slot
    { k with lastVi := Tab.set k.lastVi j vi,
             bars := (upFrom bb d.nbar).foldl (fun t b => Tab.set t b (some { owner := j })) k.bars }
  let s : State := match claim with
    | some h => { s with handles := s.handles.map fun x => if x.handle = h.handle then { x with claimed := true } else x }
    | none => s
  s.takeMail c j

/-- deal of R330: the next chunk of the head card goes to the places named. -/
def State.dealTo (s : State) (vi q : Nat) (k : Queue) (d : Card) (cs : List Nat) : State :=
  let n := if d.ordinal = 1023 ∨ d.handin ≠ 0 then d.remaining
           else max 1 ((d.remaining + 2 * s.count vi k d - 1) / (2 * s.count vi k d))
  let gang := cs.map fun c => (c, ((s.core c).freeSlot).getD 0)
  let s := (gang.zip (upFrom 0 gang.length)).foldl (fun t x => t.placeOn vi q k.die d n gang x.2 x.1.1 x.1.2) s
  s.modCard vi q d.num fun d =>
    { d with next := d.next + n, remaining := d.remaining - n, ordinal := d.ordinal + 1, out := d.out + cs.length,
             live := d.live ++ [(d.ordinal, cs.length)] }

/-- The scheduler has read the record dependences of a queue's head card: poison that leaves one unmet is recorded (R96). -/
def State.noteDeps (s : State) (vi q : Nat) : State :=
  match s.queue vi q with
  | none => s
  | some k =>
    match k.head with
    | none => s
    | some d => (upFrom 0 4).foldl (fun s n =>
        let x := d.dep n
        if bits x 62 2 = 1 then s.noteDev vi k.die (bits x 6 49 * 64) 8 else s) s

/-- Deal the next chunk of the head card of the queue R338 chooses. A card whose claim has failed ends BADCARD. A queue that is
not chosen deals nothing; what its head card waits for has been read. -/
def execDeal (die hw : Nat) (places : List Nat) (s : State) : Out :=
  s.onDie die <|
  match s.choose die, Tab.get none (s.die die).hwq hw with
  | none, some (vi, q) => .next (s.noteDeps vi q)
  | some (h, dcs), some (vi, q) =>
    if h ≠ hw then .next (s.noteDeps vi q)
    else
      match s.queue vi q with
      | none => .next s
      | some k =>
        match k.head with
        | none => .next s
        | some d =>
          let s' := (s.putDeficits die dcs).modDie die fun x => { x with rr := Tab.set x.rr k.pri (hw + 1) }
          if s.badClaim d then
            let bad (d : Card) : Card := { d with status := 4, remaining := 0, tstart := some s.time, tfin := s.time }
            .next (s'.modQueue vi q fun k => (k.modCard d.num bad).noteDone)
          else if s.placeOk vi k d places then .next (s'.dealTo vi q k d places)
          else .next s
  | _, _ => .next s

/-! ## The end of a task (R178, R332, R334) -/

/-- A card after one of its tasks retires. -/
def Card.taskGone (d : Card) (chunk exit now : Nat) (fault : Bool) : Card :=
  let live := d.live.map fun (c, n) => if c = chunk then (c, n - 1) else (c, n)
  { d with out := d.out - 1, live := live.filter fun x => x.2 != 0,
           retired := d.retired ++ (live.filter fun x => x.2 == 0).map Prod.fst,
           exit := if d.exit = 0 then exit else d.exit, tfin := now,
           status := if fault then max d.status 2 else d.status }

/-- Free a slot of everything that belongs to its task: barriers, region, tile unit, ports, pending loads, store
queue entries (R178, R10). -/
def Core.freeTask (k : Core) (n : Nat) : Core :=
  let mine (o : Option Nat) : Bool := o == some n
  { k with slots := Tab.set k.slots n {},
           bars := k.bars.map fun (b, x) => (b, if x.any fun y => y.owner == n then none else x),
           region := if mine k.region.owner then { k.region with st := .idle, owner := none, haltReq := false }
                     else if mine k.region.leftBy then { k.region with leftBy := none } else k.region,
           tile := if mine k.tile.owner then { k.tile with owner := none } else k.tile,
           ports := k.ports.map fun (p, x) =>
             (p, { stream := x.stream.filter fun t => t.bind.slot != n, pending := x.pending.filter fun b => b.slot != n }),
           arm := k.arm.map fun a => if mine a.slot then { a with slot := none, rd := none } else a,
           stq := k.stq.filter fun e => e.slot != n,
           frq := k.frq.filter fun f => f.slot != n,
           running := if mine k.running then none else k.running,
           mode := if mine k.running then .m else k.mode,
           parkTrap := if mine k.parkTrap then none else k.parkTrap }

/-- A handle when the task of a slot ends: one it created is handed on, the one it claimed is released. -/
def Handle.taskGone (c n : Nat) (claim : Option Word) (h : Handle) : Handle :=
  if h.core = c ∧ h.slot = n ∧ ¬ h.handed then { h with handed := true }
  else if claim = some h.handle then { h with released := true }
  else h

/-- Retire the task of a slot: its card counts it, its deficit is charged, its handles are handed on, the handle it
claimed is released, and the slot is free. With the card's last task go the handed banks nobody has claimed (R332), and
objects that were unloaded may be freed (R377). -/
def State.retireTask (s : State) (c n exit : Nat) (fault : Bool) : State :=
  match (s.slot c n).task with
  | none => s
  | some t =>
    let s := s.modCard t.vi t.q t.card fun d => d.taskGone t.chunk exit s.time fault
    let s := s.modQueue t.vi t.q fun k => { k.noteDone with dc := k.dc - t.dcyc }
    let hs := s.handles.map (Handle.taskGone c n t.claim)
    let s := { s with handles := hs }
    let s := { s with resvs := s.resvs.filter fun r => !(r.core == c && (s.core c).running == some n) }
    let last := (s.queue t.vi t.q).any fun k => (k.card t.card).any Card.complete
    let s := if last then s.releaseHandles t.vi t.q t.card else s
    (s.modCore c fun k => k.freeTask n).freeObjects t.vi

/-! ## The start of a task (R329, R334, R115) -/

/-- How an operand move goes. -/
inductive Moved where
  | done (s : State)
  | failed (s : State)
  | waits (va : Nat)
deriving DecidableEq, Repr

/-- Where the bytes of a translated range land that lie in poisoned words, as stretches (start, length), for a range that
lands at `o`. -/
def State.poisSpans (s : State) : Nat → List (Nat × Nat) → List (Nat × Nat)
  | _, [] => []
  | o, (a, n) :: l =>
    (s.poison.filterMap fun x => match x with
      | .mem g =>
        let lo := max a (8 * g)
        let hi := min (a + n) (8 * g + 8)
        if lo < hi then some (o + (lo - a), hi - lo) else none
      | _ => none) ++ State.poisSpans s (o + n) l

/-- Move operand-list entry `e` of a task's card into its window, as a linear CPY (R329): poison travels with the bytes
(R95). The entry's and the operand's HBM lines are charged (R342). R329 speaks of the moves alone; DESIGN CHOICE (log entry
94): a list entry that does not translate, for whatever reason, or is poisoned ends the card OPERAND, and no page request is
posted for it. -/
def State.moveOperand (s : State) (c n : Nat) (t : Task) (d : Card) (e : Nat) : Moved :=
  match s.devLocate t.vi t.die .read (d.opl + 16 * e) 16 with
  | .error (k, a) => .failed (s.noteWalk c k a)
  | .ok p =>
    let read := s.chargeHbm c n (costPieces p)
    if s.poisPieces p then .failed (read.tracePois c (d.opl + 16 * e)) else
    let b := s.readPieces p
    let va := fld b 0 8
    let w := fld b 8 8
    let o := bits w 0 21
    let len := bits w 40 24
    if va / 2 ^ 55 ≠ 0 ∨ bits w 21 19 ≠ 0 ∨ len = 0 ∨ (s.core c).winBytes n < o + len then .failed read
    else
      match s.devLocate t.vi t.die .read va len with
      | .error (k, a) => if k = Kind.notValid then .waits a else .failed (read.noteWalk c k a)
      | .ok l =>
        let a := (s.core c).spadAddr n o
        let t1 := s.spadWrite c a (s.readPieces l)
        let t1 := (s.poisSpans a l).foldl (fun t (x, m) => (upFrom (x / 4) ((x + m + 3) / 4 - x / 4)).foldl
          (fun t w => t.setPois (.spad c w) true) t) t1
        let t1 := t1.chargeHbm c n (costPieces p + costPieces l)
        .done (t1.modDie t.die fun k => k.chargeAct 0 (quadOf c) t.vi len)

/-- The outcome of the moves: all done, one that waits with the entries left, or one that failed. -/
def State.moveOperands (s : State) (c n : Nat) (t : Task) (d : Card) : List Nat → State × List Nat × Option Moved
  | [] => (s, [], none)
  | e :: es =>
    match s.moveOperand c n t d e with
    | .done s => State.moveOperands s c n t d es
    | m => (s, e :: es, some m)

def State.setTask (s : State) (c n : Nat) (f : Task → Task) : State :=
  s.modSlot c n fun l => { l with task := l.task.map f }

/-- A slot joins its core's line as ready from package cycle `at_` on (R339). -/
def State.readyFrom (s : State) (at_ c n : Nat) : State := s.modSlot c n fun l => { l with since := at_ }

/-- A slot joins its core's line as ready now. -/
def State.makeReady (s : State) (c n : Nat) : State := s.readyFrom s.cycles c n

/-- The task starts: the messages still held for it are applied in arrival order, and it joins the line. -/
def State.begun (s : State) (c n : Nat) : State :=
  ((s.takeMail c n).setTask c n fun t => { t with started := true }).makeReady c n

/-- The card ends OPERAND: this task and every later one are not started (R329). -/
def State.operandFailed (s : State) (c n : Nat) (t : Task) : State :=
  let stop (d : Card) : Card :=
    { d with status := max d.status 5, stopAt := some (min (d.stopAt.getD t.chunk) t.chunk), remaining := 0 }
  (s.modCard t.vi t.q t.card stop).retireTask c n 0 false

/-- TASK_START: the task of a slot has its operands moved, waits for the handle it claims, and starts. -/
def execTaskStart (core slot : Nat) (s : State) : Out :=
  s.onCore core <|
  match (s.slot core slot).task with
  | none => .next s
  | some t =>
    if t.started then .next s
    else
      match (s.queue t.vi t.q).bind fun k => k.card t.card with
      | none => .next s
      | some d =>
        if (d.stopAt.any fun m => decide (m ≤ t.chunk)) then .next (s.retireTask core slot 0 false)
        else
          let claim := t.claim.bind fun h => s.handles.find? fun x => x.handle == h
          if (claim.any fun h => !h.handed) then .next s
          else if (t.opPause.any fun p => p.declined) then .next (s.operandFailed core slot t)
          else if (t.opPause.any fun p => !p.answered) || (t.ops ≠ [] && (s.die t.die).actParked 0 (quadOf core) t.vi) then
            .next s
          else
            let s := match claim with
              | some h => s.modCore core fun k => k.setWindow slot h.base h.count
              | none => s
            match s.moveOperands core slot t d t.ops with
            | (s, _, none) => .next (s.begun core slot)
            | (s, es, some (.waits va)) =>
              .next (s.setTask core slot fun t => { t with ops := es, opPause := some { va := va, tag := 0 } })
            | (_, _, some (.failed s)) | (_, _, some (.done s)) => .next (s.operandFailed core slot t)

end Sys2Proof.Machine
end

