-- ==== Sys2Proof/Machine/Csr.lean ====
section
/-! DEFINITION. The CSRs: Table 09-12 (R138, R163, R173, R181, R183, R190, R299 to R301) and the machine-mode CSRs of
the ratified privileged specification (log entry 6); ZLC_WRITE. -/

namespace Sys2Proof.Machine

/-! ## zlc0 to zlc2 (Table 11-4) -/

/-- OFF as it reads: parcels from the body's start to `ref`, 0x1FF outside 0 to 256. -/
def offFrom (start ref : Word) : Nat :=
  if ref < start then 0x1FF else let d := (ref - start).toNat / 2; if 256 < d then 0x1FF else d

/-- A level as its CSR reads, `ref` being the reference address; a level without a body reads OFF as it was written, which
is 0 for a task's first instruction (R163). -/
def LoopLevel.csr (l : LoopLevel) (ref : Word) : Word :=
  BitVec.ofNat 64 (b2n l.act * 2 ^ 63 + b2n l.susp * 2 ^ 62 + b2n l.pw * 2 ^ 61
    + (if l.body then offFrom l.start ref else l.off.toNat) * 2 ^ 48 + l.bl.toNat * 2 ^ 40 + l.cnt.toNat)

/-- A level after a write of its CSR: a write that sets ACT also sets SUSP. -/
def LoopLevel.write (l : LoopLevel) (v : Word) : LoopLevel :=
  let act := v.getLsbD 63
  { l with act := act, susp := v.getLsbD 62 || act, pw := v.getLsbD 61, off := v.extractLsb' 48 9, bl := v.extractLsb' 40 8,
           cnt := v.truncate 32, body := false }

/-- ref of Table 11-4: mepc while SUSP is set, else the reading instruction's address. -/
def State.zlc (s : State) (c n : Nat) : Word :=
  let l := (s.ctl c).loop n
  l.csr (if l.susp then (s.core c).csr.mepc else (s.ctl c).pc)

def State.setZlc (s : State) (c n : Nat) (v : Word) : State :=
  s.modCtl c fun k => k.setLoop n ((k.loop n).write v)

/-- A firmware write of a loop level's register, of a core of the package. -/
def execZlcWrite (core level : Nat) (value : Word) (s : State) : Out :=
  if core < 640 ∧ level < 3 then .next (s.setZlc core level value) else .next s

/-! ## The mould CSRs (Tables 19-1 to 19-3) -/

def mlMask : Word := 0x007FFFFFFFFFFFC0#64
def castMask : Word := 0x807FFFFFFFFFFFC0#64
/-- RBUF [52:38] and EN. -/
def modeMask : Word := 0x001FFFC000000000#64

def Ctl.en (k : Ctl) : Bool := k.zmlmode.getLsbD 0

/-- The custom CSRs of the task that a write changes. -/
def Ctl.writeMl (k : Ctl) (num : Nat) (v : Word) : Ctl :=
  match num with
  | 0x800 => if k.en then k else { k with zmlbase := v &&& mlMask }
  | 0x801 => { k with zmllim := v &&& mlMask }
  | 0x802 => if k.en then k else { k with zmlptr := v &&& mlMask }
  | 0x803 => if k.en then k else { k with zmlcast := v &&& castMask }
  | 0x804 => { k with zmlmode := (v &&& modeMask) ||| (k.zmlmode &&& 1) }
  | _ => k

/-! ## Read-only CSRs of the placement -/

/-- zslot (Table 11-10). -/
def State.zslot (s : State) (c : Nat) : Word :=
  let place := s.podid.toNat * 2 ^ 56 + dieOf c * 2 ^ 18 + c % 160 * 2 ^ 10 + (s.core c).running.getD 0
  match s.runTask c with
  | some t => BitVec.ofNat 64 (place + t.vi % 2 ^ 11 * 2 ^ 45 + t.gidx % 32 * 2 ^ 40 + (t.gang.length - 1) % 32 * 2 ^ 35)
  | none => BitVec.ofNat 64 place

/-- zbud (Table 11-11). -/
def State.zbud (s : State) (c : Nat) : Word :=
  match s.runTask c with
  | some t =>
    match s.queue t.vi t.q with
    | some q => BitVec.ofNat 64 (t.periods % 2 ^ 32 * 2 ^ 32 + b2n q.xb * 4 + b2n q.xp * 2 + b2n q.xc)
    | none => 0
  | none => 0

/-- zevq (Table 11-9) of a slot. -/
def Slot.zevq (l : Slot) : Word :=
  BitVec.ofNat 64 (l.dead.toNat * 2 ^ 48 + l.lost.toNat * 2 ^ 32 + l.events.length)

def State.zevq (s : State) (c : Nat) : Word :=
  match (s.core c).running with
  | some n => (s.slot c n).zevq
  | none => 0

/-! ## mip (R172, R344) -/

/-- EVQ is pending while the running slot's event queue is not empty. -/
def State.evqPending (s : State) (c : Nat) : Bool :=
  match (s.core c).running with
  | some n => !(s.slot c n).events.isEmpty
  | none => false

def State.mip (s : State) (c : Nat) : Word :=
  setBit (setBit 0 16 (s.core c).csr.mip16) 17 (s.evqPending c)

/-! ## Standard CSRs (log entry 6) -/

/-- mstatus as it reads: FS is always Dirty, so SD is set; UXL is 64 bits. -/
def mstatusConst : Word := 0x8000000200006000#64
/-- MIE, MPIE, MPP, MPRV and TW are writable. -/
def mstatusMask : Word := 0x0000000000221888#64

/-- MPP holds U or M: a write of another value leaves U. -/
def mstatusLegal (v : Word) : Word :=
  let v := v &&& mstatusMask
  if v.extractLsb' 11 2 == 3#2 then v else v &&& ~~~0x1800#64

/-- RV64 with A, C, D, F, I, M and U. -/
def misaWord : Word := 0x800000000010112D#64

/-- The zero CSRs: hardware performance events and counters. -/
def zeroCsr (n : Nat) : Bool := decide ((0x323 ≤ n ∧ n ≤ 0x33F) ∨ (0xB03 ≤ n ∧ n ≤ 0xB1F))

/-- What mcycle counts beyond the value the register holds: the package cycles, unless mcountinhibit[0] stands. -/
def State.counted (s : State) (m : MCsr) : Word := if m.mcountinhibit.getLsbD 0 then 0 else BitVec.ofNat 64 s.cycles

/-- mcycle as it reads. -/
def State.mcycleOf (s : State) (c : Nat) : Word := (s.core c).csr.mcycle + s.counted (s.core c).csr

/-- Set mcycle to a value, counting from now as mcountinhibit says. -/
def State.setMcycle (s : State) (c : Nat) (v : Word) : State :=
  s.modCore c fun k => { k with csr := { k.csr with mcycle := v - s.counted k.csr } }

/-- A CSR's value; none for a number that is no CSR of this core. -/
def State.csrRead (s : State) (num : Nat) : Option Word :=
  let c := s.cur
  let k := s.me
  let m := (s.core c).csr
  match num with
  | 0x001 => some (zx (k.fcsr.extractLsb' 0 5))
  | 0x002 => some (zx (k.fcsr.extractLsb' 5 3))
  | 0x003 => some (zx k.fcsr)
  | 0x300 => some (m.mstatus ||| mstatusConst)
  | 0x301 => some misaWord
  | 0x304 => some m.mie
  | 0x305 => some m.mtvec
  | 0x306 => some m.mcounteren
  | 0x30A => some m.menvcfg
  | 0x320 => some m.mcountinhibit
  | 0x340 => some m.mscratch
  | 0x341 => some m.mepc
  | 0x342 => some m.mcause
  | 0x343 => some m.mtval
  | 0x344 => some (s.mip c)
  | 0xB00 => some (s.mcycleOf c)
  | 0xB02 => some m.minstret
  | 0xF11 => some Config.mvendorid
  | 0xF12 => some Config.marchid
  | 0xF13 => some Config.mimpid
  | 0xF14 => some (BitVec.ofNat 64 c)
  | 0xF15 => some Config.mconfigptr
  | 0x7C0 => some m.zfrec
  | 0x800 => some k.zmlbase
  | 0x801 => some k.zmllim
  | 0x802 => some k.zmlptr
  | 0x803 => some k.zmlcast
  | 0x804 => some k.zmlmode
  | 0x805 => some (s.zlc c 0)
  | 0x806 => some (s.zlc c 1)
  | 0x807 => some (s.zlc c 2)
  | 0x808 => some (s.zslot c)
  | 0x809 => some (s.zbud c)
  | 0x80A => some (s.zevq c)
  | n => if zeroCsr n then some 0 else none

/-- zfrec (R190). -/
def zfrecMask : Word := 0x0000FFFFFFFFFFC0#64

def MCsr.write (m : MCsr) (num : Nat) (v : Word) : MCsr :=
  match num with
  | 0x300 => { m with mstatus := mstatusLegal v }
  | 0x304 => { m with mie := v &&& 0x30000#64 }
  | 0x305 => { m with mtvec := v &&& ~~~2#64 }
  | 0x320 => { m with mcountinhibit := v &&& 5#64 }
  | 0x340 => { m with mscratch := v }
  | 0x341 => { m with mepc := v &&& ~~~1#64 }
  | 0x342 => { m with mcause := v }
  | 0x343 => { m with mtval := v }
  | 0x344 => { m with mip16 := v.getLsbD 16 }
  | 0x7C0 => { m with zfrec := v &&& zfrecMask }
  -- the write replaces the count of the writing instruction itself
  | 0xB02 => { m with minstret := if m.mcountinhibit.getLsbD 2 then v else v - 1 }
  | _ => m

/-- Write a CSR that exists and may be written. -/
def State.csrWrite (s : State) (num : Nat) (v : Word) : State :=
  match num with
  | 0x001 => s.modMe fun k => { k with fcsr := k.fcsr.extractLsb' 5 3 ++ v.extractLsb' 0 5 }
  | 0x002 => s.modMe fun k => { k with fcsr := v.extractLsb' 0 3 ++ k.fcsr.extractLsb' 0 5 }
  | 0x003 => s.modMe fun k => { k with fcsr := v.truncate 8 }
  | 0x805 => s.setZlc s.cur 0 v
  | 0x806 => s.setZlc s.cur 1 v
  | 0x807 => s.setZlc s.cur 2 v
  | 0xB00 => s.setMcycle s.cur v
  | 0x320 => (s.modCore s.cur fun k => { k with csr := k.csr.write 0x320 v }).setMcycle s.cur (s.mcycleOf s.cur)
  | n =>
    if 0x800 ≤ n ∧ n ≤ 0x804 then s.modMe fun k => k.writeMl n v
    else s.modCore s.cur fun k => { k with csr := k.csr.write n v }

/-- The access is not permitted: no such CSR, a mode below the CSR's, or a write of a read-only CSR (R138). -/
def State.csrBad (s : State) (num : Nat) (writes : Bool) : Bool :=
  (s.csrRead num).isNone
    || ((s.core s.cur).mode == .u && bits num 8 2 != 0)
    || (writes && (bits num 10 2 == 3 || decide (0x808 ≤ num ∧ num ≤ 0x80A)))

end Sys2Proof.Machine
end

