-- ==== Sys2Proof/Machine/Num.lean ====
section
/-! DEFINITION. Exact arithmetic, rounding, saturation and conversion (spec/03: R44 to R60, R69). A real is
(-1)^neg * m * 2^e, zero with a sign, an infinity or NaN. -/

namespace Sys2Proof

/-- Values of R50. -/
inductive Num where
  | nan
  | inf (neg : Bool)
  | fin (neg : Bool) (m : Nat) (e : Int)
deriving DecidableEq, Repr

/-- A binary floating-point layout: precision and exponent width (Table 03-3; binary64 for the D extension). -/
structure FloatFmt where
  p : Nat
  eb : Nat
deriving DecidableEq, Repr

def FloatFmt.f32 : FloatFmt := ⟨24, 8⟩
def FloatFmt.bf16 : FloatFmt := ⟨8, 8⟩
def FloatFmt.f64 : FloatFmt := ⟨53, 11⟩
def FloatFmt.width (f : FloatFmt) : Nat := f.p + f.eb
def FloatFmt.bias (f : FloatFmt) : Nat := 2 ^ (f.eb - 1) - 1
def FloatFmt.infBits (f : FloatFmt) : Nat := (2 ^ f.eb - 1) * 2 ^ (f.p - 1)
/-- canon_nan (R54). -/
def FloatFmt.canonNan (f : FloatFmt) : Nat := f.infBits + 2 ^ (f.p - 2)
def FloatFmt.maxFin (f : FloatFmt) : Nat := f.infBits - 1
def FloatFmt.signBit (f : FloatFmt) (neg : Bool) : Nat := if neg then 2 ^ (f.width - 1) else 0

/-- to_real of an encoding (R47, R50). -/
def Num.ofBits (f : FloatFmt) (x : Nat) : Num :=
  let neg := x.testBit (f.width - 1)
  let e := x / 2 ^ (f.p - 1) % 2 ^ f.eb
  let m := x % 2 ^ (f.p - 1)
  let q : Int := 2 - (f.bias : Int) - (f.p : Int)
  if e = 2 ^ f.eb - 1 then (if m = 0 then .inf neg else .nan)
  else if e = 0 then .fin neg m q
  else .fin neg (m + 2 ^ (f.p - 1)) (q + (e : Int) - 1)

def Num.ofInt (x : Int) : Num := .fin (decide (x < 0)) x.natAbs 0

def Num.isNan : Num → Bool
  | .nan => true
  | _ => false
def Num.isZero : Num → Bool
  | .fin _ m _ => m == 0
  | _ => false
def Num.neg : Num → Num
  | .nan => .nan
  | .inf n => .inf (!n)
  | .fin n m e => .fin (!n) m e
def Num.abs : Num → Num
  | .nan => .nan
  | .inf _ => .inf false
  | .fin _ m e => .fin false m e
def Num.sign : Num → Bool
  | .nan => false
  | .inf n => n
  | .fin n _ _ => n

/-- The signed integer m * 2^(e - lo), for a finite value whose exponent is at least `lo`. -/
def Num.scaled (lo : Int) : Num → Int
  | .fin n m e => let v : Int := (m * 2 ^ (e - lo).toNat : Nat); if n then -v else v
  | _ => 0
def Num.exp : Num → Int
  | .fin _ _ e => e
  | _ => 0

/-- Numbers with an invalid-operation mark (NV of Table 03-4). -/
abbrev NumV := Num × Bool

/-- A product under R50. -/
def Num.mul (a b : Num) : NumV :=
  match a, b with
  | .nan, _ => (.nan, false)
  | _, .nan => (.nan, false)
  | .inf s, .inf t => (.inf (s != t), false)
  | .inf s, .fin t m _ => if m = 0 then (.nan, true) else (.inf (s != t), false)
  | .fin s m _, .inf t => if m = 0 then (.nan, true) else (.inf (s != t), false)
  | .fin s m e, .fin t n d => (.fin (s != t) (m * n) (e + d), false)

def minInt : List Int → Int → Int
  | [], d => d
  | x :: xs, d => minInt xs (min x d)

/-- exact_sum of terms (R63): the result depends only on the multiset of the terms. -/
def exactSum (ts : List Num) : NumV :=
  if ts.any Num.isNan then (.nan, false)
  else
    let pos := ts.any fun t => t == .inf false
    let neg := ts.any fun t => t == .inf true
    if pos && neg then (.nan, true)
    else if pos then (.inf false, false)
    else if neg then (.inf true, false)
    else
      let lo := minInt (ts.map Num.exp) 0
      let v : Int := ts.foldl (fun (a : Int) t => a + t.scaled lo) 0
      if v = 0 then (.fin (!ts.isEmpty && ts.all Num.sign) 0 0, false)
      else (.fin (decide (v < 0)) v.natAbs lo, false)

def Num.add (a b : Num) : NumV := exactSum [a, b]
def Num.sub (a b : Num) : NumV := exactSum [a, b.neg]

/-- Compare two numbers that are not NaN; -0 equals +0. -/
def Num.cmp (a b : Num) : Ordering :=
  match a, b with
  | .inf s, .inf t => if s = t then .eq else if s then .lt else .gt
  | .inf s, _ => if s then .lt else .gt
  | _, .inf t => if t then .gt else .lt
  | a, b =>
    let lo := min a.exp b.exp
    compare (a.scaled lo) (b.scaled lo)

def Num.lt (a b : Num) : Bool := !a.isNan && !b.isNan && a.cmp b == .lt
def Num.le (a b : Num) : Bool := !a.isNan && !b.isNan && a.cmp b != .gt
def Num.eqv (a b : Num) : Bool := !a.isNan && !b.isNan && a.cmp b == .eq

/-! ## Rounding -/

/-- Rounding directions: nearest even, toward zero, down, up, nearest away. -/
inductive RMode where
  | rne
  | rtz
  | rdn
  | rup
  | rmm
deriving DecidableEq, Repr

/-- m / 2^sh rounded to an integer, and whether it was inexact. -/
def roundShift (mode : RMode) (neg : Bool) (m sh : Nat) : Nat × Bool :=
  let q := m / 2 ^ sh
  let r := m % 2 ^ sh
  let half := 2 ^ sh / 2
  let up := match mode with
    | .rne => decide (half < r) || (r == half && sh != 0 && q % 2 == 1)
    | .rtz => false
    | .rdn => neg && r != 0
    | .rup => !neg && r != 0
    | .rmm => sh != 0 && decide (half ≤ r)
  (if up then q + 1 else q, r != 0)

/-- A rounded encoding, with the overflow, underflow and inexact marks (tininess after rounding). -/
structure Rounded where
  bits : Nat
  of : Bool := false
  uf : Bool := false
  nx : Bool := false
deriving DecidableEq, Repr

/-- Round at the unit 2^q. -/
def roundAt (mode : RMode) (neg : Bool) (m : Nat) (e q : Int) : Nat × Bool :=
  if q ≤ e then (m * 2 ^ (e - q).toNat, false) else roundShift mode neg m (q - e).toNat

/-- round_mode of R51, for any of the layouts and directions. -/
def roundNum (f : FloatFmt) (mode : RMode) : Num → Rounded
  | .nan => { bits := f.canonNan }
  | .inf n => { bits := f.signBit n + f.infBits }
  | .fin n m e =>
    if m = 0 then { bits := f.signBit n }
    else
      let lg : Int := (Nat.log2 m : Int) + e
      let emin : Int := 1 - (f.bias : Int)
      let q := max lg emin - ((f.p : Int) - 1)
      let (k, nx) := roundAt mode n m e q
      if k != 0 && decide ((f.bias : Int) < (Nat.log2 k : Int) + q) then
        let toInf := match mode with
          | .rne => true
          | .rmm => true
          | .rtz => false
          | .rdn => n
          | .rup => !n
        { bits := f.signBit n + (if toInf then f.infBits else f.maxFin), of := true, nx := true }
      else
        -- tiny after rounding: rounded with an unbounded exponent range it lies below 2^emin
        let (u, _) := roundAt mode n m e (lg - ((f.p : Int) - 1))
        let tiny := decide ((Nat.log2 u : Int) + (lg - ((f.p : Int) - 1)) < emin)
        let ef := (q + ((f.p : Int) - 1) + (f.bias : Int)).toNat
        { bits := f.signBit n + (ef * 2 ^ (f.p - 1) + k - 2 ^ (f.p - 1)), uf := tiny && nx, nx := nx }

/-- Flag sets NV, OF, ST (R58), as bits 0, 1, 2. -/
abbrev Flags := BitVec 3
def flagNv (b : Bool) : Flags := if b then 1 else 0
def flagOf (b : Bool) : Flags := if b then 2 else 0
def flagSt (b : Bool) : Flags := if b then 4 else 0

/-- round_rne and round_rtz with their OF (R51). -/
def roundF (f : FloatFmt) (mode : RMode) (x : Num) : Nat × Flags :=
  let r := roundNum f mode x
  (r.bits, flagOf r.of)

/-- round_sat (R52): a finite overflow gives the largest finite value; OF is raised. -/
def roundSat (f : FloatFmt) (x : Num) : Nat × Flags :=
  let r := roundNum f .rne x
  (if r.of then f.signBit x.sign + f.maxFin else r.bits, flagOf r.of)

/-- Round a value with its NV mark. -/
def roundV (f : FloatFmt) (mode : RMode) (x : NumV) : Nat × Flags :=
  let (b, g) := roundF f mode x.1
  (b, g ||| flagNv x.2)

/-! ## Integers (R56) -/

/-- An integer type: its width and whether it is signed. -/
structure IntTy where
  w : Nat
  signed : Bool
deriving DecidableEq, Repr

def IntTy.max (t : IntTy) : Int := if t.signed then (2 ^ (t.w - 1) : Nat) - 1 else (2 ^ t.w : Nat) - 1
def IntTy.min (t : IntTy) : Int := if t.signed then -((2 ^ (t.w - 1) : Nat) : Int) else 0
/-- sat_t, with ST. -/
def IntTy.sat (t : IntTy) (x : Int) : Int × Flags :=
  if t.max < x then (t.max, flagSt true) else if x < t.min then (t.min, flagSt true) else (x, 0)
/-- wrap_t. -/
def IntTy.wrap (t : IntTy) (x : Int) : Int := if t.signed then sgn t.w (wrapN t.w x) else (wrapN t.w x : Nat)
/-- The integer a w-bit encoding holds. -/
def IntTy.read (t : IntTy) (x : Nat) : Int := if t.signed then sgn t.w x else ((x % 2 ^ t.w : Nat) : Int)

def i32 : IntTy := ⟨32, true⟩
def i8 : IntTy := ⟨8, true⟩

/-- shr_rne (R56). -/
def shrRne (x : Int) (sh : Nat) : Int :=
  let (q, _) := roundShift .rne false x.natAbs sh
  if x < 0 then -(q : Int) else q

/-- A finite value rounded to an integer. -/
def Num.toInt (mode : RMode) : Num → Int × Bool
  | .fin n m e =>
    let (k, nx) := if 0 ≤ e then (m * 2 ^ e.toNat, false) else roundShift mode n m (-e).toNat
    (if n then -(k : Int) else k, nx)
  | _ => (0, false)

/-- f2i (R59). -/
def f2i (t : IntTy) (mode : RMode) (x : Num) : Int × Flags :=
  match x with
  | .nan => (0, flagNv true)
  | .inf n => (if n then t.min else t.max, flagSt true)
  | x => t.sat (x.toInt mode).1

/-! ## Quotient and square root, with a sticky bit below the precision -/

/-- a / b for finite nonzero b: 80 quotient bits and a sticky bit, enough for one rounding to any layout here. -/
def divNum (a b : Num) : Num :=
  match a, b with
  | .fin s m e, .fin t n d =>
    if m = 0 then .fin (s != t) 0 0
    else
      let sh := Nat.log2 n + 80
      let q := m * 2 ^ sh / n
      let r := m * 2 ^ sh % n
      .fin (s != t) (2 * q + b2n (r != 0)) (e - d - sh - 1)
  | _, _ => .nan

/-- Newton steps towards the integer square root from above. -/
def isqrtGo (n : Nat) : Nat → Nat → Nat
  | 0, x => x
  | k + 1, x =>
    let y := (x + n / x) / 2
    if y < x then isqrtGo n k y else x
def isqrt (n : Nat) : Nat := if n = 0 then 0 else isqrtGo n (Nat.log2 n + 2) (2 ^ (Nat.log2 n / 2 + 1))

/-- The square root of a finite value that is not negative, with a sticky bit. -/
def sqrtNum : Num → Num
  | .fin s m e =>
    if m = 0 then .fin s 0 0
    else
      let odd := e % 2 != 0
      let m := if odd then 2 * m else m
      let e := if odd then e - 1 else e
      let n := m * 2 ^ 160
      let r := isqrt n
      .fin false (2 * r + b2n (r * r != n)) (e / 2 - 81)
  | x => x

end Sys2Proof
end

