-- ==== Sys2Proof/Machine/Flags.lean ====
section
/-! DEFINITION. Flag sets: the number flags NV, OF and ST of Table 03-4 in a region and in a tile unit (R58), and the
exception flags of fcsr (R71). -/

namespace Sys2Proof.Machine

/-- Raise number flags in a region's flag set (R195); no event but RSTAT clears them. -/
def Region.raise (r : Region) (g : Flags) : Region := { r with flags := r.flags ||| g }

/-- Raise number flags in a tile flag set (R234). -/
def TileUnit.raise (t : TileUnit) (g : Flags) : TileUnit := { t with flags := t.flags ||| g }

/-- The flags of a list of raising results. -/
def flagsOr (l : List Flags) : Flags := l.foldl (· ||| ·) 0

/-- The fflags bits of Zicsr/F (R71): NX, UF, OF, DZ, NV from bit 0 up. -/
structure FFlags where
  nv : Bool := false
  dz : Bool := false
  ovf : Bool := false
  uf : Bool := false
  nx : Bool := false
deriving DecidableEq, Repr

def FFlags.bits (f : FFlags) : BitVec 5 :=
  BitVec.ofBool f.nv ++ BitVec.ofBool f.dz ++ BitVec.ofBool f.ovf ++ BitVec.ofBool f.uf ++ BitVec.ofBool f.nx

/-- Accrue exception flags into fcsr[4:0]; frm is unchanged. -/
def Ctl.accrue (k : Ctl) (f : FFlags) : Ctl := { k with fcsr := k.fcsr ||| f.bits.zeroExtend 8 }

end Sys2Proof.Machine
end

