-- ==== Sys2Proof/Machine/Operands.lean ====
section
/-! DEFINITION. Operands: the lane type codes (Table 03-2), the three fabric words (R121 to R123), imm_value (R122),
and reading a lane's operands by origin (R192, R27, R28) with the poison they carry (R228). -/

namespace Sys2Proof.Machine

/-! ## Lane types -/

/-- The width in bits of a lane type. -/
def tyWidth (ty : Nat) : Nat := if ty ≤ 2 then 32 else if ty ≤ 5 then 16 else 8
/-- The width in bytes. -/
def tyBytes (ty : Nat) : Nat := tyWidth ty / 8
/-- i32, i16 and i8 are signed. -/
def tySigned (ty : Nat) : Bool := ty == 0 || ty == 4 || ty == 6
def tyFloat (ty : Nat) : Bool := ty == 2 || ty == 3
def tyInt (ty : Nat) : IntTy := ⟨tyWidth ty, tySigned ty⟩
def tyFmt (ty : Nat) : FloatFmt := if ty = 3 then .bf16 else .f32

/-- The written form of the low bits of a value (Table 03-2). -/
def tyForm (ty x : Nat) : W32 := if tySigned ty then BitVec.ofInt 32 (sgn (tyWidth ty) x) else BitVec.ofNat 32 (x % 2 ^ tyWidth ty)

/-- imm_value of R122, as a 32-bit register value. -/
def immValue (im ty : Nat) : W32 :=
  if ty = 2 then BitVec.ofNat 32 (im * 2 ^ 22)
  else if ty = 3 then BitVec.ofNat 32 (im * 2 ^ 6)
  else if tySigned ty then BitVec.ofInt 32 (sgn 10 im)
  else BitVec.ofNat 32 (im % 2 ^ 10)

/-! ## Fabric words -/

/-- An operation word (Table 09-1). -/
structure OpWord where
  opc : Nat
  ty : Nat
  pd : Nat
  pn : Bool
  im : Nat
deriving DecidableEq, Repr

def OpWord.of (w : BitVec 24) : OpWord :=
  let x := w.toNat
  ⟨bits x 17 7, bits x 14 3, bits x 11 3, bitAt x 10, bits x 0 10⟩

/-- A route word (Table 09-3). -/
structure RouteWord where
  oa : Nat
  ob : Nat
  om : Nat
  op : Bool
  rz : Nat
deriving DecidableEq, Repr

def RouteWord.of (w : Half) : RouteWord :=
  let x := w.toNat
  ⟨bits x 13 3, bits x 10 3, bits x 6 4, bitAt x 5, bits x 0 5⟩

/-- A register-address word (R123). -/
structure AddrWord where
  d : Nat
  a : Nat
  b : Nat
  nw : Bool
deriving DecidableEq, Repr

def AddrWord.of (w : Half) : AddrWord :=
  let x := w.toNat
  ⟨bits x 11 5, bits x 6 5, bits x 1 5, bitAt x 0⟩

/-! ## Reading a lane -/

/-- The physical register of a name under RRB (R23, R124): 0-23 rotate, 24-31 are c0-c7. -/
def physReg (rrb n : Nat) : Nat := if n < 24 then (n + rrb) % 24 else n

/-- A physical register: 0-23 are w, 24-31 are c. -/
def Lane.reg (l : Lane) (p : Nat) : W32 := if p < 24 then Tab.get 0 l.w p else Tab.get 0 l.c (p - 24)
def Lane.setReg (l : Lane) (p : Nat) (v : W32) : Lane :=
  if p < 24 then { l with w := Tab.put 0 l.w p v } else { l with c := Tab.put 0 l.c (p - 24) v }

/-- p0 reads true; writes to it are discarded (R23). -/
def Lane.pred (l : Lane) (n : Nat) : Bool := n == 0 || l.p.getLsbD n
def Lane.setPred (l : Lane) (n : Nat) (v : Bool) : Lane :=
  if n = 0 then l else { l with p := if v then l.p ||| (1#8 <<< n) else l.p &&& ~~~(1#8 <<< n) }

/-- The neighbour an origin names and the latch of it that faces the lane (R27); none at the grid's edge. -/
def neighbour (lane : Nat) : Nat → Option (Nat × Nat)
  | 1 => if 4 ≤ lane then some (lane - 4, 2) else none
  | 2 => if lane % 4 < 3 then some (lane + 1, 3) else none
  | 3 => if lane < 12 then some (lane + 4, 0) else none
  | 4 => if lane % 4 ≠ 0 then some (lane - 1, 1) else none
  | _ => none

/-- An in-latch or oP binding of the descriptor (Table 01-7): enable, port, element. -/
def Region.binding (r : Region) (off : Nat) : Option (Nat × Nat) :=
  let x := fld r.desc off 1
  if bitAt x 7 then some (bits x 4 3, bits x 0 4) else none
def Region.inBinding (r : Region) (lane ab : Nat) : Option (Nat × Nat) := r.binding (0x30 + 2 * lane + ab)
def Region.outBinding (r : Region) (lane : Nat) : Option (Nat × Nat) := r.binding (0x50 + lane)

/-! ## Shape records (Table 17-2), which streams and copies share -/

def shFmt (sh : List Byte) : Nat := bits (fld sh 0x34 4) 0 4
def shRank (sh : List Byte) : Nat := bits (fld sh 0x34 4) 4 2 + 1
def shSpace (sh : List Byte) : Nat := bits (fld sh 0x34 4) 6 2
def shSwz (sh : List Byte) : Nat := bits (fld sh 0x34 4) 8 4
def shGidx (sh : List Byte) : Nat := bits (fld sh 0x34 4) 12 5
def shEp (sh : List Byte) : Nat := bits (fld sh 0x34 4) 24 8
def shBase (sh : List Byte) : Nat := fld sh 0x00 8
def shDim (sh : List Byte) (k : Nat) : Nat := fld sh (0x08 + 4 * k) 4
def shStep (sh : List Byte) (k : Nat) : Int := sgn 32 (fld sh (0x18 + 4 * k) 4)
def shBox (sh : List Byte) (k : Nat) : Nat := fld sh (0x28 + 2 * k) 2
def shPad (sh : List Byte) : Nat := fld sh 0x30 4

/-- The element width of a format (Table 03-1). -/
def fmtWidth (f : Nat) : Nat := if f ≤ 1 then 32 else if f ≤ 3 then 16 else if f ≤ 5 then 8 else 4

/-- The number of elements of a box. -/
def shCount (sh : List Byte) : Nat := ((upFrom 0 (shRank sh)).map (shBox sh)).foldl (· * ·) 1

/-- The form in which a stream position holds an element of a format (R288). -/
def streamForm (f x : Nat) : W32 :=
  match f with
  | 0 => BitVec.ofNat 32 x
  | 1 => BitVec.ofNat 32 x
  | 2 => BitVec.ofNat 32 (x % 2 ^ 16)
  | 3 => BitVec.ofInt 32 (sgn 16 x)
  | 4 => BitVec.ofInt 32 (sgn 8 x)
  | 5 => BitVec.ofNat 32 (x % 2 ^ 8)
  | 6 => BitVec.ofInt 32 (sgn 4 x)
  | _ => BitVec.ofNat 32 (x % 2 ^ 4)

/-! ## Ports as lanes see them (R288, R290) -/

def Stream.isOut (t : Stream) : Bool := t.bind.word.getLsbD 3
/-- REP of the bind record, 0 meaning 1. -/
def Stream.reps (t : Stream) : Nat := max 1 (fld t.bind.record 0x10 4)
/-- Beats of one repetition, and of the whole stream. R290 gives REP to input streams; DESIGN CHOICE (log entry 88): an output
stream, whose bind record holds REP too, takes its sequence REP times before it is exhausted. -/
def Stream.beatsPerRep (t : Stream) : Nat := (shCount t.bind.shape + 15) / 16
def Stream.totalBeats (t : Stream) : Nat := t.beatsPerRep * t.reps
def Stream.exhausted (t : Stream) : Bool := decide (t.totalBeats ≤ t.no)

/-- A beat of PAD. -/
def Stream.padBeat (t : Stream) : Beat :=
  { vals := List.replicate 16 (streamForm (shFmt t.bind.shape) (shPad t.bind.shape)) }

/-- The beat an input port presents: the one read for its cursor, PAD once the stream is exhausted. -/
def Port.shown (p : Port) : Option Beat :=
  match p.stream with
  | none => none
  | some t => if t.isOut || t.stop then none else if t.exhausted then some t.padBeat else t.beats.head?

/-- A push finds the output port full: no output stream, or four closed beats unwritten (R290, R292). -/
def Port.full (p : Port) : Bool :=
  match p.stream with
  | none => true
  | some t => !t.isOut || t.stop || (!t.exhausted && decide (4 ≤ t.closed.length))

/-- Present the next input beat, or close the open output beat (R290). A beat nothing was pushed to writes nothing and takes
up no buffer; a push finds room before it is made and again before it is written, so no more than four closed beats wait (R288). -/
def Stream.advance (t : Stream) : Stream :=
  if t.exhausted || t.stop then t
  else if t.isOut then
    { t with no := t.no + 1, pushed := [], pushedPois := 0, saved := 0,
             closed := if t.pushed.isEmpty then t.closed else t.closed ++ [(t.no, t.pushed, t.pushedPois)] }
  else { t with no := t.no + 1, beats := t.beats.drop 1 }

def Port.advance (p : Port) : Port := { p with stream := p.stream.map Stream.advance }

/-- Push a value to a position of the open beat; after exhaustion it is discarded (R290). -/
def Stream.push (t : Stream) (pos : Nat) (v : W32) (pois : Bool) : Stream :=
  if t.exhausted || t.stop then t
  else { t with pushed := Tab.set t.pushed pos v,
                pushedPois := if pois then t.pushedPois ||| (1#16 <<< pos) else t.pushedPois &&& ~~~(1#16 <<< pos) }

end Sys2Proof.Machine
end

