-- ==== Sys2Proof/Machine/Special.lean ====
section
/-! DEFINITION. The transcendental functions, as enclosures by exact integer arithmetic (R213, R255): a value is
enclosed in [lo, hi] / 2^bitsF. A result both ends round to is the correctly rounded one; where they differ the
caller takes a free value (log entry 17). -/

namespace Sys2Proof

/-- Fraction bits of the enclosures. -/
def bitsF : Nat := 400
def oneF : Nat := 2 ^ bitsF

/-- An enclosure of a value that is not negative, in units of 2^-bitsF. -/
structure Encl where
  lo : Nat
  hi : Nat
deriving DecidableEq, Repr

def cdiv (a b : Nat) : Nat := (a + b - 1) / b

def Encl.mul (a b : Encl) : Encl := ⟨a.lo * b.lo / oneF, cdiv (a.hi * b.hi) oneF⟩
def Encl.div (a b : Encl) : Encl := ⟨a.lo * oneF / b.hi, cdiv (a.hi * oneF) b.lo⟩
def Encl.add (a b : Encl) : Encl := ⟨a.lo + b.lo, a.hi + b.hi⟩
/-- a - b, for a value a not below b. -/
def Encl.sub (a b : Encl) : Encl := ⟨a.lo - b.hi, a.hi - b.lo⟩
def Encl.one : Encl := ⟨oneF, oneF⟩

/-- 2 * atanh z for z at most 1/3: the sum of 2 z^(2k+1) / (2k+1), and a bound of the rest. -/
def atanh2Go (z2 : Encl) : Nat → Nat → Encl → Encl → Encl
  | 0, _, pw, acc => ⟨acc.lo, acc.hi + 2 * pw.hi + 1⟩
  | n + 1, k, pw, acc =>
    atanh2Go z2 n (k + 1) (pw.mul z2) ⟨acc.lo + 2 * pw.lo / (2 * k + 1), acc.hi + cdiv (2 * pw.hi) (2 * k + 1)⟩
def atanh2 (z : Encl) : Encl := atanh2Go (z.mul z) 140 0 z ⟨0, 0⟩

def ln2 : Encl := atanh2 ⟨oneF / 3, cdiv oneF 3⟩

/-- e^r for 0 <= r < 1: the Taylor sum, and a bound of the rest. -/
def expGo (r : Encl) : Nat → Nat → Encl → Encl → Encl
  | 0, _, tm, acc => ⟨acc.lo, acc.hi + 2 * tm.hi + 1⟩
  | n + 1, k, tm, acc =>
    let t := tm.mul r
    expGo r n (k + 1) ⟨t.lo / k, cdiv t.hi k⟩ (acc.add tm)
def expSmall (r : Encl) : Encl := expGo r 100 1 Encl.one ⟨0, 0⟩

/-- The enclosure of a finite value m * 2^e that is not negative. -/
def enclOf (m : Nat) (e : Int) : Encl :=
  let k := e + bitsF
  if 0 ≤ k then ⟨m * 2 ^ k.toNat, m * 2 ^ k.toNat⟩
  else ⟨m / 2 ^ (-k).toNat, cdiv m (2 ^ (-k).toNat)⟩

/-- e^-y for y >= 0: with y = k ln 2 + r, 2^-k / e^r. -/
def expNeg (y : Encl) : Encl :=
  let k := y.lo / ln2.hi
  let r := y.sub ⟨k * ln2.lo, k * ln2.hi⟩
  let v := Encl.one.div (expSmall r)
  ⟨v.lo / 2 ^ k, cdiv v.hi (2 ^ k)⟩

/-- A real result known by its ends. -/
structure Ends where
  lo : Num
  hi : Num
deriving DecidableEq, Repr

def Encl.ends (neg : Bool) (v : Encl) (e : Int) : Ends := ⟨.fin neg v.lo (e - bitsF), .fin neg v.hi (e - bitsF)⟩
def Ends.exact (x : Num) : Ends := ⟨x, x⟩

/-- 2^x for a finite x that is not an integer, or any integer. -/
def exp2Fin (n : Bool) (m : Nat) (e : Int) : Ends :=
  -- |x| >= 2^13 lies far outside every layout
  if (13 : Int) ≤ (Nat.log2 m : Int) + e then Ends.exact (.fin false 1 (if n then -9000 else 9000))
  else if 0 ≤ e then Ends.exact (.fin false 1 (let k : Int := (m * 2 ^ e.toNat : Nat); if n then -k else k))
  else
    let d := 2 ^ (-e).toNat
    let ip : Int := (m / d : Nat)
    let fr := m % d
    if fr = 0 then Ends.exact (.fin false 1 (if n then -ip else ip))
    else
      -- x = j + f with 0 < f < 1
      let f := if n then d - fr else fr
      let j : Int := if n then -ip - 1 else ip
      (expSmall ((enclOf f e).mul ln2)).ends false j

/-- log2 x for a finite x > 0. -/
def log2Fin (m : Nat) (e : Int) : Ends :=
  let l := Nat.log2 m
  let k : Int := (l : Int) + e
  if m = 2 ^ l then Ends.exact (Num.ofInt k)
  else
    -- x = 2^k * (m / 2^l), 1 < m / 2^l < 2
    let z := (enclOf (m - 2 ^ l) 0).div (enclOf (m + 2 ^ l) 0)
    let f := (atanh2 z).div ln2
    let v : Int × Int := (k * oneF + f.lo, k * oneF + f.hi)
    ⟨.fin (decide (v.1 < 0)) v.1.natAbs (-bitsF), .fin (decide (v.2 < 0)) v.2.natAbs (-bitsF)⟩

/-- |x| is so large that 1 - tanh |x| is far below every layout's precision. -/
def isLarge (m : Nat) (e : Int) : Bool := decide ((7 : Int) ≤ (Nat.log2 m : Int) + e)

/-- tanh x for a finite x: (1 - u) / (1 + u) with u = e^(-2|x|). -/
def tanhFin (n : Bool) (m : Nat) (e : Int) : Ends :=
  if m = 0 then Ends.exact (.fin n 0 0)
  else if isLarge m e then ⟨.fin n (2 ^ 150 - 1) (-150), .fin n 1 0⟩
  else
    let u := expNeg (enclOf m (e + 1))
    ((Encl.one.sub u).div (Encl.one.add u)).ends n 0

/-- 1 / (1 + e^-x) for a finite x. -/
def sigmFin (n : Bool) (m : Nat) (e : Int) : Ends :=
  if m = 0 then Ends.exact (.fin false 1 (-1))
  else if (9 : Int) ≤ (Nat.log2 m : Int) + e then
    if n then ⟨.fin false 0 0, .fin false 1 (-500)⟩ else ⟨.fin false (2 ^ 150 - 1) (-150), .fin false 1 0⟩
  else
    let u := expNeg (enclOf m e)
    let d := Encl.one.add u
    if n then (u.div d).ends false 0 else (Encl.one.div d).ends false 0

/-- x / (1 + e^-x) for a finite x. -/
def siluFin (n : Bool) (m : Nat) (e : Int) : Ends :=
  let s := sigmFin n m e
  let x := Num.fin n m e
  ⟨(x.mul s.lo).1, (x.mul s.hi).1⟩

/-- Round a result to a layout if both ends agree; the flags are those of the rounding. -/
def Ends.round (f : FloatFmt) (v : Ends) : Option (Nat × Flags) :=
  let a := roundF f .rne v.lo
  let b := roundF f .rne v.hi
  if a = b then some a else none

/-- The special functions of R213. -/
inductive SpecFn where
  | rcp
  | rsq
  | exp2
  | log2
  | tanh
deriving DecidableEq, Repr

/-- A special function (R213, Table 13-5): the encoding and its flags, none where the enclosure does not decide. -/
def specFn (fn : SpecFn) (f : FloatFmt) (x : Num) : Option (Nat × Flags) :=
  let nanv := some (f.canonNan, flagNv true)
  let infn (n : Bool) := some (f.signBit n + f.infBits, (0 : Flags))
  let one (n : Bool) := some (roundF f .rne (.fin n 1 0))
  match fn, x with
  | _, .nan => some (f.canonNan, 0)
  | .rcp, .inf n => some (f.signBit n, 0)
  | .rcp, .fin n m e => if m = 0 then infn n else some (roundF f .rne (divNum (.fin false 1 0) (.fin n m e)))
  | .rsq, .inf n => if n then nanv else some (0, 0)
  | .rsq, .fin n m e =>
    if m = 0 then infn n
    else if n then nanv
    else some (roundF f .rne (sqrtNum (divExact m e)))
  | .exp2, .inf n => if n then some (0, 0) else infn false
  | .exp2, .fin n m e => if m = 0 then one false else (exp2Fin n m e).round f
  | .log2, .inf n => if n then nanv else infn false
  | .log2, .fin n m e => if m = 0 then infn true else if n then nanv else (log2Fin m e).round f
  | .tanh, .inf n => one n
  | .tanh, .fin n m e => (tanhFin n m e).round f
where
  /-- 1/x with enough bits for the square root of it to round correctly: 240 quotient bits and a sticky bit. -/
  divExact (m : Nat) (e : Int) : Num :=
    let sh := Nat.log2 m + 240
    let q := 2 ^ sh / m
    .fin false (2 * q + b2n (2 ^ sh % m != 0)) (-e - sh - 1)

end Sys2Proof
end

