-- ==== Sys2Proof/Machine/LaneOps.lean ====
section
/-! DEFINITION. The lane operations (Table 13-2): what each accepts (R196, R231), its latency (Table 01-4), and the
values of those that compute (R199 to R214). -/

namespace Sys2Proof.Machine

/-- The lane operations of Table 13-2. -/
inductive LaneOp where
  | nop | mov | movi | sel | rds
  | add | sub | adds | subs | mul | mulh | mad | and | or | xor | andn | shl | shr | sar | shrr | min | max | abs
  | neg | clz | popc | cmp
  | fadd | fsub | fmul | ffma | fmin | fmax | fabs | fneg | fcmp | frcp | frsq | fexp2 | flog2 | ftanh | cvt
  | lds | sts | ldg | stg | amog | ldt | stt | acr
  | bsig | ssend | exit | brkpt
deriving DecidableEq, Repr

/-- The opcode map (Table 09-2); unassigned codes name no operation. -/
def LaneOp.ofCode (n : Nat) : Option LaneOp :=
  if n < 0x10 then [.nop, .mov, .movi, .sel, .rds][n]?
  else if n < 0x30 then
    [.add, .sub, .adds, .subs, .mul, .mulh, .mad, .and, .or, .xor, .andn, .shl, .shr, .sar, .shrr, .min, .max, .abs,
      .neg, .clz, .popc, .cmp][n - 0x10]?
  else if n < 0x50 then
    [.fadd, .fsub, .fmul, .ffma, .fmin, .fmax, .fabs, .fneg, .fcmp, .frcp, .frsq, .fexp2, .flog2, .ftanh, .cvt][n - 0x30]?
  else if n < 0x60 then [.lds, .sts, .ldg, .stg, .amog, .ldt, .stt, .acr][n - 0x50]?
  else [.bsig, .ssend, .exit, .brkpt][n - 0x60]?

/-- The type set of an operation (R198). -/
def LaneOp.accepts (o : LaneOp) (ty : Nat) : Bool :=
  match o with
  | .mov | .movi | .sel | .cvt | .lds | .sts | .ldg | .stg | .ldt | .stt => true
  | .rds | .amog => ty ≤ 1
  | .sar | .abs | .neg => tySigned ty
  | .add | .sub | .adds | .subs | .mul | .mulh | .mad | .and | .or | .xor | .andn | .shl | .shr | .shrr | .min | .max
  | .clz | .popc | .cmp => !tyFloat ty
  | .fadd | .fsub | .fmul | .ffma | .fmin | .fmax | .fabs | .fneg | .fcmp | .frcp | .frsq | .fexp2 | .flog2 | .ftanh =>
    tyFloat ty
  | .acr => ty ≤ 2
  | .nop | .bsig | .ssend | .exit | .brkpt => ty == 0

/-- Which operand an operation takes an immediate for (R193): 0 none, 1 a, 2 b. -/
def LaneOp.immOperand (o : LaneOp) : Nat :=
  match o with
  | .mov => 1
  | .add | .sub | .adds | .subs | .mulh | .and | .or | .xor | .andn | .shl | .shr | .sar | .shrr | .min | .max
  | .fadd | .fsub | .fmul | .ffma | .fmin | .fmax | .lds | .sts => 2
  | _ => 0

def LaneOp.readsA (o : LaneOp) : Bool :=
  match o with
  | .nop | .movi | .rds | .exit | .brkpt => false
  | _ => true

/-- SSEND reads b only with BVAL. -/
def LaneOp.readsB (o : LaneOp) (im : Nat) : Bool :=
  match o with
  | .sel | .add | .sub | .adds | .subs | .mul | .mulh | .mad | .and | .or | .xor | .andn | .shl | .shr | .sar | .shrr
  | .min | .max | .cmp | .fadd | .fsub | .fmul | .ffma | .fmin | .fmax | .fcmp | .lds | .sts | .ldg | .stg | .amog
  | .ldt | .stt | .acr => true
  | .ssend => bitAt im 0
  | _ => false

/-- The operations that read d as an extra operand (R192). -/
def LaneOp.readsD (o : LaneOp) (im : Nat) : Bool :=
  match o with
  | .mad | .ffma | .sts | .stg | .stt => true
  | .amog => bits im 2 4 == 7
  | _ => false

/-- The result is a predicate (R194). -/
def LaneOp.isPred (o : LaneOp) : Bool := o == .cmp || o == .fcmp

/-- The latency in rows (Table 01-4); none for an operation without a result. -/
def LaneOp.latency (o : LaneOp) (glat : Nat) : Option Nat :=
  match o with
  | .nop | .sts | .stg | .stt | .bsig | .ssend | .exit | .brkpt => none
  | .fadd | .fsub | .fmul | .ffma | .fmin | .fmax | .fabs | .fneg | .fcmp | .cvt | .ldt | .acr => some 3
  | .frcp | .frsq | .fexp2 | .flog2 | .ftanh => some 6
  | .lds => some 5
  | .ldg | .amog => some glat
  | _ => some 1

/-- The constant of MOVI before its type reads it (R201). -/
def moviBits (w : OpWord) (a : AddrWord) : Nat := a.a * 2 ^ 15 + a.b * 2 ^ 10 + w.im

/-- CVT's settings (R214). -/
def cvtOk (dst im : Nat) : Bool :=
  let src := bits im 0 3
  let rtz := bitAt im 3
  let sat := bitAt im 4
  bits im 5 5 == 0 && src != dst &&
    (if src == 2 && dst == 3 then !(rtz && sat)
     else if tyFloat src then (if tyFloat dst then !rtz && !sat else !sat)
     else if tyFloat dst then !rtz && !sat
     else !rtz)

/-- The im values an operation defines; `imm` says that an origin is 111 (R193, R198). MOVI of an 8-bit type has no im[9:8]
(R201). -/
def LaneOp.imOk (o : LaneOp) (ty im : Nat) (imm : Bool) : Bool :=
  match o with
  | .movi => ty < 6 || im < 2 ^ 8
  | .brkpt => true
  | .sel | .ldt | .stt | .acr => decide (im < 8)
  | .rds => decide (im < 10)
  | .mul | .mad | .abs | .neg | .ssend => decide (im < 2)
  | .ldg | .stg => decide (im < 4)
  | .amog => decide (im < 32)
  | .cmp => decide (bits im 0 3 < 6) && !bitAt im 3 && bits im 4 2 != 3 && bits im 6 4 == 0
  | .fcmp => !bitAt im 3 && bits im 4 2 != 3 && bits im 6 4 == 0
  | .cvt => cvtOk ty im
  | _ => imm || im == 0

/-- The rules marked as checked at RCFG that the operation word alone decides (R121): the opcode, the type, and an im
value that no origins of its operands would leave defined (R231). -/
def opWordOk (w : OpWord) : Bool :=
  match LaneOp.ofCode w.opc with
  | none => false
  | some o => o.accepts w.ty && o.imOk w.ty w.im (o.immOperand != 0)

/-- The rules an operation word and the route word beside it must keep, whatever the register-address word says: the
origins of the operands read and not read, the im values the origins leave defined, and no capture or push by an operation
without a result (R122, R196, R231). -/
def pairOk (w : OpWord) (r : RouteWord) : Bool :=
  match LaneOp.ofCode w.opc with
  | none => false
  | some o =>
    let org (reads : Bool) (x : Nat) (here : Bool) : Bool := if reads then x != 7 || here else x == 0
    o.accepts w.ty && org o.readsA r.oa (o.immOperand == 1) && org (o.readsB w.im) r.ob (o.immOperand == 2)
      && o.imOk w.ty w.im (r.oa == 7 || r.ob == 7)
      && ((o.latency 16).isSome || (r.om == 0 && !r.op))

/-- The rules a triple of words must keep (R196, R231): those of its first two words, a predicate destination with
d[4:3] = 0, and no high part of MOVI's constant beyond its type. -/
def tripleOk (w : OpWord) (r : RouteWord) (a : AddrWord) : Bool :=
  match LaneOp.ofCode w.opc with
  | none => false
  | some o =>
    pairOk w r
      && (!o.isPred || decide (a.d < 8))
      && (o != .movi ||
        (if w.ty ≤ 2 then true
         else if w.ty ≤ 5 then decide (moviBits w a < 2 ^ 16) else decide (moviBits w a < 2 ^ 8)))

/-! ## Computed values -/

def intVal (ty : Nat) (x : W32) : Int := (tyInt ty).read x.toNat
def numVal (ty : Nat) (x : W32) : Num := Num.ofBits (tyFmt ty) (x.toNat % 2 ^ tyWidth ty)

/-- An integer result in its written form. -/
def intRes (ty : Nat) (x : Int) : W32 := tyForm ty (wrapN (tyWidth ty) x)
/-- sat or wrap of a result (R56). -/
def satWrap (ty : Nat) (sat : Bool) (x : Int) : W32 × Flags :=
  if sat then let (y, g) := (tyInt ty).sat x; (intRes ty y, g) else (intRes ty x, 0)

/-- A rounded floating result. -/
def fltRes (ty : Nat) (x : NumV) : W32 × Flags :=
  let (b, g) := roundV (tyFmt ty) .rne x
  (BitVec.ofNat 32 b, g)

/-- The lesser or greater encoding, -0 below +0, a NaN giving canon_nan (R210). -/
def minmaxF (f : FloatFmt) (least : Bool) (x y : Nat) : Nat :=
  let a := Num.ofBits f x
  let b := Num.ofBits f y
  if a.isNan || b.isNan then f.canonNan
  else
    let aFirst := match a.cmp b with
      | .lt => true
      | .gt => false
      | .eq => a.sign || !b.sign
    if aFirst == least then x else y

/-- A condition of CMP and FCMP on values that are not NaN. -/
def condHolds (c : Nat) (o : Ordering) : Bool :=
  match c with
  | 0 => o == .eq
  | 1 => o != .eq
  | 2 => o == .lt
  | 3 => o != .lt
  | 4 => o != .gt
  | 5 => o == .gt
  | 6 => false
  | _ => true

/-- The combine code of R208. -/
def combine (c : Nat) (x old : Bool) : Bool :=
  match c with
  | 1 => x && old
  | 2 => x || old
  | _ => x

def boolRes (b : Bool) : W32 := if b then 1 else 0

/-- The number of leading zeros of an n-bit pattern. -/
def leadingZeros (n x : Nat) : Nat := if x = 0 then n else n - 1 - Nat.log2 x
def popCount : Nat → Nat → Nat
  | 0, _ => 0
  | n + 1, x => x % 2 + popCount n (x / 2)

/-- CVT (R214): the source bits to the destination type. -/
def cvtLane (dst im : Nat) (a : W32) : W32 × Flags :=
  let src := bits im 0 3
  let rtz := bitAt im 3
  let sat := bitAt im 4
  if tyFloat src then
    let x := numVal src a
    if tyFloat dst then
      let (b, g) := if sat then roundSat (tyFmt dst) x else roundF (tyFmt dst) (if rtz then .rtz else .rne) x
      (BitVec.ofNat 32 b, g)
    else
      let (v, g) := f2i (tyInt dst) (if rtz then .rtz else .rne) x
      (intRes dst v, g)
  else if tyFloat dst then fltRes dst (Num.ofInt (intVal src a), false)
  else satWrap dst sat (intVal src a)

/-- Operands as an operation reads them: a, b, d, the old destination predicate, the predicate SEL names, and the
value RDS selects. -/
structure LaneIn where
  a : W32
  b : W32
  d : W32
  old : Bool
  sel : Bool
  rds : W32
deriving DecidableEq, Repr

def specOf : LaneOp → SpecFn
  | .frcp => .rcp
  | .frsq => .rsq
  | .fexp2 => .exp2
  | .flog2 => .log2
  | _ => .tanh

/-- The value and the flags of a computing operation (R199 to R214). `free` stands for a special function's value
where the enclosure of Special.lean does not decide it (log entry 17). -/
def laneValue (o : LaneOp) (w : OpWord) (aw : AddrWord) (i : LaneIn) (free : W32) : W32 × Flags :=
  let ty := w.ty
  let n := tyWidth ty
  let a := intVal ty i.a
  let b := intVal ty i.b
  let d := intVal ty i.d
  let x := i.a.toNat % 2 ^ n
  let y := i.b.toNat % 2 ^ n
  let sh := i.b.toNat % 32
  let sat := bitAt w.im 0
  let fa := numVal ty i.a
  let fb := numVal ty i.b
  let bare (v : W32) : W32 × Flags := (v, 0)
  match o with
  | .mov => bare (tyForm ty i.a.toNat)
  | .movi =>
    let v := moviBits w aw
    bare (if ty = 0 then BitVec.ofInt 32 (sgn 20 v) else if ty = 1 then BitVec.ofNat 32 v
          else if ty = 2 then BitVec.ofNat 32 (v * 2 ^ 12) else tyForm ty v)
  | .sel => bare (tyForm ty (if i.sel then i.a else i.b).toNat)
  | .rds => bare i.rds
  | .add => satWrap ty false (a + b)
  | .sub => satWrap ty false (a - b)
  | .adds => satWrap ty true (a + b)
  | .subs => satWrap ty true (a - b)
  | .mul => satWrap ty sat (a * b)
  | .mulh => satWrap ty false (a * b / (2 ^ n : Nat))
  | .mad => satWrap ty sat (d + a * b)
  | .and => bare (tyForm ty (x &&& y))
  | .or => bare (tyForm ty (x ||| y))
  | .xor => bare (tyForm ty (x ^^^ y))
  | .andn => bare (tyForm ty (x &&& (2 ^ n - 1 - y)))
  | .shl => satWrap ty false (a * (2 ^ sh : Nat))
  | .shr => bare (tyForm ty (x / 2 ^ sh))
  | .sar => bare (intRes ty (a / (2 ^ sh : Nat)))
  | .shrr => bare (intRes ty (shrRne a sh))
  | .min => bare (intRes ty (min a b))
  | .max => bare (intRes ty (max a b))
  | .abs => satWrap ty sat a.natAbs
  | .neg => satWrap ty sat (-a)
  | .clz => bare (BitVec.ofNat 32 (leadingZeros n x))
  | .popc => bare (BitVec.ofNat 32 (popCount n x))
  | .cmp => bare (boolRes (combine (bits w.im 4 2) (condHolds (bits w.im 0 3) (compare a b)) i.old))
  | .fadd => fltRes ty (fa.add fb)
  | .fsub => fltRes ty (fa.sub fb)
  | .fmul => fltRes ty (fa.mul fb)
  | .ffma =>
    let p := fa.mul fb
    let c := numVal ty i.d
    let s := exactSum [p.1, c]
    fltRes ty (s.1, (p.2 && !c.isNan) || s.2)
  | .fmin => bare (BitVec.ofNat 32 (minmaxF (tyFmt ty) true x y))
  | .fmax => bare (BitVec.ofNat 32 (minmaxF (tyFmt ty) false x y))
  | .fabs => bare (BitVec.ofNat 32 (if fa.isNan then (tyFmt ty).canonNan else x % 2 ^ (n - 1)))
  | .fneg => bare (BitVec.ofNat 32 (if fa.isNan then (tyFmt ty).canonNan else (x + 2 ^ (n - 1)) % 2 ^ n))
  | .fcmp =>
    let c := if fa.isNan || fb.isNan then bits w.im 0 3 == 6 || bits w.im 0 3 == 1 else condHolds (bits w.im 0 3) (fa.cmp fb)
    bare (boolRes (combine (bits w.im 4 2) c i.old))
  | .frcp | .frsq | .fexp2 | .flog2 | .ftanh =>
    match specFn (specOf o) (tyFmt ty) fa with
    | some (v, g) => (BitVec.ofNat 32 v, g)
    | none => bare (tyForm ty free.toNat)
  | .cvt => cvtLane ty w.im i.a
  | _ => bare 0

/-- The operations whose value laneValue gives. -/
def LaneOp.computes (o : LaneOp) : Bool :=
  match o with
  | .nop | .lds | .sts | .ldg | .stg | .amog | .ldt | .stt | .acr | .bsig | .ssend | .exit | .brkpt => false
  | _ => true

end Sys2Proof.Machine
end

