-- ==== Sys2Proof/Machine/Image.lean ====
section
/-! DEFINITION. Configuration images (R14, R16, R196) and the launch checks of a region descriptor against the image
in its bank (R17, R22, R29, R30, R41, R42, R259, R355). -/

namespace Sys2Proof.Machine

/-! ## Status codes (Tables 01-8 and 11-2) -/

namespace St
def ok := 0
def busy := 1
def image := 2
def rect := 3
def opcode := 4
def align := 5
def fetch := 6
def tag := 8
def ring := 9
def desc := 10
def result := 11
def landing := 12
def pass := 13
def state := 15
def owner := 16
def block := 17
end St

/-- The lowest code of a list (R43). -/
def lowest : List Nat → Option Nat
  | [] => none
  | x :: xs => some (xs.foldl min x)

/-- The codes whose conditions hold. -/
def causes (l : List (Bool × Nat)) : List Nat := (l.filter Prod.fst).map Prod.snd

/-! ## Pattern records -/

/-- A pattern record at an offset of an image. -/
structure Rec where
  off : Nat
  lop : Nat
  lrt : Nat
  lra : Nat
  nrect : Nat
deriving DecidableEq, Repr

def recAt (b : List Byte) (off : Nat) : Rec :=
  ⟨off, bits (fld b off 1) 0 5 + 1, bits (fld b (off + 1) 1) 0 5 + 1, bits (fld b (off + 2) 1) 0 5 + 1, fld b (off + 3) 1⟩

def Rec.opsOff (r : Rec) : Nat := r.off + 0x20
def Rec.rtsOff (r : Rec) : Nat := r.opsOff + 3 * r.lop
def Rec.rasOff (r : Rec) : Nat := r.rtsOff + 2 * r.lrt
def Rec.used (r : Rec) : Nat := 32 + 3 * r.lop + 2 * r.lrt + 2 * r.lra
def Rec.size (r : Rec) : Nat := roundUp r.used 64

/-- The lanes of a rectangle byte. -/
def rectLanes (x : Nat) : List Nat :=
  (upFrom 0 16).filter fun l =>
    decide (bits x 6 2 ≤ l / 4 ∧ l / 4 ≤ bits x 6 2 + bits x 2 2 ∧ bits x 4 2 ≤ l % 4 ∧ l % 4 ≤ bits x 4 2 + bits x 0 2)

/-- A rectangle extends beyond the 4×4 grid. -/
def rectOut (x : Nat) : Bool := decide (4 < bits x 6 2 + bits x 2 2 + 1 ∨ 4 < bits x 4 2 + bits x 0 2 + 1)

def Rec.lanes (r : Rec) (b : List Byte) : List Nat :=
  (upFrom 0 (min r.nrect 16)).flatMap fun i => rectLanes (fld b (r.off + 0x10 + i) 1)

def Rec.op (r : Rec) (b : List Byte) (i : Nat) : BitVec 24 := BitVec.ofNat 24 (fld b (r.opsOff + 3 * i) 3)
/-- The values a 16-bit word at an offset may have, of an image whose first `got` bytes have been read: its own, or each that
its low byte leaves open; none while nothing of it has been read. -/
def halvesAt (b : List Byte) (got off : Nat) : List Half :=
  if off + 2 ≤ got then [BitVec.ofNat 16 (fld b off 2)]
  else if off + 1 ≤ got then (upFrom 0 256).map fun hi => BitVec.ofNat 16 (fld b off 1 + 256 * hi)
  else []

/-- A word of which something has been read breaks a rule whatever the rest of it is. -/
def surely (l : List Half) (bad : Half → Bool) : Bool := !l.isEmpty && l.all bad

def Rec.rt (r : Rec) (b : List Byte) (i : Nat) : Half := BitVec.ofNat 16 (fld b (r.rtsOff + 2 * i) 2)
def Rec.ra (r : Rec) (b : List Byte) (i : Nat) : Half := BitVec.ofNat 16 (fld b (r.rasOff + 2 * i) 2)

/-- The causes found in a record of which the first `got` bytes of the image have been read (R16): a cause that depends on
bytes not read is not found, and one that the bytes read decide is: an operation word alone, an operation word beside its
route word, and the triple are each checked as soon as they are there, and a route or register-address word of which the
low byte alone has been read breaks what every value of its high byte would break (R231). -/
def Rec.causes (r : Rec) (b : List Byte) (got : Nat) : List Nat :=
  let have' (o n : Nat) : Bool := decide (o + n ≤ got)
  let ops := upFrom 0 r.lop
  let rts := upFrom 0 r.lrt
  let period := Nat.lcm (Nat.lcm r.lop r.lrt) r.lra
  let rects := upFrom 0 (min r.nrect 16)
  let image :=
    decide (32 ≤ fld b r.off 1 ∨ 32 ≤ fld b (r.off + 1) 1 ∨ 32 ≤ fld b (r.off + 2) 1)
      || decide (r.nrect = 0 ∨ 16 < r.nrect)
      || !zeroAt b (r.off + 0x10 + r.nrect) (16 - r.nrect)
      || rts.any (fun i => surely (halvesAt b got (r.rtsOff + 2 * i)) fun x => (RouteWord.of x).rz != 0)
      || !((b.take got).drop (r.off + r.used) |>.take (r.size - r.used)).all (· == 0)
  let rect := rects.any fun i => rectOut (fld b (r.off + 0x10 + i) 1)
  let opcode :=
    ops.any (fun i => have' (r.opsOff + 3 * i) 3 && !opWordOk (OpWord.of (r.op b i)))
      || (upFrom 0 period).any fun t =>
        let w := OpWord.of (r.op b (t % r.lop))
        have' (r.opsOff + 3 * (t % r.lop)) 3 && surely (halvesAt b got (r.rtsOff + 2 * (t % r.lrt))) fun x =>
          !pairOk w (RouteWord.of x)
            || surely (halvesAt b got (r.rasOff + 2 * (t % r.lra))) fun y => !tripleOk w (RouteWord.of x) (AddrWord.of y)
  those [(image, St.image), (rect, St.rect), (opcode, St.opcode)]
where
  those (l : List (Bool × Nat)) : List Nat := (l.filter Prod.fst).map Prod.snd

/-! ## Whole images -/

def imgTag (b : List Byte) : Nat := fld b 0x00 4
def imgNpat (b : List Byte) : Nat := fld b 0x04 2
def imgLen (b : List Byte) : Nat := fld b 0x08 4

/-- The header's own causes. -/
def headerBad (b : List Byte) : Bool :=
  imgTag b == 0 || imgNpat b == 0 || decide (16 < imgNpat b) || !zeroAt b 0x06 2 || !zeroAt b 0x0C 52
    || imgLen b % 64 != 0 || decide (imgLen b < 128)

/-- Walk `n` records from `off`; `got` bytes of the image have been read. Answers the causes found, the lanes
covered so far being `seen`. -/
def walkRecords (b : List Byte) (got : Nat) : Nat → Nat → List Nat → List Nat
  | 0, off, _ => if off = imgLen b ∨ got < imgLen b then [] else [St.image]
  | n + 1, off, seen =>
    if got < off + 64 then (if off + 64 ≤ imgLen b then [] else [St.image])
    else
      let r := recAt b off
      let ls := r.lanes b
      let twice := ls.any (fun l => seen.contains l) || ls.eraseDups.length != ls.length
      let long := decide (imgLen b < off + r.size)
      r.causes b got ++ (if twice then [St.rect] else []) ++
        (if long then [St.image] else walkRecords b got n (off + r.size) (ls ++ seen))

/-- The status of an image of which `got` bytes could be read before a read failed; `got` is LEN where none failed. -/
def imageStatus (b : List Byte) (got : Nat) (failed : Bool) : Nat :=
  let found :=
    if got < 64 then []
    else if headerBad b then [St.image]
    else walkRecords b got (imgNpat b) 64 []
  (lowest (found ++ (if failed then [St.fetch] else []))).getD St.ok

/-- The pattern of a record. -/
def Rec.pattern (r : Rec) (b : List Byte) : Pattern :=
  let sm := fld b (r.off + 4) 12
  { ops := (upFrom 0 r.lop).map (r.op b), routes := (upFrom 0 r.lrt).map (r.rt b), ras := (upFrom 0 r.lra).map (r.ra b),
    smap := (upFrom 0 32).map fun t => BitVec.ofNat 3 (bits sm (3 * t) 3) }

def loadRecords (b : List Byte) : Nat → Nat → Tab Pattern → Tab Pattern
  | 0, _, t => t
  | n + 1, off, t =>
    let r := recAt b off
    loadRecords b n (off + r.size) ((r.lanes b).foldl (fun t l => Tab.set t l (r.pattern b)) t)

/-- The bank an accepted image fills (R13, R15). -/
def bankOf (b : List Byte) : Bank :=
  { tag := BitVec.ofNat 32 (imgTag b), lanes := loadRecords b (imgNpat b) 64 [] }

/-! ## Words of a lane at a row (R17) -/

def Pattern.op (p : Pattern) (t : Nat) : BitVec 24 := p.ops.getD (t % p.ops.length) 0
def Pattern.route (p : Pattern) (t : Nat) : Half := p.routes.getD (t % p.routes.length) 0
def Pattern.ra (p : Pattern) (t : Nat) : Half := p.ras.getD (t % p.ras.length) 0
def Pattern.stage (p : Pattern) (t : Nat) : Nat := (p.smap.getD t 0).toNat

/-! ## The region descriptor (Table 01-7) -/

def dBank (d : List Byte) : Nat := bits (fld d 0x00 4) 12 2
def dOpen (d : List Byte) : Bool := bitAt (fld d 0x00 4) 11
def dS (d : List Byte) : Nat := bits (fld d 0x00 4) 8 3 + 1
def dII (d : List Byte) : Nat := bits (fld d 0x00 4) 0 5 + 1
def dHL (d : List Byte) : Nat := bits (fld d 0x04 4) 16 11
def dGlat (d : List Byte) : Nat := bits (fld d 0x04 4) 0 8
def dTrip (d : List Byte) : Nat := fld d 0x08 4
def dIstr (d : List Byte) : Nat := fld d 0x0C 4
def dIoff (d : List Byte) : Nat := fld d 0x10 4
def dNcp (d : List Byte) : Nat := bits (fld d 0x14 4) 5 5
def dKcp (d : List Byte) : Nat := bits (fld d 0x14 4) 0 5
def dQbar (d : List Byte) : Nat := bits (fld d 0x18 8) 36 3
def dQpd (d : List Byte) (j : Nat) : Nat := bits (fld d 0x18 8) (24 + 3 * j) 3
def dQag (d : List Byte) (j : Nat) : Nat := bits (fld d 0x18 8) (3 * j) 3
def dTag (d : List Byte) : Nat := fld d 0x20 4
def dWbar (d : List Byte) : Nat := bits (fld d 0x24 2) 0 11
def dRow (d : List Byte) (t : Nat) : Nat := fld d (0x60 + 2 * t) 2
def dPd (d : List Byte) (j : Nat) : Nat := fld d (0xA0 + 8 * j) 8

/-- Row-word bits (Table 01-3). -/
def rwPs (w j : Nat) : Bool := bitAt w (8 + j)
def rwAv (w j : Nat) : Bool := bitAt w j

/-! ## Pass descriptors (Table 15-5) -/

def pdTop (p : Nat) : Nat := bits p 27 5
def pdTa (p : Nat) : Nat := bits p 24 3
def pdTb (p : Nat) : Nat := bits p 21 3
def pdTd (p : Nat) : Nat := bits p 18 3
def pdFl (p : Nat) : Nat := bits p 8 5
def pdAux (p : Nat) : Nat := bits p 32 32

/-- A descriptor that names a pass R259 permits. -/
def pdOk (p : Nat) : Bool :=
  let fl := pdFl p
  bits p 13 5 == 0 && bits p 1 6 == 0 && !bitAt p 7 &&
    match pdTop p with
    | 5 => bits fl 3 2 == 0
    | 6 => bits fl 0 2 != 3 && decide (pdTa p + (if bits fl 0 2 = 0 then 2 else 4) ≤ 8)
    | 7 => bits fl 4 1 == 0
    | 8 => bits fl 0 2 != 3 && !(bitAt fl 4 && (bits fl 2 2 == 1 || bits fl 2 2 == 2))
    | _ => false

/-- The accumulators a pass writes (R355). -/
def pdWrites (p : Nat) : List Nat := if pdTop p = 8 then [pdTd p, pdTd p ^^^ 1] else [pdTd p]

/-! ## Launch checks -/

/-- What a lane of the bank does at every row below II: the words and the operation. -/
def Bank.words (b : Bank) (ii : Nat) : List (Nat × Nat × OpWord × RouteWord × AddrWord × LaneOp) :=
  b.lanes.flatMap fun (l, p) => (upFrom 0 ii).filterMap fun t =>
    let w := OpWord.of (p.op t)
    (LaneOp.ofCode w.opc).map fun o => (l, t, w, RouteWord.of (p.route t), AddrWord.of (p.ra t), o)

/-- R17: a ring length that does not divide II, or a stage-map entry or a qualifying stage of S or more. -/
def ringBad (b : Bank) (d : List Byte) : Bool :=
  let ii := dII d
  b.lanes.any (fun (_, p) => ii % p.ops.length != 0 || ii % p.routes.length != 0 || ii % p.ras.length != 0
      || (p.smap.take ii).any fun s => decide (dS d ≤ s.toNat))
    || decide (dS d ≤ dQbar d) || (upFrom 0 4).any (fun j => decide (dS d ≤ dQpd d j))
    || (upFrom 0 8).any fun j => decide (dS d ≤ dQag d j)

/-- R29: two write-backs of one lane in one row modulo II. -/
def resultBad (b : Bank) (d : List Byte) : Bool :=
  let rows := (b.words (dII d)).filterMap fun (l, t, _, r, a, o) =>
    match o.latency (dGlat d) with
    | some n => if !a.nw || r.om != 0 || r.op then some (l, (t + n - 1) % dII d) else none
    | none => none
  rows.eraseDups.length != rows.length

/-- R30: a lane needs more than four landing slots. -/
def landingBad (b : Bank) (d : List Byte) : Bool :=
  let ws := b.words (dII d)
  (upFrom 0 16).any fun l =>
    decide (4 < ((ws.filter fun x => x.1 == l && (x.2.2.2.2.2 == .ldg || x.2.2.2.2.2 == .amog)).length)
      * ((dGlat d + dII d - 1) / dII d))

/-- The pass starts of the row table: (row, descriptor). -/
def passStarts (d : List Byte) : List (Nat × Nat) :=
  (upFrom 0 (dII d)).flatMap fun t => ((upFrom 0 4).filter fun j => rwPs (dRow d t) j).map fun j => (t, j)

/-- The row starts some pass. -/
def hasPass (d : List Byte) : Bool := !(passStarts d).isEmpty

/-- The distance from row `a` forward to row `b` modulo II. -/
def rowsAfter (ii a b : Nat) : Nat := (b + ii - a) % ii

/-- R22 and R355: starts less than 16 rows apart, or an ACR of an accumulator a pass writes in the fifteen rows
that follow its start. -/
def passBad (b : Bank) (d : List Byte) : Bool :=
  let ii := dII d
  let ps := passStarts d
  (hasPass d && decide (ii < 16))
    || (upFrom 0 ps.length).any (fun i => (upFrom (i + 1) (ps.length - i - 1)).any fun k =>
        let x := (ps.getD i (0, 0)).1
        let y := (ps.getD k (0, 0)).1
        decide (rowsAfter ii x y < 16 ∨ rowsAfter ii y x < 16))
    || (b.words ii).any fun (_, t, w, _, _, o) => o == .acr && ps.any fun (r, j) =>
        let n := rowsAfter ii r t
        decide (1 ≤ n ∧ n ≤ 15) && (pdWrites (dPd d j)).contains (bits w.im 0 3)

/-- The reserved fields of a descriptor, and its ranges (R41, R43). -/
def descFieldsBad (d : List Byte) : Bool :=
  let w0 := fld d 0x00 4
  let w1 := fld d 0x04 4
  bits w0 14 18 != 0 || bits w0 5 3 != 0 || bits w1 27 5 != 0 || bits w1 8 8 != 0 || bits (fld d 0x14 4) 15 17 != 0
    || bits (fld d 0x18 8) 39 25 != 0 || bits (fld d 0x24 2) 11 5 != 0 || !zeroAt d 0x26 10 || !zeroAt d 0xC0 64
    || decide (dGlat d < 16) || decide (1024 < dHL d) || decide (dNcp d < dKcp d)
    || (upFrom (dII d) (32 - dII d)).any fun t => dRow d t != 0

/-- The bindings: `bound port out` says whether a port carries or awaits a stream of a direction (R42). -/
def bindingsBad (b : Bank) (d : List Byte) (bound : Nat → Bool → Bool) : Bool :=
  let r : Region := { desc := d }
  let bad (x : Option (Nat × Nat)) (out : Bool) : Bool := x.any fun (p, _) => !bound p out
  (upFrom 0 16).any (fun l => bad (r.inBinding l 0) false || bad (r.inBinding l 1) false || bad (r.outBinding l) true)
    || (b.words (dII d)).any fun (l, _, _, rt, _, _) =>
      let uses (x : Nat) : Bool := rt.oa == x || rt.ob == x
      (uses 5 && (r.inBinding l 0).isNone) || (uses 6 && (r.inBinding l 1).isNone) || (rt.op && (r.outBinding l).isNone)

def descBad (b : Bank) (d : List Byte) (bound : Nat → Bool → Bool) : Bool :=
  descFieldsBad d || bindingsBad b d bound || (passStarts d).any fun (_, j) => !pdOk (dPd d j)

/-- The checks of R42 of a descriptor against the bank it names: the codes found. -/
def launchCauses (b : Bank) (d : List Byte) (bound : Nat → Bool → Bool) : List Nat :=
  let tagged := b.tag != 0 && b.tag.toNat == dTag d
  if !tagged then [St.tag]
  else
    causes [(ringBad b d, St.ring), (descBad b d bound, St.desc), (resultBad b d, St.result), (landingBad b d, St.landing),
      (passBad b d, St.pass)]

end Sys2Proof.Machine
end

