-- ==== Sys2Proof/Machine/Block.lean ====
section
/-! DEFINITION. The boundary state block and the store tail (R356 to R358, Tables 23-5 and 23-6): their bytes, the
words of them that are poisoned (R352), and reading them back. -/

namespace Sys2Proof.Machine

def blockMagic : Nat := 0x31425342

/-! ## Landing and result slots -/

/-- The landing slots in ascending order of remaining rows, each with the number it had (R357). -/
def insLand (x : Nat × Landing) : List (Nat × Landing) → List (Nat × Landing)
  | [] => [x]
  | y :: ys => if x.2.rem < y.2.rem then x :: y :: ys else y :: insLand x ys

def Lane.landings (l : Lane) : List (Nat × Landing) :=
  (l.land.filterMap fun (n, s) => s.map fun v => (n, v)).foldl (fun a x => insLand x a) []

def insRes (x : Result) : List Result → List Result
  | [] => [x]
  | y :: ys => if x.rem < y.rem then x :: y :: ys else y :: insRes x ys

def Lane.results (l : Lane) : List Result := l.res.foldl (fun a x => insRes x a) []

/-- A landing slot holds a value to land: an AMOG that has been performed. -/
def Landing.isHeld (s : Landing) : Bool := s.amo && s.reply.isSome && !s.pois

def landBytes (s : Landing) : List Byte :=
  let va := 2 ^ 63 + b2n s.isHeld * 2 ^ 62 + b2n s.amo * 2 ^ 61 + s.ty.toNat * 2 ^ 55
    + (if s.isHeld then (s.reply.getD 0).toNat else s.va.toNat % 2 ^ 55)
  toLE 8 va ++ toLE 4 (s.dest + b2n s.nw * 2 ^ 5 + s.rem * 2 ^ 6 + s.om.toNat * 2 ^ 14 + b2n s.op * 2 ^ 18)

def resBytes (r : Result) : List Byte :=
  toLE 8 (2 ^ 63 + r.rem * 2 ^ 44 + b2n r.op * 2 ^ 43 + r.om.toNat * 2 ^ 39 + b2n r.pr * 2 ^ 38 + b2n r.nw * 2 ^ 37
    + r.dest * 2 ^ 32 + r.value.toNat)

/-- Pad to a length with zeros. -/
def padTo (n : Nat) (b : List Byte) : List Byte := (b ++ List.replicate (n - b.length) 0).take n

def Lane.bytes (l : Lane) : List Byte :=
  ((upFrom 0 32).flatMap fun p => toLE 4 (l.reg p).toNat)
    ++ ((upFrom 0 4).flatMap fun i => toLE 4 (Tab.get 0 l.lat i).toNat)
    ++ padTo 48 (l.landings.flatMap fun x => landBytes x.2)
    ++ padTo 40 (l.results.flatMap resBytes)
    ++ toLE 1 (l.p.toNat / 2 * 2) ++ toLE 7 0

/-! ## The region part -/

/-- A port cursor (Table 23-5). -/
def Port.cursor (p : Port) (owner : Option Nat) : List Byte :=
  match p.stream with
  | none => toLE 16 0
  | some t =>
    if some t.bind.slot ≠ owner then toLE 16 0
    else
      let nb := max 1 t.beatsPerRep
      let fl := b2n (!t.isOut && !t.beats.isEmpty) + 2 * b2n t.exhausted + 4 * b2n t.isOut + 8
      toLE 8 (16 * (t.no % nb)) ++ toLE 4 (t.no / nb) ++ toLE 2 t.saved.toNat ++ toLE 1 fl ++ toLE 1 0

def stqTail (q : List StqEntry) : Bool := !q.isEmpty

/-- The region part of the block of a region (Table 23-5); `stq` is the store queue that is left. -/
def Core.blockHead (k : Core) : List Byte :=
  let r := k.region
  let owner := r.owner.getD 0
  let st := if r.st == .frozen then 3 else 2
  let mark := blockMagic + st * 2 ^ 32 + b2n (stqTail k.stq) * 2 ^ 34 + b2n r.skip * 2 ^ 35 + b2n r.dln * 2 ^ 36
    + owner * 2 ^ 37 + dBank r.desc * 2 ^ 40
  toLE 8 mark ++ toLE 8 (r.dva.toNat % 2 ^ 55) ++ toLE 4 r.tag.toNat ++ toLE 4 r.ioff.toNat ++ toLE 4 r.nxt.toNat
    ++ toLE 4 r.k.toNat ++ toLE 1 r.rrb ++ toLE 1 r.mask.toNat ++ toLE 1 (b2n r.exited)
    ++ toLE 1 (if r.st == .frozen then r.t else 0) ++ toLE 2 r.hacc ++ toLE 1 r.kcp ++ toLE 1 r.ncp
    ++ toLE 8 r.holds.toNat ++ toLE 1 r.flags.toNat ++ toLE 1 0 ++ toLE 2 r.bph.toNat ++ toLE 12 0
    ++ ((upFrom 0 4).flatMap fun j => toLE 4 (Tab.get 0 r.aux j).toNat) ++ toLE 16 0
    ++ ((upFrom 0 8).flatMap fun j => (Tab.get {} k.ports j).cursor r.owner) ++ toLE 32 0

/-- The 4 KiB block of a core's region. -/
def Core.block (k : Core) : List Byte := k.blockHead ++ (upFrom 0 16).flatMap fun l => (k.region.lane l).bytes

/-- A store-tail entry; `slot` gives the landing slot an AMOG's entry names after the slots are put in order, and is 0 for
the other kinds (R357). -/
def StqEntry.bytes (e : StqEntry) (slot : Nat) : List Byte :=
  let head := toLE 8 (2 ^ 63 + e.kind * 2 ^ 58 + e.ty.toNat * 2 ^ 55 + e.va.toNat % 2 ^ 55)
  if e.kind = 10 then
    head ++ toLE 8 e.data.toNat ++ toLE 1 e.lane ++ toLE 1 e.flags.toNat ++ toLE 8 e.handle.toNat ++ toLE 4 e.doff.toNat
      ++ toLE 2 e.bn.toNat
  else head ++ toLE 4 (e.data.toNat % 2 ^ 32) ++ toLE 4 e.cmp.toNat ++ toLE 1 e.lane ++ toLE 1 slot ++ toLE 14 0

/-- The place a landing slot takes in the block. -/
def Region.landPlace (r : Region) (lane slot : Nat) : Nat :=
  ((r.lane lane).landings.findIdx? fun x => x.1 == slot).getD 0

/-- The 4 KiB of the store tail. -/
def Core.tail (k : Core) : List Byte :=
  padTo 4096 (k.stq.flatMap fun e =>
    e.bytes (if 1 ≤ e.kind ∧ e.kind ≤ 8 then k.region.landPlace e.lane e.lslot else 0))

/-- The offsets of the block's words that receive poisoned state (R352). -/
def State.blockPoison (s : State) (c : Nat) : List Nat :=
  let regs := s.poison.filterMap fun p => match p with
    | .lane c' l i =>
      if c' ≠ c then none
      else if i ≤ 35 then some (0x100 + 240 * l + 4 * i / 8 * 8)
      else if i = 36 then some (0x100 + 240 * l + 0xE8) else none
    | _ => none
  let res := (upFrom 0 16).flatMap fun l =>
    let rs := (((s.core c).region.lane l).results)
    (upFrom 0 rs.length).filterMap fun i =>
      if (rs.getD i { rem := 0, dest := 0, value := 0 }).pois then some (0x100 + 240 * l + 0xC0 + 8 * i) else none
  regs ++ res

/-- Write a block's bytes and its poison at cell address `a`. -/
def State.putBlock (s : State) (a : Nat) (b : List Byte) (pois : List Nat) : State :=
  pois.foldl (fun t o => t.setPois (.mem ((a + o) / 8)) true) (s.memWrite a b)

/-! ## Reading a block back -/

def getLanding (b : List Byte) : Option Landing :=
  let v := fld b 0 8
  let t := fld b 8 4
  if bitAt v 63 then
    some { va := BitVec.ofNat 64 (if bitAt v 62 then 0 else bits v 0 55), amo := bitAt v 61,
           ty := BitVec.ofNat 3 (bits v 55 3), rem := bits t 6 8, dest := bits t 0 5, nw := bitAt t 5,
           om := BitVec.ofNat 4 (bits t 14 4), op := bitAt t 18,
           reply := if bitAt v 62 then some (BitVec.ofNat 32 v) else none }
  else none

def getResult (b : List Byte) (pois : Bool) : Option Result :=
  let v := fld b 0 8
  if bitAt v 63 then
    some { rem := bits v 44 3, op := bitAt v 43, om := BitVec.ofNat 4 (bits v 39 4), pr := bitAt v 38, nw := bitAt v 37,
           dest := bits v 32 5, value := BitVec.ofNat 32 v, pois := pois }
  else none

/-- The fields of a landing or result slot are in range. -/
def landOk (b : List Byte) : Bool :=
  let v := fld b 0 8
  let t := fld b 8 4
  bits v 58 3 == 0 && bits t 19 13 == 0 && (!bitAt v 63 || bits t 6 8 != 0)
def resOk (b : List Byte) : Bool :=
  let v := fld b 0 8
  bits v 47 16 == 0 && (!bitAt v 63 || decide (1 ≤ bits v 44 3 ∧ bits v 44 3 ≤ 5))

def lanePart (b : List Byte) (l : Nat) : List Byte := (b.drop (0x100 + 240 * l)).take 240

def laneOk (p : List Byte) : Bool :=
  (upFrom 0 4).all (fun i => landOk (p.drop (0x90 + 12 * i))) && (upFrom 0 5).all (fun i => resOk (p.drop (0xC0 + 8 * i)))
    && !bitAt (fld p 0xE8 1) 0 && zeroAt p 0xE9 7

/-- A table of words, keeping those that are not zero. -/
def wordTab (f : Nat → W32) (n : Nat) : Tab W32 := (upFrom 0 n).foldl (fun t i => Tab.put 0 t i (f i)) []

/-- The lane a part holds; `pois o` says the word at offset `o` of the part is poisoned. -/
def getLane (p : List Byte) (pois : Nat → Bool) : Lane :=
  let w (o : Nat) : W32 := BitVec.ofNat 32 (fld p o 4)
  { w := wordTab (fun i => w (4 * i)) 24, c := wordTab (fun i => w (0x60 + 4 * i)) 8, p := BitVec.ofNat 8 (fld p 0xE8 1) ||| 1,
    lat := wordTab (fun i => w (0x80 + 4 * i)) 4,
    land := (upFrom 0 4).filterMap fun i => (getLanding (p.drop (0x90 + 12 * i))).map fun x => (i, some x),
    res := (upFrom 0 5).filterMap fun i => getResult (p.drop (0xC0 + 8 * i)) (pois (0xC0 + 8 * i)) }

/-- The marker and the fields of the region part are in range (R157). Every byte and bit that
Tables 23-5 and 23-6 name as zero must be zero. DESIGN CHOICE (log entry 80): FL[7:4] of a port cursor may hold anything, MASK
may have bits at or above S, and a slot's destination may be any of its 5 bits. -/
def blockOk (b : List Byte) : Bool :=
  let m := fld b 0 8
  bits m 0 32 == blockMagic && decide (2 ≤ bits m 32 2) && bits m 42 22 == 0 && decide (fld b 8 8 < 2 ^ 55)
    && decide (fld b 0x20 1 < 24) && decide (fld b 0x22 1 < 2) && decide (fld b 0x23 1 < 32)
    && (bits m 32 2 == 3 || fld b 0x23 1 == 0) && decide (fld b 0x24 2 ≤ 1024) && decide (fld b 0x26 1 < 32)
    && decide (fld b 0x27 1 < 32) && decide (fld b 0x30 1 < 8) && zeroAt b 0x31 1 && zeroAt b 0x34 12
    && zeroAt b 0x50 16 && (upFrom 0 8).all (fun j => zeroAt b (0x6F + 16 * j) 1) && zeroAt b 0xE0 32 && (upFrom 0 16).all fun l => laneOk (lanePart b l)

/-- A tail entry is in range: its operation is listed, its lane and an AMOG's landing slot exist, and what R357 names as zero
is zero. -/
def tailEntryOk (b : List Byte) : Bool :=
  let v := fld b 0 8
  let kind := bits v 58 4
  !bitAt v 63 || (!bitAt v 62 && decide (kind ≤ 10) && decide (fld b 16 1 < 16)
    && (decide (kind < 9) || bits v 0 55 == 0) && (kind == 10 || zeroAt b 18 14)
    && (kind != 9 || (bits (fld b 8 4) 26 6 == 0 && zeroAt b 12 4 && zeroAt b 17 1))
    && (decide (kind = 0 ∨ 9 ≤ kind) || decide (fld b 17 1 < 4)))

def getTailEntry (slot : Nat) (b : List Byte) : Option StqEntry :=
  let v := fld b 0 8
  let kind := bits v 58 4
  if bitAt v 63 then
    let e : StqEntry := { slot := slot, kind := kind, ty := BitVec.ofNat 3 (bits v 55 3), va := BitVec.ofNat 64 (bits v 0 55),
                          lane := fld b 16 1 }
    some (if kind = 10 then
      { e with data := BitVec.ofNat 64 (fld b 8 8), flags := BitVec.ofNat 8 (fld b 17 1),
               handle := BitVec.ofNat 64 (fld b 18 8), doff := BitVec.ofNat 32 (fld b 26 4),
               bn := BitVec.ofNat 16 (fld b 30 2) }
    else { e with data := BitVec.ofNat 64 (fld b 8 4), cmp := BitVec.ofNat 32 (fld b 12 4), lslot := fld b 17 1 })
  else none

def tailOk (b : List Byte) : Bool := (upFrom 0 128).all fun i => tailEntryOk (b.drop (32 * i))
def getTail (slot : Nat) (b : List Byte) : List StqEntry :=
  (upFrom 0 128).filterMap fun i => getTailEntry slot (b.drop (32 * i))

/-- The region a block describes, before the first row issues, with the descriptor read again (R358): `pois l o`
says the word at offset `o` of lane `l`'s part is poisoned. DEDUCED (log entry 81): the count of held cycles goes on from the
block's HOLDS. -/
def getRegion (b d : List Byte) (owner : Nat) (pois : Nat → Nat → Bool) : Region :=
  let m := fld b 0 8
  { st := if bits m 32 2 = 3 then .frozen else .halted, owner := some owner, dva := BitVec.ofNat 64 (fld b 8 8), desc := d,
    tag := BitVec.ofNat 32 (fld b 0x10 4), ioff := BitVec.ofNat 32 (fld b 0x14 4), kcp := fld b 0x26 1, ncp := fld b 0x27 1,
    t := fld b 0x23 1, k := BitVec.ofNat 32 (fld b 0x1C 4), rrb := fld b 0x20 1, mask := BitVec.ofNat 8 (fld b 0x21 1),
    nxt := BitVec.ofNat 32 (fld b 0x18 4), exited := bitAt (fld b 0x22 1) 0, hacc := fld b 0x24 2,
    holds := BitVec.ofNat 64 (fld b 0x28 8), flags := BitVec.ofNat 3 (fld b 0x30 1),
    aux := wordTab (fun j => BitVec.ofNat 32 (fld b (0x40 + 4 * j) 4)) 4, bph := BitVec.ofNat 16 (fld b 0x32 2),
    lanes := (upFrom 0 16).map fun l => (l, getLane (lanePart b l) (pois l)),
    skip := bitAt m 35, dln := bitAt m 36, done := BitVec.ofNat 8 (fld b 0x21 1) == 0#8 }

/-- The poison marks of the registers a block restores. -/
def restoredPoison (c : Nat) (pois : Nat → Nat → Bool) : List Loc :=
  (upFrom 0 16).flatMap fun l =>
    ((upFrom 0 36).filter fun i => pois l (4 * i / 8 * 8)).map (Loc.lane c l ·) ++
      (if pois l 0xE8 then [Loc.lane c l 36] else [])

/-- The offsets of a block that may hold the poison of registers, latches, predicates and results. -/
def carriesState (o : Nat) : Bool :=
  decide (0x100 ≤ o) && let p := (o - 0x100) % 240; decide (p < 0x90 ∨ 0xC0 ≤ p)

/-- A port takes the cursor of a block: the beat ELEM names is presented once again (R358). -/
def Stream.seek (t : Stream) (b : List Byte) : Stream :=
  let nb := max 1 t.beatsPerRep
  { t with no := fld b 8 4 * nb + fld b 0 8 / 16, beats := [], pushed := [], pushedPois := 0,
           saved := BitVec.ofNat 16 (fld b 12 2) }

end Sys2Proof.Machine
end

