-- ==== Sys2Proof/Machine/TileNum.lean ====
section
/-! DEFINITION. The arithmetic of tile formats (spec/03, spec/15): headers (R235, R236), elements (R48 to R50),
conversions (R59), product and distance blocks (R62 to R68), and the functions of TACT (R255). -/

namespace Sys2Proof.Machine

/-! ## Headers (Table 15-1) -/

def fInt32 := 0
def fFp32 := 1
def fBf16 := 2
def fInt16 := 3
def fInt8 := 4
def fUint8 := 5
def fInt4 := 6
def fLut4 := 7

/-- The elements of one 192-byte row (R235). -/
def capOf (f : Nat) : Nat := 1536 / fmtWidth f

def hFmt (h : Nat) : Nat := bits h 0 4
def hSm (h : Nat) : Nat := bits h 6 2
def hSc (h : Nat) : Nat := bits h 8 4
def hCb (h : Nat) : Nat := bits h 12 2
def hSwz (h : Nat) : Nat := bits h 14 4
def hK (h : Nat) : Nat := if bits h 18 9 = 0 then capOf (hFmt h) else bits h 18 9
def hNr (h : Nat) : Nat := if bits h 27 5 = 0 then 32 else bits h 27 5

/-- The swizzle codes R273 defines. -/
def swzOk (c : Nat) : Bool := c != 4 && c != 8 && c != 12

/-- swz of R273. -/
def swz (a c : Nat) : Nat :=
  if c = 0 then a
  else
    let g := 5 + c / 4
    let s := g + 2 + c % 4
    a ^^^ (bits a s 3 * 2 ^ g)

/-- The alignment of a swizzled object (R274). -/
def swzAlign (c : Nat) : Nat := if c = 0 then 1 else 2 ^ (5 + c / 4 + 3)

/-- A malformed header (R236). -/
def hdrBad (h : Nat) : Bool :=
  let f := hFmt h
  bits h 32 32 != 0 || bits h 4 2 != 0 || hSm h == 3 || (hSm h != 0 && !(decide (4 ≤ f ∧ f ≤ 7)))
    || (hSm h == 0 && hSc h != 0) || (decide (f < 8) && decide (capOf f < bits h 18 9)) || !swzOk (hSwz h)

/-! ## TILE subcodes (Table 15-4) -/

namespace Tsub
def header := 1
def format := 2
def scale := 3
def shape := 4
def spad := 5
def mask := 6
def index := 7
def log := 8
end Tsub

/-- The first check that fails gives the lowest subcode, since the checks stand in the order of Table 15-4. -/
def firstFail : List (Bool × Nat) → Option Nat
  | [] => none
  | (b, c) :: r => if b then some c else firstFail r

/-- HEADER or FORMAT for a header that is used. -/
def hdrChecks (hs : List Nat) : List (Bool × Nat) :=
  [(hs.any hdrBad, Tsub.header), (hs.any fun h => decide (8 ≤ hFmt h), Tsub.format)]

/-! ## Integer formats -/

def fmtSigned (f : Nat) : Bool := f != fUint8
def fmtIsInt (f : Nat) : Bool := f == 0 || decide (3 ≤ f ∧ f ≤ 6)
def fmtInt (f : Nat) : IntTy := ⟨fmtWidth f, fmtSigned f⟩
def fmtFloat (f : Nat) : FloatFmt := if f = fBf16 then .bf16 else .f32

/-- to_real of an element that is not LUT4 (R50). -/
def fmtReal (f x : Nat) : Num := if fmtIsInt f then Num.ofInt ((fmtInt f).read x) else Num.ofBits (fmtFloat f) x

/-! ## Conversions (Table 03-5) -/

/-- Convert an element between formats; a LUT4 source comes as the BF16 its codebook gives. An integer goes to a wider
format by extension, SAT or not; of one width and other signedness it saturates or wraps as SAT says; to a float it is
rounded to nearest even, where RTZ and SAT do not apply (log entry 29); they choose the rounding of FP32 to BF16 alone. Every NaN
it gives is canonical (R54); what only moves bits does not come here (R59, R253). -/
def convFmt (sf df : Nat) (rtz sat : Bool) (x : Nat) : Nat × Flags :=
  if fmtIsInt sf then
    let v := (fmtInt sf).read x
    if fmtIsInt df then
      let (y, g) := if sat && decide (fmtWidth df ≤ fmtWidth sf) then (fmtInt df).sat v else ((fmtInt df).wrap v, 0)
      (wrapN (fmtWidth df) y, g)
    else roundF (fmtFloat df) .rne (Num.ofInt v)
  else
    let v := Num.ofBits (fmtFloat sf) x
    if fmtIsInt df then
      let (y, g) := f2i (fmtInt df) (if rtz then .rtz else .rne) v
      (wrapN (fmtWidth df) y, g)
    else if sf = fFp32 ∧ df = fBf16 then
      (if sat then roundSat .bf16 v else roundF .bf16 (if rtz then .rtz else .rne) v)
    else roundF (fmtFloat df) .rne v

/-! ## Blocks -/

/-- Cut a list into blocks of 32 (R61), with fuel for its length. -/
def blocks32 {α : Type} : Nat → List α → List (List α)
  | 0, _ => []
  | n + 1, l => if l.isEmpty then [] else l.take 32 :: blocks32 n (l.drop 32)

def cut32 {α : Type} (l : List α) : List (List α) := blocks32 (l.length + 1) l

/-- exact_sum of products (R63), with NV where a product or the sum makes NaN of operands that are not NaN. -/
def dotBlock (a b : List Num) : NumV :=
  let ps := List.zipWith Num.mul a b
  let s := exactSum (ps.map Prod.fst)
  (s.1, ps.any Prod.snd || s.2)

def f32Bits (x : Nat) : Num := Num.ofBits .f32 x

/-- One block added into an accumulator element (R62). `scl` holds the scales of the two operands, if any. -/
def addBlock (isInt neg sat : Bool) (scl : Option (Num × Num)) (c : Nat) (x : NumV) : Nat × Flags :=
  match isInt, scl with
  | true, none =>
    let v : Int := x.1.scaled 0
    let v := if neg then -v else v
    let y := sgn 32 c + v
    let (y, g) := if sat then i32.sat y else (i32.wrap y, 0)
    (wrapN 32 y, g)
  | _, _ =>
    let (x, nv1) := match scl with
      | some (p, q) =>
        let y := x.1.mul p
        let z := y.1.mul q
        (z.1, x.2 || y.2 || z.2)
      | none => x
    let x := if neg then x.neg else x
    let (v, g1) := roundF .f32 .rne x
    let (r, g2) := roundV .f32 .rne ((f32Bits c).add (f32Bits v))
    (r, g1 ||| g2 ||| flagNv nv1)

/-- The blocks of one element in ascending order. -/
def sumBlocks (isInt neg sat : Bool) : List (NumV × Option (Num × Num)) → Nat → Flags → Nat × Flags
  | [], c, g => (c, g)
  | (x, scl) :: r, c, g =>
    let (c', g') := addBlock isInt neg sat scl c x
    sumBlocks isInt neg sat r c' (g ||| g')

/-- The metrics of a distance pass (R67). -/
inductive Metric where
  | l1
  | l2sq
  | nip
deriving DecidableEq, Repr

def distTerm (m : Metric) (a b : Num) : NumV :=
  match m with
  | .l1 => let d := a.sub b; (d.1.abs, d.2)
  | .l2sq =>
    let d := a.sub b
    let p := d.1.mul d.1
    (p.1, p.2 || d.2)
  | .nip => let p := a.mul b; (p.1.neg, p.2)

/-- distance of R67, continued from a partial. -/
def distBlocks (isInt : Bool) : List NumV → Option Nat → Flags → Nat × Flags
  | [], d, g => (d.getD 0, g)
  | x :: r, d, g =>
    if isInt then
      let v : Int := x.1.scaled 0
      let (y, g') := match d with
        | none => (v, (0 : Flags))
        | some p => i32.sat (sgn 32 p + v)
      distBlocks isInt r (some (wrapN 32 y)) (g ||| g')
    else
      let (v, g1) := roundV .f32 .rne x
      match d with
      | none => distBlocks isInt r (some v) (g ||| g1)
      | some p =>
        let (y, g2) := roundV .f32 .rne ((f32Bits p).add (f32Bits v))
        distBlocks isInt r (some y) (g ||| g1 ||| g2)

def distance (isInt : Bool) (m : Metric) (a b : List Num) (p : Option Nat) : Nat × Flags :=
  let xs := (List.zipWith (fun x y => List.zipWith (distTerm m) x y) (cut32 a) (cut32 b)).map fun ts =>
    let s := exactSum (ts.map Prod.fst)
    (s.1, ts.any Prod.snd || s.2)
  distBlocks isInt xs p 0

/-- A candidate is better than the running best (R68). -/
def better (isInt : Bool) (d n db nb : Nat) : Bool :=
  if isInt then decide (sgn 32 d < sgn 32 db) || (d == db && decide (n < nb))
  else
    let x := f32Bits d
    let y := f32Bits db
    !x.isNan && (y.isNan || x.lt y || (x.eqv y && decide (n < nb)))

/-! ## TACT (R255) -/

inductive ActFn where
  | relu
  | tanh
  | sigm
  | silu
deriving DecidableEq, Repr

/-- f(x) rounded to FP32; none where the enclosure does not decide. -/
def actVal (f : ActFn) (x : Num) : Option (Nat × Flags) :=
  let ex (v : Num) : Option (Nat × Flags) := some (roundF .f32 .rne v)
  match f, x with
  | _, .nan => ex .nan
  | .relu, .inf n => if n then ex (.fin false 0 0) else ex (.inf false)
  | .relu, .fin n m e => if n || m == 0 then ex (.fin false 0 0) else ex (.fin n m e)
  | .tanh, .inf n => ex (.fin n 1 0)
  | .tanh, .fin n m e => (tanhFin n m e).round .f32
  | .sigm, .inf n => if n then ex (.fin false 0 0) else ex (.fin false 1 0)
  | .sigm, .fin n m e => (sigmFin n m e).round .f32
  | .silu, .inf n => if n then ex (.fin true 0 0) else ex (.inf false)
  | .silu, .fin n m e => if m = 0 then ex (.fin n 0 0) else (siluFin n m e).round .f32

/-- u / (1 + u)^2, as it stands in the derivatives. -/
def bell (u : Encl) : Encl := let d := Encl.one.add u; u.div (d.mul d)

/-- A value far below every layout. -/
def tinyEnds (neg : Bool) : Ends := ⟨.fin neg 1 (-700), .fin neg 1 (-600)⟩

/-- Signed enclosure p - q of two enclosures. -/
def diffEnds (p q : Encl) : Ends :=
  let mk (x : Int) : Num := .fin (decide (x < 0)) x.natAbs (-bitsF)
  ⟨mk ((p.lo : Int) - q.hi), mk ((p.hi : Int) - q.lo)⟩

/-- f'(x) for a value that is not NaN. Below 2^-360 its sign decides the result: times a finite g it rounds to a zero. -/
def actDeriv (f : ActFn) (x : Num) : Ends :=
  let one := Ends.exact (.fin false 1 0)
  let zero := Ends.exact (.fin false 0 0)
  match f, x with
  | _, .nan => Ends.exact .nan
  | .relu, .inf n => if n then zero else one
  | .relu, .fin n m _ => if n || m == 0 then zero else one
  | .tanh, .inf _ => zero
  | .tanh, .fin _ m e =>
    if m = 0 then one
    else if decide ((7 : Int) ≤ (Nat.log2 m : Int) + e) then tinyEnds false
    else (bell (expNeg (enclOf m (e + 1)))).ends false 2
  | .sigm, .inf _ => zero
  | .sigm, .fin _ m e =>
    if m = 0 then Ends.exact (.fin false 1 (-2))
    else if decide ((8 : Int) ≤ (Nat.log2 m : Int) + e) then tinyEnds false
    else (bell (expNeg (enclOf m e))).ends false 0
  | .silu, .inf n => if n then zero else one
  | .silu, .fin n m e =>
    if m = 0 then Ends.exact (.fin false 1 (-1))
    else if decide ((8 : Int) ≤ (Nat.log2 m : Int) + e) then
      (if n then tinyEnds true else ⟨.fin false (2 ^ 500 - 1) (-500), .fin false (2 ^ 500 + 1) (-500)⟩)
    else
      let y := enclOf m e
      let u := expNeg y
      let d := Encl.one.add u
      let w := y.mul (bell u)
      if n then diffEnds (u.div d) w else ((Encl.one.div d).add w).ends false 0

/-- g * f'(x), formed exactly and rounded once. -/
def actGrad (f : ActFn) (g x : Num) : Option (Nat × Flags) :=
  if g.isNan || x.isNan then some (FloatFmt.f32.canonNan, 0)
  else
    let d := actDeriv f x
    let a := roundV .f32 .rne (g.mul d.lo)
    let b := roundV .f32 .rne (g.mul d.hi)
    if a = b then some a else none

end Sys2Proof.Machine
end

