-- ==== Sys2Proof/Machine/TileOps.lean ====
section
/-! DEFINITION. What a tile instruction does when the sequencer performs it (R233, R240 to R258): the checks in the
order of Table 15-4, the poisoned operands, and every byte it writes. A pass of a row table is the same (R239). -/

namespace Sys2Proof.Machine

/-- The fields of a ZT word (Table 15-2), which a pass descriptor mirrors (Table 15-5). -/
structure Zt where
  top : Nat
  ta : Nat
  tb : Nat
  td : Nat
  fl : Nat
  sb : Bool
deriving DecidableEq, Repr

def ztOf (w : Nat) : Zt := ⟨bits w 27 5, bits w 24 3, bits w 21 3, bits w 18 3, bits w 8 5, bitAt w 7⟩

/-- What a tile instruction writes: bytes of tile registers, accumulator elements (1024*n + 32*i + j), a codebook
register, a header, bytes of the window, and flags; `clear` clears the flag set. -/
structure TileWrites where
  tm : List (Nat × List Byte) := []
  acc : List (Nat × W32) := []
  lut : List (Nat × Half) := []
  hdr : Option (Nat × Word) := none
  spad : List (Nat × List Byte) := []
  flags : Flags := 0
  clear : Bool := false
deriving DecidableEq, Repr

/-- How an entry goes: a TILE subcode, poison, or its writes. -/
inductive TileRes where
  | fault (sub : Nat)
  | poison
  | ok (w : TileWrites)
deriving DecidableEq, Repr

/-! ## Reading -/

/-- Bytes of a slot's window; none beyond it (R77). -/
def State.winRead (s : State) (c n off len : Nat) : Option (List Byte) :=
  if off + len ≤ (s.core c).winBytes n then some ((s.core c).spadBytes ((s.core c).spadAddr n off) len) else none

/-- A range leaves the window. -/
def State.winBad (s : State) (c n off len : Nat) : Bool := decide ((s.core c).winBytes n < off + len)
def State.winPois (s : State) (c n off len : Nat) : Bool := s.spadPois c ((s.core c).spadAddr n off) len

def TileUnit.hd (t : TileUnit) (n : Nat) : Nat := (Tab.get 0 t.hdr n).toNat
def TileUnit.row (t : TileUnit) (n i : Nat) : List Byte := Tab.bytes 0 t.tm (6144 * n + 192 * i) 192
def TileUnit.el (t : TileUnit) (n i j : Nat) : Nat := (Tab.get 0 t.acc (1024 * n + 32 * i + j)).toNat
def TileUnit.lutEl (t : TileUnit) (n e : Nat) : Nat := (Tab.get 0 t.lut (16 * n + e)).toNat

/-- Element `k` of a row of a format (R48). -/
def rowEl (f : Nat) (row : List Byte) (k : Nat) : Nat :=
  if fmtWidth f = 4 then bits (fld row (k / 2) 1) (4 * (k % 2)) 4 else fld row (k * (fmtWidth f / 8)) (fmtWidth f / 8)

/-- The real value of an element, a LUT4 code through its codebook (R50). -/
def elReal (f : Nat) (lut : Nat → Nat) (x : Nat) : Num :=
  if f = fLut4 then Num.ofBits .bf16 (lut x) else fmtReal f x

/-- The first `k` elements of row `i` of tile register `n`, as reals. -/
def TileUnit.reals (t : TileUnit) (n i k : Nat) : List Num :=
  let h := t.hd n
  let row := t.row n i
  (upFrom 0 k).map fun e => elReal (hFmt h) (t.lutEl (hCb h)) (rowEl (hFmt h) row e)

/-- Rows 0 to 31 of a tile register, K elements each. -/
def TileUnit.rows (t : TileUnit) (n k : Nat) : List (List Num) := (upFrom 0 32).map fun i => t.reals n i k

/-! ## Poisoned operands -/

/-- A poisoned word in the bytes `[lo, hi)` of a row of a tile register that `p` accepts. -/
def State.tmPoisIn (s : State) (c n lo hi : Nat) (p : Nat → Bool) : Bool :=
  s.poison.any fun l => match l with
    | .tm c' r w => c' == c && r == n && p (w / 48) && decide (w % 48 * 4 < hi ∧ lo < w % 48 * 4 + 4)
    | _ => false
/-- A poisoned word in the first `b` bytes of a row of a tile register. -/
def State.tmPois (s : State) (c n b : Nat) : Bool := s.tmPoisIn c n 0 b fun _ => true
def State.accPois (s : State) (c n : Nat) (p : Nat → Bool) : Bool :=
  s.poison.any fun l => match l with
    | .acc c' r e => c' == c && r == n && p e
    | _ => false
def State.lutPois (s : State) (c n : Nat) : Bool :=
  s.poison.any fun l => match l with
    | .lut c' r _ => c' == c && r == n
    | _ => false

/-- Poison in the elements `[e, e+k)` of a tile operand's rows that `p` accepts, its codebook included: what an instruction
does not read is not consumed (R95). -/
def State.elPois (s : State) (c n e k : Nat) (p : Nat → Bool) : Bool :=
  let h := (s.tile c).hd n
  let w := fmtWidth (hFmt h)
  k != 0 && (upFrom 0 32).any p
    && (s.tmPoisIn c n (e * w / 8) (((e + k) * w + 7) / 8) p || (hFmt h == fLut4 && s.lutPois c (hCb h)))
/-- Poison in the first `k` elements of every row of a tile operand. -/
def State.opPois (s : State) (c n k : Nat) : Bool := s.elPois c n 0 k fun _ => true

def allEl : Nat → Bool := fun _ => true

/-- Checks, then poison, then the writes. -/
def tileResult (checks : List (Bool × Nat)) (pois : Bool) (w : TileWrites) : TileRes :=
  match firstFail checks with
  | some c => .fault c
  | none => if pois then .poison else .ok w

/-! ## Product passes (R244 to R248) -/

/-- The class of two formats (Table 03-6): its K maximum, and whether it is an integer class. -/
def passClass (fa fb : Nat) : Option (Nat × Bool) :=
  let fl (f : Nat) : Bool := f == fBf16 || f == fLut4
  let i8 (f : Nat) : Bool := f == fInt8 || f == fUint8
  if fl fa && fl fb then some (96, false)
  else if i8 fa && i8 fb then some (192, true)
  else if fa == fInt4 && fb == fInt4 then some (384, true)
  else none

/-- Blocks of K. -/
def nBlocks (k : Nat) : Nat := (k + 31) / 32

/-- The scale count a header must declare (R66). -/
def scaleBad (h k : Nat) : Bool :=
  match hSm h with
  | 1 => hSc h != 1
  | 2 => hSc h != nBlocks k
  | _ => false

/-- The bytes of a scale array (R245). -/
def scaleLen (h : Nat) : Nat :=
  match hSm h with
  | 1 => 128
  | 2 => 64 * hSc h
  | _ => 0

/-- The scale of row `i`, block `b`, from an operand's array. -/
def scaleOf (h : Nat) (arr : List Byte) (i b : Nat) : Num :=
  match hSm h with
  | 1 => f32Bits (fld arr (4 * i) 4)
  | 2 => Num.ofBits .bf16 (fld arr (2 * (hSc h * i + b)) 2)
  | _ => .fin false 1 0

/-- x[rs1] with bits [5:0] read as zero. -/
def areaBase (x : Nat) : Nat := x / 64 * 64

/-- Every element of a product pass: `dot i j` gives the block sums of an element, `scl i j b` the scales. -/
def productWrites (t : TileUnit) (td : Nat) (isInt new neg sat : Bool) (dot : Nat → Nat → List NumV)
    (scl : Option (Nat → Nat → Nat → Num × Num)) : TileWrites :=
  let els := (upFrom 0 1024).map fun e =>
    let i := e / 32
    let j := e % 32
    let d := dot i j
    let bs := d.zip ((upFrom 0 d.length).map fun b => scl.map fun f => f i j b)
    let (v, g) := sumBlocks isInt neg sat bs (if new then 0 else t.el td i j) 0
    (1024 * td + e, v, g)
  { acc := els.map fun (a, v, _) => (a, BitVec.ofNat 32 v), flags := flagsOr (els.map fun (_, _, g) => g) }

/-- Scales of A and B from the area at `x`. -/
def State.scales (s : State) (c n x ha hb : Nat) : Nat → Nat → Nat → Num × Num :=
  let a := ((s.winRead c n x (scaleLen ha)).getD [])
  let b := ((s.winRead c n (x + 0x300) (scaleLen hb)).getD [])
  fun i j blk => (scaleOf ha a i blk, scaleOf hb b j blk)

/-- A scale array leaves the window, or holds poison. -/
def State.scalesBad (s : State) (c n x ha hb : Nat) : Bool :=
  (hSm ha != 0 && s.winBad c n x (scaleLen ha)) || (hSm hb != 0 && s.winBad c n (x + 0x300) (scaleLen hb))
def State.scalesPois (s : State) (c n x ha hb : Nat) : Bool :=
  (hSm ha != 0 && s.winPois c n x (scaleLen ha)) || (hSm hb != 0 && s.winPois c n (x + 0x300) (scaleLen hb))

def dotRows (a b : List (List (List Num))) (i j : Nat) : List NumV := List.zipWith dotBlock (a.getD i []) (b.getD j [])

/-- TMMA (R244): fl is NEG, SAT, NEW. -/
def State.runTmma (s : State) (c n : Nat) (z : Zt) (x : Nat) : TileRes :=
  let t := s.tile c
  let ha := t.hd z.ta
  let hb := t.hd z.tb
  let cls := passClass (hFmt ha) (hFmt hb)
  let k := hK ha
  let (kmax, int) := cls.getD (0, false)
  let scaled := hSm ha != 0 || hSm hb != 0
  let b := areaBase x
  let new := bitAt z.fl 2
  let ra := (t.rows z.ta k).map cut32
  let rb := (t.rows z.tb k).map cut32
  tileResult
    (hdrChecks [ha, hb] ++ [(cls.isNone, Tsub.format), (scaleBad ha k || scaleBad hb k, Tsub.scale),
      (hK hb != k || decide (kmax < k), Tsub.shape), (s.scalesBad c n b ha hb, Tsub.spad)])
    (s.opPois c z.ta k || s.opPois c z.tb k || (!new && s.accPois c z.td allEl) || s.scalesPois c n b ha hb)
    (productWrites t z.td (int && !scaled) new (bitAt z.fl 0) (bitAt z.fl 1) (dotRows ra rb)
      (if scaled then some (s.scales c n b ha hb) else none))

/-- N of a TMMS, and its A registers (R246). -/
def tmmsN (fl : Nat) : Nat := if bits fl 0 2 = 0 then 64 else if bits fl 0 2 = 1 then 32 else 16
def tmmsR (fl : Nat) : Nat := if bits fl 0 2 = 0 then 2 else 4

/-- The positions of the set bits of a mask, ascending. -/
def maskBits (m : Nat) : List Nat := (upFrom 0 128).filter fun q => bitAt m q

/-- TMMS (R246, R247): fl is N, NEG, SAT, NEW. -/
def State.runTmms (s : State) (c n : Nat) (z : Zt) (x : Nat) : TileRes :=
  let t := s.tile c
  let r := tmmsR z.fl
  let nn := tmmsN z.fl
  let as := upFrom z.ta r
  let ha := t.hd z.ta
  let hb := t.hd z.tb
  let fa := hFmt ha
  let cap := capOf fa
  let cls := passClass fa (hFmt hb)
  let int := (cls.getD (0, false)).2
  let kb := hK hb
  let g := kb / nn
  let base := areaBase x
  let mask (j gr : Nat) : Nat := leNat ((s.winRead c n (base + 16 * (g * j + gr)) 16).getD [])
  let new := bitAt z.fl 4
  let dense := 128 * g
  -- the A rows, dense; the B rows as (dense position, value)
  let rowA (i : Nat) : List Num := (as.flatMap fun q => t.reals q i cap).take dense
  let rowB (j : Nat) : List (Nat × Num) :=
    ((upFrom 0 g).flatMap fun gr => (maskBits (mask j gr)).map fun q => 128 * gr + q).zip (t.reals z.tb j kb)
  let ras := (upFrom 0 32).map rowA
  let rbs := (upFrom 0 32).map rowB
  let dot (i j : Nat) : List NumV :=
    let a := ras.getD i []
    (upFrom 0 (dense / 32)).map fun blk =>
      let sel := (rbs.getD j []).filter fun p => decide (32 * blk ≤ p.1 ∧ p.1 < 32 * blk + 32)
      dotBlock (sel.map fun p => a.getD p.1 (.fin false 0 0)) (sel.map Prod.snd)
  tileResult
    (hdrChecks (hb :: as.map t.hd) ++
      [(cls.isNone || as.any (fun q => hFmt (t.hd q) != fa) || hSm hb != 0 || as.any (fun q => hSm (t.hd q) != 0), Tsub.format),
       (g == 0 || kb % nn != 0 || decide (r * cap < dense), Tsub.shape),
       (s.winBad c n base (512 * g), Tsub.spad),
       ((upFrom 0 32).any fun j => (upFrom 0 g).any fun gr => (maskBits (mask j gr)).length != nn, Tsub.mask)])
    (as.any (fun q => s.opPois c q (min cap (dense - (q - z.ta) * cap))) || s.opPois c z.tb kb || (!new && s.accPois c z.td allEl) || s.winPois c n base (512 * g))
    (productWrites t z.td int new (bitAt z.fl 2) (bitAt z.fl 3) dot none)

/-- TMMC (R248): fl is NEG, SAT, NEW, I8. -/
def State.runTmmc (s : State) (c n : Nat) (z : Zt) (x : Nat) : TileRes :=
  let t := s.tile c
  let hb := t.hd z.tb
  let i8 := bitAt z.fl 3
  let new := bitAt z.fl 2
  let scaled := hSm hb != 0
  let b := areaBase x
  let conv (v : Nat) : Num × Flags :=
    if i8 then let (y, g) := Sys2Proof.i8.sat (shrRne (sgn 32 v) (x % 32)); (Num.ofInt y, g)
    else let (y, g) := roundF .bf16 .rne (f32Bits v); (Num.ofBits .bf16 y, g)
  let ra := (upFrom 0 32).map fun i => (upFrom 0 32).map fun k => conv (t.el z.ta i k)
  let rb := (t.rows z.tb 32).map cut32
  let w := productWrites t z.td (i8 && !scaled) new (bitAt z.fl 0) (bitAt z.fl 1)
    (dotRows (ra.map fun r => cut32 (r.map Prod.fst)) rb) (if scaled then some (s.scales c n b 0 hb) else none)
  tileResult
    (hdrChecks [hb] ++
      [((if i8 then !(hFmt hb == fInt8 || hFmt hb == fUint8) else !(hFmt hb == fBf16 || hFmt hb == fLut4)), Tsub.format),
       (scaleBad hb 32, Tsub.scale), (hK hb != 32, Tsub.shape), (s.scalesBad c n b 0 hb, Tsub.spad)])
    (s.accPois c z.ta allEl || s.opPois c z.tb 32 || (!new && s.accPois c z.td allEl) || s.scalesPois c n b 0 hb)
    { w with flags := w.flags ||| flagsOr (ra.flatMap fun r => r.map Prod.snd) }

/-! ## Distance passes (R249) -/

/-- The merge of row `i`: the candidates in ascending column order. -/
def mergeRow (int : Bool) (base : Nat) : List (Nat × Nat) → Nat × Nat → Nat × Nat
  | [], best => best
  | (j, d) :: r, (db, nb) => mergeRow int base r (if better int d (base + j) db nb then (d, base + j) else (db, nb))

/-- TDIST (R249): fl is metric [1:0], mode [3:2] (one, open, more, close), NEW [4]. -/
def State.runTdist (s : State) (c : Nat) (z : Zt) (x : Nat) : TileRes :=
  let t := s.tile c
  let ha := t.hd z.ta
  let hb := t.hd z.tb
  let cls := passClass (hFmt ha) (hFmt hb)
  let (kmax, int) := cls.getD (0, false)
  let k := hK ha
  let mode := bits z.fl 2 2
  let new := bitAt z.fl 4
  let m : Metric := if bits z.fl 0 2 = 0 then .l1 else if bits z.fl 0 2 = 1 then .l2sq else .nip
  let base := x % 2 ^ 32
  let merges := mode == 0 || mode == 3
  let carried := mode == 2 || mode == 3
  let p := z.td ^^^ 1
  let ra := t.rows z.ta k
  let rb := t.rows z.tb k
  let ds := (upFrom 0 32).map fun i => (upFrom 0 32).map fun j =>
    distance int m (ra.getD i []) (rb.getD j []) (if carried then some (t.el p i j) else none)
  let partials := if mode = 0 then [] else
    (upFrom 0 32).flatMap fun i => (upFrom 0 32).map fun j =>
      (1024 * p + 32 * i + j, BitVec.ofNat 32 ((ds.getD i []).getD j (0, 0)).1)
  let fresh : Nat × Nat := (if int then 0x7FFFFFFF else 0x7FC00000, 0xFFFFFFFF)
  let best := if !merges then [] else
    (upFrom 0 (hNr ha)).flatMap fun i =>
      let cand := (upFrom 0 (hNr hb)).map fun j => (j, ((ds.getD i []).getD j (0, 0)).1)
      let (d, w) := mergeRow int base cand (if new then fresh else (t.el z.td i 0, t.el z.td i 1))
      [(1024 * z.td + 32 * i, BitVec.ofNat 32 d), (1024 * z.td + 32 * i + 1, BitVec.ofNat 32 w)]
  tileResult
    (hdrChecks [ha, hb] ++
      [(cls.isNone || hSm ha != 0 || hSm hb != 0, Tsub.format), (hK hb != k || decide (kmax < k), Tsub.shape),
       (merges && decide (0xFFFFFFDF < base), Tsub.index)])
    (s.opPois c z.ta k || s.opPois c z.tb k || (carried && s.accPois c p allEl)
      || (merges && !new && s.accPois c z.td fun e => decide (e / 32 < hNr ha ∧ e % 32 < 2)))
    { acc := partials ++ best, flags := flagsOr (ds.flatMap fun r => r.map Prod.snd) }

/-! ## Centroids (R251, R252) -/

/-- The centroid update of one query row into the sums, a table of elements. -/
def cupdRow (t : TileUnit) (td hq cols e0 base : Nat) (acc : Tab W32 × Flags) (i asg : Nat) (row : List Byte) : Tab W32 × Flags :=
  if asg = 0xFFFFFFFF ∨ asg < base ∨ base + 31 < asg then acc
  else
    let r := 1024 * td + 32 * (asg - base)
    let flt := hFmt hq == fBf16 || hFmt hq == fLut4
    let (a, g) := (upFrom 0 cols).foldl (fun (a, g) e =>
      let old := (Tab.get 0 a (r + e)).toNat
      let v := elReal (hFmt hq) (t.lutEl (hCb hq)) (rowEl (hFmt hq) row (e0 + e))
      let (y, g') := if flt then roundV .f32 .rne ((f32Bits old).add v)
                     else let (q, g') := i32.sat (sgn 32 old + v.scaled 0); (wrapN 32 q, g')
      (Tab.set a (r + e) (BitVec.ofNat 32 y), g ||| g')) acc
    let (n, g') := i32.sat (sgn 32 (Tab.get 0 a (r + 31)).toNat + 1)
    let _ := i
    (Tab.set a (r + 31) (BitVec.ofInt 32 n), g ||| g')

/-- e0 = x[rs1][40:32]. -/
def elOff (x : Nat) : Nat := bits x 32 9

/-- TCUPD (R251). It reads the assignments, and of the query rows and the sums those that an assignment joins (R95). -/
def State.runTcupd (s : State) (c : Nat) (z : Zt) (x : Nat) : TileRes :=
  let t := s.tile c
  let hq := t.hd z.ta
  let f := hFmt hq
  let e0 := elOff x
  let base := x % 2 ^ 32
  let cols := min 31 (hK hq - e0)
  -- what cupdRow skips reads nothing else
  let joined := (upFrom 0 (hNr hq)).filter fun i => t.el z.tb i 1 != 0xFFFFFFFF && decide (base ≤ t.el z.tb i 1 ∧ t.el z.tb i 1 ≤ base + 31)
  let sums := joined.map fun i => t.el z.tb i 1 - base
  let start : Tab W32 := (upFrom 0 1024).map fun e => (1024 * z.td + e, Tab.get 0 t.acc (1024 * z.td + e))
  let (out, g) := (upFrom 0 (hNr hq)).foldl (fun a i =>
    cupdRow t z.td hq cols e0 base a i (t.el z.tb i 1) (t.row z.ta i)) (start, 0)
  tileResult
    (hdrChecks [hq] ++ [(!(f == fBf16 || f == fLut4 || f == fInt8 || f == fUint8 || f == fInt4), Tsub.format),
      (decide (hK hq ≤ e0), Tsub.shape)])
    ((s.accPois c z.tb fun e => e % 32 == 1) || s.elPois c z.ta e0 cols joined.contains
      || s.accPois c z.td fun e => sums.contains (e / 32) && (decide (e % 32 < cols) || e % 32 == 31))
    { acc := out, flags := g }

/-- Put elements into a row of a format. -/
def putEls (f : Nat) (row : List Byte) (k : Nat) : List Nat → List Byte
  | [] => row
  | v :: vs =>
    let row := if fmtWidth f = 4 then
        let old := fld row (k / 2) 1
        patch row (k / 2) (toLE 1 (if k % 2 = 0 then old / 16 * 16 + v % 16 else old % 16 + v % 16 * 16))
      else patch row (k * (fmtWidth f / 8)) (toLE (fmtWidth f / 8) v)
    putEls f row (k + 1) vs

/-- Elements from `k` on written into a row at `a`: the bytes written whole, and apart from them a first and a last byte of
which only a nibble is written, so that a word written in part keeps its poison (R95). -/
def rowWrites (f a : Nat) (row : List Byte) (k : Nat) (vs : List Nat) : List (Nat × List Byte) :=
  let new := putEls f row k vs
  let w := fmtWidth f
  let lo := k * w / 8
  let lo' := (k * w + 7) / 8
  let hi' := max lo' ((k + vs.length) * w / 8)
  let hi := ((k + vs.length) * w + 7) / 8
  [(lo, lo'), (lo', hi'), (hi', hi)].filterMap fun (x, y) => if x < y then some (a + x, (new.drop x).take (y - x)) else none

/-- An exact quotient written into a format (R252). -/
def quotTo (f : Nat) (x : Num) (cnt : Nat) : Nat × Flags :=
  match x with
  | .fin n m e =>
    let q := divNum (.fin n m e) (Num.ofInt cnt)
    if fmtIsInt f then
      let (y, g) := (fmtInt f).sat (q.toInt .rne).1
      (wrapN (fmtWidth f) y, g)
    else roundF (fmtFloat f) .rne q
  | x => if fmtIsInt f then let (y, g) := f2i (fmtInt f) .rne x; (wrapN (fmtWidth f) y, g) else roundF (fmtFloat f) .rne x

/-- TCDIV (R252). It reads the counts of the rows below NR, and the sums of those whose count is above 0 (R95). -/
def State.runTcdiv (s : State) (c : Nat) (z : Zt) (x : Nat) : TileRes :=
  let t := s.tile c
  let h := t.hd z.td
  let f := hFmt h
  let int := bitAt z.fl 0
  let e0 := elOff x
  let cols := min 31 (hK h - e0)
  let rows := (upFrom 0 (hNr h)).filterMap fun r =>
    let cnt := sgn 32 (t.el z.ta r 31)
    if cnt ≤ 0 then none
    else
      let qs := (upFrom 0 cols).map fun e =>
        quotTo f (if int then Num.ofInt (sgn 32 (t.el z.ta r e)) else f32Bits (t.el z.ta r e)) cnt.toNat
      some (rowWrites f (6144 * z.td + 192 * r) (t.row z.td r) e0 (qs.map Prod.fst), flagsOr (qs.map Prod.snd))
  tileResult (hdrChecks [h] ++ [(f == fLut4, Tsub.format), (decide (hK h ≤ e0), Tsub.shape)])
    (s.accPois c z.ta fun e => decide (e / 32 < hNr h)
      && (e % 32 == 31 || (decide (e % 32 < cols) && decide (0 < sgn 32 (t.el z.ta (e / 32) 31)))))
    { tm := rows.flatMap Prod.fst, flags := flagsOr (rows.map Prod.snd) }

/-! ## Conversions and elementwise instructions (R253 to R258) -/

/-- TCVT: fl is I, RTZ, SAT; sb says the source is a tile register. -/
def State.runTcvt (s : State) (c : Nat) (z : Zt) (x : Nat) : TileRes :=
  let t := s.tile c
  let hd := t.hd z.td
  let df := hFmt hd
  let int := bitAt z.fl 0
  let rtz := bitAt z.fl 1
  let sat := bitAt z.fl 2
  let hs := t.hd z.ta
  let sf := hFmt hs
  let k := if z.sb then hK hs else 32
  let one (i e : Nat) (row : List Byte) : Nat × Flags :=
    if z.sb then
      let v := rowEl sf row e
      if sf = df then (v, 0)
      else if sf = fLut4 then convFmt fBf16 df rtz sat (t.lutEl (hCb hs) v)
      else convFmt sf df rtz sat v
    else if int then convFmt fInt32 df rtz sat (wrapN 32 (shrRne (sgn 32 (t.el z.ta i e)) (x % 32)))
    else convFmt fFp32 df rtz sat (t.el z.ta i e)
  let rows := (upFrom 0 32).map fun i =>
    let src := t.row z.ta i
    let vs := (upFrom 0 k).map fun e => one i e src
    (rowWrites df (6144 * z.td + 192 * i) (t.row z.td i) 0 (vs.map Prod.fst), flagsOr (vs.map Prod.snd))
  tileResult (hdrChecks (if z.sb then [hs, hd] else [hd]) ++ [(df == fLut4, Tsub.format), (decide (capOf df < k), Tsub.shape)])
    (if z.sb then s.opPois c z.ta k else s.accPois c z.ta allEl)
    { tm := rows.flatMap Prod.fst, flags := flagsOr (rows.map Prod.snd) }

/-- An instruction that writes every element of an accumulator. -/
def accWrites (td : Nat) (f : Nat → Nat → Nat × Flags) : TileWrites :=
  let els := (upFrom 0 1024).map fun e => (1024 * td + e, f (e / 32) (e % 32))
  { acc := els.map fun (a, v) => (a, BitVec.ofNat 32 v.1), flags := flagsOr (els.map fun (_, v) => v.2) }

/-- TADD and TMUL: fl is I, SAT. -/
def State.runElem (s : State) (c : Nat) (z : Zt) (mul : Bool) : TileRes :=
  let t := s.tile c
  let int := bitAt z.fl 0
  let sat := bitAt z.fl 1
  let op (x y : Nat) : Nat × Flags :=
    if int then
      let v := if mul then sgn 32 x * sgn 32 y else sgn 32 x + sgn 32 y
      let (r, g) := if sat then i32.sat v else (i32.wrap v, 0)
      (wrapN 32 r, g)
    else roundV .f32 .rne (if mul then (f32Bits x).mul (f32Bits y) else (f32Bits x).add (f32Bits y))
  tileResult [] (s.accPois c z.ta allEl || s.accPois c z.tb allEl)
    (accWrites z.td fun i j => op (t.el z.ta i j) (t.el z.tb i j))

def actOf (fl : Nat) : ActFn :=
  match bits fl 0 2 with
  | 0 => .relu
  | 1 => .tanh
  | 2 => .sigm
  | _ => .silu

/-- TACT: fl is the function and D. A value the enclosures do not decide is a free value, one for each element
(log entry 17); the entry that performs a tile instruction moves the counter past them. -/
def State.runTact (s : State) (c : Nat) (z : Zt) : TileRes :=
  let t := s.tile c
  let d := bitAt z.fl 2
  let op (i j : Nat) : Nat × Flags :=
    let x := f32Bits (t.el z.ta i j)
    (if d then actGrad (actOf z.fl) x (f32Bits (t.el z.tb i j)) else actVal (actOf z.fl) x).getD
      ((Config.freeWord (s.free + 32 * i + j)).toNat % 2 ^ 32, 0)
  tileResult [] (s.accPois c z.ta allEl || (d && s.accPois c z.tb allEl)) (accWrites z.td op)

/-- TSCL: fl is the vector form and I. -/
def State.runTscl (s : State) (c n : Nat) (z : Zt) (x : Nat) : TileRes :=
  let t := s.tile c
  let vec := bits z.fl 0 2
  let int := bitAt z.fl 2
  let v := (s.winRead c n x 128).getD []
  let op (i j : Nat) : Nat × Flags :=
    let sc := f32Bits (if vec = 0 then x % 2 ^ 32 else if vec = 1 then fld v (4 * i) 4 else fld v (4 * j) 4)
    let a := if int then Num.ofInt (sgn 32 (t.el z.ta i j)) else f32Bits (t.el z.ta i j)
    roundV .f32 .rne (a.mul sc)
  tileResult [(vec != 0 && (x % 64 != 0 || s.winBad c n x 128), Tsub.spad)]
    (s.accPois c z.ta allEl || (vec != 0 && s.winPois c n x 128)) (accWrites z.td op)

/-- A reduction of 32 elements: 0 sum, 1 max, 2 min. -/
def reduce32 (op : Nat) (int : Bool) (xs : List Nat) : Nat × Flags :=
  if int then
    let vs := xs.map (sgn 32)
    match op, vs with
    | 0, vs => let (r, g) := i32.sat (vs.foldl (fun (a : Int) b => a + b) 0); (wrapN 32 r, g)
    | 1, v :: r => (wrapN 32 (r.foldl max v), 0)
    | _, v :: r => (wrapN 32 (r.foldl min v), 0)
    | _, [] => (0, 0)
  else if op = 0 then roundV .f32 .rne (exactSum (xs.map f32Bits))
  else match xs with
    | v :: r => (r.foldl (minmaxF .f32 (op == 2)) (if (f32Bits v).isNan then FloatFmt.f32.canonNan else v), 0)
    | [] => (0, 0)

/-- TRED: fl is COL, the operation, I. -/
def State.runTred (s : State) (c : Nat) (z : Zt) : TileRes :=
  let t := s.tile c
  let col := bitAt z.fl 0
  let r := (upFrom 0 32).map fun i =>
    (if col then 1024 * z.td + i else 1024 * z.td + 32 * i,
     reduce32 (bits z.fl 1 2) (bitAt z.fl 3) ((upFrom 0 32).map fun j => if col then t.el z.ta j i else t.el z.ta i j))
  tileResult [] (s.accPois c z.ta allEl)
    { acc := r.map fun (a, v) => (a, BitVec.ofNat 32 v.1), flags := flagsOr (r.map fun (_, v) => v.2) }

/-- TTRN: sb says tile registers. -/
def State.runTtrn (s : State) (c : Nat) (z : Zt) (x : Nat) : TileRes :=
  let t := s.tile c
  if z.sb then
    let h := t.hd z.ta
    let f := hFmt h
    let e0 := x % 512
    let rows := (upFrom 0 32).flatMap fun i =>
      rowWrites f (6144 * z.td + 192 * i) (t.row z.td i) e0 ((upFrom 0 32).map fun j => rowEl f (t.row z.ta j) (e0 + i))
    tileResult (hdrChecks [h] ++ [(decide (capOf f < e0 + 32), Tsub.shape)])
      (s.tmPoisIn c z.ta (e0 * fmtWidth f / 8) (((e0 + 32) * fmtWidth f + 7) / 8) fun _ => true) { tm := rows }
  else
    tileResult [] (s.accPois c z.ta allEl) (accWrites z.td fun i j => (t.el z.ta j i, 0))

/-! ## Moves, headers and codebooks (R240 to R243) -/

/-- The window bytes of a swizzled object of `len` bytes at `o`, in natural order. -/
def State.winSwz (s : State) (c n o len code : Nat) : List Byte :=
  (upFrom o len).map fun a => ((s.winRead c n (swz a code) 1).getD [0]).headD 0

/-- TLD: the object at an offset of the window, read through the swizzle of the destination's header, into a tile register or
an accumulator (R236, R240). DESIGN CHOICE (log entry 79): the header is checked only where its SWZ is not 0. -/
def State.runTld (s : State) (c n : Nat) (z : Zt) (x : Nat) : TileRes :=
  let t := s.tile c
  let code := if z.sb then hSwz (t.hd z.td) else 0
  let size := if z.sb then 6144 else 4096
  let data := s.winSwz c n x size code
  tileResult
    ((if z.sb && code != 0 then hdrChecks [t.hd z.td] else [])
      ++ [(x % 64 != 0 || x % swzAlign code != 0 || s.winBad c n x size, Tsub.spad)])
    (s.winPois c n x size)
    (if z.sb then { tm := [(6144 * z.td, data)] }
     else { acc := (upFrom 0 1024).map fun e => (1024 * z.td + e, BitVec.ofNat 32 (fld data (4 * e) 4)) })

/-- TST: the converse of TLD, with the same check of the header (R236, R240; log entry 79). -/
def State.runTst (s : State) (c n : Nat) (z : Zt) (x : Nat) : TileRes :=
  let t := s.tile c
  let code := if z.sb then hSwz (t.hd z.ta) else 0
  let size := if z.sb then 6144 else 4096
  let data := if z.sb then (upFrom 0 32).flatMap fun i => t.row z.ta i
    else (upFrom 0 1024).flatMap fun e => toLE 4 (Tab.get 0 t.acc (1024 * z.ta + e)).toNat
  tileResult
    ((if z.sb && code != 0 then hdrChecks [t.hd z.ta] else [])
      ++ [(x % 64 != 0 || x % swzAlign code != 0 || s.winBad c n x size, Tsub.spad)])
    (if z.sb then s.tmPois c z.ta 192 else s.accPois c z.ta allEl)
    { spad := if code = 0 then [(x, data)] else (upFrom 0 (size / 32)).map fun g => (swz (x + 32 * g) code, (data.drop (32 * g)).take 32) }

def runTzero (z : Zt) : TileRes :=
  .ok (if z.sb then { tm := [(6144 * z.td, List.replicate 6144 0)] }
       else { acc := (upFrom 0 1024).map fun e => (1024 * z.td + e, 0) })

/-- THDR: fl[1:0] is the form; the header stored is x[rs1]. -/
def State.runThdr (s : State) (c n : Nat) (z : Zt) (x : Nat) : TileRes :=
  let t := s.tile c
  let put (v : Nat) (clear : Bool) : TileRes :=
    tileResult [(x % 8 != 0 || s.winBad c n x 8, Tsub.spad)] false { spad := [(x, toLE 8 v)], clear := clear }
  match bits z.fl 0 2 with
  | 0 => .ok { hdr := some (z.td, BitVec.ofNat 64 x) }
  | 1 => put (t.hd z.td) false
  | 2 => put t.flags.toNat false
  | _ => put t.flags.toNat true

def State.runTlut (s : State) (c n : Nat) (z : Zt) (x : Nat) : TileRes :=
  let d := (s.winRead c n x 32).getD []
  tileResult [(x % 32 != 0 || s.winBad c n x 32, Tsub.spad)] (s.winPois c n x 32)
    { lut := (upFrom 0 16).map fun e => (16 * (z.td % 4) + e, BitVec.ofNat 16 (fld d (2 * e) 2)) }

/-- Perform the instruction of a ZT word with its captured operand, for slot `n` of core `c`. -/
def State.tileRun (s : State) (c n zt x : Nat) : TileRes :=
  let z := ztOf zt
  match z.top with
  | 0 => s.runTld c n z x
  | 1 => s.runTst c n z x
  | 2 => runTzero z
  | 3 => s.runThdr c n z x
  | 4 => s.runTlut c n z x
  | 5 => s.runTmma c n z x
  | 6 => s.runTmms c n z x
  | 7 => s.runTmmc c n z x
  | 8 => s.runTdist c z x
  | 9 => s.runTcupd c z x
  | 10 => s.runTcdiv c z x
  | 11 => s.runTcvt c z x
  | 12 => s.runElem c z false
  | 13 => s.runElem c z true
  | 14 => s.runTact c z
  | 15 => s.runTscl c n z x
  | 16 => s.runTred c z
  | 17 => s.runTtrn c z x
  | _ => .ok {}

/-- The word is a pass, which uses the array (R261). -/
def isPass (zt : Nat) : Bool := decide (5 ≤ bits zt 27 5 ∧ bits zt 27 5 ≤ 8)

/-! ## Writing -/

/-- Apply the writes to the tile unit; words written whole lose their poison (R95). -/
def State.tileWrite (s : State) (c n : Nat) (w : TileWrites) : State :=
  let s := s.modTile c fun t =>
    { t with tm := w.tm.foldl (fun m (a, b) => Tab.putBytes m a b) t.tm
             acc := w.acc.foldl (fun m (a, v) => Tab.put 0 m a v) t.acc
             lut := w.lut.foldl (fun m (a, v) => Tab.put 0 m a v) t.lut
             hdr := match w.hdr with
               | some (r, v) => Tab.put 0 t.hdr r v
               | none => t.hdr
             flags := if w.clear then 0 else t.flags ||| w.flags }
  let cured (l : Loc) : Bool := match l with
    | .tm c' r k => c' == c && w.tm.any fun (a, b) => decide (a ≤ 6144 * r + 4 * k ∧ 6144 * r + 4 * k + 4 ≤ a + b.length)
    | .acc c' r e => c' == c && w.acc.any fun (a, _) => a == 1024 * r + e
    | .lut c' r k => c' == c && w.lut.any fun (a, _) => a / 2 == 8 * r + k
    | _ => false
  let s := if s.poison.isEmpty then s else { s with poison := s.poison.filter fun l => !cured l }
  w.spad.foldl (fun t (o, b) => t.spadWrite c ((t.core c).spadAddr n o) b) s

end Sys2Proof.Machine
end

