-- ==== Sys2Proof/Machine/Rows.lean ====
section
/-! DEFINITION. Rows of a region: what the lanes issue at a row (R191 to R228), the hold conditions (R34 to R37), the
faults detected at issue (R230), the boundary (R31), and a freeze (R347, R348). -/

namespace Sys2Proof.Machine

/-! ## What the row issues -/

/-- The bank a region runs from. -/
def State.regionBank (s : State) (c : Nat) : Bank := Tab.get {} (s.core c).banks (dBank (s.region c).desc)

/-- The owner of a core's region; slot 0 stands for runtime firmware with no slot running (log entry 13). -/
def State.ownerOf (s : State) (c : Nat) : Nat := (s.region c).owner.getD 0

def State.lanePois (s : State) (c l i : Nat) : Bool := s.isPois (.lane c l i)

/-- An operation that a lane issues at the row: its words, its stage, its guard, and whether the guard is poisoned. -/
structure LaneAct where
  lane : Nat
  op : LaneOp
  word : BitVec 24
  w : OpWord
  rt : RouteWord
  aw : AddrWord
  stage : Nat
  go : Bool
  guardPois : Bool
deriving DecidableEq, Repr

/-- The operation of a lane at the row, if its stage's mask bit is set (R18). -/
def State.laneAct (s : State) (c l : Nat) (p : Pattern) : Option LaneAct :=
  let r := s.region c
  let w := OpWord.of (p.op r.t)
  match LaneOp.ofCode w.opc with
  | none => none
  | some o =>
    if r.mask.getLsbD (p.stage r.t) then
      some { lane := l, op := o, word := p.op r.t, w := w, rt := RouteWord.of (p.route r.t), aw := AddrWord.of (p.ra r.t),
             stage := p.stage r.t, go := (r.lane l).pred w.pd != w.pn, guardPois := w.pd != 0 && s.lanePois c l 36 }
    else none

/-- The operations issued with a true guard, or with a poisoned one, in ascending lane order (R19). -/
def State.laneActs (s : State) (c : Nat) : List LaneAct :=
  ((s.regionBank c).lanes.filterMap fun (l, p) => s.laneAct c l p).filter fun x => x.go || x.guardPois

/-! ## Operands (R192, R193) -/

/-- A port as the region sees it: a stream of another slot is not its own. -/
def State.portOf (s : State) (c p : Nat) : Port :=
  match (s.port c p).stream with
  | some t => if t.bind.slot = s.ownerOf c then s.port c p else {}
  | none => {}

/-- An in latch: the element of the presented beat (R28). -/
def State.inLatch (s : State) (c l ab : Nat) : W32 × Bool :=
  match (s.region c).inBinding l ab with
  | none => (0, false)
  | some (p, e) =>
    match (s.portOf c p).shown with
    | none => (0, false)
    | some b => (b.vals.getD e 0, b.pois.getLsbD e || s.lanePois c l (37 + ab))

def State.regOpnd (s : State) (c l n : Nat) : W32 × Bool :=
  let r := s.region c
  let p := physReg r.rrb n
  ((r.lane l).reg p, s.lanePois c l p)

/-- An operand by origin (Table 09-4), with the poison it carries. -/
def State.operand (s : State) (c l org n : Nat) (imm : W32) : W32 × Bool :=
  match org with
  | 0 => s.regOpnd c l n
  | 5 => s.inLatch c l 0
  | 6 => s.inLatch c l 1
  | 7 => (imm, false)
  | o =>
    match neighbour l o with
    | some (m, i) => (Tab.get 0 ((s.region c).lane m).lat i, s.lanePois c m (32 + i))
    | none => (0, false)

/-- What an operation reads: a, b and d, and whether anything it reads is poisoned. -/
structure LaneRead where
  a : W32 := 0
  b : W32 := 0
  d : W32 := 0
  base : Word := 0
  pois : Bool := false
deriving DecidableEq, Repr

/-- The static pair an access of global memory is based on (R217). -/
def State.baseOf (s : State) (c l m : Nat) : Word × Bool :=
  let lane := (s.region c).lane l
  ((lane.reg (25 + 2 * m)) ++ (lane.reg (24 + 2 * m)), s.lanePois c l (24 + 2 * m) || s.lanePois c l (25 + 2 * m))

def LaneOp.isGlobal (o : LaneOp) : Bool := o == .ldg || o == .stg || o == .amog

def State.laneRead (s : State) (c : Nat) (x : LaneAct) : LaneRead :=
  let l := x.lane
  let immB : W32 := if x.op == .lds || x.op == .sts then BitVec.ofInt 32 (sgn 10 x.w.im) else immValue x.w.im x.w.ty
  let a := if x.op.readsA then s.operand c l x.rt.oa x.aw.a (immValue x.w.im x.w.ty) else (0, false)
  let b := if x.op.readsB x.w.im then s.operand c l x.rt.ob x.aw.b immB else (0, false)
  let d := if x.op.readsD x.w.im then s.regOpnd c l x.aw.d else (0, false)
  let g := if x.op.isGlobal then s.baseOf c l (x.w.im % 4) else (0, false)
  let predRead := (x.op.isPred && bits x.aw.d 0 3 != 0) || (x.op == .sel && bits x.w.im 0 3 != 0)
  { a := a.1, b := b.1, d := d.1, base := g.1,
    pois := x.guardPois || a.2 || b.2 || d.2 || g.2 || (predRead && s.lanePois c l 36) }

/-- The iteration number of a stage's operation (R32). -/
def Region.iter (r : Region) (stage : Nat) : W32 :=
  r.ioff + BitVec.ofNat 32 (dIstr r.desc) * (r.k - BitVec.ofNat 32 stage)

/-- RDS (Table 13-3). -/
def State.rdsValue (s : State) (c : Nat) (x : LaneAct) : W32 :=
  let r := s.region c
  match x.w.im with
  | 0 => r.iter x.stage
  | 1 => BitVec.ofNat 32 x.lane
  | 2 => BitVec.ofNat 32 c
  | 3 => BitVec.ofNat 32 r.kcp
  | 4 => BitVec.ofNat 32 r.ncp
  | 5 => BitVec.ofNat 32 r.rrb
  | 6 => BitVec.ofNat 32 s.time
  | 7 => BitVec.ofNat 32 (s.time / 2 ^ 32)
  | 8 => r.k - BitVec.ofNat 32 x.stage
  | _ => r.k

/-! ## Addresses -/

/-- The window offset of LDS and STS (R215); of SSEND's record, operand a. -/
def laneOffset (x : LaneAct) (i : LaneRead) : Nat := if x.op == .ssend then i.a.toNat else (i.a + i.b).toNat

/-- The address of LDG, STG and AMOG (R217). -/
def laneVa (x : LaneAct) (i : LaneRead) : Word := if x.op == .amog then i.base + sx i.a else i.base + sx i.a + sx i.b

/-- The bytes of an access of the scratchpad. -/
def LaneAct.spadLen (x : LaneAct) : Nat := if x.op == .ssend then 32 else tyBytes x.w.ty

def LaneOp.usesSpad (o : LaneOp) : Bool := o == .lds || o == .sts || o == .ssend
def LaneOp.usesStq (o : LaneOp) : Bool := o == .stg || o == .amog || o == .bsig || o == .ssend

/-! ## Hold conditions (Table 01-6, R37) -/

def rowWord (r : Region) : Nat := dRow r.desc r.t

/-- A qualifying stage's mask bit is set (R21). -/
def Region.qual (r : Region) (stage : Nat) : Bool := r.mask.getLsbD stage

/-- The qualified pass starts of the row, and the qualified advances. -/
def Region.starts (r : Region) : List Nat := (upFrom 0 4).filter fun j => rwPs (rowWord r) j && r.qual (dQpd r.desc j)
def Region.advances (r : Region) : List Nat := (upFrom 0 8).filter fun j => rwAv (rowWord r) j && r.qual (dQag r.desc j)

/-- The row has a qualified hm.bar. -/
def Region.barRow (r : Region) : Bool := bitAt (rowWord r) 15 && r.qual (dQbar r.desc)

/-- Barrier WBAR, granted to the owner, has completed the phase the region awaits. -/
def State.barDone (s : State) (c : Nat) : Bool :=
  let r := s.region c
  ((s.core c).bar (dWbar r.desc)).any fun b => b.owner == s.ownerOf c && reached b.ph r.bph

def State.strRaised (s : State) (c : Nat) (acts : List LaneAct) : Bool :=
  let r := s.region c
  acts.any fun x =>
    let empty (ab : Nat) : Bool := (r.inBinding x.lane ab).any fun (p, _) => (s.portOf c p).shown.isNone
    let readsOrg (o : Nat) : Bool := (x.op.readsA && x.rt.oa == o) || (x.op.readsB x.w.im && x.rt.ob == o)
    (readsOrg 5 && empty 0) || (readsOrg 6 && empty 1)
      || (x.rt.op && (r.outBinding x.lane).any fun (p, _) => (s.portOf c p).full)

/-- The landing slots whose landing row this row is. -/
def Region.landingNow (r : Region) : List (Nat × Nat × Landing) :=
  r.lanes.flatMap fun (l, v) => v.land.filterMap fun (n, x) => match x with
    | some y => if y.rem ≤ 1 then some (l, n, y) else none
    | none => none

def State.landRaised (s : State) (c : Nat) (acts : List LaneAct) : Bool :=
  (s.region c).landingNow.any (fun x => x.2.2.reply.isNone && !x.2.2.pois)
    || decide (128 < (s.core c).stq.length + (acts.filter fun x => x.op.usesStq).length)

/-- The address of a scratchpad access is known: each in latch it reads holds a presented element. -/
def State.addressed (s : State) (c : Nat) (x : LaneAct) : Bool :=
  let held (ab : Nat) : Bool := (s.region c).inBinding x.lane ab |>.all fun (p, _) => (s.portOf c p).shown.isSome
  let origins := if x.op == .ssend then [x.rt.oa] else [x.rt.oa, x.rt.ob]
  (!origins.contains 5 || held 0) && (!origins.contains 6 || held 1)

/-- The largest number of the row's accesses to one scratchpad bank, over the accesses whose address is known. -/
def State.bankLoad (s : State) (c : Nat) (acts : List LaneAct) : Nat :=
  let banks := acts.filterMap fun x =>
    if x.op.usesSpad && s.addressed c x then some (bits (laneOffset x (s.laneRead c x)) 16 5) else none
  banks.foldl (fun m b => max m (banks.filter (· == b)).length) 0

/-- The filler cycles of a pass start on a ramped-down array (R261). -/
def State.filler (s : State) (c : Nat) : Nat :=
  match (s.tile c).hintAt with
  | none => 64
  | some t => (256 - (s.cycles - t) + 3) / 4

/-- The ramp holds the row: a qualified pass start finds the array ramped down with filler left (R37). -/
def State.rampRaised (s : State) (c : Nat) : Bool :=
  let r := s.region c
  (s.tile c).rampedDown && !r.starts.isEmpty && (decide (0 < r.ramp) || decide (0 < s.filler c))

/-- The bank condition of the row stands: it clears after m - 1 hold cycles of its own (R35). -/
def State.bankRaised (s : State) (c : Nat) : Bool :=
  decide ((s.region c).bankHold + 1 < s.bankLoad c ((s.laneActs c).filter (·.go)))

/-- The conditions raised at the row, with their mask bits and violation subcodes. -/
def State.conditions (s : State) (c : Nat) : List (Bool × Nat × Nat) :=
  let r := s.region c
  let acts := (s.laneActs c).filter (·.go)
  [(r.barRow && !s.barDone c, 15, 1), (s.strRaised c acts, 14, 2), (s.landRaised c acts, 13, 3),
    (s.bankRaised c, 12, 4)]

/-- The lowest condition raised without its mask bit (R36, R349). A barrier condition needs hm.bar to be raised. -/
def State.violation (s : State) (c : Nat) : Option Nat :=
  ((s.conditions c).find? fun x => x.1 && !bitAt (rowWord (s.region c)) x.2.1).map fun x => x.2.2

/-- A lane pushes to its output stream at the end of this row, by a result or a landing that is due. -/
def Lane.pushesNow (v : Lane) : Bool :=
  (v.res.any fun x => decide (x.rem ≤ 1) && x.op) || v.land.any fun y => y.2.any fun z => decide (z.rem ≤ 1) && z.op

/-- A push that is due finds four closed beats unwritten, closed since its own row: the row waits for one to be written, as
the port holds no fifth (R288, R290; log entry 66). It needs no mask bit, since R194 has tested the push in its row of issue. -/
def State.pushWaits (s : State) (c : Nat) : Bool :=
  let r := s.region c
  r.lanes.any fun (l, v) => v.pushesNow && (r.outBinding l).any fun (p, _) =>
    (s.portOf c p).stream.any fun t => t.isOut && !t.stop && !t.exhausted && decide (4 ≤ t.closed.length)

/-- The row holds. -/
def State.held (s : State) (c : Nat) : Bool := (s.conditions c).any Prod.fst || s.rampRaised c || s.pushWaits c

/-! ## Freezing (R347, R348) -/

/-- The region may freeze now: the accesses of its earlier rows have been performed, or the store queue has stopped at a fault
(R120, R350). -/
def State.mayFreeze (s : State) (c : Nat) : Bool := (s.core c).stq.isEmpty || (s.region c).stuck

/-- Freeze the region of a core: its record waits to be written on the core of the slot that launched it. -/
def State.freeze (s : State) (c : Nat) (f : RecordFields) : State :=
  let r := s.region c
  let bs := s.recordBytes c (s.ownerOf c) { f with row := r.t, kint := r.k.toNat, hacc := r.hacc }
  let s := if f.cause = 31 then s.tracePois c f.addr else s
  let s := s.modRegion c fun r => { r with st := .frozen, haltReq := false, dln := f.cause == 25 }
  s.modCore r.issuer.1 fun k => { k with frq := k.frq ++ [{ slot := r.issuer.2, bytes := bs, cause := f.cause }] }

/-! Subcodes of REGION_FAULT (Table 23-3). -/
namespace Sub
def spadRange := 0x10
def spadAlign := 0x11
def glbAlign := 0x12
def tileIndex := 0x13
def tileOwner := 0x14
def msg := 0x15
def brkpt := 0x16
def tile := 0x17
def tagLost := 0x18
def descLost := 0x19
def xlate := 0x20
end Sub

/-! ## Faults detected at issue (R230) -/

/-- The record fields of a fault of a lane operation. -/
def State.laneRecord (s : State) (c : Nat) (x : LaneAct) (i : LaneRead) (cause sub addr : Nat) : RecordFields :=
  { cause := cause, sub := sub, src := 0, lane := x.lane, opw := x.word.toNat, iter := ((s.region c).iter x.stage).toNat,
    addr := addr, opa := i.a.toNat, opb := i.b.toNat }

/-- The index limit of LDT, STT and ACR (R221). -/
def tileIndexBad (x : LaneAct) (i : LaneRead) : Bool :=
  decide (32 ≤ i.a.toNat) || decide ((if x.op == .acr then 32 else 192 / tyBytes x.w.ty) ≤ i.b.toNat)

/-- An element of a tile register that an operation reads is poisoned. -/
def State.tileElPois (s : State) (c : Nat) (x : LaneAct) (i : LaneRead) : Bool :=
  if x.op == .acr then s.isPois (.acc c (bits x.w.im 0 3) (32 * i.a.toNat + i.b.toNat))
  else s.isPois (.tm c (bits x.w.im 0 3) ((192 * i.a.toNat + i.b.toNat * tyBytes x.w.ty) / 4))

/-- The scratchpad bytes of an access. -/
def State.laneBytes (s : State) (c : Nat) (x : LaneAct) (i : LaneRead) : List Byte :=
  (s.core c).spadBytes ((s.core c).spadAddr (s.ownerOf c) (laneOffset x i)) x.spadLen

/-- The interface whose task handles a message of the region may name: the owner's, and interface 0 where the owner slot
holds no task (log entry 13). -/
def State.ownerVi (s : State) (c : Nat) : Nat := ((s.slot c (s.ownerOf c)).task.map Task.vi).getD 0

/-- The fault of one lane operation at issue, if any (R229). DESIGN CHOICE (log entry 84): where one operation fails two of its
own checks the first in the order written here is named, an operand's poison before the range, the range before the alignment,
the tile index before the tile owner, and the poison of a message record before its contents. -/
def State.laneFault (s : State) (c : Nat) (x : LaneAct) : Option RecordFields :=
  let i := s.laneRead c x
  let n := s.ownerOf c
  let bad (cause sub addr : Nat) : Option RecordFields := some (s.laneRecord c x i cause sub addr)
  if i.pois then bad 31 0 0
  else if x.op.usesSpad then
    let o := laneOffset x i
    if (s.core c).winBytes n < o + x.spadLen then bad 24 Sub.spadRange o
    else if o % x.spadLen ≠ 0 then bad 24 Sub.spadAlign o
    else if x.op != .sts && s.spadPois c ((s.core c).spadAddr n o) x.spadLen then bad 31 0 o
    else if x.op == .ssend then
      let b := s.laneBytes c x i
      if s.handleOk (s.ownerVi c) (BitVec.ofNat 64 (fld b 0 8)) && msgBlockOk (b.drop 8) && zeroAt b 0x18 8 then none
      else bad 24 Sub.msg o
    else none
  else if x.op.isGlobal then
    let w := if x.op == .amog then 4 else tyBytes x.w.ty
    let va := (laneVa x i).toNat
    if va % w ≠ 0 then bad 24 Sub.glbAlign va else none
  else if x.op == .ldt || x.op == .stt || x.op == .acr then
    let addr := i.a.toNat + i.b.toNat * 2 ^ 32
    if tileIndexBad x i then bad 24 Sub.tileIndex addr
    else if (s.tile c).owner ≠ some n then bad 24 Sub.tileOwner addr
    else if x.op != .stt && s.tileElPois c x i then bad 31 0 addr
    else none
  else none

/-- The operand word of the pass that descriptor `j` starts now. -/
def Region.passArg (r : Region) (j : Nat) : Nat := (Tab.get 0 r.aux j).toNat

/-- The scratchpad as a pass of the row reads it: the row's lane stores come before it (R78, R260). -/
def State.rowStores (s : State) (c : Nat) : State :=
  ((s.laneActs c).filter fun x => x.op == .sts).foldl (fun u x =>
    let i := s.laneRead c x
    u.spadWrite c ((s.core c).spadAddr (s.ownerOf c) (laneOffset x i)) (toLE x.spadLen i.d.toNat)) s

def State.passRun (s : State) (c j : Nat) : TileRes :=
  let s := s.rowStores c
  let r := s.region c
  s.tileRun c (s.ownerOf c) (dPd r.desc j % 2 ^ 32) (r.passArg j)

/-- The fault of a pass start (R239). -/
def State.passFault (s : State) (c j : Nat) : Option RecordFields :=
  if (s.tile c).owner ≠ some (s.ownerOf c) then some { cause := 24, sub := Sub.tileOwner, src := 2 }
  else
    match s.passRun c j with
    | .fault t => some { cause := 24, sub := Sub.tile, src := 2, tag := t }
    | .poison => some { cause := 31, src := 2 }
    | .ok _ => none

/-- A landing slot whose reply is poisoned, at its landing row (R228, R220). DESIGN CHOICE (log entry 84): of two that land
together the lowest lane's is named, and of one lane's the lowest slot's. -/
def State.landFault (s : State) (c : Nat) : Option RecordFields :=
  ((s.region c).landingNow.find? fun x => x.2.2.pois).map fun (l, _, y) =>
    { cause := 31, src := 0, lane := l, opw := y.opw.toNat, iter := y.iter.toNat, addr := y.va.toNat, opa := y.opa.toNat,
      opb := y.opb.toNat }

/-- The fault that stops the row, in the order of R230. -/
def State.rowFault (s : State) (c : Nat) : Option RecordFields :=
  match s.violation c with
  | some v => some { cause := 24, sub := v, src := 5 }
  | none =>
    match (s.laneActs c).findSome? fun x => s.laneFault c x with
    | some f => some f
    | none =>
      match ((s.region c).starts).findSome? fun j => s.passFault c j with
      | some f => some f
      | none => s.landFault c

/-! ## Committing a row -/

/-- The value of an operation with a result known at issue, from the state before the row. -/
def State.laneRes (s : State) (c : Nat) (x : LaneAct) : W32 × Flags :=
  let i := s.laneRead c x
  let r := s.region c
  let lane := r.lane x.lane
  match x.op with
  | .lds => (tyForm x.w.ty (leNat (s.laneBytes c x i)), 0)
  | .ldt =>
    let w := tyBytes x.w.ty
    (tyForm x.w.ty (leNat (Tab.bytes 0 (s.tile c).tm (6144 * bits x.w.im 0 3 + 192 * i.a.toNat + i.b.toNat * w) w)), 0)
  | .acr => (Tab.get 0 (s.tile c).acc (1024 * bits x.w.im 0 3 + 32 * i.a.toNat + i.b.toNat), 0)
  | o =>
    laneValue o x.w x.aw
      { a := i.a, b := i.b, d := i.d, old := lane.pred (bits x.aw.d 0 3), sel := lane.pred (bits x.w.im 0 3),
        rds := s.rdsValue c x }
      ((Config.freeWord (s.free + x.lane)).truncate 32)

/-- The result slot of an operation (R24, R357): its destination is fixed at issue. -/
def Region.resultOf (r : Region) (x : LaneAct) (lat : Nat) (v : W32) : Result :=
  { rem := lat, op := x.rt.op, om := BitVec.ofNat 4 x.rt.om, pr := x.op.isPred, nw := x.aw.nw,
    dest := if x.op.isPred then bits x.aw.d 0 3 else physReg r.rrb x.aw.d, value := v }

/-- Writes nothing at its write-back (R29). -/
def Result.idle (x : Result) : Bool := x.nw && x.om == 0 && !x.op

/-- Put a landing into the lowest free slot of a lane. -/
def Lane.addLanding (l : Lane) (x : Landing) : Lane :=
  let n := (firstFrom (fun i => (Tab.get none l.land i).isNone) 0 4).getD 4
  { l with land := Tab.set l.land n (some x) }

/-- The landing slot the next landing of a lane takes. -/
def Lane.nextLanding (l : Lane) : Nat := (firstFrom (fun i => (Tab.get none l.land i).isNone) 0 4).getD 4

/-- The store-queue entry of an operation. -/
def State.stqEntry (s : State) (c : Nat) (x : LaneAct) (lslot : Nat) : StqEntry :=
  let i := s.laneRead c x
  let n := s.ownerOf c
  let b := s.laneBytes c x i
  let e : StqEntry :=
    { slot := n, kind := 0, lane := x.lane, opw := x.word, iter := (s.region c).iter x.stage, opa := i.a, opb := i.b }
  match x.op with
  | .stg => { e with ty := BitVec.ofNat 3 x.w.ty, va := laneVa x i, data := zx i.d }
  | .amog => { e with kind := bits x.w.im 2 4 + 1, ty := BitVec.ofNat 3 x.w.ty, va := laneVa x i, data := zx i.b,
                      cmp := i.d, lslot := lslot }
  | .bsig => { e with kind := 9, data := BitVec.ofNat 64 (i.a.toNat % 2 ^ 26) }
  | _ => { e with kind := 10, data := if bitAt x.w.im 0 then zx i.b else BitVec.ofNat 64 (fld b 8 8),
                  flags := BitVec.ofNat 8 (fld b 0x16 1), handle := BitVec.ofNat 64 (fld b 0 8),
                  doff := BitVec.ofNat 32 (fld b 0x10 4), bn := BitVec.ofNat 16 (fld b 0x14 2) }

/-- The effects of one operation at issue, applied to the state being built (`u`), everything read from the state
before the row (`s`); stores are applied in ascending lane order (R35, R108). DESIGN CHOICE (log entry 66): to an LDG, an
STG or AMOG of a lower lane in the same row counts as an earlier entry of the store queue (R109). R195 sets flags when the
result is produced; DESIGN CHOICE (log entry 86): that is the row of issue, whatever the latency of the operation. -/
def State.laneIssue (s : State) (c : Nat) (u : State) (x : LaneAct) : State :=
  let r := s.region c
  let i := s.laneRead c x
  let n := s.ownerOf c
  match x.op with
  | .sts =>
    u.spadWrite c ((s.core c).spadAddr n (laneOffset x i)) (toLE x.spadLen i.d.toNat)
  | .stt =>
    let w := tyBytes x.w.ty
    let o := 192 * i.a.toNat + i.b.toNat * w
    let u := u.modTile c fun t => { t with tm := Tab.putBytes t.tm (6144 * bits x.w.im 0 3 + o) (toLE w i.d.toNat) }
    let u := u.modSlot c n fun l => { l with prod := Tab.del l.prod (bits x.w.im 0 3) }
    if w = 4 then u.setPois (.tm c (bits x.w.im 0 3) (o / 4)) false else u
  | .ldg | .amog =>
    let lslot := ((u.region c).lane x.lane).nextLanding
    let y : Landing :=
      { va := laneVa x i, amo := x.op == .amog, ty := BitVec.ofNat 3 x.w.ty, rem := dGlat r.desc, dest := physReg r.rrb x.aw.d,
        nw := x.aw.nw, om := BitVec.ofNat 4 x.rt.om, op := x.rt.op, ahead := (u.core c).stq.length, opw := x.word,
        iter := r.iter x.stage, opa := i.a, opb := i.b }
    let u := u.modRegion c fun r => r.modLane x.lane fun l => l.addLanding y
    if x.op == .amog then u.modCore c fun k => { k with stq := k.stq ++ [s.stqEntry c x lslot] } else u
  | .stg | .bsig | .ssend => u.modCore c fun k => { k with stq := k.stq ++ [s.stqEntry c x 0] }
  | .exit =>
    u.modRegion c fun r => { r with exited := true, mask := r.mask &&& ~~~(BitVec.ofNat 8 (2 ^ x.stage - 1)) }
  | .nop | .brkpt => u
  | _ =>
    let (v, g) := s.laneRes c x
    let res := r.resultOf x ((x.op.latency 16).getD 1) v
    u.modRegion c fun r =>
      let r := r.raise g
      if res.idle then r else r.modLane x.lane fun l => { l with res := l.res ++ [res] }

/-- Charge a pass to the queue, the card and the task of a slot (R342). -/
def State.chargePass (s : State) (c n : Nat) : State :=
  match (s.slot c n).task with
  | some t =>
    let s := s.modQueue t.vi t.q fun q => { q with pas := q.pas - 1 }
    let s := s.modCard t.vi t.q t.card fun d => { d with upas := d.upas + 1 }
    s.modSlot c n fun l => { l with task := l.task.map fun t => { t with upas := t.upas + 1 } }
  | none => s

/-- A qualified pass start: the pass reads its operands now, its AUX advances, and the array is ramped up (R222,
R260, R261). -/
def State.passStart (s : State) (c : Nat) (u : State) (j : Nat) : State :=
  let d := dPd (s.region c).desc j
  match s.passRun c j with
  | .ok w =>
    let p : RowPass := { writes := w.acc.map fun (a, v) => (a / 1024, a % 1024, v), flags := w.flags, rows := 0 }
    let u := u.modRegion c fun r =>
      { r with passes := r.passes ++ [p],
               aux := if bitAt d 0 then Tab.put 0 r.aux j (Tab.get 0 r.aux j + 32) else r.aux }
    let u := u.modTile c fun t => { t with rampedDown := false, hintAt := none, idleAt := u.cycles }
    -- the map entries of the accumulators it writes become none (R302)
    let u := u.modSlot c (s.ownerOf c) fun l =>
      { l with prod := (p.writes.map Prod.fst).eraseDups.foldl (fun m a => Tab.del m (8 + a)) l.prod }
    u.chargePass c (s.ownerOf c)
  | _ => u

/-- A value written back: register or predicate, the captured latches, the push to oP (R26, R194). -/
def State.writeBack (s : State) (c l : Nat) (x : Result) : State :=
  let out := (s.region c).outBinding l
  let s :=
    if x.nw then s
    else if x.pr then
      let s := s.modRegion c fun r => r.modLane l fun v => v.setPred x.dest (x.value != 0)
      if x.pois then s.setPois (.lane c l 36) true else s
    else (s.modRegion c fun r => r.modLane l fun v => v.setReg x.dest x.value).setPois (.lane c l x.dest) x.pois
  -- om[9:6] selects N, E, S, W from bit 9 down
  let s := ([0, 1, 2, 3].filter fun i => x.om.getLsbD (3 - i)).foldl (fun s i =>
    (s.modRegion c fun r => r.modLane l fun v => { v with lat := Tab.put 0 v.lat i x.value }).setPois (.lane c l (32 + i)) x.pois) s
  match x.op, out with
  | true, some (p, e) =>
    if (s.portOf c p).stream.isSome then
      s.modPort c p fun q => { q with stream := q.stream.map fun t => t.push e x.value x.pois }
    else s
  | _, _ => s

/-- The write-back of a landing slot (R218, R220). -/
def Landing.result (y : Landing) : Result :=
  let v := y.reply.getD 0
  { rem := 0, op := y.op, om := y.om, nw := y.nw, dest := y.dest,
    value := if y.amo then v else tyForm y.ty.toNat v.toNat }

/-- The end of the row for one lane: results and landings that are due are written, the others come one row nearer. -/
def State.laneEnd (s : State) (c l : Nat) : State :=
  let v := (s.region c).lane l
  let due := (v.res.filter fun x => x.rem ≤ 1) ++
    (v.land.filterMap fun (_, y) => match y with
      | some z => if z.rem ≤ 1 then some z.result else none
      | none => none)
  let s := s.modRegion c fun r => r.modLane l fun v =>
    { v with res := (v.res.filter fun x => decide (1 < x.rem)).map fun x => { x with rem := x.rem - 1 },
             land := v.land.map fun (n, y) => (n, match y with
               | some z => if z.rem ≤ 1 then none else some { z with rem := z.rem - 1 }
               | none => none) }
  due.foldl (fun s x => s.writeBack c l x) s

/-- A port advances at the end of the row (R28, R290); the in latches bound to it take a new element. -/
def State.portAdvance (s : State) (c j : Nat) : State :=
  if (s.portOf c j).stream.isNone then s
  else
    let r := s.region c
    let s := s.modPort c j Port.advance
    let bound (l ab : Nat) : Bool := (r.inBinding l ab).any fun (p, _) => p == j
    if s.poison.isEmpty then s
    else { s with poison := s.poison.filter fun p => match p with
             | .lane c' l i => !(c' == c && ((i == 37 && bound l 0) || (i == 38 && bound l 1)))
             | _ => true }

/-! ## Boundaries (R31) -/

/-- The mask the next boundary would give, and whether an iteration would start. -/
def Region.nextMask (r : Region) : BitVec 8 × Bool :=
  let start := !r.exited && (dOpen r.desc || decide (r.nxt.toNat < dTrip r.desc))
  (((r.mask <<< 1) ||| (if start then 1 else 0)) &&& BitVec.ofNat 8 (2 ^ dS r.desc - 1), start)

/-- boundary() of R31 but for its rotation, which the boundary of a launch (k = 0) has not. -/
def Region.boundary (r : Region) : Region :=
  let (m, start) := r.nextMask
  { r with mask := m, nxt := if start then r.nxt + 1 else r.nxt, hacc := 0, done := m == 0 }

/-- The boundary a return of the row counter to 0 takes: k counts up, so k > 0 and the registers rotate. The count k has
no bound (R8); the state holds it modulo 2^32, as every reader of it does. -/
def Region.nextInterval (r : Region) : Region := ({ r with k := r.k + 1, rrb := (r.rrb + 23) % 24 }).boundary

/-- The boundary step would start no iteration and leave the mask zero, so the region completes (R155, R353). -/
def Region.completes (r : Region) : Bool := r.nextMask.1 == 0

/-- The row counter has returned to 0: a requested halt stops here without the boundary step unless the region completes;
a freeze prevails over a halt (R38, R353). A region that has finished and still drains goes on with its boundaries (R12). -/
def Region.atZero (r : Region) (freezes : Bool) : Region :=
  if r.haltReq && !freezes && !r.completes then { r with st := .halted, haltReq := false }
  else r.nextInterval

/-- Everything a row does once it issues. DESIGN CHOICE (log entry 66): a push written back at the end of a row goes into
the output beat that is open then, and an av advance of the same row closes that beat after it (R194, R28). -/
def State.rowCommit (s : State) (c : Nat) : State :=
  let r := s.region c
  let acts := s.laneActs c
  let brk := acts.find? fun x => x.op == .brkpt
  let u := acts.foldl (fun u x => s.laneIssue c u x) s
  let u := r.starts.foldl (fun u j => s.passStart c u j) u
  let u := { u with free := s.free + 16 }
  let u := (upFrom 0 16).foldl (fun u l => u.laneEnd c l) u
  let u := r.advances.foldl (fun u j => u.portAdvance c j) u
  let t := (r.t + 1) % dII r.desc
  let bph := if r.barRow then r.bph + 1 else r.bph
  let u := u.modRegion c fun q =>
    { q with t := t, bankHold := 0, ramp := 0, skip := false, bph := bph,
             passes := q.passes.map fun p => { p with rows := p.rows + 1 } }
  let u := if t = 0 then u.modRegion c fun q => q.atZero brk.isSome else u
  match brk with
  | none => u
  | some x =>
    -- the record's ROW and the block's ROW are the row of the BRKPT, after which the region resumes (R227)
    let u := u.modRegion c fun q => { q with t := r.t }
    let f := s.laneRecord c x (s.laneRead c x) 24 Sub.brkpt 0
    (u.freeze c { f with tag := x.w.im }).modRegion c fun q => { q with skip := true }

end Sys2Proof.Machine
end

