-- ==== Sys2Proof/Machine/Area.lean ====
section
/-! DEFINITION. The slot context area (R359 to R363, Table 23-9): its bytes, and what the core switches lazily into
and out of it: the region, the tile unit, the stream ports. -/

namespace Sys2Proof.Machine

/-- The physical address of a slot's context area (Table 23-7). -/
def Core.area (k : Core) (n : Nat) : Nat := bits (Tab.get 0 k.ctxa n).toNat 12 36 * 0x1000

def areaMagic : Nat := 0x31584353

/-! ## Control-core state -/

/-- The CSRs 0x800 to 0x80A of a slot that is not running; SUSP's reference is the pc it resumes at. -/
def State.slotCsr (s : State) (c n i : Nat) : Word :=
  let l := s.slot c n
  let k := l.ctl
  match i with
  | 0 => k.zmlbase
  | 1 => k.zmllim
  | 2 => k.zmlptr
  | 3 => k.zmlcast
  | 4 => k.zmlmode
  | 5 => (k.loop 0).csr k.pc
  | 6 => (k.loop 1).csr k.pc
  | 7 => (k.loop 2).csr k.pc
  | 8 => (s.modCore c fun k => { k with running := some n }).zslot c
  | 9 => (s.modCore c fun k => { k with running := some n }).zbud c
  | _ => l.zevq

def State.ctlBytes (s : State) (c n : Nat) : List Byte :=
  let k := (s.slot c n).ctl
  padTo 960 (toLE 8 k.pc.toNat ++ ((upFrom 1 31).flatMap fun r => toLE 8 (Tab.get 0 k.x r).toNat)
    ++ ((upFrom 0 32).flatMap fun r => toLE 8 (Tab.get 0 k.f r).toNat) ++ toLE 8 k.fcsr.toNat
    ++ (upFrom 0 11).flatMap fun i => toLE 8 (s.slotCsr c n i).toNat)

/-- A table of words of an area part. -/
def areaWords (b : List Byte) (off first n : Nat) : Tab Word :=
  (upFrom first n).foldl (fun t r => Tab.put 0 t r (BitVec.ofNat 64 (fld b (off + 8 * r) 8))) []

/-- A loop level read back: its body stands OFF parcels before the pc the slot resumes at. An inactive level keeps the
fields alone. -/
def levelFrom (v pc : Word) : LoopLevel :=
  let l := ({} : LoopLevel).write v
  let start := pc - 2 * zx l.off
  { l with susp := v.getLsbD 62, body := true, start := start, stop := start + 2 * (zx l.bl + 1), act := l.act && l.off != 0x1FF }

def ctlFrom (b : List Byte) : Ctl :=
  let w (o : Nat) : Word := BitVec.ofNat 64 (fld b o 8)
  { pc := w 0, x := areaWords b 0 1 31, f := areaWords b 0x100 0 32, fcsr := BitVec.ofNat 8 (fld b 0x200 1),
    zmlbase := w 0x208 &&& mlMask, zmllim := w 0x210 &&& mlMask, zmlptr := w 0x218 &&& mlMask,
    zmlcast := w 0x220 &&& castMask, zmlmode := w 0x228 &&& (modeMask ||| 1),
    loops := [(0, levelFrom (w 0x230) (w 0)), (1, levelFrom (w 0x238) (w 0)), (2, levelFrom (w 0x240) (w 0))] }

/-! ## Queues of small things -/

def TqEntry.bytes (e : TqEntry) : List Byte :=
  toLE 8 (e.va.toNat % 2 ^ 55) ++ toLE 4 e.zt.toNat ++ toLE 4 0 ++ toLE 8 e.arg.toNat
    ++ toLE 8 (match e.log with
        | some g => bits g.addr.toNat 6 49 * 64 + 1
        | none => 0)

/-- A tq entry read back; its header is read from the log when the sequencer performs it (R320). Its bytes do not say whether
it is a CAST that has begun; DESIGN CHOICE (log entry 42): a CAST read back has not, so a marker that it starts at is passed
over. -/
def tqFrom (seq : Nat) (b : List Byte) : TqEntry :=
  let g := fld b 24 8
  { seq := seq, va := BitVec.ofNat 64 (fld b 0 8), zt := BitVec.ofNat 32 (fld b 8 4), arg := BitVec.ofNat 64 (fld b 16 8),
    log := if bitAt g 0 then some { addr := BitVec.ofNat 64 (bits g 6 49 * 64), header := [], bytes := 0, saved := true } else none }

/-- A tq entry read back knows the header its reservation was given, for a rollback (R315). -/
def TqEntry.withHeader (e : TqEntry) (logs : List LogEntry) : TqEntry :=
  { e with log := e.log.map fun g => { g with header := ((logs.find? fun x => x.addr == g.addr).map LogEntry.header).getD [] } }

/-- A tq entry slot of the area is in use: no entry's instruction word is zero but a marker's, which is recorded. -/
def tqPresent (b : List Byte) : Bool := fld b 8 4 != 0 || bitAt (fld b 24 8) 0

/-- MSTAT's counts (R305). -/
def Slot.mstat (l : Slot) : Word :=
  BitVec.ofNat 64 (b2n l.ctl.en * 2 ^ 63 + l.demoted.toNat * 2 ^ 32 + l.appended.toNat)

def prodBytes (p : Option Producer) : List Byte :=
  match p with
  | some x => toLE 8 (x.idx.toNat + b2n x.g * 2 ^ 32 + 2 ^ 33)
  | none => toLE 8 0

def prodFrom (w : Nat) : Option Producer :=
  if bitAt w 33 then some ⟨BitVec.ofNat 32 w, bitAt w 32⟩ else none

/-- Set the producer-map entry of a register (tm0-tm7 are 0 to 7, acc0-acc7 are 8 to 15). -/
def Slot.setProd (l : Slot) (r : Nat) (p : Option Producer) : Slot := { l with prod := Tab.put none l.prod r p }

/-! ## Tile unit -/

def TileUnit.tmBytes (t : TileUnit) : List Byte := Tab.bytes 0 t.tm 0 0xC000
def TileUnit.accBytes (t : TileUnit) : List Byte := (upFrom 0 0x2000).flatMap fun e => toLE 4 (Tab.get 0 t.acc e).toNat
def TileUnit.headBytes (t : TileUnit) : List Byte :=
  ((upFrom 0 8).flatMap fun n => toLE 8 (Tab.get 0 t.hdr n).toNat)
    ++ ((upFrom 0 64).flatMap fun e => toLE 2 (Tab.get 0 t.lut e).toNat) ++ toLE 8 t.flags.toNat

/-- The area offset of the 8-byte word that receives a poisoned word of the tile unit. -/
def tilePoisonAt (l : Loc) (c : Nat) : Option Nat :=
  match l with
  | .tm c' r w => if c' = c then some (0xB000 + 6144 * r + 4 * w) else none
  | .acc c' r e => if c' = c then some (0x17000 + 4096 * r + 4 * e) else none
  | .lut c' r w => if c' = c then some (0xE40 + 32 * r + 4 * w) else none
  | _ => none

def State.dropTilePois (s : State) (c : Nat) : State :=
  { s with poison := s.poison.filter fun l => (tilePoisonAt l c).isNone }

/-- The headers of a slot's recorded entries that wait in tq are written to their log addresses (R320). -/
def State.saveHeaders (s : State) (c n : Nat) : State :=
  let vi := ((s.slot c n).task.map Task.vi).getD 0
  let s := (s.slot c n).tq.foldl (fun s e => match e.log with
    | some g =>
      if g.saved then s else (s.devWrite vi (dieOf c) g.addr.toNat g.header).getD (s.noteWrite vi (dieOf c) g.addr.toNat 64)
    | none => s) s
  s.modSlot c n fun l => { l with tq := l.tq.map fun e => { e with log := e.log.map fun g => { g with saved := true } } }

/-- An empty tile unit for a slot: what an instruction can read of a task that has never used it is zero (R232; log
entry 4). The array's ramp state stays (R263). -/
def TileUnit.fresh (t : TileUnit) (owner : Option Nat) : TileUnit :=
  { owner := owner, rampedDown := t.rampedDown, hintAt := t.hintAt, idleAt := t.idleAt }

/-- Save the tile state of a slot into its area, with the tq entries that wait there too (R359). -/
def State.saveTile (s : State) (c n : Nat) : State :=
  let a := (s.core c).area n
  let t := s.tile c
  let l := s.slot c n
  let s := s.saveHeaders c n
  let s := s.memWrite (a + 0x400) (padTo 2048 (l.tq.flatMap TqEntry.bytes))
  let s := s.memWrite (a + 0xE00) (padTo 0x100 t.headBytes ++ ((upFrom 0 16).flatMap fun r => prodBytes (Tab.get none l.prod r))
    ++ toLE 8 l.mstat.toNat)
  let s := (s.memWrite (a + 0xB000) t.tmBytes).memWrite (a + 0x17000) t.accBytes
  let s := (s.poison.filterMap fun l => tilePoisonAt l c).foldl (fun s o => s.setPois (.mem ((a + o) / 8)) true) s
  ((s.dropTilePois c).modTile c fun t => t.fresh none).modSlot c n fun l => { l with savedTile := true }

/-- Read the tile state of a slot back; every value from a poisoned word is poisoned (R352). -/
def State.restoreTile (s : State) (c n : Nat) : State :=
  let a := (s.core c).area n
  let tm := s.memBytes (a + 0xB000) 0xC000
  let w (o k : Nat) : Nat := s.memNat (a + o) k
  let t : TileUnit :=
    { (s.tile c).fresh (some n) with
      tm := Tab.putBytes [] 0 tm,
      acc := (upFrom 0 0x2000).foldl (fun t e => Tab.put 0 t e (BitVec.ofNat 32 (w (0x17000 + 4 * e) 4))) [],
      hdr := (upFrom 0 8).foldl (fun t e => Tab.put 0 t e (BitVec.ofNat 64 (w (0xE00 + 8 * e) 8))) [],
      lut := (upFrom 0 64).foldl (fun t e => Tab.put 0 t e (BitVec.ofNat 16 (w (0xE40 + 2 * e) 2))) [],
      flags := BitVec.ofNat 3 (w 0xEC0 1) }
  let words := s.poison.filterMap fun l => match l with
    | .mem g => if a ≤ 8 * g ∧ 8 * g < a + 0x20000 then some (8 * g - a) else none
    | _ => none
  let locs := words.flatMap fun o =>
    [o, o + 4].filterMap fun p =>
      if 0xB000 ≤ p ∧ p < 0x17000 then some (Loc.tm c ((p - 0xB000) / 6144) ((p - 0xB000) % 6144 / 4))
      else if 0x17000 ≤ p ∧ p < 0x1F000 then some (Loc.acc c ((p - 0x17000) / 4096) ((p - 0x17000) % 4096 / 4))
      else if 0xE40 ≤ p ∧ p < 0xEC0 then some (Loc.lut c ((p - 0xE40) / 32) ((p - 0xE40) % 32 / 4))
      else none
  let s := locs.foldl (fun s l => s.setPois l true) (s.dropTilePois c)
  (s.modTile c fun _ => t).modSlot c n fun l => { l with savedTile := false }

/-- Words of a slot's saved tile state that are not element words, and hold poison: the tile headers, the flags, the
producer map. They cannot be restored (R352). -/
def State.tileAreaBad (s : State) (c n : Nat) : Bool :=
  (s.slot c n).savedTile && s.poison.any fun l => match l with
    | .mem g =>
      let o := 8 * g - (s.core c).area n
      decide ((s.core c).area n ≤ 8 * g) && (decide (0xE00 ≤ o ∧ o < 0xE40) || decide (0xEC0 ≤ o ∧ o < 0xF88))
    | _ => false

/-- Claim the tile unit for a slot: another owner's state is saved first, the slot's own is restored (R359, R153).
None while an entry or a row-table pass is in progress. -/
def State.claimTile (s : State) (c n : Nat) : Option State :=
  let t := s.tile c
  if t.owner = some n then some s
  else if t.busy.isSome || !(s.region c).passes.isEmpty then none
  else
    let s := match t.owner with
      | some m => s.saveTile c m
      | none => s
    some (if (s.slot c n).savedTile then s.restoreTile c n
          else (s.dropTilePois c).modTile c fun t => t.fresh (some n))

/-! ## Ports -/

/-- The open pushes of an output stream are closed as a part of their beat, and PMASK records them (R357). -/
def Stream.flush (t : Stream) : Stream :=
  if t.pushed.isEmpty then t
  else { t with closed := t.closed ++ [(t.no, t.pushed, t.pushedPois)], pushed := [], pushedPois := 0,
                saved := t.pushed.foldl (fun m (p, _) => m ||| (1#16 <<< p)) t.saved }

/-- Nothing of a stream is left to be written, no page request of it is open (R384), and a stream that is exhausted, or that a
fault ends, has ended. -/
def Stream.settled (t : Stream) : Bool :=
  t.pause.isNone && t.status.isNone && t.closed.isEmpty && t.pushed.isEmpty && !t.stop && (t.ended || !t.exhausted)

def Port.heldBy (p : Port) (n : Nat) : Bool :=
  p.stream.any (fun t => t.bind.slot == n) || p.pending.any fun b => b.slot == n

def State.flushPorts (s : State) (c n : Nat) : State :=
  s.modCore c fun k =>
    { k with ports := k.ports.map fun (j, p) =>
        (j, if p.heldBy n then { p with stream := p.stream.map Stream.flush } else p) }

def State.portsSettled (s : State) (c n : Nat) : Bool :=
  (s.core c).ports.all fun (_, p) => !p.heldBy n || p.stream.all fun t => t.bind.slot != n || t.settled

def Bind.bytes (b : Bind) : List Byte := toLE 8 b.word.toNat ++ padTo 32 b.record ++ padTo 64 b.shape

def portBytes (p : Port) : List Byte :=
  padTo 1024 ((match p.stream with
    | some t => t.bind.bytes
    | none => List.replicate 104 0) ++ p.pending.flatMap Bind.bytes)

/-- A bind read back; a shape copy of zeros is no bind. -/
def bindFrom (slot vi : Nat) (b : List Byte) : Option Bind :=
  let sh := (b.drop 40).take 64
  if zeroAt sh 0 64 then none
  else some { slot := slot, vi := vi, word := BitVec.ofNat 64 (fld b 0 8), record := (b.drop 8).take 32, shape := sh,
              cw := fld b 32 8 % 2 ^ 55 }

/-- Save a port of a slot: its binds, and its cursor in the block's PORTS (R359). -/
def State.savePort (s : State) (c j n : Nat) : State :=
  let a := (s.core c).area n
  let p := s.port c j
  let s := (s.memWrite (a + 0x2000 + 1024 * j) (portBytes p)).memWrite (a + 0x9060 + 16 * j) (p.cursor (some n))
  (s.modPort c j fun _ => {}).modSlot c n fun l => { l with savedPorts := l.savedPorts ++ [j] }

/-- The saved ports of a slot whose bind record, cursor or shapes stand in poisoned words: they cannot be restored
(R352). -/
def State.badPorts (s : State) (c n : Nat) : List Nat :=
  let a := (s.core c).area n
  (s.slot c n).savedPorts.filter fun j => s.memPois (a + 0x2000 + 1024 * j) 520 || s.memPois (a + 0x9060 + 16 * j) 16

/-- Port `j` as the area at `a` of a slot `n` of an interface holds it. -/
def State.areaPort (s : State) (a j n vi : Nat) : Port :=
  let b := s.memBytes (a + 0x2000 + 1024 * j) 1024
  let cur := s.memBytes (a + 0x9060 + 16 * j) 16
  { stream := (bindFrom n vi b).map fun x =>
      let t := ({ bind := x } : Stream).seek cur
      { t with ended := t.exhausted }
    pending := (upFrom 1 4).filterMap fun i => bindFrom n vi (b.drop (104 * i)) }

def State.restorePort (s : State) (c j n : Nat) : State :=
  let vi := ((s.slot c n).task.map Task.vi).getD 0
  (s.modPort c j fun _ => s.areaPort ((s.core c).area n) j n vi).modSlot c n fun l =>
    { l with savedPorts := l.savedPorts.filter (· != j) }

/-! ## Region -/

/-- Everything issued has been performed but what the block holds: the store queue is empty, or stopped at a fault
(R119, R350), and nothing pushed is left to be written (R357). -/
def State.regionSettled (s : State) (c : Nat) : Bool :=
  ((s.core c).stq.isEmpty || (s.region c).stuck) && s.portsSettled c (s.ownerOf c)

def State.dropLanePois (s : State) (c : Nat) : State :=
  { s with poison := s.poison.filter fun p => match p with
      | .lane c' _ _ => c' != c
      | _ => true }

/-- The region becomes IDLE with no owner; a row-table pass under way stays (R347). -/
def State.clearRegion (s : State) (c : Nat) : State :=
  (s.modCore c fun k => { k with region := { passes := k.region.passes }, stq := [] }).dropLanePois c

/-- The region of slot `n` has been saved, by RSAVE or by the core: it is IDLE with no owner, and c0-c7 of its lanes keep their
contents until the next static load or restore (R156, R152), or until another slot claims it (R10). -/
def State.releaseRegion (s : State) (c n : Nat) : State :=
  let lanes : Tab Lane := (s.region c).lanes.map fun (l, v) => (l, { c := v.c })
  let s := s.modCore c fun k => { k with region := { passes := k.region.passes, leftBy := some n, lanes := lanes }, stq := [] }
  { s with poison := s.poison.filter fun p => match p with
      | .lane c' _ i => !(c' == c && decide (i < 24 ∨ 32 ≤ i))
      | _ => true }

/-- A slot remembers of which launch its region is a copy, and which other slot issued it, while the region is taken out of
the core (log entry 67). -/
def State.keepCopy (s : State) (c n : Nat) : State :=
  let r := s.region c
  s.modSlot c n fun l => { l with copyOf := r.launch, copyFrom := if r.issuer = (c, n) then none else some r.issuer }

/-- Save a stopped region of another slot into that slot's area; the flag says whether it is done (R359). -/
def State.saveRegion (s : State) (c n : Nat) : State × Bool :=
  let s := s.flushPorts c n
  if !s.regionSettled c then (s, false)
  else
    let k := s.core c
    let a := k.area n
    let s := if k.stq.isEmpty then s else s.memWrite (a + 0xA000) k.tail
    -- the cursors of ports saved before stand in the area already
    let b := (s.slot c n).savedPorts.foldl (fun b j => patch b (0x60 + 16 * j) (s.memBytes (a + 0x9060 + 16 * j) 16)) k.block
    let s := (s.putBlock (a + 0x9000) b (s.blockPoison c)).keepCopy c n
    ((s.releaseRegion c n).modSlot c n fun l => { l with savedRegion := true }, true)

/-- The region as a claim by slot `n` finds it: a stopped region that another slot's task holds is saved first. -/
def State.freeRegion (s : State) (c : Nat) (n : Option Nat) : State × Bool :=
  let r := s.region c
  match r.owner with
  | some m =>
    if (r.st = .halted ∨ r.st = .frozen) ∧ n ≠ some m ∧ (s.core c).running ≠ some m then s.saveRegion c m else (s, true)
  | none => (s, true)

/-- Claim an IDLE region for a slot: what another slot has left in it is discarded (R10; log entry 4). -/
def State.claimRegion (s : State) (c : Nat) (n : Option Nat) : State :=
  let r := s.region c
  if r.owner = n then s
  else if r.owner = none ∧ r.leftBy = n then s.modRegion c fun r => { r with owner := n, leftBy := none }
  else (s.clearRegion c).modRegion c fun r => { r with owner := n }

end Sys2Proof.Machine
end

