-- ==== Sys2Proof/Machine/Log.lean ====
section
/-! DEFINITION. The mould log (R302, R307 to R315): the roles of a tile instruction's operands, the flags, payloads and
header of an entry, and its reservation at issue. -/

namespace Sys2Proof.Machine

/-! ## Accesses of a slot's tq (R314, R319) -/

/-- Locate a range for the tile queue of a slot: through its interface's tables, or as physical addresses where the
slot holds no task (log entry 13). -/
def State.vaPieces (s : State) (c n : Nat) (acc : Acc) (va len : Nat) : Except (Nat × Nat) (List (Nat × Nat)) :=
  match (s.slot c n).task with
  | some t => s.devLocate t.vi (dieOf c) acc va len
  | none =>
    match s.physPieces (dieOf c) (pieces len) va len with
    | .pieces l => .ok l
    | .fault k a => .error (k, a)
    | .reserved pa => .error (Kind.pa, pa)

/-- Read for a slot: the bytes, or a translation kind, 0xFF for poison. -/
def State.vaRead (s : State) (c n va len : Nat) : Except Nat (List Byte) :=
  match s.vaPieces c n .read va len with
  | .ok l => if s.poisPieces l then .error 0xFF else .ok (s.readPieces l)
  | .error (k, _) => .error k

/-- Poison that an access for a slot meets is recorded: of a table that its walk reads, or of bytes that are read (R96). -/
def State.noteVa (s : State) (c n : Nat) (acc : Acc) (va len : Nat) : State :=
  match s.vaPieces c n acc va len with
  | .ok l => if acc = .read ∧ s.poisPieces l then s.tracePois c va else s
  | .error (k, a) => s.noteWalk c k a

/-- Charge a slot for reads of its tq that have been made: address and length (R342). -/
def State.chargeReads (s : State) (c n : Nat) (l : List (Nat × Nat)) : State :=
  let cost (p : Nat × Nat) : Nat := match s.vaPieces c n .read p.1 p.2 with
    | .ok q => costPieces q
    | .error _ => 0
  s.chargeHbm c n (l.foldl (fun t p => t + cost p) 0)

/-- Write for a slot; none where a byte does not translate for writing. -/
def State.vaWrite (s : State) (c n va : Nat) (b : List Byte) : Option State :=
  match s.vaPieces c n .write va b.length with
  | .ok l => some ((s.writePieces l b).chargeHbm c n (costPieces l))
  | .error _ => none

/-! ## Roles (Table 19-6) -/

/-- An operand of a recorded instruction: none, a leaf by its role, or a register of the producer map (tm0-tm7 are 0
to 7, acc0-acc7 are 8 to 15). -/
inductive Role where
  | absent
  | leaf
  | reg (m : Nat)
deriving DecidableEq, Repr

/-- Which operand values the adjoint reads. -/
inductive Reads where
  | nothing
  | cross        -- B if A bears a gradient, A if B does
  | both         -- A and B if either bears a gradient
  | first        -- A
deriving DecidableEq, Repr

structure Roles where
  a : Role := .absent
  b : Role := .absent
  c : Role := .absent
  p : Role := .absent
  dest : Role := .absent
  px : Nat := 0
  reads : Reads := .nothing
deriving DecidableEq, Repr

def cls (z : Zt) (r : Nat) : Role := .reg (if z.sb then r else 8 + r)

def rolesOf (zt : Nat) : Roles :=
  let z := ztOf zt
  match z.top with
  | 0 => { a := .leaf, dest := cls z z.td }
  | 1 => { a := cls z z.ta }
  | 2 => { dest := cls z z.td }
  | 5 => { a := .reg z.ta, b := .reg z.tb, c := if bitAt z.fl 2 then .absent else .reg (8 + z.td), dest := .reg (8 + z.td),
           reads := .cross }
  | 6 => { a := .leaf, b := .reg z.tb, c := if bitAt z.fl 4 then .absent else .reg (8 + z.td), dest := .reg (8 + z.td),
           px := 6144, reads := .cross }
  | 7 => { a := .reg (8 + z.ta), b := .reg z.tb, c := if bitAt z.fl 2 then .absent else .reg (8 + z.td),
           dest := .reg (8 + z.td), reads := .cross }
  | 8 =>
    let partner := z.td ^^^ 1
    match bits z.fl 2 2 with
    | 1 => { a := .reg z.ta, b := .reg z.tb, dest := .reg (8 + partner), reads := .both }
    | 2 => { a := .reg z.ta, b := .reg z.tb, c := .reg (8 + partner), dest := .reg (8 + partner), reads := .both }
    | m => { a := .reg z.ta, b := .reg z.tb, c := if bitAt z.fl 4 then .absent else .reg (8 + z.td),
             p := if m = 3 then .reg (8 + partner) else .absent, dest := .reg (8 + z.td), px := 256, reads := .both }
  | 9 => { dest := .reg (8 + z.td) }
  | 10 => { dest := .reg z.td }
  | 11 => { a := cls z z.ta, dest := .reg z.td }
  | 12 => { a := .reg (8 + z.ta), b := .reg (8 + z.tb), dest := .reg (8 + z.td) }
  | 13 => { a := .reg (8 + z.ta), b := .reg (8 + z.tb), dest := .reg (8 + z.td), reads := .cross }
  | 14 => if bitAt z.fl 2 then {} else { a := .reg (8 + z.ta), dest := .reg (8 + z.td), reads := .first }
  | 15 => { a := .reg (8 + z.ta), dest := .reg (8 + z.td), px := if bits z.fl 0 2 = 0 then 0 else 128 }
  | 16 => { a := .reg (8 + z.ta), dest := .reg (8 + z.td), reads := if bits z.fl 1 2 = 0 then .nothing else .first }
  | 17 => { a := cls z z.ta, dest := cls z z.td }
  | _ => {}

/-- The bytes of a register, and of a gradient cell of its kind (R312). -/
def roleBytes : Role → Nat
  | .reg m => if m < 8 then 6144 else 4096
  | _ => 0
def cellBytes : Role → Nat
  | .reg m => if m < 8 then 12288 else 4096
  | _ => 0

/-- The tile registers an instruction's ta and tb name. -/
def taTile (z : Zt) : Bool :=
  z.top == 5 || z.top == 6 || z.top == 8 || z.top == 9 || ((z.top == 1 || z.top == 11 || z.top == 17) && z.sb)
def tbTile (z : Zt) : Bool := decide (5 ≤ z.top ∧ z.top ≤ 8)

/-- The payload bytes of A: the whole group for TMMS. -/
def paBytes (zt : Nat) : Nat :=
  let z := ztOf zt
  if z.top = 6 then tmmsR z.fl * 6144 else roleBytes (rolesOf zt).a

/-! ## Headers (Table 19-8) -/

def noIdx : Nat := 0xFFFFFFFF

structure LogHeader where
  zt : Nat := 0
  idx : Nat := 0
  aux : Nat := 0
  back : Nat := 0
  hdra : Nat := 0
  hdrb : Nat := 0
  fa : Nat := 0
  sa : Nat := 0
  fb : Nat := 0
  sb : Nat := 0
  pra : Nat := noIdx
  prb : Nat := noIdx
  prc : Nat := noIdx
  prp : Nat := noIdx
  pl : Bool := false
  pg : Bool := false
  px : Bool := false
  pb : Bool := false
  pa : Bool := false
  mark : Bool := false
  fc : Nat := 0
  len : Nat := 0
deriving DecidableEq, Repr

def LogHeader.bytes (h : LogHeader) : List Byte :=
  toLE 4 h.zt ++ toLE 4 h.idx ++ toLE 6 h.aux ++ toLE 2 h.back ++ toLE 4 h.hdra ++ toLE 4 h.hdrb
    ++ toLE 8 (h.fa * 2 ^ 55 + h.sa) ++ toLE 8 (h.fb * 2 ^ 55 + h.sb) ++ toLE 4 h.pra ++ toLE 4 h.prb ++ toLE 4 h.prc
    ++ toLE 4 h.prp
    ++ toLE 2 (b2n h.pl * 128 + b2n h.pg * 64 + b2n h.px * 32 + b2n h.pb * 16 + b2n h.pa * 8 + b2n h.mark * 4 + h.fc)
    ++ toLE 2 h.len ++ toLE 4 0

def headerFrom (b : List Byte) : LogHeader :=
  let f := fld b 0x38 2
  let ga := fld b 0x18 8
  let gb := fld b 0x20 8
  { zt := fld b 0 4, idx := fld b 4 4, aux := fld b 8 6, back := fld b 0x0E 2, hdra := fld b 0x10 4, hdrb := fld b 0x14 4,
    fa := bits ga 55 2, sa := bits ga 6 49 * 64, fb := bits gb 55 2, sb := bits gb 6 49 * 64, pra := fld b 0x28 4,
    prb := fld b 0x2C 4, prc := fld b 0x30 4, prp := fld b 0x34 4, pl := bitAt f 7, pg := bitAt f 6, px := bitAt f 5,
    pb := bitAt f 4, pa := bitAt f 3, mark := bitAt f 2, fc := bits f 0 2, len := fld b 0x3A 2 }

/-- Offsets of the parts of an entry, in the order A, B, X, L, cell (R312). -/
def LogHeader.offA (_ : LogHeader) : Nat := 64
def LogHeader.offB (h : LogHeader) : Nat := h.offA + (if h.pa then paBytes h.zt else 0)
def LogHeader.offX (h : LogHeader) : Nat := h.offB + (if h.pb then roleBytes (rolesOf h.zt).b else 0)
def LogHeader.offL (h : LogHeader) : Nat := h.offX + (if h.px then (rolesOf h.zt).px else 0)
def LogHeader.offG (h : LogHeader) : Nat := h.offL + (if h.pl then 64 else 0)
def LogHeader.size (h : LogHeader) : Nat := h.offG + (if h.pg then cellBytes (rolesOf h.zt).dest else 0)

/-- A recorded custom-1 word: any tile instruction but MXHINT (R307); no unassigned or reserved encoding. -/
def recordedWord (zt : Nat) : Bool :=
  zt % 128 == 0x2B && decide (bits zt 27 5 ≤ 17) && match Enc.decTile (BitVec.ofNat 32 zt) with
    | .illegal .. => false
    | _ => true

/-- The tests of R313 on a header alone. -/
def headerGood (b : List Byte) : Bool :=
  let h := headerFrom b
  let idxOk (p : Nat) : Bool := p == noIdx || decide (p < h.idx)
  zeroAt b 0x3C 4 && fld b 0x39 1 == 0 && bits (fld b 0x18 8) 57 7 == 0 && bits (fld b 0x18 8) 0 6 == 0
    && bits (fld b 0x20 8) 57 7 == 0 && bits (fld b 0x20 8) 0 6 == 0
    && (if h.mark then h.zt == 0 else recordedWord h.zt) && h.size == 64 * h.len
    && idxOk h.pra && idxOk h.prb && idxOk h.prc && idxOk h.prp

/-! ## Flags (R308, R309) -/

/-- The producer a register is linked to (R302). -/
def Slot.link (l : Slot) : Role → Option W32
  | .reg m => (Tab.get none l.prod m).bind fun p => if p.g then some p.idx else none
  | _ => none

/-- The header of the entry with an index: as decided at issue while it waits in tq, else as it stands in the log. Of two
that wait at its address the later is the producer's: the earlier belongs to a log begun before (R303). -/
def State.producerHeader (s : State) (c n : Nat) (idx : W32) : Option (List Byte) :=
  let l := s.slot c n
  let va := (s.ctl c).zmlbase + 64 * zx idx
  match l.tq.reverse.findSome? fun e => e.log.bind fun g => if g.addr = va ∧ g.header ≠ [] then some g.header else none with
  | some b => some b
  | none => (s.vaRead c n va.toNat 64).toOption

/-- The log addresses whose headers the decision of an entry reads: those of the operands that ask for flag 10 and whose
producers no longer wait in tq (R309). -/
def State.producersRead (s : State) (c n zt : Nat) (lp : Option LogArgs) : List Nat :=
  let r := rolesOf zt
  let l := s.slot c n
  let asks := lp.elim [] fun p => [(r.a, p.fa), (r.b, p.fb), (r.c, p.fc)]
  asks.filterMap fun (o, f) =>
    (l.link o).bind fun idx =>
      let va := (s.ctl c).zmlbase + 64 * zx idx
      if f = 2 ∧ l.tq.all fun e => e.log.all fun g => g.addr ≠ va ∨ g.header = [] then some va.toNat else none

/-- The reads of those headers are accesses of the slot: charged (R342), and poison they meet recorded (R96). -/
def State.readProducers (s : State) (c n zt : Nat) (lp : Option LogArgs) : State :=
  let l := s.producersRead c n zt lp
  (l.foldl (fun s va => s.noteVa c n .read va 64) s).chargeReads c n (l.map fun va => (va, 64))

/-- Flag 10 is kept (R309): an elementwise producer that holds a payload for every source its operation reads, the vector of
TSCL and the codebook of a TCVT from LUT4 among them. -/
def recomputable (b : List Byte) : Bool :=
  let h := headerFrom b
  let z := ztOf h.zt
  let t := z.top
  h.pa && ((rolesOf h.zt).px == 0 || h.px) && (!(t == 11 && z.sb && hFmt h.hdra == fLut4) || h.pl) && ((t == 14 && !bitAt (ztOf h.zt).fl 2) || t == 11 || t == 15 || t == 17 || ((t == 12 || t == 13) && h.pb))

/-- The recorded flag of an operand and whether it is demoted (Table 19-7): `req` is the requested flag, none without
LOGP; `slot` says that it has a nonzero slot. -/
def recordFlag (req : Option Nat) (linked slot allow : Bool) : Nat × Bool :=
  match req with
  | none => (if linked then 1 else 0, false)
  | some 1 => (if linked || slot then 1 else 0, false)
  | some 2 => if linked then (if allow then (2, false) else (1, true)) else if slot then (1, true) else (0, false)
  | some _ => (0, false)

/-- Bits [54:6] of a slot address. -/
def slotAddr (x : Word) : Nat := bits x.toNat 6 49 * 64

/-- A tile register's header as the entry will find it: the last THDR that waits in tq, else the register's own. -/
def State.headerAtIssue (s : State) (c n r : Nat) : Nat :=
  let hs := (s.slot c n).tq.filterMap fun e =>
    let z := ztOf e.zt.toNat
    if e.zt.toNat % 128 = 0x2B ∧ z.top = 3 ∧ bits z.fl 0 2 = 0 ∧ z.td = r then some e.arg.toNat else none
  let cur := match (s.tile c).busy with
    | some e =>
      let z := ztOf e.zt.toNat
      if e.zt.toNat % 128 = 0x2B ∧ z.top = 3 ∧ bits z.fl 0 2 = 0 ∧ z.td = r then e.arg.toNat else (s.tile c).hd r
    | none => (s.tile c).hd r
  hs.getLastD cur

/-- The header of a tile instruction as decided at issue, IDX, BACK and LEN apart, and how many operands are demoted
(R307 to R309, R312). -/
def State.decideEntry (s : State) (c n zt : Nat) (arg : Word) (lp : Option LogArgs) : LogHeader × Nat :=
  let z := ztOf zt
  let r := rolesOf zt
  let l := s.slot c n
  let sa := (lp.map fun p => slotAddr p.sa).getD 0
  let sb := (lp.map fun p => slotAddr p.sb).getD 0
  let allow (o : Role) : Bool := ((l.link o).bind (s.producerHeader c n)).any recomputable
  let flag (o : Role) (req : Option Nat) (slot : Nat) : Nat × Bool :=
    if o = .absent then (0, false) else recordFlag req (l.link o).isSome (slot != 0) (allow o)
  let fa := flag r.a (lp.map fun p => p.fa.toNat) sa
  let fb := flag r.b (lp.map fun p => p.fb.toNat) sb
  let fc := flag r.c (lp.map fun p => p.fc.toNat) 0
  let fp := flag r.p (some 1) 0
  let idx (o : Role) : Nat := ((l.link o).map BitVec.toNat).getD noIdx
  let bearA := fa.1 != 0
  let bearB := fb.1 != 0
  let bears := bearA || bearB || fc.1 != 0 || fp.1 != 0
  let needA := match r.reads with
    | .nothing => false
    | .cross => bearB
    | .both => bearA || bearB
    | .first => true
  let needB := match r.reads with
    | .cross => bearA
    | .both => bearA || bearB
    | _ => false
  let hdra := if taTile z then s.headerAtIssue c n z.ta % 2 ^ 32 else 0
  let hdrb := if tbTile z then s.headerAtIssue c n z.tb % 2 ^ 32 else 0
  let pa := needA && r.a != .absent && fa.1 != 2
  let pb := needB && r.b != .absent && fb.1 != 2
  let leafA := (l.link r.a).isNone
  let leafB := (l.link r.b).isNone
  -- a leaf's slot is recorded; a TST takes its gradient from slot B
  let h : LogHeader :=
    { zt := zt, aux := arg.toNat % 2 ^ 48, hdra := hdra, hdrb := hdrb, fa := fa.1, fb := fb.1, fc := fc.1,
      sa := if leafA && bearA then sa else 0,
      sb := if z.top = 1 then sb else if leafB && bearB then sb else 0,
      pra := idx r.a, prb := idx r.b, prc := idx r.c, prp := idx r.p,
      pa := pa, pb := pb, px := r.px != 0,
      pl := (pa && taTile z && hFmt hdra == fLut4) || (pb && tbTile z && hFmt hdrb == fLut4),
      pg := bears && cellBytes r.dest != 0 }
  (h, ([fa, fb, fc].filter Prod.snd).length)

/-! ## Reservation (R311) -/

/-- The map after an entry is issued (R310). -/
def Slot.updateMap (l : Slot) (h : LogHeader) : Slot :=
  let r := rolesOf h.zt
  let z := ztOf h.zt
  let l := match r.dest with
    | .reg m => l.setProd m (some ⟨BitVec.ofNat 32 h.idx, h.pg⟩)
    | _ => l
  if z.top = 8 ∧ bits z.fl 2 2 = 3 then l.setProd (8 + (z.td ^^^ 1)) none else l

/-- A saturating count. -/
def satAdd {w : Nat} (x : BitVec w) (n : Nat) : BitVec w :=
  if x.toNat + n < 2 ^ w then x + BitVec.ofNat w n else BitVec.allOnes w

/-- What the reservation of an entry gives: MOULD_FULL with the bytes needed, a page fault, or the state with the
entry's log reservation. -/
inductive Reserved where
  | full (n : Nat)
  | fault (kind va : Nat)
  | ok (s : State) (g : LogEntry)
deriving DecidableEq, Repr

/-- Reserve an entry whose header is decided but for IDX, BACK and LEN (R311). -/
def State.reserve (s : State) (c n : Nat) (h : LogHeader) (demoted : Nat) : Reserved :=
  let k := s.ctl c
  let size := h.size
  let ptr := k.zmlptr.toNat
  if k.zmllim.toNat < ptr + size then .full size
  else
    match s.vaPieces c n .write ptr size with
    | .error (kind, va) => .fault kind va
    | .ok _ =>
      let idx := (k.zmlptr - k.zmlbase).toNat / 64
      let back := if k.zmlcast.getLsbD 63 then 0 else (ptr - slotAddr k.zmlcast) / 64
      let h := { h with idx := idx % 2 ^ 32, back := back, len := size / 64 }
      let g : LogEntry := { addr := k.zmlptr, header := h.bytes, bytes := size }
      .ok ((s.modSlot c n fun l =>
        let l := if h.mark then l else l.updateMap h
        { l with demoted := satAdd l.demoted demoted, appended := satAdd l.appended 1 }).modCtl c fun k =>
          { k with zmlcast := k.zmlptr, zmlptr := k.zmlptr + BitVec.ofNat 64 size }) g

/-! ## Writing an entry (R314) and rolling the log back (R315) -/

/-- A register of the producer map as bytes. -/
def TileUnit.regBytes (t : TileUnit) : Role → List Byte
  | .reg m =>
    if m < 8 then Tab.bytes 0 t.tm (6144 * m) 6144
    else (upFrom 0 1024).flatMap fun e => toLE 4 (Tab.get 0 t.acc (1024 * (m - 8) + e)).toNat
  | _ => []

/-- The accumulators of an instruction are read or written as INT32 (R265). -/
def accInt (zt hdra hdrb : Nat) : Bool :=
  let z := ztOf zt
  let intClass := ((passClass (hFmt hdra) (hFmt hdrb)).map Prod.snd).getD false
  match z.top with
  | 5 | 6 => intClass && hSm hdra == 0 && hSm hdrb == 0
  | 7 => bitAt z.fl 3 && hSm hdrb == 0
  | 8 => intClass
  | 9 | 10 => true
  | 11 => bitAt z.fl 0
  | 12 | 13 => bitAt z.fl 0
  | 15 => bitAt z.fl 2
  | 16 => bitAt z.fl 3
  | _ => false

/-- An operand is differentiable: a BF16 tile register without scales, or an accumulator used as FP32 (R265). A `.i`
TSCL reads INT32 and writes FP32; a TMMC with `.i8` reads its A as INT32 even where scales make C FP32. -/
def differentiable (zt hdra hdrb hdr : Nat) (asA : Bool) : Role → Bool
  | .reg m =>
    if m < 8 then hFmt hdr == fBf16 && hSm hdr == 0
    else
      let z := ztOf zt
      if z.top = 15 then !(asA && bitAt z.fl 2)
      else if z.top = 7 && asA then !bitAt z.fl 3
      else !accInt zt hdra hdrb
  | _ => true

/-- The header with the flags of operands that are not differentiable rewritten to 00; `dstHdr` is the header of a tile
register destination (R314). -/
def LogHeader.settle (h : LogHeader) (dstHdr : Nat) : LogHeader :=
  let r := rolesOf h.zt
  let d (o : Role) (hdr : Nat) (asA : Bool) : Bool := differentiable h.zt h.hdra h.hdrb hdr asA o
  -- TLD's source is as differentiable as what it loads, TST's as what it stores; TMMS's A group is tm ta
  let z := ztOf h.zt
  let srcA : Bool := if z.top = 0 then d r.dest dstHdr false else if z.top = 6 then hFmt h.hdra == fBf16 else d r.a h.hdra true
  let dst : Bool := if z.top = 1 then srcA else d r.dest dstHdr false
  { h with fa := if dst && srcA then h.fa else 0, fb := if dst && d r.b h.hdrb false then h.fb else 0,
           fc := if dst && d r.c 0 false then h.fc else 0,
           prp := if dst && d r.p 0 false then h.prp else noIdx }

/-- The X payload known before the instruction runs: TMMS's mask area, TSCL's vector. DESIGN CHOICE (log entry 92): where the
6,144 bytes from TMMS's mask area on run past the window, beyond the masks that are read, the rest of the payload is zero. -/
def State.logX (s : State) (c n : Nat) (h : LogHeader) : List Byte :=
  let z := ztOf h.zt
  let size := (rolesOf h.zt).px
  if z.top = 6 ∨ z.top = 15 then
    let o := if z.top = 6 then areaBase h.aux else h.aux
    let inside := (s.core c).winBytes n - o
    padTo size ((s.winRead c n o (min size inside)).getD [])
  else List.replicate size 0

/-- The bytes of the codebook register a header names. -/
def TileUnit.lutBytes (t : TileUnit) (hdr : Nat) : List Byte :=
  (upFrom 0 16).flatMap fun e => toLE 2 (t.lutEl (hCb hdr) e)

/-- The whole entry as tq writes it: header, payloads, the cell zeroed. -/
def State.logBytes (s : State) (c n : Nat) (h : LogHeader) : List Byte :=
  let t := s.tile c
  let z := ztOf h.zt
  let r := rolesOf h.zt
  let dstHdr := match r.dest with
    | .reg m => if m < 8 then t.hd m else 0
    | _ => 0
  let half (on : Bool) (hdr : Nat) : List Byte := if on && hFmt hdr == fLut4 then t.lutBytes hdr else List.replicate 32 0
  (h.settle dstHdr).bytes
    ++ (if h.pa then (if z.top = 6 then Tab.bytes 0 t.tm (6144 * z.ta) (paBytes h.zt) else t.regBytes r.a) else [])
    ++ (if h.pb then t.regBytes r.b else [])
    ++ (if h.px then s.logX c n h else [])
    ++ (if h.pl then half (h.pa && taTile z) h.hdra ++ half (h.pb && tbTile z) h.hdrb else [])
    ++ List.replicate (h.size - h.offG) 0

/-- Roll the log back to an entry that was discarded (R315), by the BACK decided at issue. -/
def State.rollBack (s : State) (c n : Nat) (g : LogEntry) : State :=
  let back := fld g.header 0x0E 2
  let idx := (g.addr - (s.ctl c).zmlbase).toNat / 64
  let cast : Word := if back = 0 then 1#64 <<< 63 else g.addr - BitVec.ofNat 64 (64 * back)
  (s.modCtl c fun k => { k with zmlptr := g.addr, zmlcast := cast }).modSlot c n fun l =>
    { l with prod := l.prod.filter fun (_, p) => p.any fun x => decide (x.idx.toNat < idx) }

end Sys2Proof.Machine
end

