-- ==== Sys2Proof/Machine/Tile.lean ====
section
/-! DEFINITION. Queue fences (R112, R287), the issue of tile instructions into tq (R233, R311), MXHINT (R262), and the
sequencer's steps (R233, R234, R238, R261, R314). -/

namespace Sys2Proof.Machine

/-! ## Fences (R112). Queue 0 is tq, 1 rq, 2 to 5 cq0 to cq3, 6 kq. -/

/-- Queue `q` of a slot still has an operation issued before `seq`; `busy` is the slot's tile entry in progress. -/
def Slot.before (l : Slot) (busy : Option TqEntry) (q seq : Nat) : Bool :=
  if q = 0 then (l.tq.any fun e => decide (e.seq < seq)) || busy.any fun e => decide (e.seq < seq)
  else (l.queue q).any fun e => decide (e.seq < seq)

/-- A fence still stands: some named queue has an earlier operation that has not been performed. -/
def Slot.standing (l : Slot) (busy : Option TqEntry) (f : Fence) : Bool :=
  (upFrom 0 7).any fun q => f.set.getLsbD q && l.before busy q f.seq

/-- An operation of queue `q` with issue number `seq` may not begin. -/
def Slot.fenced (l : Slot) (busy : Option TqEntry) (q seq : Nat) : Bool :=
  l.fences.any fun f => f.set.getLsbD q && decide (f.seq ≤ seq) && l.standing busy f

/-- The tile entry of a slot that is in progress. -/
def State.busyOf (s : State) (c n : Nat) : Option TqEntry :=
  if (s.tile c).owner = some n then (s.tile c).busy else none

/-- Drop the fences that no longer stand. -/
def State.tidyFences (s : State) (c n : Nat) : State :=
  let b := s.busyOf c n
  s.modSlot c n fun l => { l with fences := l.fences.filter fun f => l.standing b f }

/-! ## Issue (R233, R311) -/

/-- Enter tq. While a fault of tq waits for its trap the entry is discarded; what it reserved is rolled back with the
rest (R238, R315). -/
def State.enterTq (s : State) (n : Nat) (zt : W32) (arg : Word) (g : Option LogEntry) : State :=
  let pc := s.me.pc
  s.modSlot s.cur n fun l =>
    let l := { l with nseq := l.nseq + 1 }
    match l.tqDead with
    | some none => { l with tqDead := some g }
    | some (some _) => l
    | none => { l with tq := l.tq ++ [{ seq := l.nseq - 1, va := pc, zt := zt, arg := arg, log := g }] }

/-- Reserve the log entry of an instruction or a marker, then continue with it (R311). MOULD_FULL and a page that does
not translate are precise and change nothing. -/
def State.reserving (s : State) (n : Nat) (h : LogHeader) (demoted : Nat) (k : State → LogEntry → Out) : Out :=
  match s.reserve s.cur n h demoted with
  | .full size => s.trap 27 (BitVec.ofNat 64 size)
  | .fault kind va => (s.noteWalk s.cur kind va).recordTrap 15 kind va s.me.epc
  | .ok s g => k s g

/-- Claim the tile unit of the core that steps and continue: the instruction waits while it cannot be claimed, and poison
in what the slot's area holds of it is a SOFT_ERROR of the instruction (R352, R96). -/
def State.claiming (s : State) (w : Waiting) (k : State → Out) : Out :=
  let c := s.cur
  let n := s.mySlot
  if s.tileAreaBad c n then
    let a := (s.core c).area n + 0xE00
    (s.tracePois c a).recordTrap 31 0 a s.me.epc
  else
    match s.claimTile c n with
    | none => s.waitOn w
    | some s => k s

/-- A tile instruction looks for its place in tq: it waits while the unit cannot be claimed or tq is full. -/
def State.tryTile (s : State) (w : Waiting) : Out :=
  let c := s.cur
  let n := s.mySlot
  let zt := s.bitsOf w.instr
  s.claiming w fun s =>
    if 64 ≤ (s.slot c n).tq.length then s.waitOn w
    else if s.me.en then
      let lp := s.me.pre.bind Prefixes.logp
      let (h, demoted) := s.decideEntry c n zt.toNat w.a lp
      (s.readProducers c n zt.toNat lp).reserving n h demoted fun s g => .next ((s.enterTq n zt w.a (some g)).retire)
    else .next ((s.enterTq n zt w.a none).retire)

/-- Issue a tile instruction: x[rs1] is read now (R233). -/
def State.tileIssue (s : State) (i : Instr) (rs1 : Reg) : Out :=
  s.beginLogp i [rs1] <| s.tryTile { instr := i, len := 4, a := s.getX rs1 }

def execTld (td : TReg) (rs1 : Reg) (tm : Bool) (s : State) : Out := s.tileIssue (.tld td rs1 tm) rs1
def execTst (ta : TReg) (rs1 : Reg) (tm : Bool) (s : State) : Out := s.tileIssue (.tst ta rs1 tm) rs1
def execTzero (td : TReg) (tm : Bool) (s : State) : Out := s.tileIssue (.tzero td tm) 0
def execThdr (td : TReg) (rs1 : Reg) (s : State) : Out := s.tileIssue (.thdr td rs1) rs1
def execThdrGet (td : TReg) (rs1 : Reg) (s : State) : Out := s.tileIssue (.thdrGet td rs1) rs1
def execThdrFlags (rs1 : Reg) (s : State) : Out := s.tileIssue (.thdrFlags rs1) rs1
def execThdrFlagsClr (rs1 : Reg) (s : State) : Out := s.tileIssue (.thdrFlagsClr rs1) rs1
def execTlut (td : TReg) (rs1 : Reg) (s : State) : Out := s.tileIssue (.tlut td rs1) rs1
def execTmma (td ta tb : TReg) (rs1 : Reg) (new sat neg : Bool) (s : State) : Out :=
  s.tileIssue (.tmma td ta tb rs1 new sat neg) rs1
def execTmms (td ta tb : TReg) (rs1 : Reg) (new sat neg : Bool) (n : BitVec 2) (s : State) : Out :=
  s.tileIssue (.tmms td ta tb rs1 new sat neg n) rs1
def execTmmc (td ta tb : TReg) (rs1 : Reg) (i8 new sat neg : Bool) (s : State) : Out :=
  s.tileIssue (.tmmc td ta tb rs1 i8 new sat neg) rs1
def execTdist (td ta tb : TReg) (rs1 : Reg) (new : Bool) (mode metric : BitVec 2) (s : State) : Out :=
  s.tileIssue (.tdist td ta tb rs1 new mode metric) rs1
def execTcupd (td ta tb : TReg) (rs1 : Reg) (s : State) : Out := s.tileIssue (.tcupd td ta tb rs1) rs1
def execTcdiv (td ta : TReg) (rs1 : Reg) (int : Bool) (s : State) : Out := s.tileIssue (.tcdiv td ta rs1 int) rs1
def execTcvt (td ta : TReg) (rs1 : Reg) (sat rtz int tm : Bool) (s : State) : Out :=
  s.tileIssue (.tcvt td ta rs1 sat rtz int tm) rs1
def execTadd (td ta tb : TReg) (sat int : Bool) (s : State) : Out := s.tileIssue (.tadd td ta tb sat int) 0
def execTmul (td ta tb : TReg) (sat int : Bool) (s : State) : Out := s.tileIssue (.tmul td ta tb sat int) 0
def execTact (td ta : TReg) (fn : BitVec 2) (s : State) : Out := s.tileIssue (.tact td ta fn) 0
def execTactD (td ta tb : TReg) (fn : BitVec 2) (s : State) : Out := s.tileIssue (.tactD td ta tb fn) 0
def execTscl (td ta : TReg) (rs1 : Reg) (int : Bool) (vec : BitVec 2) (s : State) : Out :=
  s.tileIssue (.tscl td ta rs1 int vec) rs1
def execTred (td ta : TReg) (int : Bool) (op : BitVec 2) (col : Bool) (s : State) : Out :=
  s.tileIssue (.tred td ta int op col) 0
def execTtrn (td ta : TReg) (rs1 : Reg) (tm : Bool) (s : State) : Out := s.tileIssue (.ttrn td ta rs1 tm) rs1

/-- MXHINT takes effect at issue, ahead of tq: it warms a ramped-down array, and otherwise restarts its idle count
(R261, R262). -/
def execMxhint (s : State) : Out :=
  s.begin .mxhint [] <|
    .next ((s.modTile s.cur fun t =>
      if t.rampedDown then { t with hintAt := some s.cycles } else { t with idleAt := s.cycles }).retire)

/-! ## The sequencer -/

/-- The slot's tile queue is served: its task runs on the core and is not being halted (R263). -/
def Core.active (k : Core) (n : Nat) : Bool :=
  (k.running == some n || (k.running.isNone && n == 0 && (k.slot 0).task.isNone))
    && !(k.slot n).haltReq && !(k.slot n).yielding

/-- The entry that may start now (R233, R22, R112). -/
def State.tqNext (s : State) (c : Nat) : Option (Nat × TqEntry) :=
  let k := s.core c
  match k.tile.owner with
  | none => none
  | some n =>
    match (k.slot n).tq with
    | [] => none
    | e :: _ =>
      if k.tile.busy.isSome || !k.active n || (k.region.st == .running && hasPass k.region.desc) || !k.region.passes.isEmpty
          || (k.slot n).fenced none 0 e.seq then none
      else some (n, e)

/-- The faulting or poisoned entry and every entry behind it are discarded, and the trap is pending (R238). `sub` 0 is
poison, which the caller records. The header of a saved entry behind one that was not recorded is read for its BACK. -/
def State.tileFault (s : State) (c n : Nat) (e : TqEntry) (sub : Nat) : State :=
  let dead := (e :: (s.slot c n).tq).findSome? fun x => x.log
  let tval := BitVec.ofNat 64 (sub + e.va.toNat % 2 ^ 55 * 2 ^ 8)
  let s := if e.log.isSome then s else (dead.filter fun g => g.header = []).elim s fun g => s.noteVa c n .read g.addr.toNat 64
  let dead := dead.map fun g =>
    if g.header = [] then { g with header := (s.vaRead c n g.addr.toNat 64).toOption.getD [] } else g
  (s.modTile c fun t => { t with busy := none }).modSlot c n fun l =>
    { l with tq := [], tqDead := some dead, pend := l.pend ++ [⟨if sub = 0 then 31 else 26, tval⟩] }

/-- The header tq writes for a recorded entry: as decided at issue, or as a restore reads it back (R320). -/
def State.entryHeader (s : State) (c n : Nat) (g : LogEntry) : Except Nat (List Byte) :=
  if g.saved then
    match s.vaRead c n g.addr.toNat 64 with
    | .ok b => if headerGood b then .ok b else .error Tsub.header
    | .error k => .error (if k = 0xFF then 0 else Tsub.log)
  else .ok g.header

/-- Write a recorded entry before its instruction executes (R314): the state, and the entry with its header. -/
def State.writeEntry (s : State) (c n : Nat) (e : TqEntry) : Except Nat (State × TqEntry) :=
  match e.log with
  | none => .ok (s, e)
  | some g =>
    match s.entryHeader c n g with
    | .error k => .error k
    | .ok b =>
      match s.vaWrite c n g.addr.toNat (s.logBytes c n (headerFrom b)) with
      | none => .error Tsub.log
      | some s =>
        .ok (s.chargeReads c n (if g.saved then [(g.addr.toNat, 64)] else []), { e with log := some { g with header := b } })

/-- Poison that keeps a recorded entry from being written is recorded (R96): of its saved header, or of a table of a walk. -/
def State.noteEntry (s : State) (c n : Nat) (e : TqEntry) : State :=
  match e.log with
  | none => s
  | some g =>
    match s.entryHeader c n g with
    | .error _ => s.noteVa c n .read g.addr.toNat 64
    | .ok b => s.noteVa c n .write g.addr.toNat (headerFrom b).size

/-- The lowest subcode of an entry's checks and its log (Table 15-4); poison where nothing else fails. -/
def lowestSub (a b : Option Nat) : Option Nat :=
  match a, b with
  | none, y => y
  | x, none => x
  | some x, some y => if x = 0 then some y else if y = 0 then some x else some (min x y)

def TileRes.sub : TileRes → Option Nat
  | .fault n => some n
  | .poison => some 0
  | .ok _ => none

/-- What an entry does when performed; a marker and a CAST write nothing here. -/
def State.entryRun (s : State) (c n : Nat) (e : TqEntry) : TileRes :=
  if e.zt.toNat % 128 = 0x2B then s.tileRun c n e.zt.toNat e.arg.toNat else .ok {}

/-- TQ_ENTRY_START: the checks, the log entry, the array's ramp and the pass charge (R233, R238, R314, R342). DESIGN CHOICE (log
entry 91): the checks of R238 come first, and nothing of the log range of an entry that fails one is written. -/
def execTqEntryStart (core : Nat) (s : State) : Out :=
  s.onCore core <|
    match s.tqNext core with
    | none => .next s
    | some (n, e) =>
      let s := s.modSlot core n fun l => { l with tq := l.tq.drop 1 }
      let run := (s.entryRun core n e).sub
      let log := s.writeEntry core n e
      let bad := match log with
        | .error k => some k
        | .ok _ => none
      match lowestSub run bad, log with
      | none, .ok (s, e) =>
        let s := s.modTile core fun t => { t with busy := some e }
        if isPass e.zt.toNat && e.zt.toNat % 128 == 0x2B then
          .next ((s.modTile core fun t => { t with rampedDown := false, hintAt := none, idleAt := s.cycles }).chargePass core n)
        else .next s
      | sub, _ =>
        let s := if run = some 0 then s.tracePois core e.va.toNat else s
        .next ((s.noteEntry core n e).tileFault core n e (sub.getD 0))

/-- The X payload a TDIST entry writes after its merge (R314). -/
def TileUnit.winners (t : TileUnit) (td : Nat) : List Byte :=
  (upFrom 0 32).flatMap fun i => toLE 4 (t.el td i 0) ++ toLE 4 (t.el td i 1)

/-- Where the X payload of a TDIST entry stands. -/
def LogEntry.winnersAt (g : LogEntry) : Option Nat :=
  let h := headerFrom g.header
  if h.px ∧ (ztOf h.zt).top = 8 then some (g.addr.toNat + h.offX) else none

def State.writeWinners (s : State) (c n : Nat) (e : TqEntry) : Option State :=
  match e.log with
  | none => some s
  | some g =>
    match g.winnersAt with
    | some va => s.vaWrite c n va ((s.tile c).winners (ztOf (headerFrom g.header).zt).td)
    | none => some s

/-- TQ_ENTRY_COMPLETE: every source is read, then every destination and flag is written (R233, R234). A CAST in
progress ends by CAST_ENTRY. -/
def execTqEntryComplete (core : Nat) (s : State) : Out :=
  s.onCore core <|
    let t := s.tile core
    match t.owner, t.busy with
    | some n, some e =>
      if e.zt.toNat % 128 = 0x5B then .next s
      else
        match s.entryRun core n e with
        | .fault k => .next (s.tileFault core n e k)
        | .poison => .next ((s.tracePois core e.va.toNat).tileFault core n e 0)
        | .ok w =>
          match (s.tileWrite core n w).writeWinners core n e with
          | none =>
            let s := (e.log.bind LogEntry.winnersAt).elim s fun va => s.noteVa core n .write va 256
            .next (s.tileFault core n e Tsub.log)
          | some u =>
            let u := { u with free := u.free + 1024 }
            let pass := isPass e.zt.toNat && e.zt.toNat % 128 == 0x2B
            .next ((u.modTile core fun t =>
              { t with busy := none, idleAt := if pass then u.cycles else t.idleAt }).tidyFences core n)
    | _, _ => .next s

/-- After 1,024 cycles without a pass the array ramps down (R261). -/
def execArrayRampDown (core : Nat) (s : State) : Out :=
  s.onCore core <|
    let t := s.tile core
    let passing := !(s.region core).passes.isEmpty || t.busy.any fun e => isPass e.zt.toNat && e.zt.toNat % 128 == 0x2B
    if !t.rampedDown && !passing && decide (t.idleAt + 1024 ≤ s.cycles) then
      .next (s.modTile core fun t => { t with rampedDown := true, hintAt := none })
    else .next s

end Sys2Proof.Machine
end

