-- ==== Sys2Proof/Machine/Shapes.lean ====
section
/-! DEFINITION. Shape records and SHAPE (R268), element sequences (R270, R271), the sides of a command (Table 17-5), and
the checks of sides at issue (R272, R274, R277). -/

namespace Sys2Proof.Machine

/-! ## Shape records (Tables 17-2, 17-3) -/

def shCtl (sh : List Byte) : Nat := fld sh 0x34 4

/-- The fields of a shape for k at or above its rank are zero. -/
def shHighZero (sh : List Byte) : Bool :=
  (upFrom (shRank sh) (4 - shRank sh)).all fun k =>
    fld sh (0x08 + 4 * k) 4 == 0 && fld sh (0x18 + 4 * k) 4 == 0 && fld sh (0x28 + 2 * k) 2 == 0

/-- Bits of BASE that its space does not use. -/
def shBaseHigh (sh : List Byte) : Nat :=
  match shSpace sh with
  | 0 => shBase sh / 2 ^ 55
  | 1 => shBase sh / 2 ^ 21
  | _ => shBase sh / 2 ^ 48

/-- The checks of Table 17-3, in the order of their subcodes. -/
def shapeChecks (sh : List Byte) : List (Bool × Nat) :=
  let f := shFmt sh
  let w := fmtWidth f
  let ks := upFrom 0 (shRank sh)
  [(decide (8 ≤ f), 1),
   (bits (shCtl sh) 17 7 != 0 || shSpace sh == 3 || !zeroAt sh 0x38 8 || !shHighZero sh || shBaseHigh sh != 0
      || shPad sh / 2 ^ w != 0 || (shGidx sh != 0 && shSpace sh != 1) || (shEp sh != 0 && shSpace sh != 2), 2),
   ((if w = 4 then shStep sh 0 != 0 || (ks.any fun k => k != 0 && shStep sh k == 0)
     else ks.any fun k => shStep sh k % ((w / 8 : Nat) : Int) != 0), 3),
   ((ks.any fun k => shDim sh k == 0 || decide (2 ^ 31 - 1 < shDim sh k) || shBox sh k == 0)
      || (w == 4 && (shDim sh 0 % 2 == 1 || shBox sh 0 % 2 == 1)), 4),
   (!swzOk (shSwz sh) || (shSwz sh != 0 && shSpace sh != 1), 5)]

/-- A box of a shape in bytes. -/
def shBytes (sh : List Byte) : Nat := shCount sh * fmtWidth (shFmt sh) / 8

/-- A shape entry of a slot; an entry never written is all zero, which is empty. -/
def Slot.shape (l : Slot) (n : Nat) : List Byte := Tab.get (List.replicate 64 0) l.shapes n
def shEmpty (sh : List Byte) : Bool := sh.all (· == 0)

def execShape (rd rs1 rs2 : Reg) (s : State) : Out :=
  s.begin (.shape rd rs1 rs2) [rd, rs1, rs2] <|
    let va := s.getX rs1
    let n := bits (s.getX rs2).toNat 0 6
    if va.toNat % 64 ≠ 0 then s.trap 4 va
    else s.load va 64 fun s sh =>
      match firstFail (shapeChecks sh) with
      | some sub => s.trap 28 (BitVec.ofNat 64 sub)
      | none =>
        (s.modSlot s.cur s.mySlot fun l => { l with shapes := Tab.set l.shapes n sh }).result rd (BitVec.ofNat 64 (shBytes sh))

/-! ## Elements (R270) -/

/-- Where an element lies: byte address, nibble, and whether it is in range. -/
structure Elem where
  addr : Int
  nib : Nat
  inr : Bool
deriving DecidableEq, Repr

/-- The coordinates of element `e` of a box, from i0 up. -/
def boxCoords (sh : List Byte) (e : Nat) : List Nat :=
  ((upFrom 0 (shRank sh)).foldl (fun (l, q) k => (l ++ [q % shBox sh k], q / shBox sh k)) (([] : List Nat), e)).1

/-- The element of a shape at coordinates x. -/
def shAt (sh : List Byte) (x : List Int) : Elem :=
  let w := fmtWidth (shFmt sh)
  let ks := upFrom 0 (shRank sh)
  let xk (k : Nat) : Int := x.getD k 0
  let inr := ks.all fun k => decide (0 ≤ xk k ∧ xk k < (shDim sh k : Int))
  let sum (from0 : Bool) : Int := ks.foldl (fun (t : Int) k => if k = 0 ∧ ¬ from0 then t else t + xk k * shStep sh k) 0
  if 8 ≤ w then ⟨(shBase sh : Int) + sum true, 0, inr⟩
  else ⟨(shBase sh : Int) + xk 0 / 2 + sum false, (xk 0 % 2).toNat, inr⟩

def shElem (sh : List Byte) (c0 : Nat → Int) (e : Nat) : Elem :=
  shAt sh (((boxCoords sh e).zip (upFrom 0 4)).map fun (i, k) => c0 k + (i : Int))

/-- Element `e` of a gather: its index replaces the outermost coordinate (R282). -/
def gatherElem (sh : List Byte) (c0 : Nat → Int) (idx : Nat → Int) (e : Nat) : Elem :=
  let r := shRank sh - 1
  let inner := ((upFrom 0 r).map (shBox sh)).foldl (· * ·) 1
  let xs := (((boxCoords sh (e % inner)).zip (upFrom 0 r)).map fun (i, k) => c0 k + (i : Int))
  shAt sh (xs ++ [c0 r + idx (e / inner)])

/-! ## Sides (Table 17-5) -/

/-- A side of a command: SEL, the shape of a shape side, and the start coordinates. -/
structure Side where
  sel : Nat
  sh : List Byte
  raw : List Byte
deriving DecidableEq, Repr

def sideOf (b : List Byte) (sh : List Byte) : Side := { sel := fld b 0 8, sh := sh, raw := b }

def Side.form (x : Side) : Nat := bits x.sel 62 2
def Side.isShape (x : Side) : Bool := x.form == 0
def Side.start (x : Side) (k : Nat) : Int := sgn 32 (fld x.raw (8 + 4 * k) 4)
/-- 0 global, 1 scratchpad, 2 endpoint. -/
def Side.space (x : Side) : Nat := if x.isShape then shSpace x.sh else x.form - 1
def Side.gidx (x : Side) : Nat := if x.isShape then shGidx x.sh else bits x.sel 57 5
def Side.ep (x : Side) : Nat := if x.isShape then shEp x.sh else bits x.sel 48 8
def Side.swz (x : Side) : Nat := if x.isShape then shSwz x.sh else 0
def Side.linBase (x : Side) : Nat :=
  match x.form with
  | 1 => bits x.sel 0 55
  | 2 => bits x.sel 0 21
  | _ => bits x.sel 0 48
def Side.width (x : Side) : Nat := fmtWidth (shFmt x.sh)

/-- Element `e` of a side whose elements are `w` bits wide. -/
def Side.elem (x : Side) (w e : Nat) : Elem :=
  if x.isShape then shElem x.sh x.start e else ⟨((x.linBase + e * w / 8 : Nat) : Int), if w = 4 then e % 2 else 0, true⟩

/-- The bytes a global side of `n` elements touches, in the order in which it first touches them: address and length. -/
def Side.touches (x : Side) (w n : Nat) : List (Nat × Nat) :=
  if x.space ≠ 0 then []
  else if x.isShape then (((upFrom 0 n).map (x.elem w)).filter Elem.inr).map fun a => (a.addr.toNat, (w + 7) / 8)
  else [(x.linBase, (n * w + 7) / 8)]

/-- A reserved bit of a side, an empty shape, or a coordinate of a linear side. -/
def Side.fieldBad (x : Side) : Bool :=
  match x.form with
  | 0 => bits x.sel 6 56 != 0 || shEmpty x.sh
  | 1 => bits x.sel 55 7 != 0 || !zeroAt x.raw 8 16
  | 2 => bits x.sel 21 36 != 0 || !zeroAt x.raw 8 16
  | _ => bits x.sel 56 6 != 0 || !zeroAt x.raw 8 16

/-- The lowest and the highest address of the in-range elements (the bounding box of R272); none where no element is in
range. For a linear side of `n` elements, its bytes. The second is the last byte. -/
def Side.bounds (x : Side) (w n : Nat) : Option (Int × Int) :=
  if x.isShape then
    let ks := upFrom 0 (shRank x.sh)
    let lo (k : Nat) : Int := max 0 (x.start k)
    let hi (k : Nat) : Int := min (shDim x.sh k : Int) (x.start k + shBox x.sh k) - 1
    if ks.any fun k => decide (hi k < lo k) then none
    else
      let step (k : Nat) : Int := shStep x.sh k
      let end0 (f : Int → Int → Int) : Int :=
        ks.foldl (fun (t : Int) k => if w = 4 ∧ k = 0 then t + f (lo 0 / 2) (hi 0 / 2) else t + f (lo k * step k) (hi k * step k))
          (shBase x.sh : Int)
      some (end0 min, end0 max + ((w + 7) / 8 : Nat) - 1)
  else if n = 0 then none
  else some ((x.linBase : Int), (x.linBase : Int) + ((n * w + 7) / 8 : Nat) - 1)

/-- ALIGN of R272 and R274. -/
def Side.alignBad (x : Side) : Bool :=
  x.isShape && ((if x.width = 4 then x.start 0 % 2 != 0 else shBase x.sh % (x.width / 8) != 0)
    || shBase x.sh % swzAlign (shSwz x.sh) != 0)

/-- ADDR_OVERFLOW of R272, which checks shape sides: a linear side is translated as it stands (R87). -/
def Side.overflow (x : Side) (w n : Nat) : Bool :=
  x.isShape && (x.bounds w n).any fun (a, b) => decide (a < 0 ∨ (2 ^ 55 : Int) ≤ b)
    || (upFrom 0 (shRank x.sh)).any fun k => decide ((2 ^ 31 - 1 : Int) < x.start k + shBox x.sh k - 1)

/-- The core and slot whose window a gang index names; none outside the issuing quad (R277). -/
def State.windowOf (s : State) (c n g : Nat) : Option (Nat × Nat) :=
  let gang := match (s.slot c n).task with
    | some t => t.gang
    | none => [(c, n)]
  match gang[g]? with
  | some (d, m) => if quadOf d = quadOf c then some (d, m) else none
  | none => none

/-- RANGE: a scratchpad element beyond its window. -/
def State.sideRange (s : State) (c n : Nat) (x : Side) (w cnt : Nat) : Bool :=
  x.space == 1 && (x.bounds w cnt).any fun (a, b) =>
    match s.windowOf c n x.gidx with
    | some (d, m) => decide (a < 0 ∨ ((s.core d).winBytes m : Int) ≤ b)
    | none => false

/-- ENDPOINT of R85 and R272: no element in range, no check but ALIGN. -/
def State.sideEndpoint (s : State) (vi : Nat) (x : Side) (w cnt : Nat) (write : Bool) : Bool :=
  x.space == 2 && (x.bounds w cnt).any fun (a, b) =>
    let e := Tab.get {} (s.iface vi).eps x.ep
    !e.attached || !(if write then e.w else e.r) || decide (a < 0 ∨ (e.extent : Int) ≤ b)

/-! ## Status codes (Table 17-7) -/

namespace Cs
def field := 1
def align := 2
def range := 3
def overflow := 4
def mismatch := 5
def quad := 6
def endpoint := 7
def size := 8
def busy := 9
def cancel := 10
def xlate := 16
def convert := 17
def poison := 18
def timeout := 19
end Cs

/-- The codes of a side that apply. -/
def State.sideCodes (s : State) (c n vi : Nat) (x : Side) (w cnt : Nat) (write : Bool) : List Nat :=
  causes [(x.fieldBad, Cs.field), (x.alignBad, Cs.align), (s.sideRange c n x w cnt, Cs.range), (x.overflow w cnt, Cs.overflow),
    (x.space == 1 && (s.windowOf c n x.gidx).isNone, Cs.quad), (s.sideEndpoint vi x w cnt write, Cs.endpoint)]

end Sys2Proof.Machine
end

