-- ==== Sys2Proof/Machine/Engine.lean ====
section
/-! DEFINITION. What the copy engines, the collective engines and the stream ports share: translation through range
entries (R90; log entry 8), reading and writing an element (R271, R274, R95), completion words, events and arrivals (R280, R281), and
page requests (R284, R384). -/

namespace Sys2Proof.Machine

/-! ## Translation at an edge port (R90) -/

def RangeEntry.permits (r : RangeEntry) : Acc → Bool
  | .read => r.r
  | .write => r.w
  | .rmw => r.r && r.w
  | .fetch => false

/-- Two runs of pages that follow one another both virtually and physically, alike in R, W, MT and EV: one entry of up to
8 GiB holds both. -/
def RangeEntry.joins (a b : RangeEntry) : Bool :=
  a.vi == b.vi && a.va + a.len == b.va && a.pa + a.len == b.pa && a.r == b.r && a.w == b.w && a.mt == b.mt && a.ev == b.ev
    && decide (a.len + b.len ≤ 2 ^ 33)

/-- Latch a page: an entry whose run it continues grows by it; else it takes an entry of its own, at most 16, the least
recently used leaving. -/
def latch (rs : List RangeEntry) (r : RangeEntry) : List RangeEntry :=
  match rs.find? fun a => a.joins r || r.joins a with
  | some a => rs.filter (· != a) ++ [{ a with va := min a.va r.va, pa := min a.pa r.pa, len := a.len + r.len }]
  | none => let l := rs ++ [r]; if l.length > 16 then l.drop 1 else l

/-- Translate through a port's range entries, latching the page on a miss. -/
def State.portXlate (s : State) (d vi : Nat) (rs : List RangeEntry) (acc : Acc) (va : Nat) : Except Nat (Nat × List RangeEntry) :=
  match rs.find? fun r => r.vi == vi && decide (r.va ≤ va ∧ va < r.va + r.len) with
  | some r => if r.permits acc then .ok (r.pa + (va - r.va), rs.filter (· != r) ++ [r]) else .error Kind.perm
  | none =>
    match s.walk vi d va acc with
    | .error k => .error k
    | .ok (e, _) =>
      .ok (e.pa + (va - e.va), latch rs ⟨vi, e.va, 2 ^ e.sz, e.pa, e.r, e.w, e.mt, e.ev⟩)

/-- Walk the tables for the pages of `[va, va+n)` and latch them, until sixteen entries stand. A page that does not
translate is left for the access that needs it (log entry 8). -/
def State.latchPages (s : State) (d vi : Nat) (acc : Acc) : Nat → Nat → Nat → List RangeEntry → List RangeEntry
  | 0, _, _, rs => rs
  | fuel + 1, va, n, rs =>
    if n = 0 ∨ 16 ≤ rs.length then rs
    else
      let len := min n (0x1000 - va % 0x1000)
      State.latchPages s d vi acc fuel (va + len) (n - len)
        (match s.portXlate d vi rs acc va with
          | .ok (_, rs) => rs
          | .error _ => rs)

/-- The entries a port latches for a side at the start: those of its first touches, in their order (R90). A slot that holds
no task presents physical addresses. -/
def State.latchSide (s : State) (c n0 : Nat) (x : Side) (w n : Nat) (acc : Acc) (rs : List RangeEntry) : List RangeEntry :=
  match (s.slot c n0).task with
  | none => rs
  | some t => (x.touches w n).foldl (fun rs (a, k) => s.latchPages (dieOf c) t.vi acc (pieces k) a k rs) rs

/-- The cells of `[va, va+n)` for an engine that acts for slot `n0` of core `c`: through its interface, or as physical
addresses where the slot holds no task (log entry 13). -/
def State.portPieces (s : State) (c n0 : Nat) (acc : Acc) : Nat → List RangeEntry → Nat → Nat →
    Except (Nat × Nat) (List (Nat × Nat) × List RangeEntry)
  | 0, rs, _, _ => .ok ([], rs)
  | fuel + 1, rs, va, n =>
    if n = 0 then .ok ([], rs)
    else
      let len := min n (0x1000 - va % 0x1000)
      let pa : Except Nat (Nat × List RangeEntry) := match (s.slot c n0).task with
        | some t => s.portXlate (dieOf c) t.vi rs acc va
        | none => .ok (va, rs)
      match pa with
      | .error k => .error (k, va)
      | .ok (pa, rs) =>
        match s.home (dieOf c) pa with
        | none => .error (Kind.pa, va)
        | some a =>
          match State.portPieces s c n0 acc fuel rs (va + len) (n - len) with
          | .error e => .error e
          | .ok (l, rs) => .ok ((a, len) :: l, rs)

/-! ## Elements -/

/-- An engine at work: the state, the port's range entries, the 64-byte HBM lines it has touched, and the bytes it has
written: protected word, place within it, and whether the value was poisoned. -/
structure Work where
  s : State
  rs : List RangeEntry
  lines : List Nat := []
  wrote : List (Loc × Nat × Bool) := []
deriving DecidableEq, Repr

/-- What stops an element: a translation fault. Poison goes on with the value (R95). -/
inductive EngStop where
  | xlate (kind va : Nat)
deriving DecidableEq, Repr

def Work.touch (w : Work) (l : List (Nat × Nat)) : Work :=
  { w with lines := l.foldl (fun m (a, _) => if a < hbmTop ∧ !m.contains (a / 64) then a / 64 :: m else m) w.lines }

def Work.note (w : Work) (pois : Bool) (l : List (Loc × Nat)) : Work :=
  { w with wrote := (l.map fun (x, i) => (x, i, pois)) ++ w.wrote }

/-- A protected word whose every byte the engine has written with a value that is not poisoned loses its poison (R95). -/
def Work.cure (w : Work) : Work :=
  let clean (x : Loc) : Bool :=
    let ws := w.wrote.filter fun y => y.1 == x
    !ws.isEmpty && ws.all (fun y => !y.2.2)
      && (upFrom 0 (match x with
        | .mem _ => 8
        | _ => 4)).all fun i => ws.any fun y => y.2.1 == i
  { w with s := { w.s with poison := w.s.poison.filter fun x => !clean x } }

/-- Read `n` bytes at a place of a side: the bytes and whether one is poisoned. Host memory is a free value (log
entry 12). -/
def Work.readAt (w : Work) (c n0 : Nat) (x : Side) (a n : Nat) : Except EngStop (Work × List Byte × Bool) :=
  match x.space with
  | 0 =>
    match w.s.portPieces c n0 .read (pieces n) w.rs a n with
    | .error (k, va) => .error (.xlate k va)
    | .ok (l, rs) => .ok ({ w with rs := rs }.touch l, w.s.readPieces l, w.s.poisPieces l)
  | 1 =>
    match w.s.windowOf c n0 x.gidx with
    | none => .ok (w, List.replicate n 0, false)
    | some (d, m) =>
      let k := w.s.core d
      let p := k.spadAddr m (swz a x.swz)
      .ok (w, k.spadBytes p n, w.s.spadPois d p n)
  | _ => .ok ({ w with s := w.s.takeFree }, toLE n w.s.freeVal.toNat, false)

/-- Write bytes at a place of a side. -/
def Work.writeAt (w : Work) (c n0 : Nat) (x : Side) (a : Nat) (b : List Byte) (pois : Bool) : Except EngStop Work :=
  match x.space with
  | 0 =>
    match w.s.portPieces c n0 .write (pieces b.length) w.rs a b.length with
    | .error (k, va) => .error (.xlate k va)
    | .ok (l, rs) =>
      let s := w.s.writePieces l b
      let s := if pois then l.foldl (fun s (a, n) => (upFrom (a / 8) ((a + n + 7) / 8 - a / 8)).foldl
        (fun s g => s.setPois (.mem g) true) s) s else s
      .ok (({ w with s := s, rs := rs }.touch l).note pois
        (l.flatMap fun (a, n) => (upFrom a n).map fun i => (.mem (i / 8), i % 8)))
  | 1 =>
    match w.s.windowOf c n0 x.gidx with
    | none => .ok w
    | some (d, m) =>
      let p := (w.s.core d).spadAddr m (swz a x.swz)
      .ok ({ w with s := if pois then w.s.spadWritePois d p b else w.s.spadWrite d p b }.note pois
        ((upFrom p b.length).map fun i => (.spad d (i / 4), i % 4)))
  | _ =>
    let vi := ((w.s.slot c n0).task.map Task.vi).getD 0
    .ok { w with s := ((b.zip (upFrom a b.length)).foldl (fun s (v, o) => s.send (.write vi x.ep o v)) w.s) }

/-- Read an element of `wd` bits: its value. -/
def Work.readEl (w : Work) (c n0 : Nat) (x : Side) (wd : Nat) (e : Elem) : Except EngStop (Work × Nat × Bool) :=
  match w.readAt c n0 x e.addr.toNat ((wd + 7) / 8) with
  | .error k => .error k
  | .ok (w, b, p) => .ok (w, if wd = 4 then bits (leNat b) (4 * e.nib) 4 else leNat b, p)

/-- Write an element of `wd` bits; a nibble leaves its neighbour as it was. -/
def Work.writeEl (w : Work) (c n0 : Nat) (x : Side) (wd : Nat) (e : Elem) (v : Nat) (pois : Bool) : Except EngStop Work :=
  if wd = 4 then
    match w.readAt c n0 x e.addr.toNat 1 with
    | .error k => .error k
    | .ok (w, b, p) =>
      let old := leNat b
      let new := if e.nib = 0 then old / 16 * 16 + v % 16 else old % 16 + v % 16 * 16
      w.writeAt c n0 x e.addr.toNat (toLE 1 new) (pois || p)
  else w.writeAt c n0 x e.addr.toNat (toLE (wd / 8) v) pois

/-- The state an engine leaves: words written whole are cured, and the HBM lines it touched are charged (R95, R342; log
entry 10). -/
def Work.done (w : Work) (c n0 : Nat) : State := w.cure.s.chargeHbm c n0 (64 * w.lines.length)

/-! ## Completion (R280, R281) -/

/-- A completion word (Table 17-8). -/
def cwWord (status kind idx : Nat) : Nat := 2 ^ 63 + idx % 2 ^ 31 * 2 ^ 32 + kind % 256 * 256 + status % 256

/-- Write a completion word for a slot; where its page no longer translates the trace records it (R275). -/
def State.writeCw (s : State) (c n va : Nat) (w : Nat) : State :=
  match s.vaWrite c n va (toLE 8 w) with
  | some s => s
  | none => (s.noteVa c n .write va 8).traceAdd (dieOf c) (c % 160) 6 va n

/-- The arrival of a completed command at barrier `bn` of core `d`, on behalf of a slot (R281). -/
def State.engineArrival (s : State) (c n d bn : Nat) (err : Bool) : State :=
  let t := (s.slot c n).task
  s.sendArrival { pkg := s.podid.toNat, core := d, bn := bn, err := err, vi := (t.map Task.vi).getD 0,
                  sender := some (c, n), sendDie := dieOf c, senderTask := t.elim 0 s.handleOf }

/-- What follows the end of an accepted command: the word, the event on an error, the arrival. -/
def State.report (s : State) (c n cw status kind idx : Nat) (be : Bool) (d bn : Nat) : State :=
  let s := s.writeCw c n cw (cwWord status kind idx)
  let s := if status = 0 then s else s.post c n Event.copyErr cw
  if be then s.engineArrival c n d bn (status != 0) else s

/-! ## Page requests (R384) -/

/-- Post a page request of a paused engine to the die's ring; none while the ring is full. The tag it got. R384 names no read
index and no rule that frees an entry; DESIGN CHOICE (log entry 85): an entry is free again once PRQAd has answered as many
requests as were posted before it, so the ring is full with 256 posted and not answered. -/
def State.postRequest (s : State) (d va vi : Nat) : Option (State × Nat) :=
  let k := s.die d
  if 256 ≤ k.prqw - k.prqAns then none
  else
    let tag := k.nextTag % 2 ^ 16
    let b := toLE 8 (va % 2 ^ 55) ++ toLE 2 vi ++ toLE 1 Kind.notValid ++ toLE 1 0 ++ toLE 2 tag ++ List.replicate 18 0
    let s := s.memWrite (k.prqb.toNat + 32 * (k.prqw % 256)) b
    some (s.modDie d fun k => { k with prqw := k.prqw + 1, nextTag := (tag + 1) % 2 ^ 16 }, tag)

end Sys2Proof.Machine
end

