-- ==== Sys2Proof/Machine/Copies.lean ====
section
/-! DEFINITION. CPY, CPYG and CPYX (R275 to R284), CBWAIT, CBTEST and QFENCE (R286, R287), and the copy engine's steps: a
chunk (R285), the end of a command (R280), a page request and its answer (R284, R384). -/

namespace Sys2Proof.Machine

/-! ## The copy block and the copy word (Tables 17-4 and 17-6) -/

def cwArg (w : Nat) : Nat := bits w 48 16
def cwLen (w : Nat) : Nat := bits w 16 32
def cwScp (w : Nat) : Nat := bits w 13 3
def cwBdst (w : Nat) : Bool := bitAt w 12
def cwBe (w : Nat) : Bool := bitAt w 11
def cwBn (w : Nat) : Nat := bits w 0 11

def Cmd.w (k : Cmd) : Nat := k.word.toNat
def Cmd.srcSide (k : Cmd) : Side := sideOf (k.block.take 24) k.src
def Cmd.dstSide (k : Cmd) : Side := sideOf ((k.block.drop 24).take 24) k.dst
def Cmd.bmp (k : Cmd) : Nat := fld k.block 0x30 8

/-- Element widths of the two sides (R279, R282, R283). -/
def Cmd.dstW (k : Cmd) : Nat :=
  match k.kind with
  | .cpyx => k.dstSide.width
  | .cpyg => k.srcSide.width
  | _ => if k.srcSide.isShape then k.srcSide.width else if k.dstSide.isShape then k.dstSide.width else 8
def Cmd.srcW (k : Cmd) : Nat := if k.kind == .cpyx then k.srcSide.width else k.dstW

/-- Elements of one index of a gather. -/
def Cmd.inner (k : Cmd) : Nat := ((upFrom 0 (shRank k.src - 1)).map (shBox k.src)).foldl (· * ·) 1

/-- The element count of a command. -/
def Cmd.srcCount (k : Cmd) : Nat :=
  if k.kind == .cpyg then cwLen k.w * k.inner
  else if k.srcSide.isShape then shCount k.src
  else if k.dstSide.isShape then shCount k.dst else cwLen k.w
def Cmd.dstCount (k : Cmd) : Nat := if k.dstSide.isShape then shCount k.dst else k.srcCount
def Cmd.dstBytes (k : Cmd) : Nat := (k.srcCount * k.dstW + 7) / 8

def bmpForm (b : Nat) : Nat := bits b 62 2
def bmpField (b : Nat) : Bool :=
  match bmpForm b with
  | 0 => b != 0
  | 1 => bits b 55 7 != 0
  | 2 => bits b 21 36 != 0
  | _ => true

/-- The issue codes of a copy that apply (Table 17-7). -/
def State.copyCodes (s : State) (c n : Nat) (k : Cmd) : List Nat :=
  let x := k.srcSide
  let y := k.dstSide
  let w := k.w
  let linear := !x.isShape && !y.isShape
  let field := bmpField k.bmp || decide (6 ≤ cwScp w) || (cwBdst w && y.space != 1) ||
    match k.kind with
    | .cpy => cwArg w != 0 || (!linear && cwLen w != 0) || (linear && x.space == 2 && y.space == 2)
    | .cpyg => !x.isShape
    | _ => bits (cwArg w) 2 14 != 0 || cwLen w != 0
  let mismatch := match k.kind with
    | .cpy => x.isShape && y.isShape && (x.width != y.width || k.srcCount != k.dstCount)
    | .cpyg => shBox k.src (shRank k.src - 1) != 1 || k.srcCount != k.dstCount || (y.isShape && x.width != y.width)
    | _ => !x.isShape || !y.isShape || k.srcCount != k.dstCount || shFmt k.src == fLut4 || shFmt k.dst == fLut4
        || decide (8 ≤ shFmt k.src)
  let bmpWin := bmpForm k.bmp == 2
  let bmpRange := bmpWin && match s.windowOf c n (bits k.bmp 57 5) with
    | some (d, m) => decide ((s.core d).winBytes m < bits k.bmp 0 21 + 64)
    | none => false
  causes [(field, Cs.field), (bmpForm k.bmp != 0 && bits k.bmp 0 6 != 0, Cs.align),
      (bmpRange || (k.kind == .cpyg && decide ((s.core c).winBytes n < 64 * cwArg w + 4 * cwLen w)), Cs.range),
      (mismatch, Cs.mismatch), (bmpWin && (s.windowOf c n (bits k.bmp 57 5)).isNone, Cs.quad),
      ((k.kind == .cpy && linear && cwLen w == 0) || (k.kind == .cpyg && cwLen w == 0)
        || (bmpForm k.bmp != 0 && decide (0x40000 < k.dstBytes)) || (k.kind == .cpyx && decide (2 ^ 31 ≤ k.srcCount)), Cs.size)]
    ++ s.sideCodes c n k.vi x k.srcW k.srcCount false ++ s.sideCodes c n k.vi y k.dstW k.srcCount true

/-! ## Issue -/

/-- The range entries the port of a copy latches as the command is issued: its source's first touches, then its
destination's; the elements a gather will read are not known yet (R90; log entry 8). -/
def State.latchCmd (s : State) (c n : Nat) (k : Cmd) : List RangeEntry :=
  let src (rs : List RangeEntry) := s.latchSide c n k.srcSide k.srcW k.count .read rs
  let dst (rs : List RangeEntry) := s.latchSide c n k.dstSide k.dstW k.count .write rs
  match k.kind with
  | .cpy | .cpyx => dst (src [])
  | .cpyg => dst []
  | _ => []

/-- Put an accepted command into a queue and write 0 to rd, or reject it: the completion word gets the status and rd
the code (R278). `cells` are the completion word's cells. -/
def State.issueCmd (s : State) (rd : Reg) (q : Nat) (k : Cmd) (codes : List Nat) (cells : List (Nat × Nat)) : Out :=
  match lowest codes with
  | some code =>
    ((s.writePieces cells (toLE 8 (cwWord code 0 0))).chargeRun s.cur (costPieces cells)).result rd (BitVec.ofNat 64 code)
  | none =>
    (s.modSlot s.cur s.mySlot fun l =>
      ({ l with nseq := l.nseq + 1 }).setQueue q
        (l.queue q ++ [{ k with seq := l.nseq, issued := s.cycles, ranges := s.latchCmd s.cur s.mySlot k }])).result rd 0

def State.myVi (s : State) : Nat := ((s.slot s.cur s.mySlot).task.map Task.vi).getD 0

/-- The command of a copy block `b` read at `va`, with the copy word: its shapes are captured here (R269, R275). -/
def State.copyCmd (s : State) (kind : CmdKind) (va word : Word) (b : List Byte) : Cmd :=
  let l := s.slot s.cur s.mySlot
  let shapeAt (off : Nat) : List Byte := if bits (fld b off 8) 62 2 = 0 then l.shape (bits (fld b off 8) 0 6) else []
  let k : Cmd := { seq := 0, kind := kind, vi := s.myVi, block := b, word := word, cw := va.toNat + 0x38,
                   src := shapeAt 0, dst := shapeAt 24 }
  { k with count := k.srcCount, chunks := (k.dstBytes + 511) / 512 }

/-- CPY, CPYG or CPYX into queue `q`; it waits while the queue is full (R267). -/
def State.tryCopy (s : State) (kind : CmdKind) (q : Nat) (rd : Reg) (w : Waiting) : Out :=
  let c := s.cur
  let n := s.mySlot
  if 32 ≤ ((s.slot c n).queue q).length then s.waitOn w
  else if w.a.toNat % 64 ≠ 0 then s.trap 4 w.a
  else s.load w.a 64 fun s b =>
    s.forStore (w.a + 0x38) 8 .write fun s cells =>
      let k := s.copyCmd kind w.a w.b b
      s.issueCmd rd q k (s.copyCodes c n k) cells

def State.copyIssue (s : State) (i : Instr) (kind : CmdKind) (cq : BitVec 2) (rd rs1 rs2 : Reg) : Out :=
  s.begin i [rd, rs1, rs2] <|
    s.tryCopy kind (2 + cq.toNat) rd { instr := i, len := 4, a := s.getX rs1, b := s.getX rs2 }

def execCpy (cq : BitVec 2) (rd rs1 rs2 : Reg) (s : State) : Out := s.copyIssue (.cpy cq rd rs1 rs2) .cpy cq rd rs1 rs2
def execCpyg (cq : BitVec 2) (rd rs1 rs2 : Reg) (s : State) : Out := s.copyIssue (.cpyg cq rd rs1 rs2) .cpyg cq rd rs1 rs2
def execCpyx (cq : BitVec 2) (rd rs1 rs2 : Reg) (s : State) : Out := s.copyIssue (.cpyx cq rd rs1 rs2) .cpyx cq rd rs1 rs2

/-! ## CBWAIT and CBTEST (R286) -/

/-- The bitmap word, with the faults of R286. mtval is the VA, or the offset of a window address (log entry 30). -/
def State.bitmapWord (s : State) (a : Word) (k : State → Word → Out) : Out :=
  let va := a &&& 0x007FFFFFFFFFFFFF#64
  let o := bits a.toNat 0 21
  let tval := if a.getLsbD 63 then BitVec.ofNat 64 o else va
  if a.toNat % 8 ≠ 0 then s.trap 4 tval
  else if a.getLsbD 63 then
    let c := s.cur
    let n := s.mySlot
    if (s.core c).winBytes n < o + 8 then s.trap 5 tval
    else
      let p := (s.core c).spadAddr n o
      if s.spadPois c p 8 then (s.tracePois c o).recordTrap 31 0 o s.me.epc
      else k s (BitVec.ofNat 64 (leNat ((s.core c).spadBytes p 8)))
  else s.load va 8 fun s b => k s (BitVec.ofNat 64 (leNat b))

def State.tryCbwait (s : State) (w : Waiting) : Out :=
  s.bitmapWord w.a fun t v => if v &&& w.b = w.b then .next t.retire else t.waitOn w

def execCbwait (rs1 rs2 : Reg) (s : State) : Out :=
  s.begin (.cbwait rs1 rs2) [rs1, rs2] <| s.tryCbwait { instr := .cbwait rs1 rs2, len := 4, a := s.getX rs1, b := s.getX rs2 }

def execCbtest (rd rs1 rs2 : Reg) (s : State) : Out :=
  s.begin (.cbtest rd rs1 rs2) [rd, rs1, rs2] <|
    s.bitmapWord (s.getX rs1) fun t v => t.result rd (v &&& s.getX rs2)

/-! ## QFENCE (R287, R112) -/

/-- The control core's wait: every earlier operation of the named queues is performed. -/
def State.tryQfence (s : State) (set : BitVec 8) (w : Waiting) : Out :=
  let c := s.cur
  let n := s.mySlot
  if (s.slot c n).standing (s.busyOf c n) ⟨set.truncate 7, w.n - 1⟩ then s.waitOn w else .next s.retire

def execQfence (set : BitVec 8) (s : State) : Out :=
  s.begin (.qfence set) [] <|
    if set.truncate 7 = (0 : BitVec 7) then .next s.retire
    else
      let c := s.cur
      let n := s.mySlot
      let s := s.tidyFences c n
      let seq := (s.slot c n).nseq
      let s := s.modSlot c n fun l => { l with fences := l.fences ++ [⟨set.truncate 7, seq⟩] }
      if set.getLsbD 7 then s.tryQfence set { instr := .qfence set, len := 4, n := seq + 1 } else .next s.retire

/-! ## Performing a command -/

def State.headCmd (s : State) (c n q : Nat) : Option Cmd := ((s.slot c n).queue q).head?

def State.modHead (s : State) (c n q : Nat) (f : Cmd → Cmd) : State :=
  s.modSlot c n fun l => l.setQueue q (match l.queue q with
    | [] => []
    | k :: ks => f k :: ks)

def State.popHead (s : State) (c n q : Nat) : State :=
  (s.modSlot c n fun l => l.setQueue q ((l.queue q).drop 1)).tidyFences c n

/-- The index of gather element t, from the captured list. -/
def Cmd.index (k : Cmd) (t : Nat) : Int := sgn 32 (fld (k.group.drop (4 * t)) 0 4)

/-- Source element `e`. -/
def Cmd.srcElem (k : Cmd) (e : Nat) : Elem :=
  if k.kind == .cpyg then gatherElem k.src k.srcSide.start k.index e else k.srcSide.elem k.srcW e

/-- A scratchpad or endpoint element of the source beyond its window or extent. R282 names the window alone; DESIGN CHOICE
(log entry 87): an indexed element beyond an endpoint's extent ends the gather with RANGE too. -/
def State.beyond (s : State) (c n : Nat) (k : Cmd) (x : Elem) : Bool :=
  let y := k.srcSide
  let last : Int := x.addr + ((k.srcW + 7) / 8 : Nat)
  match y.space with
  | 1 => (s.windowOf c n y.gidx).any fun (d, m) => decide (((s.core d).winBytes m : Int) < last)
  | 2 => decide (((Tab.get {} (s.iface k.vi).eps y.ep).extent : Int) < last)
  | _ => false

/-- The status an indexed element ends a gather with, if any (R282). DESIGN CHOICE (log entry 87): a scratchpad element with a
negative address, which leaves both [0, 2^55) and the window, ends it with ADDR_OVERFLOW. -/
def State.gatherBad (s : State) (c n : Nat) (k : Cmd) (e : Nat) : Option Nat :=
  let x := k.srcElem e
  if !x.inr then none
  else if x.addr < 0 ∨ (2 ^ 55 : Int) ≤ x.addr then some Cs.overflow
  else if s.beyond c n k x then some Cs.range else none

/-- The start of a gather: its index list is read, and the lowest offending element found. -/
def State.startGather (s : State) (c n : Nat) (k : Cmd) : Cmd :=
  let o := 64 * cwArg k.w
  let len := 4 * cwLen k.w
  let p := (s.core c).spadAddr n o
  if s.spadPois c p len then { k with status := some (Cs.poison, 0), todo := [] }
  else
    let k := { k with group := (s.core c).spadBytes p len }
    match firstFrom (fun e => (s.gatherBad c n k e).isSome) 0 k.count with
    | none => k
    | some e =>
      let whole := e * k.dstW / 4096
      { k with idx := some e, status := some ((s.gatherBad c n k e).getD Cs.range, 0),
               todo := upFrom 0 (if e * k.dstW % 4096 = 0 then whole else whole + 1) }

/-- Start a copy. -/
def State.startCopy (s : State) (c n : Nat) (k : Cmd) : Cmd :=
  let k := { k with started := true, todo := upFrom 0 k.chunks }
  if k.kind == .cpyg then s.startGather c n k else k

/-- The step that starts the copy at the head of a queue; poison in an index list is recorded as it is read (R96). -/
def State.copyStarts (s : State) (c n q : Nat) (k : Cmd) : State :=
  let g := s.startCopy c n k
  (if g.status = some (Cs.poison, 0) then s.tracePois c (64 * cwArg k.w) else s).modHead c n q fun _ => g

/-- The elements of a chunk. -/
def Cmd.chunkEls (k : Cmd) (ch : Nat) : List Nat :=
  let a := ch * 4096 / k.dstW
  let top := if k.kind == .cpyg then k.idx.getD k.count else k.count
  upFrom a (min top ((ch + 1) * 4096 / k.dstW) - a)

/-- The aligned 8-byte word of a destination in which an element in range lies. -/
def Cmd.wordOf (k : Cmd) (e : Nat) : Option Int :=
  let b := k.dstSide.elem k.dstW e
  if b.inr then some (b.addr / 8) else none

/-- The elements of `b` whose destination word an element of `a` shares. -/
def Cmd.sharing (k : Cmd) (a b : List Nat) : List Nat :=
  match a.filterMap k.wordOf with
  | [] => []
  | w :: ws =>
    let lo := ws.foldl min w
    let hi := ws.foldl max w
    b.filter fun e => (k.wordOf e).any fun v => decide (lo ≤ v ∧ v ≤ hi) && (w :: ws).contains v

/-- The chunks that may share a destination word with chunk `ch`, each with its elements and those of `ch` that may: every
other chunk of a shape, and of a linear destination the last and first sixteen elements of the chunks beside it. -/
def Cmd.beside (k : Cmd) (ch : Nat) : List (Nat × List Nat × List Nat) :=
  let own := k.chunkEls ch
  let last (l : List Nat) : List Nat := l.drop (l.length - 16)
  if k.dstSide.isShape then ((upFrom 0 k.chunks).filter (· != ch)).map fun i => (i, k.chunkEls i, own)
  else
    (if ch = 0 then [] else [(ch - 1, last (k.chunkEls (ch - 1)), own.take 16)])
      ++ (if ch + 1 < k.chunks then [(ch + 1, (k.chunkEls (ch + 1)).take 16, last own)] else [])

/-- The elements performed with a chunk: an aligned 8-byte word is written as one (R116), so a word that the chunk shares
with others is written with whichever of them comes first (log entry 75). -/
def Cmd.goes (k : Cmd) (ch : Nat) : List Nat :=
  let all := k.beside ch
  let gone := all.flatMap fun (i, theirs, own) => if k.todo.contains i then [] else k.sharing theirs own
  let joins (p : Nat → Bool) : List Nat :=
    let l := all.flatMap fun (i, theirs, own) => if p i && k.todo.contains i then k.sharing own theirs else []
    let late := k.sharing gone l
    l.filter fun e => !late.contains e
  joins (fun i => decide (i < ch)) ++ (k.chunkEls ch).filter (fun e => !gone.contains e) ++ joins fun i => decide (ch < i)

/-- The chunk's bytes are all performed: no offending element stands in it. -/
def Cmd.chunkWhole (k : Cmd) (ch : Nat) : Bool :=
  k.kind != .cpyg || k.idx.all fun e => decide ((ch + 1) * 4096 / k.dstW ≤ e)

/-- PAD of a source. -/
def Side.pad (x : Side) : Nat := shPad x.sh % 2 ^ x.width

/-- One element of a copy: its source value, converted for CPYX, written; with whether the conversion offends. -/
def Cmd.element (k : Cmd) (c n : Nat) (w : Work) (e : Nat) : Except EngStop (Work × Bool) :=
  let a := k.srcElem e
  match (if a.inr then w.readEl c n k.srcSide k.srcW a else .ok (w, k.srcSide.pad, false)) with
  | .error x => .error x
  | .ok (w, v, p) =>
    let (v, bad) := if k.kind == .cpyx ∧ shFmt k.src ≠ shFmt k.dst then
        -- between integers SAT is for a narrower destination (R283)
        let sat := bitAt (cwArg k.w) 1 && !(fmtIsInt (shFmt k.src) && fmtIsInt (shFmt k.dst) && k.srcW == k.dstW)
        let (y, g) := convFmt (shFmt k.src) (shFmt k.dst) (bitAt (cwArg k.w) 0) sat v
        (y, g.getLsbD 0 || g.getLsbD 1)
      else (v, false)
    let b := k.dstSide.elem k.dstW e
    match (if b.inr then w.writeEl c n k.dstSide k.dstW b v p else .ok w) with
    | .error x => .error x
    | .ok w => .ok (w, bad && !p)

/-- The elements of a chunk in order, with the lowest offending one. -/
def Cmd.elements (k : Cmd) (c n : Nat) : List Nat → Work → Option Nat → Except EngStop (Work × Option Nat)
  | [], w, i => .ok (w, i)
  | e :: es, w, i =>
    match k.element c n w e with
    | .error x => .error x
    | .ok (w, bad) => Cmd.elements k c n es w (if bad ∧ i.isNone then some e else i)

/-- Set the bitmap bit of a chunk: an indivisible OR into its 8-byte word (R285). -/
def Cmd.setBit (k : Cmd) (c n : Nat) (w : Work) (ch : Nat) : Except EngStop Work :=
  let o := 8 * (ch / 64)
  let m := 2 ^ (ch % 64)
  let or (b : List Byte) : List Byte := toLE 8 (leNat b ||| m)
  match bmpForm k.bmp with
  | 1 =>
    match w.s.portPieces c n .rmw 2 w.rs (bits k.bmp 0 55 + o) 8 with
    | .error (kind, va) => .error (.xlate kind va)
    | .ok (l, rs) =>
      let a := (l.headD (0, 0)).1
      let p := w.s.poisPieces l
      let b := or (w.s.readPieces l)
      .ok ({ w with s := if p then w.s.memWritePois a b else w.s.memWrite a b, rs := rs }.touch l)
  | 2 =>
    match w.s.windowOf c n (bits k.bmp 57 5) with
    | none => .ok w
    | some (d, x) =>
      let p := (w.s.core d).spadAddr x (bits k.bmp 0 21 + o)
      let b := or ((w.s.core d).spadBytes p 8)
      .ok { w with s := if w.s.spadPois d p 8 then w.s.spadWritePois d p b else w.s.spadWrite d p b }
  | _ => .ok w

/-- The slot is halted in place (R360): it has run, holds its task and does not run now. -/
def State.haltedInPlace (s : State) (d m : Nat) : Bool := (s.slot d m).task.any Task.ran && (s.core d).running != some m

/-- CTXCMD SAVE of the slot is in progress: the paused copies of the slot itself go on (R363). -/
def State.saving (s : State) (c n : Nat) : Bool := (s.core c).ctxBusy.any fun o => o.cmd == 2 && o.slot == n

/-- The member of the gang of slot `n` with index `g` has been saved and not restored. -/
def State.memberSaved (s : State) (c n g : Nat) : Bool :=
  (s.slot c n).task.any fun t => s.saved.any fun e =>
    e.task.vi == t.vi && e.task.q == t.q && e.task.card == t.card && e.task.chunk == t.chunk && e.task.gidx == g

/-- A side that a halted slot pauses: a side in the window of the command's own slot (R360), a destination in another's
(R284), and a side in the window of a member saved to memory. A SAVE resumes the paused copies of the slot it saves, and of
no other (R363; log entry 31). -/
def State.sidePaused (s : State) (c n : Nat) (x : Side) (write : Bool) : Bool :=
  x.space == 1 && match s.windowOf c n x.gidx with
    | none => false
    | some (d, m) =>
      if d = c ∧ m = n then s.haltedInPlace c n && !s.saving c n
      else s.memberSaved c n x.gidx || (write && s.haltedInPlace d m && !s.saving c n)

/-- A copy may perform a chunk now. -/
def State.copyGoes (s : State) (c n : Nat) (k : Cmd) : Bool :=
  k.started && k.pause.isNone && !s.sidePaused c n k.srcSide false && !s.sidePaused c n k.dstSide true
    && !(s.die (dieOf c)).actParked 0 (quadOf c) k.vi

/-- What a stop does to a command: NOT_VALID pauses it, another fault ends it with XLATE (R284). -/
def Cmd.stopped (k : Cmd) (e : EngStop) : Cmd :=
  match e with
  | .xlate kind va =>
    if kind = Kind.notValid then { k with pause := some { va := va, tag := 0 } }
    else { k with status := some (Cs.xlate, kind), todo := [], idx := none, done := true }

/-- Poison that stops an engine's walker is recorded (R96). -/
def State.noteStop (s : State) (c : Nat) (e : EngStop) : State :=
  match e with
  | .xlate kind va => s.noteWalk c kind va

/-- The chunk, performed in full or not at all. -/
def State.performChunk (s : State) (c n q : Nat) (k : Cmd) (ch : Nat) : State :=
  let run : Except EngStop (Work × Option Nat) :=
    match k.elements c n (k.goes ch) { s := s, rs := k.ranges } none with
    | .error e => .error e
    | .ok (w, i) =>
      if k.chunkWhole ch then
        match k.setBit c n w ch with
        | .error e => .error e
        | .ok w => .ok (w, i)
      else .ok (w, i)
  match run with
  | .error e => (s.noteStop c e).modHead c n q fun k => k.stopped e
  | .ok (w, i) =>
    let low := match k.idx, i with
      | some a, some b => some (min a b)
      | none, b => b
      | a, none => a
    let s := (w.done c n).modHead c n q fun k =>
      { k with todo := k.todo.filter (· != ch), ranges := w.rs, idx := if k.kind == .cpyg then k.idx else low }
    let bytes := (k.goes ch).length * k.dstW / 8
    if (s.slot c n).task.isSome then s.modDie (dieOf c) fun d => d.chargeAct 0 (quadOf c) k.vi bytes else s

def execChunkComplete (core slot queue chunk : Nat) (s : State) : Out :=
  s.onCore core <|
    match s.headCmd core slot queue with
    | some k =>
      if 2 ≤ queue ∧ queue ≤ 5 ∧ s.copyGoes core slot k ∧ k.todo.contains chunk then
        .next (s.performChunk core slot queue k chunk)
      else .next s
    | none => .next s

/-! ## Completion -/

/-- The end status of a command and its translation kind. -/
def Cmd.finalStatus (k : Cmd) : Nat × Nat :=
  match k.status with
  | some x => x
  | none => if k.kind == .cpyx ∧ k.idx.isSome then (Cs.convert, 0) else (0, 0)

/-- The command has performed all it will perform. -/
def Cmd.finished (k : Cmd) : Bool :=
  k.started && k.todo.isEmpty && match k.kind with
    | .ccmd => k.done
    | _ => true

def execCommandComplete (core slot queue : Nat) (s : State) : Out :=
  s.onCore core <|
    match s.headCmd core slot queue with
    | some k =>
      if 2 ≤ queue ∧ queue ≤ 6 ∧ k.finished then
        let (st, kind) := k.finalStatus
        let d := if queue ≤ 5 ∧ cwBdst k.w then ((s.windowOf core slot k.dstSide.gidx).map Prod.fst).getD core else core
        let s := s.report core slot k.cw st kind (k.idx.getD 0) (cwBe k.w) d (cwBn k.w)
        .next (s.popHead core slot queue)
      else .next s
    | none => .next s

/-! ## Page requests and their answers (R384) -/

def postPause (s : State) (d vi : Nat) (p : Option Pause) : Option (State × Pause) :=
  match p with
  | some x =>
    if x.posted then none
    else match s.postRequest d x.va vi with
      | some (s, tag) => some (s, { x with posted := true, tag := tag })
      | none => none
  | none => none

/-- PAGE_REQUEST_POST: queues 1 to 6 are a slot's command queues, 7 its operand move, 8 to 15 the core's stream ports. -/
def execPageRequestPost (core slot queue : Nat) (s : State) : Out :=
  s.onCore core <|
    let d := dieOf core
    if queue = 7 then
      match (s.slot core slot).task with
      | some t =>
        match postPause s d t.vi t.opPause with
        | some (s, p) => .next (s.setTask core slot fun t => { t with opPause := some p })
        | none => .next s
      | none => .next s
    else if 8 ≤ queue then
      match (s.port core (queue - 8)).stream with
      | some x =>
        match postPause s d x.bind.vi x.pause with
        | some (s, p) => .next (s.modPort core (queue - 8) fun y => { y with stream := y.stream.map fun z => { z with pause := some p } })
        | none => .next s
      | none => .next s
    else
      match s.headCmd core slot queue with
      | some k =>
        match postPause s d k.vi k.pause with
        | some (s, p) => .next (s.modHead core slot queue fun k => { k with pause := some p })
        | none => .next s
      | none => .next s

def Pause.named (p : Option Pause) (tag : Nat) : Bool := p.any fun x => x.posted && !x.answered && x.tag == tag

/-- A paused command after its answer: it re-walks the tables, or ends with XLATE and NOT_VALID. -/
def Cmd.answer (tag : Nat) (decline : Bool) (k : Cmd) : Cmd :=
  if Pause.named k.pause tag then
    if !decline then { k with pause := none }
    -- a collective's other participants go on without it: its call ends in COLLECTIVE_BEGIN
    else if k.kind == .ccmd then { k with pause := none, status := some (Cs.xlate, Kind.notValid) }
    else { k with pause := none, status := some (Cs.xlate, Kind.notValid), todo := [], idx := none, done := true }
  else k

def Stream.answer (tag : Nat) (decline : Bool) (x : Stream) : Stream :=
  if Pause.named x.pause tag then
    if decline then { x with pause := none, status := some (Cs.xlate, Kind.notValid) } else { x with pause := none }
  else x

def Task.answer (tag : Nat) (decline : Bool) (t : Task) : Task :=
  if Pause.named t.opPause tag then
    { t with opPause := t.opPause.map fun p => { p with answered := true, declined := decline } }
  else t

def Slot.answer (tag : Nat) (decline : Bool) (l : Slot) : Slot :=
  { l with task := l.task.map (Task.answer tag decline), queues := l.queues.map fun (q, ks) => (q, ks.map (Cmd.answer tag decline)) }

def Core.named (k : Core) (tag : Nat) : Bool :=
  (k.slots.any fun (_, l) => (l.task.any fun t => Pause.named t.opPause tag) || l.queues.any fun (_, ks) => ks.any fun x => Pause.named x.pause tag)
    || k.ports.any fun (_, p) => p.stream.any fun x => Pause.named x.pause tag

def Core.answer (tag : Nat) (decline : Bool) (k : Core) : Core :=
  { k with slots := k.slots.map fun (n, l) => (n, l.answer tag decline),
           ports := k.ports.map fun (j, p) => (j, { p with stream := p.stream.map (Stream.answer tag decline) }) }

/-- PRQA_WRITE: firmware answers the request with a tag; a tag no paused command holds has no effect. -/
def execPrqaWrite (die : Nat) (value : Word) (s : State) : Out :=
  let tag := bits value.toNat 0 16
  s.onDie die <|
  if s.cores.any fun (c, k) => dieOf c == die && k.named tag then
    let s := { s with cores := s.cores.map fun (c, k) => (c, if dieOf c = die then Core.answer tag (value.getLsbD 63) k else k) }
    .next (s.modDie die fun k => { k with prqAns := k.prqAns + 1 })
  else .next s

end Sys2Proof.Machine
end

