-- ==== Sys2Proof/Machine/Streams.lean ====
section
/-! DEFINITION. SBIND and SUNB (R289, R292), the start of a queued command (R111, R266), the steps of a stream (R289 to R293),
and the low-water marks (R93). -/

namespace Sys2Proof.Machine

/-! ## The bind word and the bind record (R289) -/

def bwPort (w : Nat) : Nat := bits w 0 3
def bwDir (w : Nat) : Bool := bitAt w 3
def bwEng (w : Nat) : Nat := bits w 4 2
def bwShape (w : Nat) : Nat := bits w 8 6
def bwBn (w : Nat) : Nat := bits w 16 11
def bwBe (w : Nat) : Bool := bitAt w 27
def bwScp (w : Nat) : Nat := bits w 28 3

/-- The side a stream walks: its shape from the start coordinates of the bind record. -/
def bindSide (record shape : List Byte) : Side := { sel := 0, sh := shape, raw := List.replicate 8 0 ++ record.take 16 }
def Bind.side (b : Bind) : Side := bindSide b.record b.shape
def Bind.w (b : Bind) : Nat := b.word.toNat

/-- The memory tile of an LLS cell: die and tile (R79). -/
def llsTile (a : Nat) : Option (Nat × Nat) := (llsDie a).map fun d => (d, (a - llsBase d) / 0x1000000)

/-- The memory tile a global element lies in, for slot `n` of core `c`. -/
def State.elemTile (s : State) (c n : Nat) (w : Nat) (e : Elem) : Option (Nat × Nat) :=
  match s.portPieces c n .read 2 [] e.addr.toNat ((w + 7) / 8) with
  | .ok ((a, _) :: _, _) => llsTile a
  | _ => none

/-- The in-range elements of a side of a stream. -/
def Side.inRange (x : Side) : List Elem := ((upFrom 0 (shCount x.sh)).map (x.elem x.width)).filter Elem.inr

/-- Every in-range element lies in one memory tile of the issuing die. -/
def State.oneTile (s : State) (c n : Nat) (x : Side) : Bool :=
  match x.inRange with
  | [] => true
  | e :: es =>
    match s.elemTile c n x.width e with
    | some (d, t) => d == dieOf c && es.all fun y => s.elemTile c n x.width y == some (d, t)
    | none => false

/-- What a command of rq does to a port as far as its issue can tell: whether the port carries a stream, and how many
binds are pending. -/
def Cmd.loads (j : Nat) (x : Bool × Nat) (k : Cmd) : Bool × Nat :=
  if bits k.w 0 3 ≠ j ∨ k.started then x
  else if k.kind == .sbind then (if !x.1 && x.2 == 0 then (true, 0) else (x.1, x.2 + 1))
  else if bitAt k.w 3 then (false, 0)
  else if x.1 then (decide (0 < x.2), x.2 - 1) else x

/-- Whether port `j` will carry a stream of the slot once rq has caught up, and how many binds will be pending. -/
def State.portLoad (s : State) (c n j : Nat) : Bool × Nat :=
  let p := s.port c j
  ((s.slot c n).queue 1).foldl (Cmd.loads j)
    (p.stream.any fun t => t.bind.slot == n && !t.ended && !t.stop, (p.pending.filter fun b => b.slot == n).length)

/-- The issue codes of SBIND that apply (R272, R278, R289). -/
def State.bindCodes (s : State) (c n vi : Nat) (w : Nat) (record shape : List Byte) : List Nat :=
  let x := bindSide record shape
  let field := bits w 6 2 != 0 || bits w 14 2 != 0 || bits w 31 33 != 0 || bwEng w == 3 || decide (6 ≤ bwScp w)
    || !zeroAt record 0x14 4 || (bwEng w != 0 && (bwDir w || x.space != 0))
  causes [(field, Cs.field), (bwEng w != 0 && x.space == 0 && !shEmpty shape && !s.oneTile c n x, Cs.range),
      (decide (4 ≤ (s.portLoad c n (bwPort w)).2), Cs.busy)]
    ++ s.sideCodes c n vi x x.width (shCount shape) (bwDir w)

/-! ## Issue -/

/-- A port that another slot holds is saved into that slot's area first (R359); the flag says whether it is free. -/
def State.freePort (s : State) (c j n : Nat) : State × Bool :=
  let p := s.port c j
  match (p.stream.map fun t => t.bind.slot).or (p.pending.head?.map Bind.slot) with
  | none => (s, true)
  | some m =>
    if m = n then (s, true)
    else
      let s := s.modPort c j fun p => { p with stream := p.stream.map Stream.flush }
      if (s.port c j).stream.all Stream.settled then (s.savePort c j m, true) else (s, false)

/-- The bind of a bind word with the record `b` read at `va`: its shape is captured here (R269, R289). -/
def State.bindCmd (s : State) (word va : Word) (b : List Byte) : Cmd :=
  { seq := 0, kind := .sbind, vi := s.myVi, block := b, word := word, cw := va.toNat + 0x18,
    src := (s.slot s.cur s.mySlot).shape (bwShape word.toNat) }

def State.trySbind (s : State) (rd : Reg) (w : Waiting) : Out :=
  let c := s.cur
  let n := s.mySlot
  let bw := w.a.toNat
  if 32 ≤ ((s.slot c n).queue 1).length then s.waitOn w
  else if w.b.toNat % 32 ≠ 0 then s.trap 4 w.b
  else
    match s.freePort c (bwPort bw) n with
    | (s, false) => s.waitOn w
    | (s, true) =>
      s.load w.b 32 fun s b =>
        s.forStore (w.b + 0x18) 8 .write fun s cells =>
          let k := s.bindCmd w.a w.b b
          s.issueCmd rd 1 k (s.bindCodes c n k.vi bw b k.src) cells

def execSbind (rd rs1 rs2 : Reg) (s : State) : Out :=
  s.begin (.sbind rd rs1 rs2) [rd, rs1, rs2] <|
    s.trySbind rd { instr := .sbind rd rs1 rs2, len := 4, a := s.getX rs1, b := s.getX rs2 }

/-- SUNB; rd says whether the port will carry a stream when rq performs it. -/
def State.trySunb (s : State) (rd : Reg) (w : Waiting) : Out :=
  let c := s.cur
  let n := s.mySlot
  if 32 ≤ ((s.slot c n).queue 1).length then s.waitOn w
  else
    let none' := !(s.portLoad c n (bits w.a.toNat 0 3)).1
    let k : Cmd := { seq := 0, kind := .sunb, vi := s.myVi, block := [], word := w.a }
    (s.modSlot c n fun l =>
      ({ l with nseq := l.nseq + 1 }).setQueue 1 (l.queue 1 ++ [{ k with seq := l.nseq, issued := s.cycles }])).result rd
        (if none' then 1 else 0)

def execSunb (rd rs1 : Reg) (s : State) : Out :=
  s.begin (.sunb rd rs1) [rd, rs1] <| s.trySunb rd { instr := .sunb rd rs1, len := 4, a := s.getX rs1 }

/-! ## ENGINE_COMMAND_START -/

/-- rq may act on a port for a slot: no other slot holds it, and the slot's own state of it is not in its area. -/
def State.portOpen (s : State) (c n j : Nat) : Bool :=
  let p := s.port c j
  (p.stream.all fun t => t.bind.slot == n) && (p.pending.all fun b => b.slot == n) && !(s.slot c n).savedPorts.contains j

/-- A bind of slot `n` opens its port: one that the task of another slot holds, which does not run, is saved into that slot's
area first (R359); the flag says whether the port is open. -/
def State.openPort (s : State) (c n j : Nat) : State × Bool :=
  if s.portOpen c n j then (s, true)
  else if (s.slot c n).savedPorts.contains j || (s.core c).running.any (s.port c j).heldBy then (s, false)
  else s.freePort c j n

/-- The port is free for the next bind: it carries nothing, or a stream that has ended. -/
def Port.free (p : Port) : Bool := p.stream.all fun t => t.ended

/-- The memory tile a bind's engine serves. -/
def State.bindTile (s : State) (c : Nat) (b : Bind) : Option (Nat × Nat) :=
  (b.side.inRange.head?).bind fun e => s.elemTile c b.slot b.side.width e

/-- The memory tile whose engine runs a stream; none for the core's address generator. It is fixed as the stream starts, or
by its first beat where its first element does not translate yet (log entry 75). -/
def State.tileOf (s : State) (c : Nat) (t : Stream) : Option (Nat × Nat) :=
  if bwEng t.bind.w = 0 then none else t.tile.or (s.bindTile c t.bind)

/-- The memory-tile engine a bind names runs another stream (R289, R293). -/
def State.engineBusy (s : State) (c : Nat) (b : Bind) : Bool :=
  bwEng b.w != 0 && s.cores.any fun (d, k) => dieOf d == dieOf c && k.ports.any fun (_, p) => p.stream.any fun t =>
    !t.ended && bwEng t.bind.w == bwEng b.w && s.tileOf d t == s.bindTile c b

/-- A stream as it starts: its engine's tile, and the range entries of its first touches (R90). -/
def State.openStream (s : State) (c : Nat) (b : Bind) : Stream :=
  let x := b.side
  let t : Stream := { bind := b, ranges := s.latchSide c b.slot x x.width (shCount x.sh) (if bwDir b.w then .write else .read) [] }
  { t with tile := s.tileOf c t }

/-- The oldest pending bind of a port starts, if the port and the engine it names are free (R289). -/
def State.startBind (s : State) (c j : Nat) : State :=
  let p := s.port c j
  match p.pending with
  | [] => s
  | b :: rest =>
    if p.free && !s.engineBusy c b && decide (j < 8) then
      s.modPort c j fun _ => { stream := some (s.openStream c b), pending := rest }
    else s

/-- Perform a bind: it joins the pending binds of its port, and starts at once if the port is free (R289). -/
def State.performBind (s : State) (c n : Nat) (k : Cmd) : State :=
  (s.modPort c (bwPort k.w) fun p =>
    { p with pending := p.pending ++ [{ slot := n, vi := k.vi, word := k.word, record := k.block, shape := k.src, cw := k.cw }] }).startBind
    c (bwPort k.w)

/-- The end of a stream: its completion word, event and arrival (R280, R281, R291). -/
def State.endStream (s : State) (c : Nat) (b : Bind) (status kind : Nat) : State :=
  s.report c b.slot b.cw status kind 0 (bwBe b.w) c (bwBn b.w)

/-- A stream as SUNB leaves it: an output closes its open beat (R292). -/
def Stream.unbind (t : Stream) : Stream :=
  let t := t.advance
  { t with stop := true, beats := [] }

/-- Perform SUNB (R292): an input stream ends at once, with the status a fault has given it, if one has (R291). -/
def State.performUnbind (s : State) (c : Nat) (k : Cmd) : State :=
  let j := bits k.w 0 3
  let p := s.port c j
  let dead := if bitAt k.w 3 then p.pending else []
  let s := match p.stream with
    | none => s
    | some t =>
      if t.ended then s.modPort c j fun p => { p with stream := none }
      else if t.isOut then s.modPort c j fun p => { p with stream := some t.unbind }
      else
        let st := t.status.getD (0, 0)
        (s.modPort c j fun p => { p with stream := none }).endStream c t.bind st.1 st.2
  let s := s.modPort c j fun p => { p with pending := if bitAt k.w 3 then [] else p.pending }
  dead.foldl (fun s b => s.endStream c b Cs.cancel 0) s

/-- No stream of the slot that SUNB has ended still has closed beats to write on a port. -/
def State.unbound (s : State) (c n j : Nat) : Bool := (s.port c j).stream.all fun t => t.bind.slot != n || !t.stop

/-- ENGINE_COMMAND_START: the oldest command of a queue starts once no fence stands before it (R111, R112). A bind waits
while four others are held on its port; SUNB of a port that carries nothing of its slot ends nothing (R292), waits while the port's stream is paused (R384; log entry 75), and stands in rq
until the beats it has closed are written. -/
def execEngineCommandStart (core slot queue : Nat) (s : State) : Out :=
  s.onCore core <|
    match s.headCmd core slot queue with
    | none => .next s
    | some k =>
      let j := bits k.w 0 3
      if k.started || (s.slot core slot).fenced (s.busyOf core slot) queue k.seq then .next s
      else if queue = 1 then
        if k.kind == .sbind then
          match s.openPort core slot j with
          | (s, false) => .next s
          | (s, true) =>
            if 4 ≤ (s.port core j).pending.length then .next s
            else .next ((s.performBind core slot k).popHead core slot 1)
        else if !(s.port core j).heldBy slot && !(s.slot core slot).savedPorts.contains j then .next (s.popHead core slot 1)
        else if !s.portOpen core slot j || (s.port core j).stream.any fun t => t.pause.isSome then .next s
        else
          let s := s.performUnbind core k
          let t := s.startBind core j
          .next (if s.unbound core slot j then t.popHead core slot 1
            else t.modHead core slot 1 fun k => { k with started := true })
      else if queue = 6 then .next (s.modHead core slot 6 fun k => { k with started := true })
      else if 2 ≤ queue ∧ queue ≤ 5 then .next (s.copyStarts core slot queue k)
      else .next s

/-! ## Streams at work -/

/-- STREAM_START: a pending bind starts as its port and its engine fall free. -/
def execStreamStart (core port : Nat) (s : State) : Out := s.onCore core <| .next (s.startBind core port)

/-- A memory-tile engine reads only LLS cells of its own tile, on the core's die (R72, R82): an element that its pages no
longer place there. -/
def Stream.strays (t : Stream) (c : Nat) (w : Work) (wd : Nat) (a : Elem) : Bool :=
  bwEng t.bind.w != 0 && match w.s.portPieces c t.bind.slot .read 2 w.rs a.addr.toNat ((wd + 7) / 8) with
    | .ok (l, _) => l.any fun (p, _) => !(llsTile p).any fun x => x.1 == dieOf c && t.tile == some x
    | .error _ => false

/-- The positions of beat `b`, read: the values, and the poisoned positions. Positions beyond the sequence hold PAD. -/
def Stream.readBeat (t : Stream) (c b : Nat) : List Nat → Work → Except EngStop (Work × List W32 × BitVec 16)
  | [], w => .ok (w, [], 0)
  | p :: ps, w =>
    let x := t.bind.side
    let e := 16 * (b % max 1 t.beatsPerRep) + p
    let a := x.elem x.width e
    let v : Except EngStop (Work × Nat × Bool) :=
      if e < shCount x.sh ∧ a.inr then
        if t.strays c w x.width a then .error (.xlate Kind.pa a.addr.toNat) else w.readEl c t.bind.slot x x.width a
      else .ok (w, x.pad, false)
    match v with
    | .error k => .error k
    | .ok (w, v, q) =>
      match Stream.readBeat t c b ps w with
      | .error k => .error k
      | .ok (w, vs, m) => .ok (w, streamForm (shFmt x.sh) v :: vs, if q then m ||| (1#16 <<< p) else m)

/-- A translation fault of a stream (Table 05-6): an address generator freezes its region; a memory-tile engine pauses on
NOT_VALID and ends on another kind. While the region does not run the access stays to be made. A halted region whose
output faults first takes the boundary step it has put off, as a fault of its store queue does. -/
def State.streamFault (s : State) (c j : Nat) (t : Stream) (e : EngStop) : State :=
  match e with
  | .xlate kind va =>
    let set (s : State) (f : Stream → Stream) : State := s.modPort c j fun p => { p with stream := p.stream.map f }
    if bwEng t.bind.w = 0 then
      let r := s.region c
      let f : RecordFields := { cause := 24, sub := Sub.xlate, kind := kind, src := 4, port := j, addr := va }
      if r.owner ≠ some t.bind.slot ∨ !s.mayFreeze c then s
      else if r.st = .running then (s.noteWalk c kind va).freeze c f
      else if r.st = .halted ∧ t.isOut then ((s.noteWalk c kind va).modRegion c fun r => r.nextInterval).freeze c f
      else s
    else if kind = Kind.notValid then set s fun t => { t with pause := some { va := va, tag := 0 } }
    else set (s.noteWalk c kind va) fun t => { t with status := some (Cs.xlate, kind) }

/-- An input port has room for another beat: the presented one and four behind it (R288). -/
def Stream.wants (t : Stream) : Bool :=
  !t.isOut && !t.stop && !t.ended && t.pause.isNone && t.status.isNone && decide (t.beats.length < 5)
    && decide (t.no + t.beats.length < t.totalBeats)

def execBeatArrival (core port : Nat) (s : State) : Out :=
  s.onCore core <|
    match (s.port core port).stream with
    | none => .next s
    | some t =>
      if !t.wants then .next s
      else
        let t := { t with tile := s.tileOf core t }
        match t.readBeat core (t.no + t.beats.length) (upFrom 0 16) { s := s, rs := t.ranges } with
        | .error e => .next (s.streamFault core port t e)
        | .ok (w, vs, m) =>
          .next ((w.done core t.bind.slot).modPort core port fun p =>
            { p with stream := p.stream.map fun u =>
                { u with beats := u.beats ++ [{ vals := vs, pois := m }], ranges := w.rs, tile := t.tile } })

/-- Write the pushed positions of output beat `b` to their elements, in the low bits of each value. -/
def Stream.writeBeat (t : Stream) (c b : Nat) (pois : BitVec 16) : Tab W32 → Work → Except EngStop Work
  | [], w => .ok w
  | (p, v) :: ps, w =>
    let x := t.bind.side
    let e := 16 * (b % max 1 t.beatsPerRep) + p
    let a := x.elem x.width e
    let r : Except EngStop Work :=
      if e < shCount x.sh ∧ a.inr then w.writeEl c t.bind.slot x x.width a (v.toNat % 2 ^ x.width) (pois.getLsbD p) else .ok w
    match r with
    | .error k => .error k
    | .ok w => Stream.writeBeat t c b pois ps w

def execBeatWrite (core port : Nat) (s : State) : Out :=
  s.onCore core <|
    match (s.port core port).stream with
    | none => .next s
    | some t =>
      match t.closed with
      | [] => .next s
      | (b, vs, m) :: rest =>
        match t.writeBeat core b m vs { s := s, rs := t.ranges } with
        | .error e => .next (s.streamFault core port t e)
        | .ok w =>
          .next ((w.done core t.bind.slot).modPort core port fun p =>
            { p with stream := p.stream.map fun t => { t with closed := rest, ranges := w.rs } })

/-- SUNB leaves rq once the beats it has closed are written (R112, R292). -/
def State.endUnbind (s : State) (c j n : Nat) : State :=
  if (s.headCmd c n 1).any fun k => k.kind == .sunb && k.started && bits k.w 0 3 == j then s.popHead c n 1 else s

/-- STREAM_END: an exhausted stream ends, one that SUNB has stopped, or one a fault ends, once its closed beats are
written (R291). An exhausted stream goes on presenting PAD until the next bind starts (R290), which the oldest pending one does
at once (R289). -/
def execStreamEnd (core port : Nat) (s : State) : Out :=
  s.onCore core <|
    match (s.port core port).stream with
    | none => .next s
    | some t =>
      if !t.closed.isEmpty || t.ended then .next s
      else
        let gone := (s.modPort core port fun p => { p with stream := none }).endUnbind core port t.bind.slot
        match t.status with
        | some (st, kind) => .next ((gone.endStream core t.bind st kind).startBind core port)
        | none =>
          if t.stop then .next ((gone.endStream core t.bind 0 0).startBind core port)
          else if t.exhausted then
            let s := (s.modPort core port fun p => { p with stream := some { t with ended := true } }).endStream core t.bind 0 0
            .next (s.startBind core port)
          else .next s

/-! ## Low-water marks (R93) -/

def noMark : Nat := 0x0080000000000000

/-- The lowest VA of the elements `f` of a global side from the outermost coordinate of element `e` on, rounded down to
64 KiB. -/
def Side.mark (x : Side) (f : Nat → Elem) (n e : Nat) : Nat :=
  if x.space ≠ 0 then noMark
  else
    let inner := if x.isShape then ((upFrom 0 (shRank x.sh - 1)).map (shBox x.sh)).foldl (· * ·) 1 else 1
    let from0 := e / max 1 inner * inner
    (upFrom from0 (n - from0)).foldl (fun m i =>
      let a := f i
      if a.inr then min m (a.addr.toNat / 0x10000 * 0x10000) else m) noMark

/-- The beat a stream has yet to perform: the oldest closed one that is not written, else the one it stands at. -/
def Stream.due (t : Stream) : Nat := (t.closed.head?.map Prod.fst).getD t.no

/-- The mark of a stream: while repetitions are left, that of its whole sequence. -/
def Stream.mark (t : Stream) : Nat :=
  let x := t.bind.side
  let nb := max 1 t.beatsPerRep
  if t.ended then noMark
  else x.mark (x.elem x.width) (shCount x.sh) (if t.due / nb + 1 < t.reps then 0 else 16 * (t.due % nb))

/-- The mark of a copy in progress, over both its sides; a gather's source is its indexed elements (R282). -/
def Cmd.mark (k : Cmd) : Nat :=
  match k.kind with
  | .cpy | .cpyg | .cpyx =>
    let e := k.todo.foldl min k.chunks * 4096 / max 1 k.dstW
    if k.started then min (k.srcSide.mark k.srcElem k.count e) (k.dstSide.mark (k.dstSide.elem k.dstW) k.count e) else noMark
  | _ => noMark

/-- The mark table of die `d` at index `vi`: the minimum over its ports. -/
def State.markTable (s : State) (d vi : Nat) : Nat :=
  s.cores.foldl (fun m (c, k) =>
    if dieOf c ≠ d then m
    else
      let m := k.ports.foldl (fun m (_, p) => match p.stream with
        | some t => if t.bind.vi = vi then min m t.mark else m
        | none => m) m
      k.slots.foldl (fun m (_, l) => l.queues.foldl (fun m (_, ks) => ks.foldl (fun m e => if e.vi = vi then min m e.mark else m) m) m) m)
    noMark

end Sys2Proof.Machine
end

