-- ==== Sys2Proof/Machine/Collectives.lean ====
section
/-! DEFINITION. CCMD (R294), the calls of collectives (R295) and their reductions (R296). -/

namespace Sys2Proof.Machine

/-! ## The collective block and the group record -/

def Cmd.opw (k : Cmd) : Nat := fld k.block 0x00 4
def Cmd.cop (k : Cmd) : Nat := bits k.opw 0 4
def Cmd.rop (k : Cmd) : Nat := bits k.opw 4 4
def Cmd.cfmt (k : Cmd) : Nat := bits k.opw 8 4
def Cmd.csat (k : Cmd) : Bool := bitAt k.opw 12
def Cmd.rank (k : Cmd) : Nat := fld k.block 0x04 2
def Cmd.root (k : Cmd) : Nat := fld k.block 0x06 2
def Cmd.ccount (k : Cmd) : Nat := fld k.block 0x08 4
def Cmd.tmo (k : Cmd) : Nat := fld k.block 0x0C 4
def Cmd.csrc (k : Cmd) : Nat := fld k.block 0x18 8
def Cmd.cdst (k : Cmd) : Nat := fld k.block 0x20 8
def Cmd.cseq (k : Cmd) : Nat := fld k.block 0x28 8
def Cmd.nrank (k : Cmd) : Nat := fld k.group 0 4
def Cmd.handleAt (k : Cmd) (r : Nat) : Nat := fld (k.group.drop (8 + 8 * r)) 0 8
/-- Bytes of an element. -/
def Cmd.ceb (k : Cmd) : Nat := fmtWidth k.cfmt / 8

/-- The first 8 bytes of a group record name a group. -/
def groupHeadOk (b : List Byte) : Bool := decide (2 ≤ fld b 0 4 ∧ fld b 0 4 ≤ 4096) && zeroAt b 4 4

/-- The group record is in order for a participant whose task has the handle `h`. -/
def Cmd.groupOk (k : Cmd) (h : Word) : Bool :=
  let hs := (upFrom 0 k.nrank).map k.handleAt
  groupHeadOk k.group && decide (k.rank < k.nrank) && k.handleAt k.rank == h.toNat && hs.eraseDups.length == hs.length

/-- The issue codes of CCMD that apply (R278, R294). Table 17-9 has COUNT nonzero and names no code; DESIGN CHOICE (log entry
89): a COUNT of 0 is rejected with SIZE. -/
def Cmd.collectiveCodes (k : Cmd) (h : Word) : List Nat :=
  let field := bits k.opw 13 19 != 0 || decide (5 ≤ k.cop ∨ 3 ≤ k.rop ∨ 3 ≤ k.cfmt)
    || (k.root != 0 && k.cop != 1 && k.cop != 2) || !zeroAt k.block 0x30 8
    || cwArg k.w != 0 || cwLen k.w != 0 || cwBdst k.w || decide (6 ≤ cwScp k.w)
    || fld k.block 0x10 8 % 8 != 0 || !k.groupOk h || decide (k.nrank ≤ k.root)
  causes [(field, Cs.field), (k.ccount == 0, Cs.size)]

/-- Read the group record as one load: its head, then its handles. A record that is not aligned or names no group is not
read further. -/
def State.loadGroup (s : State) (va : Word) (k : State → List Byte → Out) : Out :=
  if va.toNat % 8 ≠ 0 then k s []
  else s.load va 8 fun s b => if !groupHeadOk b then k s [] else s.load va (8 + 8 * fld b 0 4) k

/-- The command of a collective block `b` read at `va` with the group record `g` (R294). -/
def State.collectiveCmd (s : State) (va word : Word) (b g : List Byte) : Cmd :=
  { seq := 0, kind := .ccmd, vi := s.myVi, block := b, word := word, cw := va.toNat + 0x38, group := g }

def State.tryCcmd (s : State) (rd : Reg) (w : Waiting) : Out :=
  let c := s.cur
  let n := s.mySlot
  if 32 ≤ ((s.slot c n).queue 6).length then s.waitOn w
  else if w.a.toNat % 64 ≠ 0 then s.trap 4 w.a
  else s.load w.a 64 fun s b =>
    s.forStore (w.a + 0x38) 8 .write fun s cells =>
      s.loadGroup (BitVec.ofNat 64 (fld b 0x10 8)) fun s g =>
        let k := s.collectiveCmd w.a w.b b g
        s.issueCmd rd 6 k (k.collectiveCodes ((s.runTask c).elim 0 s.handleOf)) cells

def execCcmd (rd rs1 rs2 : Reg) (s : State) : Out :=
  s.begin (.ccmd rd rs1 rs2) [rd, rs1, rs2] <|
    s.tryCcmd rd { instr := .ccmd rd rs1 rs2, len := 4, a := s.getX rs1, b := s.getX rs2 }

/-! ## Reductions (R296) -/

/-- A value as FP32 bits: BF16 is read exactly. -/
def asF32 (fmt x : Nat) : Nat := if fmt = 2 then x % 2 ^ 16 * 2 ^ 16 else x % 2 ^ 32

/-- One step of reduce: the running value and the next one. INT32 values are their 32 bits; others run as FP32. -/
def reduceStep (rop fmt : Nat) (sat : Bool) (r v : Nat) : Nat :=
  if fmt = 0 then
    let a := sgn 32 r
    let b := sgn 32 v
    match rop with
    | 0 => wrapN 32 (if sat then (i32.sat (a + b)).1 else a + b)
    | 1 => wrapN 32 (max a b)
    | _ => wrapN 32 (min a b)
  else
    match rop with
    | 0 => (roundV .f32 .rne ((Num.ofBits .f32 r).add (Num.ofBits .f32 (asF32 fmt v)))).1
    | 1 => minmaxF .f32 false r (asF32 fmt v)
    | _ => minmaxF .f32 true r (asF32 fmt v)

/-- reduce of R296, in rank order. -/
def reduce (rop fmt : Nat) (sat : Bool) : List Nat → Nat
  | [] => 0
  | v :: vs =>
    let r := vs.foldl (reduceStep rop fmt sat) (if fmt = 0 then v % 2 ^ 32 else asF32 fmt v)
    if fmt = 2 then (roundF .bf16 .rne (Num.ofBits .f32 r)).1 else r

/-! ## A call (R295) -/

/-- A participant: core, slot and command. -/
structure Party where
  core : Nat
  slot : Nat
  cmd : Cmd
deriving DecidableEq, Repr

/-- A CCMD is an issue of the call of `k` that has not ended. A handle of another interface's task counts as one that does
not exist (R365). -/
def Cmd.joins (k x : Cmd) : Bool := x.kind == .ccmd && x.vi == k.vi && x.group == k.group && x.cseq == k.cseq && !x.done

/-- The issue of a rank: the oldest CCMD of the call in the kq of the task its handle names. -/
def State.issueOf (s : State) (k : Cmd) (r : Nat) : Option Cmd :=
  match s.findTask (BitVec.ofNat 64 (k.handleAt r)) with
  | none => none
  | some (c, n) => ((s.slot c n).queue 6).find? k.joins

/-- The issues of all ranks; none until all have issued. -/
def State.issues (s : State) (k : Cmd) : Option (List Cmd) := (upFrom 0 k.nrank).mapM (s.issueOf k)

/-- The last of some issues comes within the time limit of `x`. -/
def Cmd.inTime (x : Cmd) (l : List Cmd) : Bool :=
  x.tmo == 0 || l.all fun y => decide (y.issued < x.issued + 1024 * x.tmo)

/-- The participant of a rank: its issue stands at the head of kq, started. -/
def State.party (s : State) (k : Cmd) (r : Nat) : Option Party :=
  match s.findTask (BitVec.ofNat 64 (k.handleAt r)) with
  | none => none
  | some (c, n) =>
    match s.headCmd c n 6 with
    | none => none
    | some x => if k.joins x && x.started then some ⟨c, n, x⟩ else none

/-- Every participant in rank order, once all have issued, each within the time limits of all, and stand at the head of
their queues. -/
def State.parties (s : State) (k : Cmd) : Option (List Party) :=
  match s.issues k with
  | none => none
  | some l => if l.all fun x => x.inTime l then (upFrom 0 k.nrank).mapM (s.party k) else none

def State.modParty (s : State) (p : Party) (f : Cmd → Cmd) : State := s.modHead p.core p.slot 6 f

/-- Bytes a participant reads and writes (R295). -/
def Cmd.srcBytes (k : Cmd) (r : Nat) : Nat :=
  match k.cop with
  | 2 => if r = k.root then k.ccount * k.ceb else 0
  | 4 => k.nrank * k.ccount * k.ceb
  | _ => k.ccount * k.ceb
def Cmd.outBytes (k : Cmd) (r : Nat) : Nat :=
  match k.cop with
  | 1 => if r = k.root then k.ccount * k.ceb else 0
  | 3 => k.nrank * k.ccount * k.ceb
  | _ => k.ccount * k.ceb

/-- The cells of a participant's source or destination. -/
def State.partyPieces (s : State) (p : Party) (acc : Acc) (va n : Nat) : Except (Nat × Nat) (List (Nat × Nat)) :=
  match s.portPieces p.core p.slot acc (pieces n) p.cmd.ranges va n with
  | .ok (l, _) => .ok l
  | .error e => .error e

def State.partySrc (s : State) (p : Party) : Except (Nat × Nat) (List (Nat × Nat)) :=
  s.partyPieces p .read p.cmd.csrc (p.cmd.srcBytes p.cmd.rank)
/-- A participant that has ended already, its page request declined (R384), writes nothing. -/
def State.partyDst (s : State) (p : Party) : Except (Nat × Nat) (List (Nat × Nat)) :=
  match p.cmd.status with
  | some (_, kind) => .error (kind, p.cmd.cdst)
  | none => s.partyPieces p .write p.cmd.cdst (p.cmd.outBytes p.cmd.rank)

def errOf {α β : Type} : Except α β → Option α
  | .error e => some e
  | .ok _ => none

/-- A fault of NOT_VALID that firmware has not declined: the participant is to pause. -/
def Party.pauses (p : Party) (e : Option (Nat × Nat)) : Option Nat :=
  match e with
  | some (k, va) => if k = Kind.notValid ∧ p.cmd.status.isNone then some va else none
  | none => none

/-- End a participant with a status; one that a declined page request gave it stays (R384). -/
def Cmd.ends (k : Cmd) (st : Option (Nat × Nat)) : Cmd := { k with status := k.status.or st, done := true, todo := [], pause := none }

/-- Element `i` of the bytes read. -/
def elemOf (eb : Nat) (b : List Byte) (i : Nat) : Nat := fld (b.drop (eb * i)) 0 eb

/-- The destination bytes of rank `r` from the sources read, in rank order. -/
def Cmd.result (k : Cmd) (srcs : List (List Byte)) (r : Nat) : List Byte :=
  let eb := k.ceb
  let red (first : Nat) : List Byte := (upFrom first k.ccount).flatMap fun i =>
    toLE eb (reduce k.rop k.cfmt k.csat (srcs.map fun b => elemOf eb b i))
  match k.cop with
  | 0 | 1 => red 0
  | 2 => srcs.getD k.root []
  | 3 => srcs.flatten
  | _ => red (r * k.ccount)

/-- Poison of a source reaches a reduction: the whole source, or block `r` of it. -/
def State.reducesPoison (s : State) (k : Cmd) (srcs : List (List (Nat × Nat))) (r : Nat) : Bool :=
  let n := k.ccount * k.ceb
  match k.cop with
  | 0 | 1 => srcs.any s.poisPieces
  | 4 => srcs.any fun l => (cellsOf l).drop (r * n) |>.take n |>.any fun a => s.memPois a 1
  | _ => false
where
  cellsOf (l : List (Nat × Nat)) : List Nat := l.flatMap fun (a, n) => upFrom a n

/-- Poisoned bytes among pieces, as they travel with a move (R95). -/
def State.poisonBytes (s : State) (l : List (Nat × Nat)) : List Bool :=
  l.flatMap fun (a, n) => (upFrom a n).map fun x => s.memPois x 1

/-- Mark the words under poisoned bytes of a destination. -/
def State.markPoison (s : State) (l : List (Nat × Nat)) (p : List Bool) : State :=
  (((l.flatMap fun (a, n) => upFrom a n).zip p).filter Prod.snd).foldl (fun s x => s.setPois (.mem (x.1 / 8)) true) s

/-- The poison a move brings to rank `r`. -/
def State.movedPoison (s : State) (k : Cmd) (srcs : List (List (Nat × Nat))) : List Bool :=
  match k.cop with
  | 2 => s.poisonBytes (srcs.getD k.root [])
  | 3 => srcs.flatMap s.poisonBytes
  | _ => []

/-- Charge a participant (R342, R343). -/
def State.chargeParty (s : State) (p : Party) (l : List (Nat × Nat)) (n : Nat) : State :=
  (s.chargeHbm p.core p.slot (costPieces l)).modDie (dieOf p.core) fun d => d.chargeAct 1 0 p.cmd.vi n

/-- The data of a call, once every source translates: every participant ends. R343 counts bytes moved; DESIGN CHOICE (log entry
93): a participant is charged the bytes of its source and those of its destination. -/
def State.moveCall (s : State) (ps : List Party) (srcs : List (List (Nat × Nat))) (dsts : List (Except (Nat × Nat) (List (Nat × Nat)))) :
    State :=
  let data := srcs.map s.readPieces
  let u := (ps.zip srcs).foldl (fun u (p, l) => u.chargeParty p l (p.cmd.srcBytes p.cmd.rank)) s
  (ps.zip dsts).foldl (fun u (p, d) =>
    let r := p.cmd.rank
    match d with
    | .error (kind, va) => (u.noteWalk p.core kind va).modParty p fun k => k.ends (some (Cs.xlate, kind))
    | .ok l =>
      if s.reducesPoison p.cmd srcs r ∧ p.cmd.outBytes r ≠ 0 then
        (u.tracePois p.core p.cmd.csrc).modParty p fun k => k.ends (some (Cs.poison, 0))
      else
        let n := p.cmd.outBytes r
        let u := if n = 0 then u else (u.writePieces l (p.cmd.result data r)).markPoison l (s.movedPoison p.cmd srcs)
        (u.chargeParty p l n).modParty p fun k => k.ends none) u

/-- The call of some participants that have all issued. -/
def State.call (s : State) (ps : List Party) : State :=
  match ps with
  | [] => s
  | p :: _ =>
    let same (x : Party) : Bool := x.cmd.opw == p.cmd.opw && x.cmd.ccount == p.cmd.ccount && x.cmd.root == p.cmd.root
    if !ps.all same then ps.foldl (fun s x => s.modParty x fun k => k.ends (some (Cs.mismatch, 0))) s
    else
      let srcs := ps.map s.partySrc
      let dsts := ps.map s.partyDst
      let halts := (ps.zip (srcs.zip dsts)).filterMap fun (x, a, b) =>
        ((x.pauses (errOf a)).or (x.pauses (errOf b))).map fun va => (x, va)
      if !halts.isEmpty then
        halts.foldl (fun s (x, va) => s.modParty x fun k => { k with pause := some { va := va, tag := 0 } }) s
      else
        match srcs.findSome? errOf with
        | some (kind, va) =>
          let s := s.noteWalk p.core kind va
          ps.foldl (fun s x => s.modParty x fun k => k.ends (some (Cs.xlate, kind))) s
        | none => s.moveCall ps (srcs.filterMap Except.toOption) dsts

/-- COLLECTIVE_BEGIN: once every rank has issued, none of them is paused and no engine's budget is used up, the call takes
place. -/
def execCollectiveBegin (core slot : Nat) (s : State) : Out :=
  s.onCore core <|
    match s.headCmd core slot 6 with
    | none => .next s
    | some k =>
      match s.parties k with
      | none => .next s
      | some ps =>
        if ps.any fun p => p.cmd.pause.isSome || (s.die (dieOf p.core)).actParked 1 0 p.cmd.vi then .next s
        else .next (s.call ps)

/-- COLLECTIVE_TIMEOUT: a participant whose call has not begun, its last rank's issue having come, within TMO units of 1,024
cycles of its own issue. -/
def execCollectiveTimeout (core slot : Nat) (s : State) : Out :=
  s.onCore core <|
    match s.headCmd core slot 6 with
    | none => .next s
    | some k =>
      if !k.done ∧ k.tmo ≠ 0 ∧ k.issued + 1024 * k.tmo ≤ s.cycles ∧ !(s.issues k).any k.inTime then
        .next (s.modHead core slot 6 fun k => { k.ends (some (Cs.timeout, 0)) with started := true })
      else .next s

end Sys2Proof.Machine
end

