-- ==== Sys2Proof/Machine/Region.lean ====
section
/-! DEFINITION. The steps of a region (R31, R38, R12, R109, R350), the armature (R15, R16, R152), and RCFG, RLNCH,
RWAIT, RHALT, RSAVE, RRSTR, RSTAT, RITER (R150 to R159). -/

namespace Sys2Proof.Machine

/-! ## Rows -/

/-- The region may advance: it runs, and no row-table pass is due to write its accumulators (R222). -/
def State.rowReady (s : State) (c : Nat) : Bool :=
  (s.region c).st == .running && (s.region c).passes.all fun p => decide (p.rows < 16)

/-- One advancing row; a violation, a fault at issue or a BRKPT freezes the region, once the stores of the rows before it have
been performed (R120); a held row does not issue (R35, R36, R230). -/
def execRowAdvance (core : Nat) (s : State) : Out :=
  s.onCore core <|
    if !s.rowReady core then .next s
    else if (s.violation core).isNone && s.held core then .next s
    else match s.rowFault core with
      | some f => if s.mayFreeze core then .next (s.freeze core f) else .next s
      | none =>
        if (s.laneActs core).any (fun x => x.op == .brkpt) && !s.mayFreeze core then .next s else .next (s.rowCommit core)

/-- The row holds and no violation stops it. -/
def State.holds (s : State) (c : Nat) : Bool :=
  s.rowReady c && (s.violation c).isNone && s.held c

/-- One more hold cycle would take hacc above HL (R38). -/
def Region.atLimit (r : Region) : Bool := decide (dHL r.desc < r.hacc + 1)

/-- A hold cycle: hacc and the hold count rise, and the bank condition's own where it stands; the ramp's filler runs (R35,
R37, R38, R261). -/
def State.holdTick (s : State) (c : Nat) : State :=
  let fill := s.rampRaised c
  let bank := s.bankRaised c
  let r := s.region c
  let left := if r.ramp = 0 then s.filler c else r.ramp
  let s := s.modRegion c fun r =>
    { r with hacc := r.hacc + 1, holds := r.holds + 1, bankHold := if bank then r.bankHold + 1 else r.bankHold,
             ramp := if fill then left - 1 else r.ramp }
  if fill && left == 1 then s.modTile c fun t => { t with rampedDown := false, hintAt := none, idleAt := s.cycles } else s

def execHoldCycle (core : Nat) (s : State) : Out :=
  s.onCore core <|
    if s.holds core && !(s.region core).atLimit then .next (s.holdTick core) else .next s

def execDeadlineFault (core : Nat) (s : State) : Out :=
  s.onCore core <|
    if s.holds core && (s.region core).atLimit && s.mayFreeze core then .next (s.freeze core { cause := 25, src := 5 }) else .next s

/-- Everything the region issued has been written or performed (R12). -/
def Core.drained (k : Core) : Bool :=
  k.stq.isEmpty && k.region.lanes.all fun (_, l) => l.res.isEmpty && l.land.all fun x => x.2.isNone

/-- Completion: IDLE, with the owner kept (R10, R12). -/
def execRegionComplete (core : Nat) (s : State) : Out :=
  s.onCore core <|
    let r := s.region core
    if r.st = .running ∧ r.done ∧ (s.core core).drained then
      .next (s.modRegion core fun r => { r with st := .idle, haltReq := false })
    else .next s

/-- A row-table pass writes its accumulators fifteen rows after its start, or at once where its region no longer runs
(R222, R347); the array's idle count runs from there (R261). -/
def execRowTablePassComplete (core : Nat) (s : State) : Out :=
  s.onCore core <|
    let r := s.region core
    match r.passes with
    | [] => .next s
    | p :: ps =>
      if r.st = .running ∧ p.rows < 16 then .next s
      else
        let s := s.modRegion core fun r => { r with passes := ps }
        let s := s.modTile core fun t =>
          { t with
            acc := p.writes.foldl (fun m (a, e, v) => Tab.put 0 m (1024 * a + e) v) t.acc
            flags := t.flags ||| p.flags
            idleAt := s.cycles }
        .next (p.writes.foldl (fun s (a, e, _) => s.setPois (.acc core a e) false) s)

/-! ## Global accesses -/

def Region.landing (r : Region) (l n : Nat) : Option Landing := Tab.get none (r.lane l).land n

def State.modLanding (s : State) (c l n : Nat) (f : Landing → Landing) : State :=
  s.modRegion c fun r => r.modLane l fun v => { v with land := Tab.set v.land n ((Tab.get none v.land n).map f) }

/-- Two lists of pieces share a byte. -/
def meet (a b : List (Nat × Nat)) : Bool := a.any fun (x, n) => b.any fun (y, m) => decide (x < y + m ∧ y < x + n)

/-- Translate `[va, va+len)` for an access of a region that acts for slot `n`: by the tables of its task's interface (R88,
R217), or as a physical address where the slot holds no task (log entry 13). -/
def State.slotXlate (s : State) (c n : Nat) (acc : Acc) (va len : Nat) : State × Except (Nat × Nat) (List (Nat × Nat)) :=
  match (s.slot c n).task with
  | some t => s.xlateAll c t.vi acc (pieces len) va len
  | none =>
    match s.physPieces (dieOf c) (pieces len) va len with
    | .pieces l => (s, .ok l)
    | _ => (s, .error (Kind.pa, va))

/-- An earlier entry of the store queue writes bytes a load reads: `l` are the cells of the load (R109). An entry whose
address does not translate for writing yet still names the cells it reads there. -/
def State.overlapsStq (s : State) (c : Nat) (q : List StqEntry) (l : List (Nat × Nat)) : Bool :=
  q.any fun e => decide (e.kind ≤ 8) &&
    let n := if e.kind = 0 then tyBytes e.ty.toNat else 4
    match (s.slotXlate c e.slot .write e.va.toNat n).2 with
    | .ok w => meet w l
    | .error _ =>
      match (s.slotXlate c e.slot .read e.va.toNat n).2 with
      | .ok w => meet w l
      | .error _ => false

/-- The reply of an LDG arrives: the load is performed. A translation fault freezes the region that runs (R217);
poisoned data is kept for the landing row (R228). -/
def execLdgReply (core lane lslot : Nat) (s : State) : Out :=
  s.onCore core <|
    let r := s.region core
    match r.landing lane lslot with
    | none => .next s
    | some y =>
      let w := tyBytes y.ty.toNat
      if r.st = .idle ∨ y.amo ∨ y.reply.isSome ∨ y.pois then .next s
      else
        match s.slotXlate core (s.ownerOf core) .read y.va.toNat w with
        | (s, .error (k, a)) =>
          if r.st = .running ∧ s.mayFreeze core then
            .next (s.freeze core { cause := 24, sub := Sub.xlate, kind := k, src := 0, lane := lane, opw := y.opw.toNat,
                                   iter := y.iter.toNat, addr := a, opa := y.opa.toNat, opb := y.opb.toNat })
          else .next s
        | (s, .ok l) =>
          if s.overlapsStq core ((s.core core).stq.take y.ahead) l then .next s
          else if s.poisPieces l then .next (s.modLanding core lane lslot fun y => { y with pois := true })
          else
            .next ((s.modLanding core lane lslot fun y => { y with reply := some (BitVec.ofNat 32 (leNat (s.readPieces l))) }).chargeHbm
              core (s.ownerOf core) (costPieces l))

/-- What an AMOG writes (R220): operation codes 1 to 8. -/
def amogNew (kind ty old v cmp : Nat) : Option Nat :=
  let sg (x : Nat) : Int := if ty = 0 then sgn 32 x else (x : Int)
  match kind with
  | 1 => some (wrapN 32 (sg old + sg v))
  | 2 => some (wrapN 32 (min (sg old) (sg v)))
  | 3 => some (wrapN 32 (max (sg old) (sg v)))
  | 4 => some v
  | 5 => some (old &&& v)
  | 6 => some (old ||| v)
  | 7 => some (old ^^^ v)
  | _ => if old = cmp then some v else none

/-- The head entry leaves the store queue; loads issued behind it have one fewer entry ahead of them. -/
def State.popStq (s : State) (c : Nat) : State :=
  (s.modCore c fun k => { k with stq := k.stq.drop 1 }).modRegion c fun r =>
    { r with lanes := r.lanes.map fun (l, v) =>
        (l, { v with land := v.land.map fun (n, y) => (n, y.map fun z => { z with ahead := z.ahead - 1 }) }) }

/-- A fault at the head of the store queue: the queue stops and the region freezes. A region already HALTED first
takes the boundary step it has put off, so that it is FROZEN at row 0 of the next interval (R350, R353). -/
def State.stqFault (s : State) (c : Nat) (e : StqEntry) (kind va : Nat) : State :=
  let r := s.region c
  if r.stuck then s
  else
    let s := s.modRegion c fun r => { r with stuck := true }
    let f : RecordFields := { cause := 24, sub := Sub.xlate, kind := kind, src := 3, lane := e.lane, addr := va,
                              opw := e.opw.toNat, iter := e.iter.toNat, opa := e.opa.toNat, opb := e.opb.toNat }
    match r.st with
    | .running => s.freeze c f
    | .halted => (s.modRegion c fun r => r.nextInterval).freeze c f
    | _ => s

/-- Perform the head entry of the store queue (R109, R219, R220, R223, R225). -/
def State.stqPerform (s : State) (c : Nat) (e : StqEntry) : State :=
  let vi := ((s.slot c e.slot).task.map Task.vi).getD 0
  let task := ((s.slot c e.slot).task.map s.handleOf).getD 0
  if e.kind = 0 then
    let w := tyBytes e.ty.toNat
    match s.slotXlate c e.slot .write e.va.toNat w with
    | (s, .error (k, a)) => s.stqFault c e k a
    | (s, .ok l) => (((s.writePieces l (toLE w e.data.toNat)).popStq c).chargeHbm c e.slot (costPieces l))
  else if e.kind ≤ 8 then
    match s.slotXlate c e.slot .rmw e.va.toNat 4 with
    | (s, .error (k, a)) => s.stqFault c e k a
    | (s, .ok l) =>
      if s.poisPieces l then
        -- nothing is written; the region freezes at the landing row and the entry stays for the replay (R220)
        (s.modRegion c fun r => { r with stuck := true }).modLanding c e.lane e.lslot fun y => { y with pois := true }
      else
        let old := leNat (s.readPieces l)
        let s := match amogNew e.kind e.ty.toNat old (e.data.toNat % 2 ^ 32) e.cmp.toNat with
          | some v => (s.writePieces l (toLE 4 v)).chargeHbm c e.slot (costPieces l)
          | none => s
        let s := s.modLanding c e.lane e.lslot fun y => { y with reply := some (BitVec.ofNat 32 old) }
        (s.popStq c).chargeHbm c e.slot (costPieces l)
  else if e.kind = 9 then
    let x := e.data.toNat
    (s.popStq c).arrive
      { pkg := s.podid.toNat, core := if bitAt x 12 then c else bits x 16 10, bn := bits x 0 11, err := bitAt x 11, vi := vi,
        sender := some (c, e.slot), sendDie := dieOf c, senderTask := task }
  else
    let m : Message := { target := e.handle, data := e.data, doff := e.doff, bn := e.bn, flags := e.flags, pois := e.pois,
                         sender := some (c, e.slot), senderTask := task }
    let s := s.popStq c
    if hPkg m.target = s.podid.toNat then s.deliver m else if s.reaches (hPkg m.target) then s else s.deadMessage m

def execStoreQueuePerform (core : Nat) (s : State) : Out :=
  s.onCore core <|
    match (s.core core).stq with
    | [] => .next s
    | e :: _ => if (s.region core).stuck then .next s else .next (s.stqPerform core e)

/-- A walker refills a core's translation cache (R90). -/
def execTranslationWalk (core vi : Nat) (va : Word) (acc : BitVec 2) (s : State) : Out :=
  s.onCore core <|
    let a : Acc := if acc = 0 then .read else if acc = 1 then .write else if acc = 2 then .rmw else .fetch
    .next (s.xlate core vi va.toNat a).1

/-! ## Status words (R150) -/

def RegionState.code : RegionState → Nat
  | .idle => 0
  | .running => 1
  | .halted => 2
  | .frozen => 3

def State.status (s : State) (c code : Nat) : Word := BitVec.ofNat 64 (code + (s.region c).st.code * 256)

/-- In U mode, another slot owns the region. -/
def State.notOwner (s : State) : Bool :=
  (s.core s.cur).mode == .u && (s.region s.cur).owner.any fun m => some m != (s.core s.cur).running

/-! ## The armature -/

/-- RCFG: the statuses found before any read, and the load entered in issue order (R16, R151, R152). -/
def execRcfg (rd rs1 rs2 : Reg) (s : State) : Out :=
  s.begin (.rcfg rd rs1 rs2) [rd, rs1, rs2] <|
    let c := s.cur
    let me := s.mySlot
    let a := s.getX rs1
    let w := (s.getX rs2).toNat
    let bank := bits w 0 2
    let sreg := bitAt w 2
    match s.freeRegion c (some me) with
    | (s, false) => .next s
    | (s, true) =>
      let r := s.region c
      let early := lowest (causes
        [(!sreg && r.st == .running && dBank r.desc == bank, St.busy), (a.toNat % 64 != 0, St.align),
          (sreg && r.st != .idle, St.state)])
      let s := if sreg && early.isNone then s.claimRegion c (some me) else s
      let load : ArmLoad := { slot := (s.core c).running, rd := some rd, addr := a, bank := bank, sreg := sreg,
                              phys := (s.core c).mode == .m, vi := s.runVi c, early := early }
      .next ((s.modCore c fun k => { k with arm := k.arm ++ [load] }).retire)

/-- The armature's read of a 64-byte unit for a load, through the configuration-image cache (R118; log entry 9). What it
reads from HBM is charged to the slot that issued the load (R342). -/
def State.armUnit (s : State) (c : Nat) (x : ArmLoad) (va : Nat) : State × Option (List Byte) :=
  let vi := x.vi
  let found : State × Option Nat :=
    if x.phys then
      match s.physPieces (dieOf c) (pieces 64) va 64 with
      | .pieces ((a, _) :: _) => (s, some a)
      | _ => (s, none)
    else
      match s.xlateAll c vi .read (pieces 64) va 64 with
      | (s, .ok ((a, _) :: _)) => (s, some a)
      | (s, _) => (s, none)
  match found with
  | (s, none) => (s, none)
  | (s, some a) =>
    match (s.core c).imcache.find? fun l => l.pa == a with
    | some l => (s, some l.bytes)
    | none =>
      if s.memPois a 64 then (s.tracePois c va, none)
      else
        let b := s.memBytes a 64
        let s := x.slot.elim s fun n => s.chargeHbm c n (hbmCost a 64)
        (s.modCore c fun k =>
          let l := k.imcache ++ [⟨a, b⟩]
          { k with imcache := if l.length > 512 then l.drop 1 else l }, some b)

/-- Read units in ascending order until one fails: the bytes, and whether a read failed. -/
def State.armRead (s : State) (c : Nat) (x : ArmLoad) : Nat → Nat → State × List Byte × Bool
  | 0, _ => (s, [], false)
  | n + 1, va =>
    match s.armUnit c x va with
    | (s, none) => (s, [], true)
    | (s, some b) =>
      let (s, bs, f) := State.armRead s c x n (va + 64)
      (s, b ++ bs, f)

/-- The units of an image that can hold a record: sixteen records of 256 bytes and the header. -/
def imageUnits (b : List Byte) : Nat := if headerBad b then 0 else min (imgLen b / 64 - 1) 65

/-- Write a load's status to the register that waits for it. -/
def State.armResult (s : State) (c : Nat) (a : ArmLoad) (code : Nat) : State :=
  match a.rd with
  | none => s
  | some rd =>
    let v := s.status c code
    match a.slot with
    | some n => s.modSlot c n fun l => { l with ctl := l.ctl.setX rd v }
    | none => s.modCore c fun k => { k with fw := k.fw.setX rd v }

/-- The bank marks of a core that a load of the bank replaces. -/
def State.dropBankPois (s : State) (c bank : Nat) : State :=
  { s with poison := s.poison.filter fun l => match l with
      | .bank c' b _ _ => !(c' == c && b == bank)
      | _ => true }

def State.setBank (s : State) (c n : Nat) (b : Bank) : State :=
  (s.modCore c fun k => { k with banks := Tab.set k.banks n b }).dropBankPois c n

/-- Perform an image load: the status, and the bank filled or left empty (R15, R16). -/
def State.loadImage (s : State) (c : Nat) (a : ArmLoad) : State :=
  let va := a.addr.toNat
  let (s, head, f0) := s.armRead c a 1 va
  let (s, rest, f1) := if f0 then (s, [], true) else s.armRead c a (imageUnits head) (va + 64)
  let b := head ++ rest
  let code := imageStatus b (if f1 then b.length else imgLen b) f1
  let s := s.modDie (dieOf c) fun k => k.chargeAct 2 c a.vi (8 + b.length / 64)
  let s := s.setBank c a.bank (if code = St.ok then bankOf b else {})
  s.armResult c a code

/-- Perform a static load: c n of lane l is the word at 32*l + 4*n (R152). -/
def State.loadStatic (s : State) (c : Nat) (a : ArmLoad) : State :=
  let (s, b, f) := s.armRead c a 8 a.addr.toNat
  let s := s.modDie (dieOf c) fun k => k.chargeAct 2 c a.vi 16
  if f then s.armResult c a St.fetch
  else
    let s := (upFrom 0 16).foldl (fun s l =>
      (upFrom 0 8).foldl (fun s n =>
        (s.modRegion c fun r => r.modLane l fun v => v.setReg (24 + n) (BitVec.ofNat 32 (fld b (32 * l + 4 * n) 4))).setPois
          (.lane c l (24 + n)) false) s) s
    s.armResult c a St.ok

/-- The head load of the armature finishes, or its rejection is reported (R15, R149); a parked armature starts no
image or static load (R343). -/
def execArmatureLoadDone (core : Nat) (s : State) : Out :=
  s.onCore core <|
    match (s.core core).arm with
    | [] => .next s
    | a :: rest =>
      if (s.die (dieOf core)).actParked 2 core a.vi then .next s
      else
        let s := s.modCore core fun k => { k with arm := rest }
        match a.early with
        | some code =>
          -- a rejected load leaves the target bank empty, except for BUSY (R16)
          let s := if !a.sreg && code != St.busy then s.setBank core a.bank {} else s
          .next (s.armResult core a code)
        | none => .next (if a.sreg then s.loadStatic core a else s.loadImage core a)

/-- A load of a bank of a core, or a static load, is still pending. -/
def Core.armPending (k : Core) (bank : Nat) : Bool := k.arm.any fun a => a.sreg || a.bank == bank

/-! ## RLNCH (R153, R39 to R42) -/

/-- Read for the region: none where a byte does not translate or is poisoned. An instruction that waits reads again when it
goes on, so what it has read is charged once, as it completes (`chargeFetch`); poison completes it here. -/
def State.fetchBytes (s : State) (va n : Nat) : State × Option (List Byte) :=
  match s.locate s.cur (s.core s.cur).mode va n .read with
  | (s, .pieces l) =>
    if s.poisPieces l then ((s.tracePois s.cur va).chargeRun s.cur (costPieces l), none)
    else (s, some (s.readPieces l))
  | (s, _) => (s, none)

/-- Charge a read that `fetchBytes` has made (R342). -/
def State.chargeFetch (s : State) (va n : Nat) : State :=
  match s.locate s.cur (s.core s.cur).mode va n .read with
  | (s, .pieces l) => s.chargeRun s.cur (costPieces l)
  | (s, _) => s

/-- The regions of the issuing task's gang, by gang index: core and slot. -/
def State.myGang (s : State) : List (Nat × Nat) :=
  match s.runTask s.cur with
  | some t => if t.gang.isEmpty then [(s.cur, s.mySlot)] else t.gang
  | none => [(s.cur, s.mySlot)]

/-- A copy to be launched. -/
structure Target where
  core : Nat
  slot : Nat
  ioff : W32
  kcp : Nat
  ncp : Nat
deriving DecidableEq, Repr

/-- The gang index of entry `i` of a stamp table. -/
def stampIx (b : List Byte) (i : Nat) : Nat := fld b (8 * i + 4) 1

/-- A stamp table is in error (R39). -/
def stampBad (gang : List (Nat × Nat)) (b : List Byte) (n : Nat) : Bool :=
  let es := upFrom 0 n
  decide (gang.length < n) || (es.map (stampIx b)).eraseDups.length != n
    || es.any fun i => decide (gang.length ≤ stampIx b i) || bits (fld b (8 * i + 5) 1) 5 3 != 0 || !zeroAt b (8 * i + 6) 2

/-- The copies the entries of a stamp table name, over the entries whose index the gang has (R39). -/
def stampTargets (gang : List (Nat × Nat)) (b : List Byte) (n : Nat) : List Target :=
  (upFrom 0 n).filterMap fun i =>
    gang[stampIx b i]?.map fun (c, m) => ⟨c, m, BitVec.ofNat 32 (fld b (8 * i) 4), i, n - 1⟩

/-- A port counts as bound for a slot and a direction: it carries a stream, or holds a pending bind (R42). DESIGN CHOICE (log
entry 77): a stream that is exhausted and has ended still counts, until an unbind or a later bind takes the port. -/
def Core.bound (k : Core) (n p : Nat) (out : Bool) : Bool :=
  let q := Tab.get {} k.ports p
  q.stream.any (fun t => t.bind.slot == n && t.isOut == out && !t.stop)
    || q.pending.any fun b => b.slot == n && b.word.getLsbD 3 == out

/-- The phase the first qualified hm.bar row awaits: one beyond the completed count at launch (R34). DESIGN CHOICE (log
entry 66): with WBAR not granted to the launching slot the region awaits phase 1, and the barrier condition of its rows
never clears while the barrier is not the slot's. -/
def State.awaited (s : State) (c n : Nat) (d : List Byte) : Half :=
  match (s.core c).bar (dWbar d) with
  | some b => if b.owner = n then b.ph + 1 else 1
  | none => 1

/-- Start a copy: the sequencer's initial state, the latches zero, the first boundary (R26, R31). -/
def State.launchAt (s : State) (x : Target) (d : List Byte) (dva : Word) (issuer : Nat × Nat) : State :=
  let c := x.core
  let s := s.claimRegion c (some x.slot)
  let bph := s.awaited c x.slot d
  let halt := (s.slot c x.slot).haltReq
  let s := s.setTask c x.slot fun t => { t with ownHalt := false }
  let s := s.modRegion c fun r =>
    ({ st := .running, owner := some x.slot, dva := dva, desc := d, tag := BitVec.ofNat 32 (dTag d), ioff := x.ioff,
       kcp := x.kcp, ncp := x.ncp, flags := r.flags, aux := wordTab (fun j => BitVec.ofNat 32 (pdAux (dPd d j))) 4,
       bph := bph, lanes := r.lanes.map fun (l, v) => (l, { v with lat := [], land := [], res := [] }),
       haltReq := halt, launch := s.launchNo, issuer := issuer } : Region).boundary
  { s with poison := s.poison.filter fun p => match p with
      | .lane c' _ i => !(c' == c && decide (32 ≤ i ∧ i ≤ 35))
      | _ => true }

/-- Claim the tile unit of a core for a region about to run with a descriptor: a row table with a pass start also waits
for the entry in progress (R22, R49). -/
def State.claimFor (s : State) (c n : Nat) (d : List Byte) : Option State :=
  if hasPass d && (s.tile c).busy.isSome then none else s.claimTile c n

/-- Claim the tile units of the copies' cores; none while one cannot be claimed yet. -/
def claimTiles (d : List Byte) : List Target → State → Option State
  | [], s => some s
  | x :: xs, s =>
    match s.claimFor x.core x.slot d with
    | some s => claimTiles d xs s
    | none => none

/-- Free the copies' regions of stopped regions of other slots (R359); the flag says whether all are free. -/
def freeRegions : List Target → State → State × Bool
  | [], s => (s, true)
  | x :: xs, s =>
    match s.freeRegion x.core (some x.slot) with
    | (s, true) => freeRegions xs s
    | (s, false) => (s, false)

/-- The descriptor with other KCP and NCP. -/
def patchCopies (d : List Byte) (kcp ncp : Nat) : List Byte :=
  patch d 0x14 (toLE 4 (fld d 0x14 4 / 2 ^ 10 * 2 ^ 10 + ncp % 32 * 32 + kcp % 32))

/-- The checks of one copy (R42), with the KCP and NCP it runs with (R39). -/
def State.copyCauses (s : State) (d : List Byte) (x : Target) : List Nat :=
  let k := s.core x.core
  launchCauses (Tab.get {} k.banks (dBank d)) (patchCopies d x.kcp x.ncp) (fun p out => k.bound x.slot p out)
    ++ (if k.region.st != .idle then [St.state] else [])

/-- Charge RLNCH for its reads of the descriptor and of the stamp table. -/
def State.chargeLaunch (s : State) (w : Waiting) : State :=
  let s := s.chargeFetch w.a.toNat 256
  if w.b = 0 then s else s.chargeFetch (bits w.b.toNat 0 55) (8 * (bits w.b.toNat 59 5 + 1))

/-- Launch once nothing is waited for; `bad` says that the stamp table is in error. The copies of one launch share a
number. -/
def State.launchNow (s : State) (rd : Reg) (w : Waiting) (d : List Byte) (ts : List Target) (bad : Bool) : Out :=
  let c := s.cur
  let lost := ts.any fun x => s.tileAreaBad x.core x.slot
  match lowest (causes [(bad, St.desc), (lost, St.fetch)] ++ ts.flatMap (s.copyCauses d)) with
  | some code => (s.chargeLaunch w).result rd (s.status c code)
  | none =>
    match claimTiles d ts s with
    | none => s.waitOn w
    | some s =>
      let s := s.chargeLaunch w
      let s := { s with launchNo := s.launchNo + 1 }
      let s := ts.foldl (fun s x => s.launchAt x d w.a (c, s.mySlot)) s
      let s := s.modSlot c s.mySlot fun l => { l with launch := s.launchNo }
      s.result rd (s.status c St.ok)

/-- RLNCH with the descriptor address and the stamp word it captured. It waits for passes of an earlier loop only where every
region is IDLE: a region that is not rejects it with STATE (R11). A descriptor launched without a stamp runs with the KCP
and NCP written in it, also where they are not 0 (log entry 76). -/
def State.tryLaunch (s : State) (rd : Reg) (w : Waiting) : Out :=
  let c := s.cur
  let st := w.b.toNat
  let n := bits st 59 5 + 1
  let sa := bits st 0 55
  if w.a.toNat % 64 ≠ 0 ∨ (st ≠ 0 ∧ (bits st 55 4 ≠ 0 ∨ sa % 8 ≠ 0)) then s.result rd (s.status c St.align)
  else if !((s.slot c s.mySlot).queue 1).isEmpty then s.waitOn w
  else
    match s.fetchBytes w.a.toNat 256 with
    | (s, none) => s.result rd (s.status c St.fetch)
    | (s, some d) =>
      match (if st = 0 then (s, some []) else s.fetchBytes sa (8 * n)) with
      | (s, none) => (s.chargeFetch w.a.toNat 256).result rd (s.status c St.fetch)
      | (s, some b) =>
        let ts : List Target :=
          if st = 0 then [⟨c, s.mySlot, BitVec.ofNat 32 (dIoff d), dKcp d, dNcp d⟩] else stampTargets s.myGang b n
        let bad := st != 0 && stampBad s.myGang b n
        if ts.any fun x => (s.core x.core).armPending (dBank d) then s.waitOn w
        else
          match freeRegions ts s with
          | (s, false) => s.waitOn w
          | (s, true) =>
            if (ts.all fun x => (s.region x.core).st == .idle) && ts.any fun x => !(s.region x.core).passes.isEmpty then s.waitOn w
            else s.launchNow rd w d ts bad

def execRlnch (rd rs1 rs2 : Reg) (s : State) : Out :=
  s.begin (.rlnch rd rs1 rs2) [rd, rs1, rs2] <|
    s.tryLaunch rd { instr := .rlnch rd rs1 rs2, len := 4, a := s.getX rs1, b := s.getX rs2 }

/-! ## RWAIT and RHALT (R154, R155) -/

/-- The copies of a slot's last launch, wherever they stand now: the regions that carry its number (R40, R154). -/
def State.copies (s : State) (c n : Nat) : List Region :=
  let num := (s.slot c n).launch
  (s.cores.map fun k => k.2.region).filter fun r => decide (num ≠ 0) && r.launch == num && r.owner.isSome

def State.tryRwait (s : State) (rd : Reg) (w : Waiting) : Out :=
  let c := s.cur
  if s.notOwner then s.result rd (s.status c St.owner)
  else
    let cs := s.copies c s.mySlot
    if (s.region c).st = .running ∨ cs.any fun r => r.st == .running then s.waitOn w
    else
      let stopped := cs.any fun r => r.st == .halted || r.st == .frozen
      s.result rd (s.status c St.ok ||| (if stopped then 1#64 <<< 10 else 0))

def execRwait (rd : Reg) (s : State) : Out :=
  s.begin (.rwait rd) [rd] <| s.tryRwait rd { instr := .rwait rd, len := 4 }

/-- Who issues an RHALT: the slot, the mode and the pc, by which the re-executed one is known. -/
def State.asker (s : State) : Nat × Mode × Word := (s.mySlot, (s.core s.cur).mode, s.me.pc)

/-- RHALT's wait: the region has left RUNNING. -/
def State.tryRhalt (s : State) (rd : Reg) (w : Waiting) : Out :=
  let c := s.cur
  if (s.region c).st = .running then
    (s.modRegion c fun r => { r with haltReq := true, asked := some s.asker }).waitOn w
  else
    let own := (s.region c).st = .halted
    ((s.modRegion c fun r => { r with asked := none }).setTask c s.mySlot fun t => { t with ownHalt := t.ownHalt || own }).result
      rd (s.status c St.ok)

/-- RHALT of a region that does not run returns STATE, unless it is the abandoned RHALT, executed again, whose request has
stopped it (R155). -/
def execRhalt (rd : Reg) (s : State) : Out :=
  s.begin (.rhalt rd) [rd] <|
    let c := s.cur
    let r := s.region c
    match lowest (causes [(r.st != .running && r.asked != some s.asker, St.state), (s.notOwner, St.owner)]) with
    | some code => s.result rd (s.status c code)
    | none => s.tryRhalt rd { instr := .rhalt rd, len := 4 }

/-! ## RSAVE (R156) -/

/-- The cells of a range the issuing context may write; none where it may not. -/
def State.writable (s : State) (va n : Nat) : State × Option (List (Nat × Nat)) :=
  match s.locate s.cur (s.core s.cur).mode va n .write with
  | (s, .pieces l) => (s, some l)
  | (s, _) => (s, none)

def State.tryRsave (s : State) (rd : Reg) (w : Waiting) : Out :=
  let c := s.cur
  let va := w.a.toNat
  let r := s.region c
  let (s, cells) := s.writable va 4096
  match lowest (causes [(va % 4096 != 0, St.align), (cells.isNone, St.fetch), (!(r.st == .halted || r.st == .frozen), St.state),
      (s.notOwner, St.owner)]) with
  | some code => s.result rd (s.status c code)
  | none =>
    let s := s.flushPorts c (s.ownerOf c)
    if !s.regionSettled c then s.waitOn w
    else
      let k := s.core c
      let owner := s.ownerOf c
      let len := if k.stq.isEmpty then 4096 else 8192
      match s.writable va len with
      | (s, none) => s.result rd (s.status c St.fetch)
      | (s, some l) =>
        let s := s.dropImages c l
        let s := s.writePieces l (if k.stq.isEmpty then k.block else k.block ++ k.tail)
        let a := (l.headD (0, 0)).1
        let s := (s.blockPoison c).foldl (fun t o => t.setPois (.mem ((a + o) / 8)) true) s
        let s := ((s.keepCopy c owner).releaseRegion c owner).chargeRun c (costPieces l)
        let s := s.setTask c owner fun t => { t with ownHalt := false }
        s.result rd (s.status c St.ok)

def execRsave (rd rs1 : Reg) (s : State) : Out :=
  s.begin (.rsave rd rs1) [rd, rs1] <| s.tryRsave rd { instr := .rsave rd rs1, len := 4, a := s.getX rs1 }

/-! ## Restoring a region (R157, R358) -/

/-- The words of a block at cell address `a` that are poisoned, as offsets. -/
def State.poisonedOffsets (s : State) (a n : Nat) : List Nat :=
  s.poison.filterMap fun l => match l with
    | .mem g => if a ≤ 8 * g ∧ 8 * g < a + n then some (8 * g - a) else none
    | _ => none

/-- The cells of a region descriptor that is read again for its owner (R358): through the owner's tables, or as a physical
address where the owner slot holds no task (log entry 13). -/
def State.descCells (s : State) (c n dva : Nat) : Except (Nat × Nat) (List (Nat × Nat)) :=
  match (s.slot c n).task with
  | some t => s.devLocate t.vi (dieOf c) .read dva 256
  | none =>
    match s.physPieces (dieOf c) (pieces 256) dva 256 with
    | .pieces l => .ok l
    | _ => .error (0, dva)

/-- Read a region descriptor again for its owner (R358). -/
def State.descAgain (s : State) (c n dva : Nat) : Option (List Byte) :=
  match s.descCells c n dva with
  | .ok l => if s.poisPieces l then none else some (s.readPieces l)
  | .error _ => none

/-- The read of a descriptor again is recorded where it meets poison (R96). -/
def State.noteDesc (s : State) (c n dva : Nat) : State :=
  match s.descCells c n dva with
  | .ok l => if s.poisPieces l then s.tracePois c dva else s
  | .error (k, a) => if (s.slot c n).task.isSome ∧ k = Kind.poison then s.tracePois c a else s

/-- What the read of a descriptor again costs (R342). -/
def State.descCost (s : State) (c n dva : Nat) : Nat :=
  match s.descCells c n dva with
  | .ok l => costPieces l
  | .error _ => 0

/-- The descriptor with KCP and NCP of a block, for the checks. -/
def descOf (b d : List Byte) : List Byte := patchCopies d (fld b 0x26 1) (fld b 0x27 1)

/-- The bank a block names holds the block's tag. -/
def State.tagHeld (s : State) (c : Nat) (b : List Byte) : Bool :=
  let k := Tab.get {} (s.core c).banks (bits (fld b 0 8) 40 2)
  k.tag != 0 && k.tag.toNat == fld b 0x10 4

/-- The descriptor of a block passes the checks of R42, and the block's row lies within it. -/
def State.descHeld (s : State) (c n : Nat) (b : List Byte) : Option (List Byte) :=
  match s.descAgain c n (fld b 8 8) with
  | none => none
  | some d =>
    let k := s.core c
    let bank := Tab.get {} k.banks (dBank d)
    if fld b 0x23 1 < dII d ∧ launchCauses bank (descOf b d) (fun p out => k.bound n p out) = [] then some d
    else none

/-- A region read back that goes on: a HALTED block performs the boundary step, a FROZEN one resumes at its row or, with
SKIP, the row after it (R358). -/
def Region.goesOn (r : Region) : Region :=
  let r : Region :=
    if r.st = .halted then r.nextInterval
    else { r with t := if r.skip then (r.t + 1) % dII r.desc else r.t, hacc := if r.dln then 0 else r.hacc }
  { r with st := .running, skip := false, dln := false, asked := none }

/-- The region a block gives, before the first row issues (R358): the store tail entered, the result slots
reinstated, the landing slots issued again, the ports at their elements. It remains a copy of the launch it came from
(R40, R154). -/
def State.reinstate (s : State) (c n : Nat) (b d : List Byte) (tail : List StqEntry) (pois : Nat → Nat → Bool) : State :=
  let r := getRegion b d n pois
  let lanes := r.lanes.map fun (l, v) =>
    (l, { v with land := v.land.map fun (i, y) => (i, y.map fun z => { z with ahead := tail.length }) })
  let r : Region := { r with lanes := lanes, launch := (s.slot c n).copyOf, issuer := (s.slot c n).copyFrom.getD (c, n), haltReq := (s.slot c n).haltReq }
  let r : Region := r.goesOn
  let s := (s.clearRegion c).modRegion c fun old => { r with passes := old.passes }
  let s := { s with poison := s.poison ++ restoredPoison c pois }
  let s := s.modCore c fun k =>
    { k with stq := tail,
             ports := k.ports.map fun (j, p) =>
               let cur := (b.drop (0x60 + 16 * j)).take 16
               (j, if bitAt (fld cur 14 1) 3 then
                     { p with stream := p.stream.map fun t => if t.bind.slot = n then t.seek cur else t }
                   else p) }
  s.setTask c n fun t => { t with ownHalt := false }

/-- RRSTR's checks once the block has been read: the statuses that apply. -/
def State.rrstrCauses (s : State) (c : Nat) (b : List Byte) (tailGood : Bool) : List Nat :=
  let marked := bits (fld b 0 8) 0 32 == blockMagic
  causes [(marked && !s.tagHeld c b, St.tag), ((s.region c).st != .idle, St.state), (!blockOk b || !tailGood, St.block)]

def State.tryRrstr (s : State) (rd : Reg) (w : Waiting) : Out :=
  let c := s.cur
  let va := w.a.toNat
  let me := s.mySlot
  match s.freeRegion c (some me) with
  | (s, false) => s.waitOn w
  | (s, true) =>
    if va % 4096 ≠ 0 then s.result rd (s.status c St.align)
    else
      match s.locate c (s.core c).mode va 4096 .read with
      | (s, .pieces l) =>
        let a := (l.headD (0, 0)).1
        let b := s.readPieces l
        let bad := s.poisonedOffsets a 4096
        let pois (lane o : Nat) : Bool := bad.contains (0x100 + 240 * lane + o)
        if (bad.any fun o => !carriesState o) || s.tileAreaBad c me then (s.tracePois c va).result rd (s.status c St.fetch)
        else
          let hasTail := bitAt (fld b 0 8) 34 && blockOk b
          let owner := if (s.core c).mode = .m then bits (fld b 0 8) 37 3 else me
          let charged (s : State) : State := s.chargeRun c (costPieces l)
          match (if hasTail then s.fetchBytes (va + 4096) 4096 else (s, some [])) with
          | (s, none) => (charged s).result rd (s.status c St.fetch)
          | (s, some t) =>
            if (s.core c).armPending (bits (fld b 0 8) 40 2)
                || ((s.region c).st == .idle && !(s.region c).passes.isEmpty) then s.waitOn w
            else
              let charged (s : State) : State := if hasTail then (charged s).chargeFetch (va + 4096) 4096 else charged s
              match lowest (s.rrstrCauses c b (!hasTail || tailOk t)) with
              | some code => (charged s).result rd (s.status c code)
              | none =>
                let dva := fld b 8 8
                match s.descHeld c owner b with
                | none =>
                  (((charged s).chargeRun c (s.descCost c owner dva)).noteDesc c owner dva).result rd (s.status c St.block)
                | some d =>
                  match s.claimFor c owner d with
                  | none => s.waitOn w
                  | some s =>
                    let s := (charged s).chargeRun c (s.descCost c owner dva)
                    let s := s.reinstate c owner b d (if hasTail then getTail owner t else []) pois
                    s.result rd (s.status c St.ok)
      | (s, _) => s.result rd (s.status c St.fetch)

def execRrstr (rd rs1 : Reg) (s : State) : Out :=
  s.begin (.rrstr rd rs1) [rd, rs1] <| s.tryRrstr rd { instr := .rrstr rd rs1, len := 4, a := s.getX rs1 }

/-! ## RSTAT and RITER (R158, R159) -/

/-- The reads of the region a slot that does not own it gets nothing from. -/
def State.hidden (s : State) : Bool :=
  (s.core s.cur).mode == .u && (s.region s.cur).owner != (s.core s.cur).running

def State.rstatItem (s : State) (sel : Nat) : Word :=
  let c := s.cur
  let k := s.core c
  let r := k.region
  if sel = 0 then
    BitVec.ofNat 64 (r.st.code + dBank r.desc * 4 + b2n r.exited * 16 + r.mask.toNat * 2 ^ 8 + (dII r.desc - 1) * 2 ^ 16
      + (dS r.desc - 1) * 2 ^ 21 + r.hacc * 2 ^ 32)
  else if 4 ≤ sel ∧ sel ≤ 7 then
    let b := Tab.get {} k.banks (sel - 4)
    BitVec.ofNat 64 (b.tag.toNat + b2n (k.arm.any fun a => !a.sreg && a.bank == sel - 4) * 2 ^ 32)
  else if s.hidden then BitVec.allOnes 64
  else if sel = 1 ∨ sel = 2 then zx r.flags
  else if sel = 0x10 then r.holds
  else if 0x100 ≤ sel ∧ sel ≤ 0x17F then zx ((r.lane ((sel - 0x100) / 8)).reg (24 + sel % 8))
  else BitVec.allOnes 64

def execRstat (rd rs1 : Reg) (s : State) : Out :=
  s.begin (.rstat rd rs1) [rd, rs1] <|
    let sel := (s.getX rs1).toNat
    let v := s.rstatItem sel
    let s := if sel = 2 ∧ ¬ s.hidden then s.modRegion s.cur fun r => { r with flags := 0 } else s
    s.result rd v

def execRiter (rd : Reg) (s : State) : Out :=
  s.begin (.riter rd) [rd] <|
    let r := s.region s.cur
    s.result rd (if s.hidden then BitVec.allOnes 64 else zx r.nxt ||| (zx r.k <<< 32))

end Sys2Proof.Machine
end

