-- ==== Sys2Proof/Machine/Mould.lean ====
section
/-! DEFINITION. MOULD, MSTAT and CAST (R303 to R306), and CAST_ENTRY: the reverse run over the mould log (R316 to R319)
with the adjoints of Table 15-7 (R265). -/

namespace Sys2Proof.Machine

/-! ## MOULD and MSTAT -/

def emptyCast : Word := 1#64 <<< 63

/-- A marker enters tq with its reservation, once tq has room (R304, R311). -/
def State.tryMark (s : State) (w : Waiting) : Out :=
  let c := s.cur
  let n := s.mySlot
  s.claiming w fun s =>
    if 64 ≤ (s.slot c n).tq.length then s.waitOn w
    else s.reserving n { mark := true } 0 fun s g => .next ((s.enterTq n 0 0 (some g)).retire)

def execMould (rs1 : Reg) (s : State) : Out :=
  s.begin (.mould rs1) [rs1] <|
    let c := s.cur
    match bits (s.getX rs1).toNat 0 2 with
    | 0 =>
      let s := s.modMe fun k => { k with zmlmode := k.zmlmode &&& ~~~1#64 }
      .next ((s.modSlot c s.mySlot fun l => { l with prod := [] }).retire)
    | 1 =>
      let s := s.modMe fun k => { k with zmlmode := k.zmlmode ||| 1#64, zmlptr := k.zmlbase, zmlcast := emptyCast }
      .next ((s.modSlot c s.mySlot fun l => { l with prod := [], demoted := 0, appended := 0, castDone := none }).retire)
    | 2 => if s.me.en then s.tryMark { instr := .mould rs1, len := 4 } else .next s.retire
    | _ => .next s.retire

def execMstat (rd : Reg) (s : State) : Out :=
  s.begin (.mstat rd) [rd] <|
    let l := s.slot s.cur s.mySlot
    s.result rd (BitVec.ofNat 64 (b2n s.me.en * 2 ^ 63 + l.demoted.toNat * 2 ^ 32 + l.appended.toNat))

/-! ## CAST (R306, R319) -/

def isCast (e : TqEntry) : Bool := e.zt.toNat % 128 == 0x5B

/-- The CAST that a slot already has in tq, kept there by a halt (R319). -/
def State.castInTq (s : State) (c n : Nat) : Option TqEntry :=
  ((s.busyOf c n).toList ++ (s.slot c n).tq).find? isCast

/-- CAST enters tq and waits until it ends; the wait's `n` is its issue number plus 1, its `b` the status word once it
has ended. One that is executed again after a halt takes up the CAST that was kept, or the status it has left (R319). -/
def State.tryCast (s : State) (rd : Reg) (w : Waiting) : Out :=
  let c := s.cur
  let n := s.mySlot
  if w.b ≠ 0 then s.result rd (w.b &&& 0xFFFF#64)
  else if w.n ≠ 0 then s.waitOn w
  else
    match (s.slot c n).castDone with
    | some v => (s.modSlot c n fun l => { l with castDone := none }).result rd v
    | none =>
      s.claiming w fun s =>
        let l := s.slot c n
        match s.castInTq c n with
        | some e => s.waitOn { w with n := e.seq + 1 }
        | none =>
          if 64 ≤ l.tq.length ∨ l.tqDead.isSome then s.waitOn w
          else (s.enterTq n (s.bitsOf w.instr) w.a none).waitOn { w with n := l.nseq + 1 }

def execCast (rd rs1 : Reg) (s : State) : Out :=
  s.begin (.cast rd rs1) [rd, rs1] <| s.tryCast rd { instr := .cast rd rs1, len := 4, a := s.getX rs1 }

/-! ## Reading for a cast (R313, R317) -/

/-- Why an entry stops CAST: BADLOG, or a translation kind (0xFF for poison). -/
inductive CastStop where
  | bad
  | fault (kind : Nat)
deriving DecidableEq, Repr

abbrev Cast (α : Type) := Except CastStop α

def State.castRead (s : State) (c n va len : Nat) : Cast (List Byte) :=
  match s.vaRead c n va len with
  | .ok b => .ok b
  | .error k => .error (.fault k)

/-- A target cell or slot is read and will be written. -/
def State.castTarget (s : State) (c n va len : Nat) : Cast (List Byte) :=
  match s.vaPieces c n .rmw va len with
  | .ok l => if s.poisPieces l then .error (.fault 0xFF) else .ok (s.readPieces l)
  | .error (k, _) => .error (.fault k)

/-- A producer that a bearing operand names: its address and header, checked as R313 states. -/
def State.castProducer (s : State) (c n idx flag : Nat) : Cast (Option (Nat × LogHeader)) :=
  if flag = 0 ∨ idx = noIdx then .ok none
  else
    let va := (s.ctl c).zmlbase.toNat + 64 * idx
    match s.castRead c n va 64 with
    | .error e => .error e
    | .ok b =>
      let h := headerFrom b
      if !headerGood b || h.mark || !h.pg || (flag == 2 && !recomputable b) then .error .bad else .ok (some (va, h))

/-! ## Recompute (R309, R317 step 2) -/

/-- A run of free bytes, for what an operation leaves unchanged in a buffer whose contents are not carried (log
entry 7). -/
def freeBytes (base n : Nat) : List Byte := (upFrom base n).map fun i => (Config.freeWord i).truncate 8

/-- The payloads of an entry, by part. -/
structure Parts where
  a : List Byte := []
  b : List Byte := []
  x : List Byte := []
  l : List Byte := []
deriving DecidableEq, Repr

/-- The producer's operation on the producer's payloads: registers 0 and 1 hold A and B, register 2 receives the
result; `hdr` is the header of a tile register destination. The bytes of the destination, and the flags raised. -/
def State.recompute (s : State) (c n : Nat) (h : LogHeader) (p : Parts) (hdr : Nat) : List Byte × Flags :=
  let z := ztOf h.zt
  let dest := (rolesOf h.zt).dest
  let els (r : Nat) (b : List Byte) (t : Tab W32) : Tab W32 :=
    (upFrom 0 1024).foldl (fun t e => Tab.put 0 t (1024 * r + e) (BitVec.ofNat 32 (fld b (4 * e) 4))) t
  let onTile := z.sb
  let unit : TileUnit :=
    { owner := some n, tm := Tab.putBytes (if onTile then Tab.putBytes [] 0 p.a else []) 12288 (freeBytes (s.free + 4096) 6144),
      acc := if onTile then [] else els 1 p.b (els 0 p.a []),
      lut := (upFrom 0 16).foldl (fun t e => Tab.put 0 t (16 * hCb h.hdra + e) (BitVec.ofNat 16 (fld p.l (2 * e) 2))) [],
      hdr := Tab.put 0 (Tab.put 0 [] 0 (BitVec.ofNat 64 h.hdra)) 2 (BitVec.ofNat 64 hdr) }
  let t := ({ s with poison := [] } : State).modTile c fun _ => unit
  -- a vector payload takes the place of the window's first bytes
  let t := if h.px then t.spadWrite c ((t.core c).spadAddr n 0) p.x else t
  let zt := z.top * 2 ^ 27 + 2 ^ 21 + 2 * 2 ^ 18 + z.fl * 2 ^ 8 + b2n z.sb * 2 ^ 7 + 0x2B
  let arg := if h.px then 0 else h.aux
  let u := match t.tileRun c n zt arg with
    | .ok w => (t.tileWrite c n w).tile c
    | _ => t.tile c
  match dest with
  | .reg m => (u.regBytes (if m < 8 then .reg 2 else .reg 10), u.flags)
  | _ => ([], 0)

/-! ## The adjoints (Table 15-7) -/

/-- The reals of an operand's payload: 32 rows; the first 96 elements of a tile register row. -/
def payloadReals (o : Role) (hdr : Nat) (lut b : List Byte) : List (List Num) :=
  match o with
  | .reg m =>
    if m < 8 then
      (upFrom 0 32).map fun i =>
        let row := (b.drop (192 * i)).take 192
        (upFrom 0 96).map fun k => elReal (hFmt hdr) (fun e => fld lut (2 * e) 2) (rowEl (hFmt hdr) row k)
    else (upFrom 0 32).map fun i => let row := (b.drop (128 * i)).take 128; (upFrom 0 32).map fun k => f32Bits (fld row (4 * k) 4)
  | _ => []

/-- The rows of a gradient cell with a row stride. -/
def cellReals (stride cols : Nat) (b : List Byte) : List (List Num) :=
  (upFrom 0 32).map fun i =>
    let row := (b.drop (stride * i)).take stride
    (upFrom 0 cols).map fun k => f32Bits (fld row (4 * k) 4)

def at2 (m : List (List Num)) (i k : Nat) : Num := (m.getD i []).getD k (.fin false 0 0)

/-- A term: the exact sum of products, negated where the adjoint subtracts, rounded once (R265). -/
def term (neg : Bool) (ts : List NumV) : Nat × Flags :=
  let x := exactSum (ts.map Prod.fst)
  roundV .f32 .rne (if neg then x.1.neg else x.1, x.2 || ts.any Prod.snd)

/-- One addition: row, element, and the rounded term. -/
abbrev Adds := List (Nat × Nat × (Nat × Flags))

def gridAdds (rows cols : Nat) (f : Nat → Nat → Nat × Flags) : Adds :=
  (upFrom 0 rows).flatMap fun i => (upFrom 0 cols).map fun k => (i, k, f i k)

/-- K of a recorded header, at most the 96 elements a gradient row holds. -/
def keOf (h : Nat) : Nat := min (hK h) 96

/-- sign(a - b) of Table 15-7. -/
def signNum (d : Num) : Num :=
  match d with
  | .nan => .nan
  | .inf n => .fin n 1 0
  | .fin n m _ => if m = 0 then .fin false 0 0 else .fin n 1 0

/-- The distance gradient of one pair: dA's term, or with `side` dB's. -/
def distGrad (metric : Nat) (a b h : Num) (side : Bool) : NumV :=
  if metric = 2 then
    let p := (if side then a else b).mul h
    (p.1.neg, p.2)
  else
    let d := a.sub b
    let w := if metric = 1 then (Num.fin false 2 0).mul d.1 else (signNum d.1, false)
    let p := w.1.mul h
    (if side then p.1.neg else p.1, d.2 || w.2 || p.2)

structure CastOperands where
  h : LogHeader
  g : List (List Num)
  a : List (List Num)
  b : List (List Num)
  x : List Byte
  free : Nat
deriving DecidableEq, Repr

/-- The dense B of TMMS: row j as (dense position, stored element, value). -/
def CastOperands.sparse (o : CastOperands) (j : Nat) : List (Nat × Nat × Num) :=
  let nn := tmmsN (ztOf o.h.zt).fl
  let gr := hK o.h.hdrb / nn
  let pos := (upFrom 0 gr).flatMap fun q => (maskBits (leNat ((o.x.drop (16 * (gr * j + q))).take 16))).map fun p => 128 * q + p
  (pos.zip (upFrom 0 pos.length)).map fun (p, k) => (p, k, at2 o.b j k)

def CastOperands.dense (o : CastOperands) : Nat := 128 * (hK o.h.hdrb / tmmsN (ztOf o.h.zt).fl)

/-- The result row i of a merging TDIST: the column its winner names, none outside the pass's 32. -/
def CastOperands.winner (o : CastOperands) (i : Nat) : Option Nat :=
  let n := fld o.x (8 * i + 4) 4
  let base := o.h.aux % 2 ^ 32
  if base ≤ n ∧ n ≤ base + 31 then some (n - base) else none

/-- The merged rows with a winner in the pass: (row, column, h). -/
def CastOperands.hits (o : CastOperands) : List (Nat × Nat × Num) :=
  (upFrom 0 (hNr o.h.hdra)).filterMap fun i => (o.winner i).map fun j => (i, j, at2 o.g i 0)

/-- The selected element of a maximum or minimum; none where the result is NaN. -/
def selected (max : Bool) (xs : List Num) : Option Nat :=
  if xs.any Num.isNan then none
  else
    let above (x y : Num) : Bool := if max then y.lt x || (x.isZero && y.isZero && y.sign && !x.sign)
      else x.lt y || (x.isZero && y.isZero && x.sign && !y.sign)
    some (((upFrom 0 xs.length).foldl (fun b k =>
      if above (xs.getD k .nan) (xs.getD b .nan) then k else b) 0))

def isTileReg : Role → Bool
  | .reg m => decide (m < 8)
  | _ => false

/-- dA of an entry. -/
def CastOperands.gradA (o : CastOperands) : Adds :=
  let z := ztOf o.h.zt
  let r := rolesOf o.h.zt
  let cols := if isTileReg r.a then keOf o.h.hdra else if r.a = .leaf && isTileReg r.dest then 96 else 32
  let plain (i k : Nat) : Nat × Flags := term false [(at2 o.g i k, false)]
  let js := upFrom 0 32
  match z.top with
  | 0 | 1 | 11 | 12 => gridAdds 32 cols plain
  | 5 | 7 => gridAdds 32 cols fun i k => term (bitAt z.fl 0) (js.map fun j => (at2 o.g i j).mul (at2 o.b j k))
  | 6 =>
    let bs := js.map o.sparse
    -- a position the mask does not select has no term (R64)
    gridAdds 32 o.dense fun i k => term (bitAt z.fl 2) (js.filterMap fun j =>
      ((bs.getD j []).find? fun p => p.1 == k).map fun p => (at2 o.g i j).mul p.2.2)
  | 8 =>
    let met := bits z.fl 0 2
    if bits z.fl 2 2 = 0 ∨ bits z.fl 2 2 = 3 then
      o.hits.flatMap fun (i, j, h) => (upFrom 0 cols).map fun k =>
        (i, k, term false [distGrad met (at2 o.a i k) (at2 o.b j k) h false])
    else gridAdds 32 cols fun i k =>
      term false (js.map fun j => distGrad met (at2 o.a i k) (at2 o.b j k) (at2 o.g i j) false)
  | 13 => gridAdds 32 32 fun i k => term false [(at2 o.g i k).mul (at2 o.b i k)]
  | 14 => gridAdds 32 32 fun i k =>
      (actGrad (actOf z.fl) (at2 o.g i k) (at2 o.a i k)).getD ((Config.freeWord (o.free + 32 * i + k)).toNat % 2 ^ 32, 0)
  | 15 => gridAdds 32 32 fun i k =>
      let v := bits z.fl 0 2
      let sc := f32Bits (if v = 0 then o.h.aux % 2 ^ 32 else fld o.x (4 * (if v = 1 then i else k)) 4)
      term false [(at2 o.g i k).mul sc]
  | 16 =>
    let col := bitAt z.fl 0
    let op := bits z.fl 1 2
    let gv (q : Nat) : Num := if col then at2 o.g 0 q else at2 o.g q 0
    if op = 0 then gridAdds 32 32 fun i k => term false [(gv (if col then k else i), false)]
    else (upFrom 0 32).filterMap fun q =>
      (selected (op == 1) ((upFrom 0 32).map fun e => if col then at2 o.a e q else at2 o.a q e)).map fun e =>
        (if col then e else q, if col then q else e, term false [(gv q, false)])
  | 17 =>
    if isTileReg r.a then
      let e0 := o.h.aux % 512
      (upFrom 0 32).flatMap fun j => (upFrom 0 32).filterMap fun i =>
        if e0 + i < cols then some (j, e0 + i, term false [(at2 o.g i (e0 + j), false)]) else none
    else gridAdds 32 32 fun j i => term false [(at2 o.g i j, false)]
  | _ => []

/-- dB of an entry. -/
def CastOperands.gradB (o : CastOperands) : Adds :=
  let z := ztOf o.h.zt
  let cols := keOf o.h.hdrb
  let is := upFrom 0 32
  match z.top with
  | 12 => gridAdds 32 32 fun i k => term false [(at2 o.g i k, false)]
  | 5 | 7 => gridAdds 32 cols fun j k => term (bitAt z.fl 0) (is.map fun i => (at2 o.g i j).mul (at2 o.a i k))
  | 6 =>
    (upFrom 0 32).flatMap fun j => (o.sparse j).filterMap fun (p, k, _) =>
      if k < cols then some (j, k, term (bitAt z.fl 2) (is.map fun i => (at2 o.g i j).mul (at2 o.a i p))) else none
  | 8 =>
    let met := bits z.fl 0 2
    if bits z.fl 2 2 = 0 ∨ bits z.fl 2 2 = 3 then
      -- the rows that share a winner make one sum (R317)
      (upFrom 0 32).flatMap fun j =>
        let rows := o.hits.filter fun x => x.2.1 == j
        if rows.isEmpty then [] else (upFrom 0 cols).map fun k =>
          (j, k, term false (rows.map fun (i, _, h) => distGrad met (at2 o.a i k) (at2 o.b j k) h true))
    else gridAdds 32 cols fun j k =>
      term false (is.map fun i => distGrad met (at2 o.a i k) (at2 o.b j k) (at2 o.g i j) true)
  | 13 => gridAdds 32 32 fun i k => term false [(at2 o.g i k).mul (at2 o.a i k)]
  | _ => []

/-- dC: the incoming accumulator, and the rows of a merging TDIST whose winner another pass found (R318). -/
def CastOperands.gradC (o : CastOperands) : Adds :=
  let z := ztOf o.h.zt
  let plain : Adds := gridAdds 32 32 fun i k => term false [(at2 o.g i k, false)]
  match z.top with
  | 5 | 6 | 7 => plain
  | 8 =>
    if bits z.fl 2 2 = 2 then plain
    else (upFrom 0 (hNr o.h.hdra)).filterMap fun i =>
      if (o.winner i).isNone then some (i, 0, term false [(at2 o.g i 0, false)]) else none
  | _ => []

/-- dP: the partner of a closing TDIST (R318). -/
def CastOperands.gradP (o : CastOperands) : Adds :=
  if (ztOf o.h.zt).top = 8 then o.hits.map fun (i, j, h) => (i, j, term false [(h, false)]) else []

/-! ## Adding into the targets -/

/-- The 4-byte words read so far, by address. -/
abbrev Overlay := Tab Nat

def overlayOf (va : Nat) (b : List Byte) (m : Overlay) : Overlay :=
  (upFrom 0 (b.length / 4)).foldl (fun m i => Tab.set m (va + 4 * i) (fld (b.drop (4 * i)) 0 4)) m

/-- Add terms into a target at `va` with a row stride. -/
def addAll (va stride : Nat) (l : Adds) (m : Overlay × Flags) : Overlay × Flags :=
  l.foldl (fun (m, g) (i, k, v, f) =>
    let a := va + stride * i + 4 * k
    let (y, f') := roundV .f32 .rne ((f32Bits (Tab.get 0 m a)).add (f32Bits v))
    (Tab.set m a y, g ||| f ||| f')) m

/-- Where an operand's gradient goes: address, bytes, row stride. -/
structure CastPlace where
  va : Nat
  len : Nat
  stride : Nat
deriving DecidableEq, Repr

def placeOf (prod : Option (Nat × LogHeader)) (bears : Bool) (slot : Nat) (stride : Nat) : Option CastPlace :=
  if !bears then none
  else match prod with
    | some (va, h) => some ⟨va + h.offG, 32 * stride, stride⟩
    | none => if slot = 0 then none else some ⟨slot, 32 * stride, stride⟩

def strideOf : Role → Nat
  | .reg m => if m < 8 then 384 else 128
  | _ => 384

/-- Read every target in order into the overlay. -/
def State.castTargets (s : State) (c n : Nat) : List CastPlace → Overlay → Cast Overlay
  | [], m => .ok m
  | p :: ps, m =>
    match s.castTarget c n p.va p.len with
    | .error e => .error e
    | .ok b => State.castTargets s c n ps (overlayOf p.va b m)

/-- Write every target back. -/
def State.castWrites (s : State) (c n : Nat) (m : Overlay) (ps : List CastPlace) : State :=
  ps.foldl (fun s p =>
    (s.vaWrite c n p.va ((upFrom 0 (p.len / 4)).flatMap fun i => toLE 4 (Tab.get 0 m (p.va + 4 * i)))).getD s) s

/-- The payloads of an entry that a cast reads. -/
def partsOf (s : State) (c n va : Nat) (h : LogHeader) (needA needB : Bool) : Cast Parts :=
  let rd (on : Bool) (off len : Nat) : Cast (List Byte) := if on then s.castRead c n (va + off) len else .ok []
  match rd (h.pa && needA) h.offA (paBytes h.zt), rd (h.pb && needB) h.offB (roleBytes (rolesOf h.zt).b),
      rd h.px h.offX (rolesOf h.zt).px, rd h.pl h.offL 64 with
  | .ok a, .ok b, .ok x, .ok l => .ok ⟨a, b, x, l⟩
  | .error e, _, _, _ => .error e
  | _, .error e, _, _ => .error e
  | _, _, .error e, _ => .error e
  | _, _, _, .error e => .error e

/-- The ranges that `partsOf` reads. -/
def partSpans (va : Nat) (h : LogHeader) (needA needB : Bool) : List (Nat × Nat) :=
  [(h.pa && needA, h.offA, paBytes h.zt), (h.pb && needB, h.offB, roleBytes (rolesOf h.zt).b), (h.px, h.offX, (rolesOf h.zt).px),
    (h.pl, h.offL, 64)].filterMap fun (on, off, len) => if on then some (va + off, len) else none

/-- An operand flagged 10: the producer's parts are read, its operation is executed, raising its flags, and the result goes
to RBUF at `off`; the state with RBUF written, and the value. -/
def State.castRecompute (s : State) (c n : Nat) (prod : Option (Nat × LogHeader)) (flag off hdr : Nat) :
    Cast (State × Option (List Byte)) :=
  match flag, prod with
  | 2, some (va, h) =>
    match partsOf s c n va h true true with
    | .error e => .error e
    | .ok p =>
      let (v, g) := s.recompute c n h p hdr
      let rbuf := bits (s.ctl c).zmlmode.toNat 38 15 * 64
      let s := s.chargeReads c n (partSpans va h true true)
      .ok ((s.spadWrite c ((s.core c).spadAddr n (rbuf + off)) v).modTile c fun t => t.raise (g &&& 3), some v)
  | _, _ => .ok (s, none)

/-- The flags of an entry's operands A, B, C and P (R308); of P, whether it is linked. -/
def LogHeader.flags (h : LogHeader) : Nat × Nat × Nat × Nat :=
  let r := rolesOf h.zt
  (if r.a = .absent then 0 else h.fa, if r.b = .absent then 0 else h.fb, if r.c = .absent then 0 else h.fc,
    if r.p = .absent ∨ h.prp = noIdx then 0 else 1)

/-- Whether the adjoint of an entry reads the values of A, and those of B. -/
def LogHeader.needs (h : LogHeader) : Bool × Bool :=
  let (fa, fb, _, _) := h.flags
  match (rolesOf h.zt).reads with
  | .nothing => (false, false)
  | .cross => (fb != 0, fa != 0)
  | .both => (fa != 0 || fb != 0, fa != 0 || fb != 0)
  | .first => (fa != 0, false)

/-- The gradient an entry at `va` starts from: of its cell, or of TST's slot B. -/
def LogHeader.gRole (h : LogHeader) : Role := if (ztOf h.zt).top = 1 then .leaf else (rolesOf h.zt).dest
def LogHeader.gSpan (h : LogHeader) (va : Nat) : Nat × Nat :=
  (if (ztOf h.zt).top = 1 then h.sb else va + h.offG, 32 * strideOf h.gRole)

/-- The ranges that cast_entry reads of an entry at `va` before its targets: g, the payloads, and the headers of the producers
of the operands that bear a gradient. -/
def State.castSpans (s : State) (c va : Nat) (h : LogHeader) : List (Nat × Nat) :=
  let (fa, fb, fc, fp) := h.flags
  if fa = 0 ∧ fb = 0 ∧ fc = 0 ∧ fp = 0 then []
  else
    h.gSpan va :: partSpans va h h.needs.1 h.needs.2
      ++ ([(fa, h.pra), (fb, h.prb), (fc, h.prc), (fp, h.prp)].filterMap fun (f, i) =>
        if f = 0 ∨ i = noIdx then none else some ((s.ctl c).zmlbase.toNat + 64 * i, 64))

/-- cast_entry of R317. R317 gives no order among the reads of its first step; DESIGN CHOICE (log entry 90): g and the
payloads are read first, then the producers A, B, C, P, each checked as its header is read, then the targets, and what fails
first gives the status, FAULT or BADLOG. -/
def State.castEntry (s : State) (c n va : Nat) (h : LogHeader) : Cast State :=
  let z := ztOf h.zt
  let r := rolesOf h.zt
  let (fa, fb, fc, fp) := h.flags
  if fa = 0 ∧ fb = 0 ∧ fc = 0 ∧ fp = 0 then .ok s
  else
    let (needA, needB) := h.needs
    let gRole := h.gRole
    let sA := if z.top = 6 then 512 * (hK h.hdrb / tmmsN z.fl) else if z.top = 0 then strideOf r.dest else strideOf r.a
    match s.castRead c n (h.gSpan va).1 (h.gSpan va).2, partsOf s c n va h needA needB,
        s.castProducer c n h.pra fa, s.castProducer c n h.prb fb, s.castProducer c n h.prc fc, s.castProducer c n h.prp fp with
    | .ok gb, .ok p, .ok qa, .ok qb, .ok qc, .ok qp =>
      let pA := placeOf qa (fa != 0) h.sa sA
      let pB := placeOf qb (fb != 0) (if z.top = 1 then 0 else h.sb) (strideOf r.b)
      let pC := placeOf qc (fc != 0) 0 128
      let pP := placeOf qp (fp != 0) 0 128
      let places := pA.toList ++ pB.toList ++ pC.toList ++ pP.toList
      match s.castTargets c n places [] with
      | .error e => .error e
      | .ok m =>
        let s := s.chargeReads c n (s.castSpans c va h ++ places.map fun p => (p.va, p.len))
        match s.castRecompute c n qa fa 0 h.hdra with
        | .error e => .error e
        | .ok (s, ra) =>
          match ({ s with free := s.free + 16384 } : State).castRecompute c n qb fb 6144 h.hdrb with
          | .error e => .error e
          | .ok (s, rb) =>
            match ({ s with free := s.free + 16384 } : State).castRecompute c n qc fc 12288 0 with
            | .error e => .error e
            | .ok (s, _) =>
              let s := { s with free := s.free + 16384 }
              let av := if z.top = 6 then
                  -- the whole group, dense
                  let per := capOf (hFmt h.hdra)
                  (upFrom 0 32).map fun i => (upFrom 0 (tmmsR z.fl)).flatMap fun q =>
                    let row := (p.a.drop (6144 * q + 192 * i)).take 192
                    (upFrom 0 per).map fun k => elReal (hFmt h.hdra) (fun e => fld p.l (2 * e) 2) (rowEl (hFmt h.hdra) row k)
                else payloadReals r.a h.hdra (p.l.take 32) (ra.getD p.a)
              let o : CastOperands :=
                { h := h, g := cellReals (strideOf gRole) (strideOf gRole / 4) gb, a := av,
                  b := payloadReals r.b h.hdrb (p.l.drop 32) (rb.getD p.b), x := p.x, free := s.free }
              let s := { s with free := s.free + 1024 }
              let run (pl : Option CastPlace) (l : Adds) (x : Overlay × Flags) : Overlay × Flags :=
                match pl with
                | some q => addAll q.va q.stride l x
                | none => x
              let (m, g) := run pP o.gradP (run pC o.gradC (run pB o.gradB (run pA o.gradA (m, 0))))
              .ok ((s.castWrites c n m places).modTile c fun t => t.raise (g &&& 3))
    | .error e, _, _, _, _, _ => .error e
    | _, .error e, _, _, _, _ => .error e
    | _, _, .error e, _, _, _ => .error e
    | _, _, _, .error e, _, _ => .error e
    | _, _, _, _, .error e, _ => .error e
    | _, _, _, _, _, .error e => .error e

/-! ## CAST_ENTRY (R316) -/

/-- The instruction that waits is a CAST whose entry stands in tq. -/
def Ctl.inCast (k : Ctl) : Bool := k.wait.any fun w => w.n != 0 && match w.instr with
  | .cast .. => true
  | _ => false

/-- CAST ends with a status of Table 19-5: its tq entry is done and the waiting instruction learns its status; where it has
still to be executed again, the slot keeps the status for it (R319). -/
def State.castEnd (s : State) (c n code kind : Nat) : State :=
  let v := BitVec.ofNat 64 (kind * 256 + code)
  let s := s.modTile c fun t => { t with busy := none }
  let s := if (s.ctl c).inCast then
      s.modCtl c fun k => { k with wait := k.wait.map fun w => { w with b := v ||| (1#64 <<< 63) } }
    else s.modSlot c n fun l => { l with castDone := some v }
  s.tidyFences c n

/-- CAST ends with FAULT: poison that it has consumed in an entry at `a`, or a walk for it, is recorded (R96). -/
def State.castFault (s : State) (c n a kind : Nat) : State :=
  (if kind = 0xFF ∨ kind = Kind.poison then s.tracePois c a else s).castEnd c n 5 kind

/-- One round of the loop of R316, with the tq entry `e` of the CAST. -/
def State.castStep (s : State) (c n : Nat) (e : TqEntry) : State :=
  let k := s.ctl c
  if !e.begun && k.en then s.castEnd c n 2 0
  else if !e.begun && k.zmlcast.getLsbD 63 then s.castEnd c n 6 0
  else if !e.begun && decide ((s.core c).winBytes n < bits k.zmlmode.toNat 38 15 * 64 + 18432) then s.castEnd c n 4 0
  else
    let a := slotAddr k.zmlcast
    let on (s : State) (h : LogHeader) : State :=
      if h.back = 0 then (s.modCtl c fun k => { k with zmlcast := emptyCast }).castEnd c n 0 0
      else
        (s.modCtl c fun k => { k with zmlcast := BitVec.ofNat 64 (slotAddr (BitVec.ofNat 64 a - BitVec.ofNat 64 (64 * h.back))) }).modTile c
          fun t => { t with busy := some { e with begun := true } }
    let got := s.castRead c n a 64
    let s := s.chargeReads c n [(a, 64)]
    match got with
    | .error .bad => s.castEnd c n 3 0
    | .error (.fault kind) => s.castFault c n a kind
    | .ok b =>
      let h := headerFrom b
      if !headerGood b then s.castEnd c n 3 0
      else if h.mark then (if e.arg.getLsbD 0 && e.begun then s.castEnd c n 1 0 else on s h)
      else
        match s.castEntry c n a h with
        | .error .bad => (s.chargeReads c n (s.castSpans c a h)).castEnd c n 3 0
        | .error (.fault kind) => (s.chargeReads c n (s.castSpans c a h)).castFault c n a kind
        | .ok s => on s h

def execCastEntry (core : Nat) (s : State) : Out :=
  s.onCore core <|
    let t := s.tile core
    match t.owner, t.busy with
    | some n, some e => if isCast e && (s.core core).active n then .next (s.castStep core n e) else .next s
    | _, _ => .next s

end Sys2Proof.Machine
end

