-- ==== Sys2Proof/Machine/Tasks.lean ====
section
/-! DEFINITION. The task instructions TEND, TYIELD, THAND, TSLOT, BUDQ (R178 to R183). -/

namespace Sys2Proof.Machine

/-- The running slot is asked to halt: a running region it owns halts at its next boundary (R353, R155). -/
def State.haltRegionOf (s : State) (c n : Nat) : State :=
  s.modRegion c fun r => if r.owner = some n ∧ r.st = .running then { r with haltReq := true } else r

/-- Every queue of a slot is empty, its tile entry in progress is done, and no tq entry has failed with its trap still to
be taken (R178, R238). -/
def State.queuesEmpty (s : State) (c n : Nat) : Bool :=
  let l := s.slot c n
  l.tq.isEmpty && l.tqDead.isNone && (l.queues.all fun q => q.2.isEmpty)
    && !((s.tile c).owner == some n && (s.tile c).busy.isSome)

/-- A stream of a slot waits for the answer to a page request (R384). -/
def State.portsPaused (s : State) (c n : Nat) : Bool :=
  (s.core c).ports.any fun (_, p) => p.stream.any fun t => t.bind.slot == n && t.pause.isSome

def State.regionRuns (s : State) (c n : Nat) : Bool :=
  (s.region c).owner == some n && (s.region c).st == .running

/-- TEND's condition and effect. With no slot running there is no task to end (log entry 13). -/
def State.tryTend (s : State) (w : Waiting) : Out :=
  match (s.core s.cur).running with
  | none => .next s.retire
  | some n =>
    if s.queuesEmpty s.cur n && !s.regionRuns s.cur n && !s.portsPaused s.cur n then
      .next (s.countInstr.retireTask s.cur n (w.a.toNat % 0x10000) false)
    else s.waitOn w

def execTend (rs1 : Reg) (s : State) : Out :=
  s.begin (.tend rs1) [rs1] <| s.tryTend { instr := .tend rs1, len := 4, a := s.getX rs1 }

/-- TYIELD asks for the halt and waits for CORE_STOP (R179). -/
def execTyield (s : State) : Out :=
  s.begin .tyield [] <|
    match (s.core s.cur).running with
    | none => .next s.retire
    | some n =>
      ((s.modSlot s.cur n fun l => { l with yielding := true }).haltRegionOf s.cur n).waitOn { instr := .tyield, len := 4 }

/-- A nonzero handle whose value is free (R180; log entry 7). -/
def State.newHandle (s : State) : Word := if s.freeVal = 0 then 1 else s.freeVal

def execThand (rd rs1 : Reg) (s : State) : Out :=
  s.begin (.thand rd rs1) [rd, rs1] <|
    let v := (s.getX rs1).toNat
    let b := bits v 0 5
    let n := bits v 8 5
    match (s.core s.cur).running, s.runTask s.cur with
    | some k, some t =>
      let (base, size) := (s.core s.cur).win k
      let mine := s.handles.filter fun h => h.core == s.cur && h.slot == k && !h.handed
      if n = 0 ∨ size < b + n ∨ 4 ≤ mine.length then s.result rd 0
      else
        let h : Handle := { handle := s.newHandle, vi := t.vi, q := t.q, card := t.card, core := s.cur, slot := k,
                            base := base + b, count := n }
        ({ s.takeFree with handles := s.handles ++ [h] }).result rd s.newHandle
    | _, _ => s.result rd 0

def execTslot (rd : Reg) (s : State) : Out :=
  s.begin (.tslot rd) [rd] <| s.result rd ((s.runTask s.cur).elim 0 s.handleOf)

def allOnes : Word := BitVec.allOnes 64

/-- A budget that is left, all ones where the descriptor makes it unlimited (R183). -/
def leftOf (limit : Nat) (left : Int) : Word := if limit = 0 then allOnes else BitVec.ofNat 64 left.toNat

/-- The items of BUDQ (R183); all ones for an unlisted selector, or with no task (log entry 13). -/
def State.budgetItem (s : State) (sel : Nat) : Word :=
  match s.runTask s.cur with
  | none => allOnes
  | some t =>
    match s.queue t.vi t.q with
    | none => allOnes
    | some k =>
      match sel with
      | 0 => leftOf k.bcyc k.cyc
      | 1 => leftOf k.bpas k.pas
      | 2 => leftOf k.bhbm k.hbm
      | 3 => BitVec.ofNat 64 (k.per - s.cycles % k.per)
      | 4 => BitVec.ofNat 64 k.per
      | 5 => BitVec.ofNat 64 t.ucyc
      | _ => allOnes

def execBudq (rd rs1 : Reg) (s : State) : Out :=
  s.begin (.budq rd rs1) [rd, rs1] <| s.result rd (s.budgetItem (s.getX rs1).toNat)

end Sys2Proof.Machine
end

