-- ==== Sys2Proof/Machine/Sched.lean ====
section
/-! DEFINITION. The line of a core (R339), pre-emption requests (R353), period boundaries and budgets (R338, R342, R343,
R380). -/

namespace Sys2Proof.Machine

/-- Act as the control core of `c`, and then let the core that steps next be what it was. -/
def State.onCur (s : State) (c : Nat) (k : State → Out) : Out :=
  match k { s with cur := c } with
  | .next t => .next { t with cur := s.cur }
  | o => o

/-! ## The line -/

/-- A slot is ready: it holds a started task that is neither parked nor held (R339), and no CTXCMD works on it. -/
def State.slotReady (s : State) (c n : Nat) : Bool :=
  let l := s.slot c n
  !l.held && !(s.core c).ctxBusy.any (fun o => o.cmd != 1 && o.slot == n) && match l.task with
    | none => false
    | some t => t.started && !(s.queue t.vi t.q).any Queue.parked

/-- The priority of the task of a slot. -/
def State.slotPri (s : State) (c n : Nat) : Nat :=
  match (s.slot c n).task with
  | some t => s.priOf t.vi t.q
  | none => 0

/-- Slot `a` stands before slot `b` in the line: priority, then the cycle in which it became ready, then its number
(R339). -/
def State.standsBefore (s : State) (c a b : Nat) : Bool :=
  let p := s.slotPri c a
  let q := s.slotPri c b
  let x := (s.slot c a).since
  let y := (s.slot c b).since
  decide (q < p) || (p == q && (decide (x < y) || (x == y && decide (a < b))))

/-- The ready slots that are not running. -/
def State.line (s : State) (c : Nat) : List Nat :=
  (upFrom 0 8).filter fun n => s.slotReady c n && (s.core c).running != some n

/-- The first slot of the line. -/
def State.lineHead (s : State) (c : Nat) : Option Nat :=
  (s.line c).foldl (fun h n => match h with
    | none => some n
    | some m => if s.standsBefore c n m then some n else some m) none

/-! ## Pre-emption requests -/

/-- Ask a slot to halt: its region at a boundary, its control core at an instruction boundary (R353). -/
def State.requestHalt (s : State) (c n : Nat) : State :=
  (s.modSlot c n fun l => { l with haltReq := true }).haltRegionOf c n

/-- The running slot must give way: a slot of higher priority stands in the line, or its queue is parked. -/
def State.mustYield (s : State) (c n : Nat) : Bool :=
  (s.line c).any (fun m => decide (s.slotPri c n < s.slotPri c m))
    || match (s.slot c n).task with
      | some t => (s.queue t.vi t.q).any Queue.parked
      | none => false

/-- PREEMPT_REQUEST. -/
def execPreemptRequest (core slot : Nat) (s : State) : Out :=
  s.onCore core <|
    if (s.core core).running = some slot ∧ s.mustYield core slot then .next (s.requestHalt core slot) else .next s

/-- SLICE_EXPIRY: SLICE cycles have run since the dispatch and the line is not empty (R339). -/
def execSliceExpiry (core : Nat) (s : State) : Out :=
  s.onCore core <|
    match (s.core core).running, s.runTask core with
    | some n, some t =>
      let slice := (s.queue t.vi t.q).elim 0 Queue.slice
      if slice ≤ (s.core core).sliceUsed ∧ s.line core ≠ [] then .next (s.requestHalt core n) else .next s
    | _, _ => .next s

/-! ## Budgets of a queue (R342) -/

/-- Every placed slot of a queue: (core, slot). -/
def State.slotsOf (s : State) (vi q : Nat) : List (Nat × Nat) :=
  s.cores.flatMap fun (c, k) => k.slots.filterMap fun (n, l) =>
    if l.task.any fun t => t.vi == vi && t.q == q then some (c, n) else none

/-- Budget `which` of a queue is limited and used up: 0 cycles, 1 passes, 2 HBM bytes. -/
def Queue.spent (k : Queue) (which : Nat) : Bool :=
  match which with
  | 0 => k.bcyc != 0 && decide (k.cyc ≤ 0)
  | 1 => k.bpas != 0 && decide (k.pas ≤ 0)
  | 2 => k.bhbm != 0 && decide (k.hbm ≤ 0)
  | _ => false

def Queue.marked (k : Queue) (which : Nat) : Bool :=
  match which with
  | 0 => k.xc
  | 1 => k.xp
  | _ => k.xb

/-- The queue with budget `which` marked as used up: it is parked. -/
def Queue.park (k : Queue) (which : Nat) : Queue :=
  { k with xc := k.xc || which == 0, xp := k.xp || which == 1, xb := k.xb || which == 2, parked := true }

/-- A slot of a queue that parks: the event, and for a running slot the halt and the pending cause 30 (R342, R346). -/
def State.parkSlot (s : State) (q which c n : Nat) : State :=
  let s := s.post c n Event.budget which
  if (s.core c).running = some n then
    let add (l : Slot) : Slot :=
      if l.pend.any fun p => p.cause == 30 then l
      else { l with pend := l.pend ++ [⟨30, BitVec.ofNat 64 (which + q % 2 ^ 12 * 2 ^ 32)⟩] }
    (s.modSlot c n add).requestHalt c n
  else s

/-- BUDGET_EXHAUSTED. -/
def execBudgetExhausted (vi q which : Nat) (s : State) : Out :=
  match s.queue vi q with
  | none => .next s
  | some k =>
    s.onDie k.die <|
    if k.spent which && !k.marked which then
      .next ((s.slotsOf vi q).foldl (fun s (c, n) => s.parkSlot q which c n) (s.modQueue vi q fun k => k.park which))
    else .next s

/-- The queue at a boundary that falls at package cycle `now`: the budgets refilled less the excess (R342). -/
def Queue.refill (k : Queue) (now : Nat) : Queue :=
  { k with cyc := (k.bcyc : Int) + min k.cyc 0, pas := (k.bpas : Int) + min k.pas 0, hbm := (k.bhbm : Int) + min k.hbm 0,
           xc := false, xp := false, xb := false, parked := false, perAt := now }

/-- A task at a period boundary of its queue: one more boundary passed, its cycles already subtracted from DC. -/
def Task.period (t : Task) : Task := { t with periods := t.periods + 1, dcyc := 0 }

/-- The cycles of a queue's tasks that DC has not been charged with yet (R338). -/
def State.unchargedOf (s : State) (vi q : Nat) : Nat :=
  let of (t : Task) : Nat := if t.vi = vi ∧ t.q = q then t.dcyc else 0
  (s.slotsOf vi q).foldl (fun m (c, n) => m + (s.slot c n).task.elim 0 of) 0
    + s.saved.foldl (fun m t => m + of t.task) 0

/-- A period boundary of a queue: its slots that were parked are ready from the cycle of the boundary (R339, R342). -/
def State.queueBoundary (s : State) (vi q : Nat) (k : Queue) (now : Nat) : State :=
  let n := s.unchargedOf vi q
  let back := if k.parked then (s.slotsOf vi q).filter fun (c, m) =>
      (s.slot c m).task.any Task.started && !(s.slot c m).held && (s.core c).running != some m
    else []
  let s := s.modQueue vi q fun k => { k.refill now with dc := k.dc - n }
  let s := (s.slotsOf vi q).foldl (fun s (c, m) => s.setTask c m Task.period) s
  let s := { s with saved := s.saved.map fun t => if t.task.vi = vi ∧ t.task.q = q then { t with task := { t.task with dcyc := 0 } } else t }
  back.foldl (fun s (c, m) => s.readyFrom now c m) s

/-! ## Budgets of the other activities (R343, R380) -/

/-- The entry of an interface in a die's activity table: PER and the three budgets. -/
def State.activityEntry (s : State) (d vi : Nat) : Option (Nat × Nat × Nat × Nat) :=
  (s.devRead 0 d ((s.die d).abtd.toNat + 64 * vi) 64).map fun b => (fld b 0 4, fld b 8 8, fld b 0x10 8, fld b 0x18 8)

/-- The period of the activities of an interface, as last read from the table, else as it stands there. -/
def State.activityPeriod (s : State) (d vi : Nat) : Nat :=
  let p := (Tab.get (0, 0, 0, 0) (s.die d).actLim vi).1
  if p ≠ 0 then p else (s.activityEntry d vi).elim 0 Prod.fst

/-- A boundary of the activities of an interface on a die: the table is read, a poisoned entry is
recorded (R96), and what was used counts no more. -/
def State.activityBoundary (s : State) (d vi now : Nat) : State :=
  let e := s.activityEntry d vi
  let s := if e.isNone then s.noteDev 0 d ((s.die d).abtd.toNat + 64 * vi) 64 else s
  s.modDie d fun k =>
    { k with acts := k.acts.filter fun a => a.vi != vi,
             actLim := match e with
               | some x => Tab.set k.actLim vi x
               | none => k.actLim,
             actAt := Tab.set k.actAt vi now }

/-- PERIOD_BOUNDARY: the next multiple of the period after the last one processed has been reached. A queue number of 4096
or more names the activities of the interface on die `q - 4096`. -/
def execPeriodBoundary (vi q : Nat) (s : State) : Out :=
  if q < 4096 then
    match s.queue vi q with
    | none => .next s
    | some k =>
      s.onDie k.die <|
      let now := (k.perAt / k.per + 1) * k.per
      if k.per ≠ 0 ∧ now ≤ s.cycles then .next (s.queueBoundary vi q k now) else .next s
  else if q < 4100 then
    let d := q - 4096
    s.onDie d <|
    let p := s.activityPeriod d vi
    let now := (Tab.get 0 (s.die d).actAt vi / p + 1) * p
    if p ≠ 0 ∧ now ≤ s.cycles then .next (s.activityBoundary d vi now) else .next s
  else .next s

/-- ACTIVITY_BUDGET_EXHAUSTED: an activity that has used its budget is parked. -/
def execActivityBudgetExhausted (die vi kind unit : Nat) (s : State) : Out :=
  s.onDie die <|
    let lim := (s.die die).actLimit kind vi
    .next (s.modDie die fun k =>
      { k with acts := k.acts.map fun a =>
          if a.kind = kind ∧ a.unit = unit ∧ a.vi = vi ∧ lim ≠ 0 ∧ lim ≤ a.used then { a with parked := true } else a })

end Sys2Proof.Machine
end

