-- ==== Sys2Proof/Machine/Stops.lean ====
section
/-! DEFINITION. Halting a slot in place (R353, R346, R360), dispatching one (R359, R361), asynchronous traps (R344, R345,
R238, R315), fault records (R348) and MRET (R163, R346). -/

namespace Sys2Proof.Machine

/-! ## Leaving a wait (R148) -/

/-- A wait that an asynchronous trap or a stop may end: PARTCTL takes none, and a CAST whose status has come completes. -/
def Waiting.mayEnd (w : Waiting) : Bool :=
  match w.instr with
  | .partctl .. => false
  | .cast .. => w.b == 0
  | _ => true

/-- The control core stands at a boundary at which it may stop or trap: no prefix is pending, or it waits in the
instruction that takes the group (R133, R148). -/
def Ctl.mayStop (k : Ctl) : Bool :=
  match k.wait with
  | some w => w.mayEnd
  | none => k.pre.isNone

/-- The running slot has been asked to halt and its control core stands in U mode at a boundary at which it may stop: it
executes nothing more before CORE_STOP or a trap (R353, R148). -/
def State.standsStill (s : State) : Bool :=
  let k := s.core s.cur
  k.mode == .u && k.ctl.mayStop && k.running.any fun n => (k.slot n).haltReq

/-- BARW ends with RCH = 0 and the pc at the next instruction (R167). -/
def State.endBarw (s : State) (rd : Reg) (w : Waiting) : State :=
  (s.setX rd (setBit (s.waitWord (waitBn w.a) (waitTgt w.a)) 49 false)).retire

/-- Any other waiting instruction is executed again: the pc goes to it, or to the first prefix of its group. -/
def State.rewind (s : State) : State := s.modMe fun k => { k with pc := k.epc, pre := none, wait := none }

/-- The CAST of a slot leaves tq: tq stops at the entry boundary it stands at (R319). -/
def State.dropCast (s : State) (c n : Nat) : State :=
  let s := s.modSlot c n fun l => { l with tq := l.tq.filter fun e => !isCast e }
  let s := if (s.busyOf c n).any isCast then s.modTile c fun t => { t with busy := none } else s
  s.tidyFences c n

/-- A CAST in progress goes back to the head of tq, to be saved with the slot (R319). -/
def State.keepCast (s : State) (c n : Nat) : State :=
  match s.busyOf c n with
  | some e =>
    if isCast e then
      (s.modTile c fun t => { t with busy := none }).modSlot c n fun l => { l with tq := e :: l.tq }
    else s
  | none => s

/-- TYIELD is abandoned: the halt it asked for is withdrawn (R179). DESIGN CHOICE (log entry 83): a region that had reached its
boundary already stays HALTED until its slot is next dispatched. -/
def State.unyield (s : State) (c n : Nat) : State :=
  let l := s.slot c n
  let s := s.modSlot c n fun l => { l with yielding := false }
  if l.haltReq then s
  else s.modRegion c fun r => if r.owner = some n ∧ r.asked.isNone then { r with haltReq := false } else r

/-- The wait of the core that steps ends for an asynchronous trap: the state and the address mepc holds. -/
def State.abandon (s : State) : State × Word :=
  match s.me.wait with
  | none => (s, s.me.pc)
  | some w =>
    match w.instr with
    | .barw rd _ => let s := s.endBarw rd w; (s, s.me.pc)
    | .cast .. => (s.dropCast s.cur s.mySlot, s.me.epc)
    | .tyield => (s.unyield s.cur s.mySlot, s.me.epc)
    | _ => (s, s.me.epc)

/-- The wait of the core that steps ends for a stop: TYIELD and BARW complete, the rest are executed again. -/
def State.leaveWait (s : State) : State :=
  match s.me.wait with
  | none => s
  | some w =>
    match w.instr with
    | .tyield => s.retire
    | .barw rd _ => s.endBarw rd w
    | .cast .. => (s.keepCast s.cur s.mySlot).rewind
    | _ => s.rewind

/-! ## Asynchronous causes -/

/-- The order of R345 among the asynchronous causes. -/
def causeOrder : List Nat := [31, 24, 25, 26, 30]

/-- The pending cause that is taken first. -/
def topPending (l : List Pending) : Option Pending := causeOrder.findSome? fun c => l.find? fun p => p.cause == c

/-- The slot whose causes the core takes: the running one; slot 0 for firmware that no slot's task shares it with (log
entry 13). -/
def Core.causeSlot (k : Core) : Option Nat :=
  match k.running with
  | some n => some n
  | none => if (k.slot 0).task.isNone then some 0 else none

/-- What a core takes at a boundary. -/
inductive Async where
  | cause (n : Nat) (p : Pending)
  | interrupt (code : Nat)
deriving DecidableEq, Repr

/-- The first pending cause or enabled interrupt: none in M mode with MIE clear (R345). BUDGET is not taken here: its
halt comes first (R346), and the interrupts stand behind it. -/
def State.asyncNext (s : State) (c : Nat) : Option Async :=
  let k := s.core c
  if k.mode = .m ∧ !k.csr.mstatus.getLsbD mstMie then none
  else
    let top := k.causeSlot.bind fun n => (topPending (k.slot n).pend).map fun p => (n, p)
    match top with
    | some (n, p) => if p.cause = 30 then none else some (.cause n p)
    | none =>
      let on (i : Nat) : Bool := (s.mip c).getLsbD i && k.csr.mie.getLsbD i
      if on 16 then some (.interrupt 16) else if on 17 then some (.interrupt 17) else none

/-- A cause of tq: TILE, or a SOFT_ERROR in the form of R238. -/
def Pending.ofTq (p : Pending) : Bool := p.cause == 26 || (p.cause == 31 && !p.mtval.getLsbD 63)

/-- The trap of a tq fault rolls the log back, and tq accepts entries again (R238, R315). -/
def State.reviveTq (s : State) (c n : Nat) : State :=
  let s := match (s.slot c n).tqDead with
    | some (some g) => s.rollBack c n g
    | _ => s
  s.modSlot c n fun l => { l with tqDead := none }

/-- Take what is pending at the boundary the core that steps stands at. -/
def State.asyncTrap (s : State) : State :=
  let c := s.cur
  if !s.me.mayStop then s
  else
    match s.asyncNext c with
    | none => s
    | some x =>
      let (s, epc) := s.abandon
      match x with
      | .interrupt code => s.takeTrap c true code 0 epc
      | .cause n p =>
        let s := s.modSlot c n fun l => { l with pend := l.pend.erase p }
        let s := if p.ofTq then s.reviveTq c n else s
        s.takeTrap c false p.cause p.mtval epc

/-- The core that steps stands at a boundary at which it takes an asynchronous cause or interrupt. -/
def State.trapsNow (s : State) : Bool := s.me.mayStop && (s.asyncNext s.cur).isSome

/-- ASYNC_TRAP. -/
def execAsyncTrap (core : Nat) (s : State) : Out :=
  s.onCore core <| s.onCur core fun s => .next s.asyncTrap

/-- The first record that can be written, behind the records `seen`, which wait: a slot's records are written in order, and one
that waits while VALID stands keeps no other slot's record waiting (R348). The rest of the queue follows, and the state. -/
def State.firstRecord (s : State) (c : Nat) (seen : List FaultRec) : List FaultRec → Option (FaultRec × List FaultRec × State)
  | [] => none
  | f :: fs =>
    match (if seen.any fun x => x.slot == f.slot then none else s.writeRecord c f.slot f.bytes) with
    | some t => some (f, seen ++ fs, t)
    | none => State.firstRecord s c (seen ++ [f]) fs

/-- FAULT_RECORD: a record is written and its trap becomes pending; both wait while VALID stands at its slot's address (R348). -/
def execFaultRecord (core : Nat) (s : State) : Out :=
  s.onCore core <|
    match s.firstRecord core [] (s.core core).frq with
    | none => .next s
    | some (f, rest, s) =>
      let a := (s.core core).recordAddr f.slot
      let s := s.modCore core fun k => { k with frq := rest }
      .next (s.modSlot core f.slot fun l => { l with pend := l.pend ++ [⟨f.cause, BitVec.ofNat 64 (a + 2 ^ 63)⟩] })

/-! ## CORE_STOP -/

/-- Every store of a slot's region has been performed, or stands behind a fault (R353). -/
def State.storesDone (s : State) (c n : Nat) : Bool :=
  ((s.core c).stq.all fun e => e.slot != n) || (s.region c).stuck

/-- The slot that runs may stop now: it has been asked to, it is in U mode at a boundary, its region does not run, its
stores are performed, and with BUDGET pending nothing stands before it. -/
def State.mayHalt (s : State) (c n : Nat) : Bool :=
  let k := s.core c
  let l := k.slot n
  (l.haltReq || l.yielding) && k.mode == .u && k.ctl.mayStop && !s.regionRuns c n && s.storesDone c n
    && (l.pend.all (fun p => p.cause != 30) || (topPending l.pend).all fun p => p.cause == 30)

/-- The slot is halted in place: the reservation is lost, the core is free, and the slot enters the line as ready. A CAST
that tq has begun before the instruction is executed again goes back too (R319). -/
def State.haltSlot (s : State) (n : Nat) : State :=
  let c := s.cur
  let s := s.leaveWait.keepCast c n
  let s := { s with resvs := s.resvs.filter fun r => r.core != c }
  let s := s.modSlot c n fun l => { l with haltReq := false, yielding := false }
  let s := s.modCore c fun k => { k with running := none, mode := .m, sliceUsed := 0 }
  s.makeReady c n

/-- The BUDGET trap of a slot that its queue's parking has halted (R346). -/
def State.budgetTrap (s : State) (n : Nat) : State :=
  let c := s.cur
  match (s.slot c n).pend.find? fun p => p.cause == 30 with
  | none => s
  | some p =>
    let s := s.modSlot c n fun l => { l with pend := l.pend.erase p }
    let s := s.modCore c fun k => { k with running := some n, mode := .u, parkTrap := some n }
    s.takeTrap c false 30 p.mtval s.me.pc

/-- CORE_STOP. -/
def execCoreStop (core : Nat) (s : State) : Out :=
  s.onCore core <| s.onCur core fun s =>
    match (s.core core).running with
    | none => .next s
    | some n => if s.mayHalt core n then .next ((s.haltSlot n).budgetTrap n) else .next s

/-! ## DISPATCH -/

/-- The ports a slot left in its area come back, other slots' ports going to theirs (R359); the flag says whether all
have. -/
def State.bringPorts (s : State) (c n : Nat) : List Nat → State × Bool
  | [] => (s, true)
  | j :: js =>
    match s.freePort c j n with
    | (s, false) => (s, false)
    | (s, true) => State.bringPorts (s.restorePort c j n) c n js

/-- What the restore of a slot's region finds. -/
inductive Restored where
  | wait (s : State)
  | done (s : State)
  | report (s : State) (cause sub : Nat)
deriving DecidableEq, Repr

/-- The bank a stopped region runs on still holds an image of its tag (R16). -/
def Core.holdsTag (k : Core) : Bool :=
  let b := Tab.get {} k.banks (dBank k.region.desc)
  b.tag != 0 && b.tag == k.region.tag

/-- A region that its slot still holds HALTED resumes directly (R359); none while its tile unit cannot be claimed. -/
def State.resumeRegion (s : State) (c n : Nat) : Restored :=
  match s.claimFor c n (s.region c).desc with
  | none => .wait s
  | some s => .done ((s.modRegion c Region.goesOn).setTask c n fun t => { t with ownHalt := false })

/-- The restore of the region at dispatch (R358, R359, R361, R352), once the region is IDLE (Table 01-1): TAGLOST and
DESCLOST leave the region IDLE and the block in the area, and so does poison in words that carry no state. A region HALTED
in place whose bank holds its tag no more is saved first, and its restore then finds TAGLOST (R16; log entry 78). -/
def State.bringRegion (s : State) (c n : Nat) : Restored :=
  let r := s.region c
  let inPlace := r.owner == some n && r.st == .halted
  if !(s.slot c n).savedRegion && !inPlace then .done s
  else if !(s.slot c n).savedRegion && (s.core c).armPending (dBank r.desc) then .wait s
  else if !(s.slot c n).savedRegion && (s.core c).holdsTag then s.resumeRegion c n
  else
    match (if (s.slot c n).savedRegion then s.freeRegion c (some n) else s.saveRegion c n) with
    | (s, false) => .wait s
    | (s, true) =>
      let a := (s.core c).area n + 0x9000
      let b := s.memBytes a 4096
      if (s.region c).st != .idle || (s.core c).armPending (bits (fld b 0 8) 40 2) || !(s.region c).passes.isEmpty then .wait s
      else
        let bad := s.poisonedOffsets a 4096
        let hasTail := bitAt (fld b 0 8) 34
        let left := s.modSlot c n fun l => { l with savedRegion := false }
        if (bad.any fun o => !carriesState o) || (hasTail && s.memPois (a + 4096) 4096) || s.tileAreaBad c n then .report (left.tracePois c a) 31 0
        else if !s.tagHeld c b then .report left 24 Sub.tagLost
        else
          match s.descHeld c n b with
          | none => .report ((left.chargeHbm c n (s.descCost c n (fld b 8 8))).noteDesc c n (fld b 8 8)) 24 Sub.descLost
          | some d =>
            match s.claimFor c n d with
            | none => .wait s
            | some s =>
              let s := (s.chargeHbm c n (s.descCost c n (fld b 8 8))).modSlot c n fun l => { l with savedRegion := false }
              let tail := if hasTail then getTail n (s.memBytes (a + 4096) 4096) else []
              .done (s.reinstate c n b d tail fun lane o => bad.contains (0x100 + 240 * lane + o))

/-- The slot runs from here; its card's first task starts the card's clock (Table 21-5). -/
def State.runSlot (s : State) (c n : Nat) : State :=
  let s := { s with resvs := s.resvs.filter fun r => r.core != c }
  let s := match (s.slot c n).task with
    | some t => s.modCard t.vi t.q t.card fun d => { d with tstart := d.tstart.or (some s.time) }
    | none => s
  let s := s.setTask c n fun t => { t with ran := true }
  s.modCore c fun k => { k with running := some n, mode := .u, sliceUsed := 0 }

/-- Run a slot from the state `t`, with the cause that its restore has found pending; the state `s` stands while VALID does
(R348). -/
def State.reportSlot (s : State) (c n cause sub : Nat) (t : State) : State :=
  let a := (t.core c).recordAddr n
  match t.writeRecord c n (t.recordBytes c n { cause := cause, sub := sub, src := 5 }) with
  | none => s
  | some t =>
    ((t.modSlot c n fun l => { l with pend := l.pend ++ [⟨cause, BitVec.ofNat 64 (a + 2 ^ 63)⟩] }).runSlot c n).asyncTrap

/-- Dispatch slot `n`: what it does not still hold is restored first, and a cause that waits for the slot is taken before
its first instruction (R344, R361). A report waits while VALID stands at its record, and the dispatch with it (R348). -/
def State.dispatchSlot (s : State) (n : Nat) : State :=
  let c := s.cur
  let bad := s.badPorts c n
  if !bad.isEmpty then
    let left := s.modSlot c n fun l => { l with savedPorts := l.savedPorts.filter fun j => !bad.contains j }
    s.reportSlot c n 31 0 (left.tracePois c ((s.core c).area n + 0x2000))
  else
    match s.bringPorts c n (s.slot c n).savedPorts with
    | (s, false) => s
    | (s, true) =>
      match s.bringRegion c n with
      | .wait s => s
      | .done s => (s.runSlot c n).asyncTrap
      | .report t cause sub => s.reportSlot c n cause sub t

/-- Firmware waits in a PARTCTL, which no task's dispatch may come before (R188, Table 25-4). -/
def Core.inPartctl (k : Core) : Bool := k.fw.wait.any fun w => match w.instr with
  | .partctl .. => true
  | _ => false

/-- DISPATCH: the core runs no slot, and firmware has no prefix pending and does not wait in PARTCTL. -/
def execDispatch (core : Nat) (s : State) : Out :=
  s.onCore core <| s.onCur core fun s =>
    let k := s.core core
    match k.running, s.lineHead core with
    | none, some n => if k.fw.pre.isNone && !k.inPartctl then .next (s.dispatchSlot n) else .next s
    | _, _ => .next s

/-! ## MRET -/

/-- MRET from a BUDGET trap does not resume the slot, which is halted and resumes after a period boundary at the mepc recorded:
a halt asked for during the handler, and a BUDGET of its own, go with it (R346). A CAST that tq has begun meanwhile goes back to
be saved with the slot, as at a stop (R319). -/
def State.leaveParked (s : State) (n : Nat) : State :=
  let s := (s.keepCast s.cur n).modSlot s.cur n fun l =>
    { l with haltReq := false, pend := l.pend.filter fun p => p.cause != 30 }
  let s := s.modCore s.cur fun k => { k with running := none, mode := .m, parkTrap := none, sliceUsed := 0 }
  s.makeReady s.cur n

def execMret (s : State) : Out :=
  s.begin .mret [] <|
    if (s.core s.cur).mode = .u then s.illegal (s.bitsOf .mret) Enc.subStandard
    else
      let k := s.core s.cur
      match k.parkTrap with
      | some n =>
        if k.running = some n ∧ mppOf k.csr.mstatus = .u then .next (s.trapReturn.leaveParked n) else .next s.trapReturn
      | none => .next s.trapReturn

end Sys2Proof.Machine
end

