-- ==== Sys2Proof/Machine/Contexts.lean ====
section
/-! DEFINITION. CTXCMD: halting, saving, loading and releasing a slot (R362, R363, R320, R337). -/

namespace Sys2Proof.Machine

/-- STATUS codes of CTXCMD (Table 23-8). -/
def ctxOk := 0
def ctxState := 1
def ctxFetch := 2
def ctxBlock := 3

/-- A command that starts: BUSY is set for a slot. -/
def State.ctxStart (s : State) (c n cmd : Nat) : State :=
  s.modCore c fun k => { k with ctxBusy := some ⟨cmd, n⟩, ctxSlot := n, ctxStatus := ctxOk }

/-- A command the slot's state does not permit. -/
def State.ctxRefuse (s : State) (c n : Nat) : State :=
  s.modCore c fun k => { k with ctxSlot := n, ctxStatus := ctxState }

/-- A write of CTXCMD with BUSY set is discarded; `bad` says the slot's state does not permit the command. -/
def State.ctxWrite (s : State) (c n cmd : Nat) (bad : Bool) (f : State → State) : Out :=
  s.onCore c <|
    if (s.core c).ctxBusy.isSome ∨ 8 ≤ n then .next s
    else if bad then .next (s.ctxRefuse c n)
    else .next (f (s.ctxStart c n cmd))

/-- A slot is halted: it is placed, does not run, and has been halted by some cause (R360). -/
def State.slotHalted (s : State) (c n : Nat) : Bool :=
  let l := s.slot c n
  (s.core c).running != some n && !s.regionRuns c n && (l.held || l.task.any Task.ran)

/-- HALT: the slot stays out of the line from now on; its halt is requested if it runs, and that of its region if only a
stamped copy of another core's launch runs there (R353). -/
def execCtxcmdHalt (core slot : Nat) (s : State) : Out :=
  s.ctxWrite core slot 1 (s.slot core slot).task.isNone fun s =>
    let s := s.modSlot core slot fun l => { l with held := true }
    if (s.core core).running = some slot then s.requestHalt core slot else s.haltRegionOf core slot

/-- SAVE of a halted slot. -/
def execCtxcmdSave (core slot : Nat) (s : State) : Out :=
  s.ctxWrite core slot 2 ((s.slot core slot).task.isNone || !s.slotHalted core slot) id

/-- LOAD into a slot that holds no task. -/
def execCtxcmdLoad (core slot : Nat) (s : State) : Out :=
  s.ctxWrite core slot 3 (s.slot core slot).task.isSome id

/-- A write with CMD 00: a slot held by HALT returns to its line as ready. -/
def execCtxcmdRelease (core slot : Nat) (s : State) : Out :=
  s.onCore core <|
    if (s.core core).ctxBusy.isSome ∨ 8 ≤ slot then .next s
    else
      let s := s.modCore core fun k => { k with ctxSlot := slot }
      if (s.slot core slot).held then
        .next ((s.modSlot core slot fun l => { l with held := false }).makeReady core slot)
      else .next s

/-! ## Saving (Table 23-9) -/

/-- Every command, load and record of a slot has ended, its region does not run, nothing of its region or ports is on its way, and a row-table pass
that has started has written its accumulators (R347). -/
def State.saveReady (s : State) (c n : Nat) : Bool :=
  let k := s.core c
  let l := k.slot n
  (l.queues.all fun q => q.2.isEmpty) && (k.arm.all fun a => a.slot != some n) && (k.frq.all fun f => f.slot != n)
    && !s.regionRuns c n && s.storesDone c n && (s.busyOf c n).isNone && s.portsSettled c n && k.region.passes.isEmpty

/-- The state of a slot that the core still holds goes to its area: region, tile unit, ports. -/
def State.evict (s : State) (c n : Nat) : State :=
  let r := s.region c
  let s := if r.owner = some n ∧ (r.st = .halted ∨ r.st = .frozen) then (s.saveRegion c n).1 else s
  let s := if (s.tile c).owner = some n then s.saveTile c n else s
  (upFrom 0 8).foldl (fun s j => if (s.port c j).heldBy n then s.savePort c j n else s) s

/-- The parts of the area that a save writes for every slot. Ports the slot does not hold are written as zeros. -/
def State.areaParts (s : State) (c n : Nat) : List (Nat × List Byte) :=
  let l := s.slot c n
  let k := s.core c
  let bar (b : Nat) : List Byte := toLE 8 (barrierWord ((k.bar b).filter fun x => x.owner == n)).toNat
  [(0x40, s.ctlBytes c n), (0x400, padTo 2048 (l.tq.flatMap TqEntry.bytes)),
    (0xC00, padTo 512 (l.events.flatMap fun e => toLE 8 e.toNat)),
    (0xF00, ((upFrom 0 16).flatMap fun r => prodBytes (Tab.get none l.prod r)) ++ toLE 8 l.mstat.toNat),
    (0x1000, (upFrom 0 64).flatMap fun i => padTo 64 (Tab.get [] l.shapes i)),
    (0x4000, List.replicate 4096 0), (0x5000, (upFrom 0 2048).flatMap bar)]
    ++ (upFrom 0 8).filterMap fun j =>
      if l.savedPorts.contains j then none else some (0x2000 + 1024 * j, List.replicate 1024 0)

/-- The header: the marker, which parts are present, the slot and the interface. -/
def areaHeader (l : Slot) (n vi : Nat) : List Byte :=
  padTo 64 (toLE 8 (areaMagic + b2n l.savedRegion * 2 ^ 32 + b2n l.savedTile * 2 ^ 33 + n % 8 * 2 ^ 34 + vi % 2 ^ 11 * 2 ^ 37))

/-- What the model keeps of handles a saved task has created: which area it waits in, and banks counted from the window
(log entry 20). -/
def Handle.stow (c n base area : Nat) (h : Handle) : Handle :=
  if h.core = c ∧ h.slot = n ∧ ¬ h.handed then { h with core := 1000, slot := area / 0x1000, base := h.base - base } else h

def Handle.unstow (c n base area : Nat) (h : Handle) : Handle :=
  if h.core = 1000 ∧ h.slot = area / 0x1000 ∧ ¬ h.handed then { h with core := c, slot := n, base := h.base + base } else h

/-- The fences of a slot whose queues but tq are empty, each standing behind so many tq entries (R112). -/
def Slot.savedFences (l : Slot) : List Fence :=
  l.fences.map fun f => { f with seq := (l.tq.filter fun e => decide (e.seq < f.seq)).length }

/-- SAVE: every part is written, the header with its marker last, and the slot, its barriers and its window are free. -/
def State.saveSlot (s : State) (c n : Nat) : State :=
  match (s.slot c n).task with
  | none => s
  | some t =>
    let s := s.evict c n
    let a := (s.core c).area n
    let pend := (s.slot c n).pend
    let head := areaHeader (s.slot c n) n t.vi
    let base := ((s.core c).win n).1
    let s := (s.areaParts c n).foldl (fun s p => s.memWrite (a + p.1) p.2) s
    let s := s.memWrite a head
    let task := ((s.slot c n).task).getD t
    let l := s.slot c n
    let kept : SavedTask := { area := a, task := task, launch := l.launch, copyOf := l.copyOf, copyFrom := l.copyFrom, pend := pend, dead := l.tqDead,
                              fences := l.savedFences, castDone := l.castDone,
                              logs := l.tq.filterMap TqEntry.log }
    let s : State := { s with saved := s.saved.filter (fun (x : SavedTask) => x.area != a) ++ [kept],
                              handles := s.handles.map (Handle.stow c n base a) }
    s.modCore c fun k => k.freeTask n

/-! ## Loading -/

/-- A barrier as Table 23-9 holds it; all ones where it was not granted. -/
def barrierFrom (owner w : Nat) : Option Barrier :=
  if w = 2 ^ 64 - 1 then none
  else
    let h (i : Nat) : Half := BitVec.ofNat 16 (w / 2 ^ i)
    some { owner := owner, exp := h 48, arr := h 32, sc := BitVec.ofNat 3 (bits w 19 3), te := bitAt w 18, ep := bitAt w 17,
           el := bitAt w 16, ph := h 0 }

/-- The slot as its area gives it; the tile part, the region and the ports stay in the area until they are used (R359). -/
def slotFrom (b : List Byte) (t : SavedTask) : Slot :=
  let head := fld b 0 8
  let zevq := fld b (0x40 + 0x208 + 8 * 10) 8
  let tq := (upFrom 0 64).filterMap fun i =>
    let e := b.drop (0x400 + 32 * i)
    if tqPresent e then some ((tqFrom i e).withHeader t.logs) else none
  let m := fld b 0xF80 8
  { task := some t.task, ctl := ctlFrom (b.drop 0x40), pend := t.pend, launch := t.launch, copyOf := t.copyOf, copyFrom := t.copyFrom,
    tqDead := t.dead, fences := t.fences, castDone := t.castDone,
    shapes := (upFrom 0 64).filterMap fun i =>
      let x := (b.drop (0x1000 + 64 * i)).take 64
      if zeroAt x 0 64 then none else some (i, x),
    events := (upFrom 0 (min 64 (zevq % 2 ^ 7))).map fun i => BitVec.ofNat 64 (fld b (0xC00 + 8 * i) 8),
    dead := BitVec.ofNat 16 (zevq / 2 ^ 48), lost := BitVec.ofNat 16 (zevq / 2 ^ 32),
    tq := tq, nseq := 64,
    prod := (upFrom 0 16).foldl (fun p r => Tab.put none p r (prodFrom (fld b (0xF00 + 8 * r) 8))) [],
    demoted := BitVec.ofNat 16 (m / 2 ^ 32), appended := BitVec.ofNat 32 m,
    savedRegion := bitAt head 32, savedTile := bitAt head 33,
    savedPorts := (upFrom 0 8).filter fun j => !zeroAt b (0x2000 + 1024 * j) 520 }

/-- A message of the saved-context mailbox; its sender is the slot that holds the sending task by now. -/
def State.savedMessage (s : State) (target : Word) (b : List Byte) : Message :=
  let from' := BitVec.ofNat 64 (fld b 16 8)
  { s.messageOf target b with sender := s.findTask from', senderTask := from' }

/-- Words of an area that are poisoned and carry no register, latch or tile state: their poison makes the load fail. -/
def State.areaPoisoned (s : State) (a : Nat) : Bool :=
  (s.poisonedOffsets a 0x20000).any fun o =>
    !(decide (0xB000 ≤ o ∧ o < 0x1F000) || decide (0xE40 ≤ o ∧ o < 0xEC0)
      || (decide (0x9000 ≤ o ∧ o < 0xA000) && carriesState (o - 0x9000)))

/-- Every task of a gang learns where its member `g` stands now. -/
def State.regang (s : State) (t : Task) (c n : Nat) : State :=
  let fix (u : Task) : Task :=
    if u.vi = t.vi ∧ u.q = t.q ∧ u.card = t.card ∧ u.chunk = t.chunk then { u with gang := u.gang.set t.gidx (c, n) } else u
  { s with cores := s.cores.map fun (d, k) => (d, { k with slots := k.slots.map fun (m, l) => (m, { l with task := l.task.map fix }) }),
           saved := s.saved.map fun x => { x with task := fix x.task } }

/-- A task of which nothing is known but what its area says: a member of no card (log entry 67). -/
def State.strayTask (s : State) (c n a : Nat) : Task :=
  let w := s.memNat (a + 0x40 + 0x208 + 8 * 8) 8
  let vi := bits (s.memNat a 8) 37 11
  { vi := vi, q := 0x1000, card := 0, chunk := 0, gidx := bits w 40 5, die := dieOf c, gang := [(c, n)], gen := (s.iface vi).ig,
    started := true, ran := true }

/-- The saved task an area holds: the one saved at that address, or the one whose area its control-core state was copied
from, or a task of no card. -/
def State.savedAt (s : State) (c n a : Nat) : SavedTask :=
  match s.saved.find? fun t => t.area == a with
  | some t => t
  | none =>
    match s.saved.find? fun t => s.memBytes (t.area + 0x40) 960 == s.memBytes (a + 0x40) 960 with
    | some t => t
    | none => { area := a, task := s.strayTask c n a, nmail := ((upFrom 0 64).filter fun i => s.memNat (a + 0x4000 + 32 * i + 16) 8 != 0).length }

/-- LOAD: FETCH for poison, which the trace records (R96), BLOCK without the marker; else the slot is placed, its mailbox
applied in arrival order, and it joins the line. The window is firmware's to copy before (R363); the slot counts as the
interface's from then on (R76). -/
def State.loadSlot (s : State) (c n : Nat) : State × Nat :=
  let a := (s.core c).area n
  if s.areaPoisoned a then (s.tracePois c a, ctxFetch)
  else if s.memNat a 4 ≠ areaMagic then (s, ctxBlock)
  else
    let t := s.savedAt c n a
    let b := s.memBytes a 0x9000
    let mail := s.memBytes (t.area + 0x4000) 0x800
    let base := ((s.core c).win n).1
    let s := { s with saved := s.saved.filter fun x => x.area != t.area, handles := s.handles.map (Handle.unstow c n base t.area) }
    let s := s.modCore c fun k => { k.setSlot n (slotFrom b t) with lastVi := Tab.set k.lastVi n t.task.vi }
    let s := (upFrom 0 2048).foldl (fun s i =>
      match barrierFrom n (fld b (0x5000 + 8 * i) 8) with
      | some x => s.setBar c i (some x)
      | none => s) s
    let s := s.regang t.task c n
    let h := s.handleOf t.task
    let s := (upFrom 0 t.nmail).foldl (fun s i => s.applyMessage c n (s.savedMessage h (mail.drop (32 * i)))) s
    (s.makeReady c n, ctxOk)

/-! ## The end of an operation -/

/-- BUSY clears and interrupt 16 becomes pending. -/
def State.ctxEnd (s : State) (c status : Nat) : State :=
  s.modCore c fun k => { k with ctxBusy := none, ctxStatus := status, csr := { k.csr with mip16 := true } }

/-- CTXCMD_DONE: HALT ends when the slot is halted, SAVE when the slot's commands have ended and every part is written. -/
def execCtxcmdDone (core : Nat) (s : State) : Out :=
  s.onCore core <|
    match (s.core core).ctxBusy with
    | none => .next s
    | some o =>
      match o.cmd with
      | 1 =>
        if (s.core core).running = some o.slot ∨ s.regionRuns core o.slot then .next s else .next (s.ctxEnd core ctxOk)
      | 2 =>
        let s := s.flushPorts core o.slot
        if s.saveReady core o.slot then .next ((s.saveSlot core o.slot).ctxEnd core ctxOk) else .next s
      | _ =>
        let (s, status) := s.loadSlot core o.slot
        .next (s.ctxEnd core status)

end Sys2Proof.Machine
end

