-- ==== Sys2Proof/Machine/Journal.lean ====
section
/-! DEFINITION. Command rings, replies and journals (R366, R367). -/

namespace Sys2Proof.Machine

/-! ## CRC-32 (IEEE 802.3) -/

def crcBit (x : Nat) : Nat := if x % 2 = 1 then (x / 2) ^^^ 0xEDB88320 else x / 2

def crcByte (x : Nat) (b : Byte) : Nat :=
  crcBit (crcBit (crcBit (crcBit (crcBit (crcBit (crcBit (crcBit (x ^^^ b.toNat))))))))

def crc32 (b : List Byte) : Nat := b.foldl crcByte 0xFFFFFFFF ^^^ 0xFFFFFFFF

/-! ## Commands (R366) -/

def HostCmd.code (h : HostCmd) : Nat := fld h.bytes 0 2
/-- A field of ARGS. -/
def HostCmd.arg (h : HostCmd) (off n : Nat) : Nat := fld (h.bytes.drop (0x04 + off)) 0 n
def HostCmd.args (h : HostCmd) : List Byte := (h.bytes.drop 0x04).take 36
/-- Write a result into its place in ARGS. -/
def HostCmd.put (h : HostCmd) (off : Nat) (v : List Byte) : HostCmd := { h with bytes := patch h.bytes (0x04 + off) v }

namespace Hs
def ok := 0
def badcmd := 1
def quota := 2
def busy := 3
def sig := 4
def perm := 5
end Hs

/-- A 64-byte journal entry (R367). -/
def journalBytes (seq time code issuer : Nat) (args : List Byte) : List Byte :=
  let b := toLE 8 seq ++ toLE 8 time ++ toLE 2 code ++ toLE 2 issuer ++ toLE 4 0 ++ padTo 36 args
  b ++ toLE 4 (crc32 b)

/-- Write an interface's next journal entry; its sequence number. -/
def State.journal (s : State) (vi code issuer : Nat) (args : List Byte) : State × Nat :=
  let i := s.iface vi
  let n := i.jnext
  let s := s.memWrite (i.jbase + 64 * (n % 0x10000)) (journalBytes n s.time code issuer args)
  (s.modIface vi fun i => { i with jnext := n + 1 }, n)

/-- Reply to the command at the head of an interface's ring: the results, SEQ, REPLY, and MSI-X vector 0. A command of a
function-level reset has no place in the ring and gets no reply. -/
def State.reply (s : State) (vi : Nat) (h : HostCmd) (status seq : Nat) : State :=
  let i := s.iface vi
  let s := s.modIface vi fun i => { i with cmds := i.cmds.drop 1 }
  if h.internal then s
  else
    let a := i.ringBase + 64 * (h.pos % 2 ^ i.ringK)
    let s := if h.pois then s else s.memWrite (a + 0x04) h.args
    let s := (s.memWrite (a + 0x30) (toLE 8 seq)).memWrite (a + 0x38) (toLE 8 (2 ^ 63 + status))
    s.send (.msix vi 0)

/-- A command performed: its journal entry, then the reply. -/
def State.accept (s : State) (vi : Nat) (h : HostCmd) : State :=
  let (s, seq) := s.journal vi h.code vi h.args
  s.reply vi h Hs.ok seq

/-- Refuse a command: it performs nothing and writes no entry. -/
def State.refuse (s : State) (vi : Nat) (h : HostCmd) (status : Nat) : Out := .next (s.reply vi h status 0)

end Sys2Proof.Machine
end

