-- ==== Sys2Proof/Machine/Partition.lean ====
section
/-! DEFINITION. Partitions (R368 to R370, R383): PARTCTL, its quiesce, and its time limit. -/

namespace Sys2Proof.Machine

/-! ## The request (R370) -/

def rqByte (b : List Byte) (d : Nat) : Nat := fld b d 1
def rqAff (b : List Byte) (d : Nat) : Bool := decide (d < 4) && bitAt (rqByte b d) 0
def rqFirst (b : List Byte) (d : Nat) : Nat := bits (rqByte b d) 1 2
/-- Dies of a SIZE code; 0 for the reserved one. -/
def sizeOf (code : Nat) : Nat :=
  match code with
  | 0 => 1
  | 1 => 2
  | 3 => 4
  | _ => 0
def rqSize (b : List Byte) (d : Nat) : Nat := sizeOf (bits (rqByte b d) 3 2)
def rqPooled (b : List Byte) (d : Nat) : Bool := bitAt (rqByte b d) 5
def rqLim (b : List Byte) : Nat := fld b 0x04 4
def rqNb (b : List Byte) : Nat := fld b 0x08 1
/-- The bind entries: interface and first die of its new partition. -/
def rqBinds (b : List Byte) : List (Nat × Nat) :=
  (upFrom 0 (rqNb b)).map fun i => let x := fld b (0x10 + 2 * i) 2; (bits x 0 11, bits x 11 2)
def rqDies (b : List Byte) : List Nat := [0, 1, 2, 3].filter (rqAff b)
/-- The first affected die of the new partition that holds an affected die. -/
def rqPart (b : List Byte) (d : Nat) : Nat × Nat := (rqFirst b d, rqSize b d)

/-- A layout of R368. -/
def layoutOk (f n : Nat) : Bool := (n == 1 && decide (f < 4)) || (n == 2 && (f == 0 || f == 2)) || (n == 4 && f == 0)

def rqReserved (b : List Byte) : Bool :=
  ([0, 1, 2, 3].any fun d => bits (rqByte b d) 6 2 != 0) || rqLim b == 0 || decide (16 < rqNb b) || !zeroAt b 0x09 7
    || !zeroAt b 0x30 16 || (upFrom 0 (min 16 (rqNb b))).any fun i => bits (fld b (0x10 + 2 * i) 2) 13 3 != 0

/-- Each affected die lies in a new partition all of whose dies are affected and agree, and in an old one all of whose
dies are affected. -/
def State.layoutBad (s : State) (b : List Byte) : Bool :=
  (rqDies b).any fun d =>
    let (f, n) := rqPart b d
    let k := s.die d
    !layoutOk f n || !decide (f ≤ d ∧ d < f + n)
      || (upFrom f n).any (fun e => !rqAff b e || rqPart b e != (f, n) || rqPooled b e != rqPooled b d)
      || (upFrom k.first k.size).any fun e => !rqAff b e

/-- The interface is bound to an affected die. -/
def rqBound (b : List Byte) (i : Iface) : Bool := i.enabled && rqAff b i.die

def Iface.inUse (i : Iface) : Bool := i.queues.any (fun q => q.2.isSome) || i.objs.any fun o => o.unload.isNone

/-- The partition that will hold a die: first die and size. -/
def State.partAfter (s : State) (b : List Byte) (d : Nat) : Nat × Nat :=
  if rqAff b d then rqPart b d else ((s.die d).first, (s.die d).size)

/-- The defects of the bind entries (R370): a listed interface that does not exist, a die that is not the first of a new
partition, a queue whose die would lie outside it, and an interface that is in use and bound to an affected die but not
listed. An entry may name a partition that does not change. -/
def State.bindBad (s : State) (b : List Byte) : Bool :=
  ((rqBinds b).any fun (vi, f) =>
    let i := s.iface vi
    let (g, n) := s.partAfter b f
    !i.enabled || g != f
      || i.queues.any fun (_, q) => q.any fun k => !decide (f ≤ k.die ∧ k.die < f + n))
    || s.ifaces.any fun (vi, i) => rqBound b i && i.inUse && !(rqBinds b).any fun x => x.1 == vi

def State.partBad (s : State) (b : List Byte) : Bool := rqReserved b || s.layoutBad b || s.bindBad b

/-! ## The quiesce -/

/-- A queue of an affected die holds an accepted card that has not completed (R383): one that has completed and whose record
waits to be written (R335) keeps no queue busy. -/
def State.queueBusy (s : State) (b : List Byte) (vi q : Nat) : Bool :=
  (s.queue vi q).any fun k => rqAff b k.die && k.cards.any fun d => !d.complete

/-- The affected dies are quiet: no busy queue, and no task of theirs placed or saved; a task's commands end with it. -/
def State.quietFor (s : State) (b : List Byte) : Bool :=
  !(s.allQueues.any fun (vi, q) => s.queueBusy b vi q)
    && !(s.cores.any fun (_, k) => k.slots.any fun (_, l) => l.task.any fun t => rqAff b t.die)
    && !s.saved.any fun t => rqAff b t.task.die

/-- The lowest die, then the lowest hardware slot, of a busy queue. Where the busy queues of that die have no hardware
slot, the slot named is 0; where no queue is busy, only tasks placed or saved keep the dies unquiet or they have fallen
quiet since the limit, and the lowest affected die and slot 0 are named (log entry 70). -/
def State.busyName (s : State) (b : List Byte) : Nat × Nat :=
  let busy := s.allQueues.filter fun (vi, q) => s.queueBusy b vi q
  let d := ((rqDies b).find? fun d => busy.any fun (vi, q) => (s.queue vi q).any fun k => k.die == d).getD ((rqDies b).headD 0)
  (d, ((s.die d).hwq.findSome? fun (hw, e) => if e.any busy.contains then some hw else none).getD 0)

def State.setQuiet (s : State) (b : List Byte) (v : Bool) : State :=
  (rqDies b).foldl (fun s d => s.modDie d fun k => { k with quiet := v }) s

/-- Begin a change. -/
def State.beginPart (s : State) (op : PartOp) : State := { (s.setQuiet op.req true) with part := [op] }

/-! ## The change -/

/-- ILVd (Table 25-3). -/
def Die.ilv (k : Die) : Word :=
  BitVec.ofNat 64 (k.gen.toNat * 2 ^ 16 + b2n k.pooled * 2 ^ 4 + (if k.size = 4 then 3 else k.size - 1) * 2 ^ 2 + k.first)

/-- Links of a die to its neighbours within its new partition: east, west, south, north (Table 25-3). -/
def mbndOf (f n d : Nat) : BitVec 4 :=
  let inP (e : Nat) : Nat := b2n (decide (f ≤ e ∧ e < f + n))
  match d with
  | 0 => BitVec.ofNat 4 (inP 1 + 4 * inP 2)
  | 1 => BitVec.ofNat 4 (2 * inP 0 + 4 * inP 3)
  | 2 => BitVec.ofNat 4 (inP 3 + 8 * inP 0)
  | _ => BitVec.ofNat 4 (2 * inP 2 + 8 * inP 1)

/-- Discard every cached translation and range entry of an interface in the package: TLBINV.pkg and RELATCH.pkg. -/
def State.shootAll (s : State) (vi : Nat) : State :=
  let t : Shootdown := { base := 0, len := none, vi := some vi }
  let keep (l : List RangeEntry) : List RangeEntry := l.filter fun r => r.vi != vi
  let s := s.shootTlb 5 0 t
  { s with cores := s.cores.map fun (c, k) =>
      (c, { k with
        slots := k.slots.map fun (n, l) => (n, { l with queues := l.queues.map fun (q, ks) =>
          (q, ks.map fun x => { x with ranges := keep x.ranges }) }),
        ports := k.ports.map fun (j, p) => (j, { p with stream := p.stream.map fun x => { x with ranges := keep x.ranges } }) }) }

/-- The LLS of a die is zeroed and its held messages become dead letters (R80, R383). -/
def State.wipeLls (s : State) (d : Nat) : State :=
  ((s.zeroRange (llsBase d) llsSize).dropResv (llsBase d) llsSize).dropMail d fun _ => true

/-- The HBM of a die's share is unpredictable from now on (R370). -/
def State.loseHbm (s : State) (d : Nat) : State :=
  let s := (s.addFog (d * hbmShare) hbmShare).dropResv (d * hbmShare) hbmShare
  { s with poison := s.poison.filter fun l => match l with
      | .mem g => !(decide (d * hbmShare ≤ 8 * g ∧ 8 * g < (d + 1) * hbmShare))
      | _ => true }

/-- 512 MiB units of a die's share. -/
def unitsPerDie : Nat := hbmShare / 0x20000000

/-- What an interface may keep of its grant on the partition it is now bound to (R84): the units of the share, and its LLS
blocks where the range in use still holds them. `same` says that a pooled range is the one it was. -/
def State.trimGrant (s : State) (same : Bool) (i : Iface) : Iface :=
  let (f, n) := s.partOf i
  let near (x : Nat × Nat) : Bool := if (s.die i.die).pooled then x.1 == 4 && same else decide (f ≤ x.1 ∧ x.1 < f + n)
  { i with hbm := i.hbm.filter fun u => decide (f * unitsPerDie ≤ u ∧ u < (f + n) * unitsPerDie), lls := i.lls.filter near }

/-- The partition and mode of an interface's die. -/
def State.modeOf (s : State) (i : Iface) : Nat × Nat × Bool := (i.die, (s.die i.die).size, (s.die i.die).pooled)

/-- The steps of R370 after the quiesce, up to the journal. What an interface held outside its new share is no longer
granted (R84; log entry 21). -/
def State.changePart (s : State) (b : List Byte) : State :=
  let ds := rqDies b
  let old := s
  let bound := (s.ifaces.filter fun (_, i) => rqBound b i).map Prod.fst ++ (rqBinds b).map Prod.fst
  let s := ds.foldl (fun s d => ((s.die d).hwq.map Prod.fst).foldl (fun s hw => s.unmap d hw) s) s
  let s := ds.foldl State.wipeLls s
  let s := ds.foldl (fun s d =>
    let (f, n) := rqPart b d
    s.modDie d fun k => { k with first := f, size := n, pooled := rqPooled b d, gen := k.gen + 1, mbnd := mbndOf f n d }) s
  let s := bound.foldl State.shootAll s
  let s := ds.foldl State.loseHbm s
  let s := { s with ifaces := s.ifaces.map fun (vi, i) => (vi, if rqBound b i then { i with die := rqFirst b i.die } else i) }
  let s := (rqBinds b).foldl (fun s (vi, f) => s.modIface vi fun i => { i with die := f, xroot := none }) s
  let s := { s with ifaces := s.ifaces.map fun (vi, i) =>
      (vi, if bound.contains vi then s.trimGrant (s.modeOf i == old.modeOf (old.iface vi)) i else i) }
  s.setQuiet b false

/-- ARGS of the journal entries of a change that is done: of a PARTCHG, as replied, with the result in its place and the host's
other bytes; of a PARTCTL that firmware issues on its own, the result word and the request's address (R367). -/
def State.partArgs (s : State) (op : PartOp) : List Byte :=
  match op.cmdVi.bind fun vi => (s.iface vi).cmds.head? with
  | some h => (h.put 0 (toLE 4 0)).args
  | none => toLE 8 0 ++ toLE 8 op.addr.toNat

/-- Journal a change in interface 0's journal, once it is enabled and so has one, and in those of the rebound interfaces;
interface 0's sequence number. -/
def State.journalPart (s : State) (op : PartOp) : State × Nat :=
  let args := s.partArgs op
  let (s, seq) := if (s.iface 0).enabled then s.journal 0 9 0 args else (s, 0)
  let others := ((rqBinds op.req).map Prod.fst).eraseDups.filter (· != 0)
  (others.foldl (fun s vi => (s.journal vi 9 0 args).1) s, seq)

/-- Give PARTCTL's result to the instruction that waits, or to the command. -/
def State.partResult (s : State) (op : PartOp) (result seq : Nat) : State :=
  let s := { s with part := [] }
  match op.cmdVi with
  | none =>
    s.modCtl op.core fun k => { k with wait := k.wait.map fun w => { w with b := BitVec.ofNat 64 (2 ^ 63 + result) } }
  | some vi =>
    match (s.iface vi).cmds.head? with
    | some h => s.reply vi (h.put 0 (toLE 4 result)) (if bits result 0 8 = 0 then Hs.ok else Hs.busy) seq
    | none => s

/-- The quiesce limit of a change has passed (R370). -/
def State.quietLate (s : State) (op : PartOp) : Bool := decide (op.began + 1024 * rqLim op.req ≤ s.cycles)

/-- PARTCTL_QUIESCED: the affected dies are quiet before the limit has passed. -/
def execPartctlQuiesced (core : Nat) (s : State) : Out :=
  s.onDie 0 <|
  match s.part with
  | [] => .next s
  | op :: _ =>
    if op.core = core ∧ s.quietFor op.req ∧ !s.quietLate op then
      let (s, seq) := (s.changePart op.req).journalPart op
      .next (s.partResult op 0 seq)
    else .next s

/-- PARTCTL_QUIESCE_TIMEOUT: the limit has passed, and nothing has changed. -/
def execPartctlQuiesceTimeout (core : Nat) (s : State) : Out :=
  s.onDie 0 <|
  match s.part with
  | [] => .next s
  | op :: _ =>
    if op.core = core ∧ s.quietLate op then
      let (d, hw) := s.busyName op.req
      .next ((s.setQuiet op.req false).partResult op (1 + d * 2 ^ 8 + hw * 2 ^ 16) 0)
    else .next s

/-! ## PARTCTL (R188) -/

/-- Some context slot of the core is placed. -/
def Core.anyPlaced (k : Core) : Bool := k.slots.any fun (_, l) => l.task.isSome

/-- PARTCTL, before it has begun (`n` is 0) and while the change goes on. Its request is read as any load of the control
core: by physical address in M mode, and through translation under MPRV (log entry 70). -/
def State.tryPartctl (s : State) (rd : Reg) (w : Waiting) : Out :=
  let c := s.cur
  if w.n = 1 then
    (if w.b.getLsbD 63 then s.result rd (w.b &&& 0x7FFFFFFFFFFFFFFF#64) else s.waitOn w)
  else if (s.core c).anyPlaced then s.result rd 3
  else if !s.part.isEmpty then s.waitOn w
  else if w.a.toNat % 64 ≠ 0 then s.result rd 2
  else
    let mode := (s.core c).dataMode
    match s.locate c mode w.a.toNat 64 .read with
    | (s, .pieces l) =>
      let s := s.chargeLoad c l
      if s.poisPieces l then (s.consumed c w.a.toNat mode l).recordTrap 31 0 w.a.toNat s.me.epc
      else
        let b := s.readPieces l
        if s.partBad b then s.result rd 2
        else (s.beginPart { core := c, req := b, addr := w.a, began := s.cycles }).waitOn { w with n := 1 }
    | (s, _) => s.result rd 2

def execPartctl (rd rs1 : Reg) (s : State) : Out :=
  s.priv (.partctl rd rs1) <| s.begin (.partctl rd rs1) [rd, rs1] <|
    s.tryPartctl rd { instr := .partctl rd rs1, len := 4, a := s.getX rs1 }

end Sys2Proof.Machine
end

