-- ==== Sys2Proof/Machine/Sha.lean ====
section
/-! DEFINITION. SHA-512, MGF1 and the verification of RSASSA-PSS with RSA-4096, exponent 65,537 and a 64-byte salt, the
scheme R372 names (log entry 18: the published standards, PRESUMED). Words are numbers below 2^64; hashed bytes are
big-endian. -/

namespace Sys2Proof

/-! ## SHA-512 -/

def add64 (a b : Nat) : Nat := (a + b) % 2 ^ 64
def rotr64 (n x : Nat) : Nat := x / 2 ^ n + x % 2 ^ n * 2 ^ (64 - n)
def not64 (x : Nat) : Nat := 2 ^ 64 - 1 - x

/-- Round constants 0 to 19. -/
def shaK0 : List Nat :=
  [
    0x428A2F98D728AE22, 0x7137449123EF65CD, 0xB5C0FBCFEC4D3B2F, 0xE9B5DBA58189DBBC,
    0x3956C25BF348B538, 0x59F111F1B605D019, 0x923F82A4AF194F9B, 0xAB1C5ED5DA6D8118,
    0xD807AA98A3030242, 0x12835B0145706FBE, 0x243185BE4EE4B28C, 0x550C7DC3D5FFB4E2,
    0x72BE5D74F27B896F, 0x80DEB1FE3B1696B1, 0x9BDC06A725C71235, 0xC19BF174CF692694,
    0xE49B69C19EF14AD2, 0xEFBE4786384F25E3, 0x0FC19DC68B8CD5B5, 0x240CA1CC77AC9C65]

/-- Round constants 20 to 39. -/
def shaK1 : List Nat :=
  [
    0x2DE92C6F592B0275, 0x4A7484AA6EA6E483, 0x5CB0A9DCBD41FBD4, 0x76F988DA831153B5,
    0x983E5152EE66DFAB, 0xA831C66D2DB43210, 0xB00327C898FB213F, 0xBF597FC7BEEF0EE4,
    0xC6E00BF33DA88FC2, 0xD5A79147930AA725, 0x06CA6351E003826F, 0x142929670A0E6E70,
    0x27B70A8546D22FFC, 0x2E1B21385C26C926, 0x4D2C6DFC5AC42AED, 0x53380D139D95B3DF,
    0x650A73548BAF63DE, 0x766A0ABB3C77B2A8, 0x81C2C92E47EDAEE6, 0x92722C851482353B]

/-- Round constants 40 to 59. -/
def shaK2 : List Nat :=
  [
    0xA2BFE8A14CF10364, 0xA81A664BBC423001, 0xC24B8B70D0F89791, 0xC76C51A30654BE30,
    0xD192E819D6EF5218, 0xD69906245565A910, 0xF40E35855771202A, 0x106AA07032BBD1B8,
    0x19A4C116B8D2D0C8, 0x1E376C085141AB53, 0x2748774CDF8EEB99, 0x34B0BCB5E19B48A8,
    0x391C0CB3C5C95A63, 0x4ED8AA4AE3418ACB, 0x5B9CCA4F7763E373, 0x682E6FF3D6B2B8A3,
    0x748F82EE5DEFB2FC, 0x78A5636F43172F60, 0x84C87814A1F0AB72, 0x8CC702081A6439EC]

/-- Round constants 60 to 79. -/
def shaK3 : List Nat :=
  [
    0x90BEFFFA23631E28, 0xA4506CEBDE82BDE9, 0xBEF9A3F7B2C67915, 0xC67178F2E372532B,
    0xCA273ECEEA26619C, 0xD186B8C721C0C207, 0xEADA7DD6CDE0EB1E, 0xF57D4F7FEE6ED178,
    0x06F067AA72176FBA, 0x0A637DC5A2C898A6, 0x113F9804BEF90DAE, 0x1B710B35131C471B,
    0x28DB77F523047D84, 0x32CAAB7B40C72493, 0x3C9EBE0A15C9BEBC, 0x431D67C49C100D4C,
    0x4CC5D4BECB3E42B6, 0x597F299CFC657E2A, 0x5FCB6FAB3AD6FAEC, 0x6C44198C4A475817]

def shaK : List Nat := shaK0 ++ shaK1 ++ shaK2 ++ shaK3

/-- The initial hash value. -/
def shaInit : List Nat :=
  [
    0x6A09E667F3BCC908, 0xBB67AE8584CAA73B, 0x3C6EF372FE94F82B, 0xA54FF53A5F1D36F1,
    0x510E527FADE682D1, 0x9B05688C2B3E6C1F, 0x1F83D9ABFB41BD6B, 0x5BE0CD19137E2179]

def bigS0 (x : Nat) : Nat := rotr64 28 x ^^^ rotr64 34 x ^^^ rotr64 39 x
def bigS1 (x : Nat) : Nat := rotr64 14 x ^^^ rotr64 18 x ^^^ rotr64 41 x
def smallS0 (x : Nat) : Nat := rotr64 1 x ^^^ rotr64 8 x ^^^ (x / 2 ^ 7)
def smallS1 (x : Nat) : Nat := rotr64 19 x ^^^ rotr64 61 x ^^^ (x / 2 ^ 6)
def shaCh (x y z : Nat) : Nat := (x &&& y) ^^^ (not64 x &&& z)
def shaMaj (x y z : Nat) : Nat := (x &&& y) ^^^ (x &&& z) ^^^ (y &&& z)

/-- The eight working words. -/
structure ShaRegs where
  a : Nat
  b : Nat
  c : Nat
  d : Nat
  e : Nat
  f : Nat
  g : Nat
  h : Nat
deriving DecidableEq, Repr

def ShaRegs.of (l : List Nat) : ShaRegs :=
  let x (i : Nat) : Nat := l.getD i 0
  ⟨x 0, x 1, x 2, x 3, x 4, x 5, x 6, x 7⟩
def ShaRegs.list (r : ShaRegs) : List Nat := [r.a, r.b, r.c, r.d, r.e, r.f, r.g, r.h]

/-- Extend the message schedule by `n` words; `w` holds the latest words first. -/
def shaSchedule : Nat → List Nat → List Nat
  | 0, w => w.reverse
  | n + 1, w =>
    let x (i : Nat) : Nat := w.getD (i - 1) 0
    shaSchedule n (add64 (add64 (smallS1 (x 2)) (x 7)) (add64 (smallS0 (x 15)) (x 16)) :: w)

def shaRound (r : ShaRegs) (kw : Nat × Nat) : ShaRegs :=
  let t1 := add64 (add64 r.h (bigS1 r.e)) (add64 (shaCh r.e r.f r.g) (add64 kw.1 kw.2))
  let t2 := add64 (bigS0 r.a) (shaMaj r.a r.b r.c)
  ⟨add64 t1 t2, r.a, r.b, r.c, add64 r.d t1, r.e, r.f, r.g⟩

def beNat (l : List Byte) : Nat := l.foldl (fun n b => 256 * n + b.toNat) 0
def toBE (n x : Nat) : List Byte := (toLE n x).reverse

/-- One 128-byte block. -/
def shaBlock (hs : List Nat) (b : List Byte) : List Nat :=
  let w := (upFrom 0 16).map fun i => beNat ((b.drop (8 * i)).take 8)
  let r := (shaK.zip (shaSchedule 64 w.reverse)).foldl shaRound (ShaRegs.of hs)
  (hs.zip r.list).map fun (x, y) => add64 x y

def shaBlocks : Nat → List Nat → List Byte → List Nat
  | 0, hs, _ => hs
  | n + 1, hs, b => shaBlocks n (shaBlock hs (b.take 128)) (b.drop 128)

/-- SHA-512 of a byte string: 64 bytes. -/
def sha512 (b : List Byte) : List Byte :=
  let z := (239 - b.length % 128) % 128
  let m := b ++ [0x80#8] ++ List.replicate z 0 ++ toBE 16 (8 * b.length)
  (shaBlocks (m.length / 128) shaInit m).flatMap (toBE 8)

/-! ## RSASSA-PSS -/

/-- MGF1 with SHA-512: the first `n` bytes. -/
def mgf1 (seed : List Byte) (n : Nat) : List Byte :=
  ((upFrom 0 ((n + 63) / 64)).flatMap fun i => sha512 (seed ++ toBE 4 i)).take n

def squares (m : Nat) : Nat → Nat → Nat
  | 0, x => x
  | k + 1, x => squares m k (x * x % m)

/-- x^65537 mod m. -/
def pow65537 (m x : Nat) : Nat := squares m 16 x * x % m

def xorBytes (a b : List Byte) : List Byte := (a.zip b).map fun (x, y) => x ^^^ y

/-- The encoded message `em` of 512 bytes is a PSS encoding of a message whose hash is `h`: bits of a modulus of `k` bits
minus one. -/
def pssOk (em h : List Byte) (k : Nat) : Bool :=
  let n := (k + 7) / 8
  let db := em.take (n - 65)
  let x := (em.drop (n - 65)).take 64
  let unused := 8 * n - k
  let plain := xorBytes db (mgf1 x (n - 65))
  let lead (l : List Byte) : Nat := (l.headD 0).toNat
  let plain := BitVec.ofNat 8 (lead plain % 2 ^ (8 - unused)) :: plain.drop 1
  let ps := plain.take (n - 130)
  let salt := plain.drop (n - 129)
  em.length == n && em.getD (n - 1) 0 == 0xBC#8 && decide (lead db < 2 ^ (8 - unused)) && ps.all (· == 0)
    && plain.getD (n - 130) 0 == 1#8 && sha512 (List.replicate 8 0 ++ h ++ salt) == x

/-- The signature `sig` over `msg` verifies under a modulus, both 512 big-endian bytes. -/
def rsaVerifies (modulus sig msg : List Byte) : Bool :=
  let m := beNat modulus
  let x := beNat sig
  let k := Nat.log2 m
  decide (modulus.length = 512 ∧ sig.length = 512 ∧ x < m ∧ 2 ^ 4095 ≤ m)
    && pssOk (toBE ((k + 7) / 8) (pow65537 m x)) (sha512 msg) k

end Sys2Proof
end

