-- ==== Sys2Proof/Machine/Objects.lean ====
section
/-! DEFINITION. Code objects (R144, R145, R376, R377): COLOAD and COUNLOAD, and the measurement registers (R372). -/

namespace Sys2Proof.Machine

/-! ## The order of host commands (R366) -/

/-- Another interface's command has begun and not ended. -/
def State.hostBusy (s : State) (vi : Nat) : Bool := s.ifaces.any fun (v, i) => v != vi && i.cmds.head?.any HostCmd.begun

/-- A command with an undefined code or a field that must be zero, or one read from a poisoned entry (log entry 50). -/
def HostCmd.malformed (h : HostCmd) : Bool :=
  h.pois || h.code == 0 || decide (12 < h.code) || !zeroAt h.bytes 0x02 2 || !zeroAt h.bytes 0x28 8

/-- Perform the command at the head of an interface's ring if it has this code: commands are performed one at a time, each
interface's in ring order; a malformed one is refused. `pf` marks the codes of interface 0 alone. Runtime firmware
performs them behind die 0, where the host link is (R364); none once it is stopped (R372, R381). -/
def State.hostStep (s : State) (vi code : Nat) (pf : Bool) (k : HostCmd → Out) : Out :=
  s.onDie 0 <|
  match (s.iface vi).cmds.head? with
  | none => .next s
  | some h =>
    if s.hostBusy vi then .next s
    else if h.malformed then s.refuse vi h Hs.badcmd
    else if h.code ≠ code then .next s
    else if pf ∧ vi ≠ 0 then s.refuse vi h Hs.perm
    else k h

/-- The head command has begun. -/
def State.markBegun (s : State) (vi : Nat) : State :=
  s.modIface vi fun i => { i with cmds := match i.cmds with
    | [] => []
    | h :: hs => { h with begun := true } :: hs }

/-! ## Measurement registers -/

def zero64 : List Byte := List.replicate 64 0
/-- A measurement register; one never extended is zero. -/
def measured (b : List Byte) : List Byte := if b = [] then zero64 else b
def extend (b digest : List Byte) : List Byte := sha512 (measured b ++ digest)

def State.extendMreg (s : State) (n : Nat) (digest : List Byte) : State :=
  { s with mregs := Tab.set s.mregs n (extend (Tab.get [] s.mregs n) digest) }

/-! ## The object (Tables 09-14 to 09-16) -/

/-- A section entry. -/
structure Section where
  type : Nat
  flags : Nat
  align : Nat
  rsv : Bool
  off : Nat
  size : Nat
  vaddr : Nat
deriving DecidableEq, Repr

def sectionAt (b : List Byte) (i : Nat) : Section :=
  let e := (b.drop (32 * i)).take 32
  ⟨fld e 0 2, fld e 2 2, fld e 4 1, !zeroAt e 5 3, fld e 8 8, fld e 16 8, fld e 24 8⟩

/-- The sections a loader places: code, data, images, descriptors, shapes. The spec does not list them (log entry 69). -/
def Section.placed (x : Section) : Bool := decide (1 ≤ x.type ∧ x.type ≤ 5)
def Section.known (x : Section) : Bool := decide (1 ≤ x.type ∧ x.type ≤ 9) || x.type == 15

def mcoHeaderOk (b : List Byte) : Bool :=
  fld b 0x00 4 == 0x34434F4D && fld b 0x04 2 == 1 && decide (1 ≤ fld b 0x06 2 ∧ fld b 0x06 2 ≤ 1024)
    && fld b 0x08 4 == 0x4640 && fld b 0x0C 4 == 64 && fld b 0x10 8 % 64 == 0 && zeroAt b 0x18 40

/-- Two ranges share a byte. -/
def overlap (a n b m : Nat) : Bool := decide (a < b + m ∧ b < a + n ∧ 0 < n ∧ 0 < m)

/-- Some two members of a list, in order, satisfy `p`. -/
def somePair {α : Type} (p : α → α → Bool) : List α → Bool
  | [] => false
  | x :: xs => xs.any (p x) || somePair p xs

/-- The rules of R144, R145 and R376 on the sections of an object placed at `base`. R144 names the header's fields as
grounds of rejection; that a section entry outside Table 09-15 (ALIGN above 16, a misaligned OFFSET, reserved bits, a
nonzero VADDR of a section not placed) is rejected too is the model's choice (log entry 69). -/
def sectionsOk (secs : List Section) (base : Nat) : Bool :=
  let sig := secs.filter fun x => x.type == 15
  let pages (x : Section) : Nat := roundUp x.size 0x10000
  secs.all (fun x => (x.known || bitAt x.flags 0) && x.flags < 2 && decide (x.align ≤ 16) && !x.rsv
      && x.off % 2 ^ x.align == 0 && (if x.placed then x.vaddr % 0x10000 == 0 else x.vaddr == 0))
    && sig.length == 1 && sig.all (fun g => g.size == 1024 && secs.all fun x => x.type == 15 || decide (x.off + x.size ≤ g.off))
    && !somePair (fun x y => overlap x.off x.size y.off y.size) secs
    && base % 0x10000 == 0 && secs.all (fun x => !x.placed || decide (base + x.vaddr + pages x ≤ 2 ^ 55))
    && !somePair (fun x y => x.placed && y.placed && overlap x.vaddr (pages x) y.vaddr (pages y)) secs

/-- An object read from memory. -/
structure Object where
  secs : List Section
  covered : List Byte
  modulus : List Byte
  sig : List Byte
deriving DecidableEq, Repr

/-- Read the object at a VA of an interface: header, section table, and the bytes up to and with its signature. A table
that overlaps the header or a section, a section that overlaps the header, and a table after the signature are accepted
(log entry 69). -/
def State.readObject (s : State) (vi va base : Nat) : Option Object :=
  let d := (s.iface vi).die
  match s.devRead vi d va 64 with
  | none => none
  | some h =>
    if !mcoHeaderOk h then none
    else
      match s.devRead vi d (va + fld h 0x10 8) (32 * fld h 0x06 2) with
      | none => none
      | some t =>
        let secs := (upFrom 0 (fld h 0x06 2)).map (sectionAt t)
        if !sectionsOk secs base then none
        else
          match secs.find? fun x => x.type == 15 with
          | none => none
          | some g =>
            match s.devRead vi d va (g.off + 1024) with
            | none => none
            | some b => some ⟨secs, b.take g.off, (b.drop g.off).take 512, (b.drop (g.off + 512)).take 512⟩

/-- Poison that stops a read of an object is recorded (R96). -/
def State.noteObject (s : State) (vi va : Nat) : State :=
  let d := (s.iface vi).die
  match s.devRead vi d va 64 with
  | none => s.noteDev vi d va 64
  | some h =>
    if !mcoHeaderOk h then s
    else
      let ta := va + fld h 0x10 8
      match s.devRead vi d ta (32 * fld h 0x06 2) with
      | none => s.noteDev vi d ta (32 * fld h 0x06 2)
      | some t =>
        match ((upFrom 0 (fld h 0x06 2)).map (sectionAt t)).find? fun x => x.type == 15 with
        | none => s
        | some g => s.noteDev vi d va (g.off + 1024)

def Object.bytesOf (o : Object) (x : Section) : List Byte := (o.covered.drop x.off).take x.size
/-- The firmware images of an object: each FIRMWARE section is taken as one signed image (log entry 69). -/
def Object.images (o : Object) : List (List Byte) := (o.secs.filter fun x => x.type == 6).map o.bytesOf

/-! ## Placing (R376; log entry 27) -/

/-- The walk to the level-0 entry that maps a VA by a 64 KiB page: its address and value, or why there is none. -/
def State.pteWalk (s : State) (vi va : Nat) : Walk (Nat × Nat) :=
  match s.table1 vi (s.iface vi).die va with
  | .error k => .error k
  | .ok t1 =>
    match s.readPte vi t1 (bits va 29 13) with
    | .error k => .error k
    | .ok e =>
      if !pteV e || pteLeaf e then .error Kind.notValid
      else
        let a := ptePa e + 8 * bits va 16 13
        match s.readPte vi (ptePa e) (bits va 16 13) with
        | .error k => .error k
        | .ok f => if pteV f && pteLeaf f && !pteSpan f then .ok (a, f) else .error Kind.notValid

/-- The level-0 entry that maps a VA, where a 64 KiB page does. -/
def State.pteOf (s : State) (vi va : Nat) : Option (Nat × Nat) := (s.pteWalk vi va).toOption

/-- The pages a placed section needs. -/
def Section.pages (x : Section) (base : Nat) : List Nat :=
  (upFrom 0 (roundUp x.size 0x10000 / 0x10000)).map fun i => base + x.vaddr + 0x10000 * i

/-- A page is mapped, and lies in the grant. -/
def State.pageReady (s : State) (vi va : Nat) : Bool :=
  (s.pteOf vi va).any fun (_, e) => (s.checkRange vi (s.iface vi).die (pteMt e) (ptePa e) 0x10000).isNone

/-- The pages of the placed sections. -/
def Object.pages (o : Object) (base : Nat) : List Nat := (o.secs.filter Section.placed).flatMap fun x => x.pages base

/-- Every page of the placed sections is mapped, and lies in the grant. -/
def State.pagesReady (s : State) (vi base : Nat) (o : Object) : Bool := (o.pages base).all (s.pageReady vi)

/-- Poison that the walk to the first page that is not ready consumes is recorded (R96). -/
def State.notePages (s : State) (vi base : Nat) (o : Object) : State :=
  match (o.pages base).find? fun va => !s.pageReady vi va with
  | none => s
  | some va =>
    match s.pteWalk vi va with
    | .error k => if k = Kind.poison then s.traceAdd (s.iface vi).die 0 2 va 0 else s
    | .ok _ => s

/-- A section of an object shares a 64 KiB page with one that the interface has loaded and not yet freed (R376). -/
def Iface.sharesPages (i : Iface) (base : Nat) (o : Object) : Bool :=
  (o.secs.filter Section.placed).any fun x => i.objs.any fun y => y.secs.any fun (b, n, _) =>
    overlap (base + x.vaddr) (roundUp x.size 0x10000) b (roundUp n 0x10000)

/-- Place a page: its permissions, CODE executable and read-only, other sections readable and writable, and its bytes. -/
def State.placePage (s : State) (vi : Nat) (code : Bool) (va : Nat) (b : List Byte) : State :=
  match s.pteOf vi va with
  | none => s
  | some (a, e) =>
    let e := e / 2 ^ 7 * 2 ^ 7 + e % 2 ^ 4 + (if code then 2 ^ 4 + 2 ^ 6 else 2 ^ 4 + 2 ^ 5)
    let s := s.memWrite a (toLE 8 e)
    match s.home (s.iface vi).die (ptePa e) with
    | some p => s.memWrite p b
    | none => s

def State.placeSection (s : State) (vi base : Nat) (o : Object) (x : Section) : State :=
  ((x.pages base).zip (upFrom 0 (x.pages base).length)).foldl
    (fun s (va, i) => s.placePage vi (x.type == 1) va (((o.bytesOf x).drop (0x10000 * i)).take 0x10000)) s

/-- COLOAD (R376). -/
def execCoload (vi : Nat) (s : State) : Out :=
  s.hostStep vi 7 false fun h =>
    let base := h.arg 16 8
    match s.readObject vi (h.arg 8 8) base with
    | none => (s.noteObject vi (h.arg 8 8)).refuse vi h Hs.badcmd
    | some o =>
      let i := s.iface vi
      if i.sharesPages base o then s.refuse vi h Hs.badcmd
      else if i.keyHash = [] ∨ sha512 o.modulus ≠ i.keyHash ∨ !rsaVerifies o.modulus o.sig o.covered
          ∨ !o.images.all Config.firmwareVerifies then s.refuse vi h Hs.sig
      else if !s.pagesReady vi base o then (s.notePages vi base o).refuse vi h Hs.badcmd
      else
        let secs := o.secs.filter Section.placed
        let s := secs.foldl (fun s x => s.placeSection vi base o x) s
        let s := s.shootAll vi
        let s := o.images.foldl (fun s m => s.extendMreg 3 (sha512 m)) s
        let obj : Obj := { id := i.nextObj, base := base, secs := secs.map fun x => (base + x.vaddr, x.size, x.type == 1) }
        let s := s.modIface vi fun i => { i with objs := i.objs ++ [obj], nextObj := i.nextObj + 1,
                                                 imreg := extend i.imreg (sha512 o.covered) }
        .next (s.accept vi ((h.put 24 (toLE 4 obj.id)).put 28 (toLE 4 i.ig)))

/-- COUNLOAD (R377): the generation advances, no card enters the object's code any more, and its pages are freed once the
tasks of earlier generations have retired. -/
def execCounload (vi : Nat) (s : State) : Out :=
  s.hostStep vi 8 false fun h =>
    let i := s.iface vi
    match i.objs.find? fun o => o.id == h.arg 0 4 && o.unload.isNone with
    | none => s.refuse vi h Hs.badcmd
    | some o =>
      let u := i.ig + 1
      let s := s.modIface vi fun i =>
        { i with ig := u, objs := i.objs.map fun x => if x.id = o.id then { x with unload := some u } else x }
      .next ((s.freeObjects vi).accept vi (h.put 28 (toLE 4 u)))

end Sys2Proof.Machine
end

