-- ==== Sys2Proof/Machine/Host.lean ====
section
/-! DEFINITION. The host's steps (R364 to R367, R373 to R375, R379): the command doorbell, the commands of Table 25-2 but
COLOAD and COUNLOAD, BAR2, the trace window, function-level reset, and enabling and disabling an interface. -/

namespace Sys2Proof.Machine

/-- COMMAND_DOORBELL (R366): every command from the first not yet read up to `value - 1` is read; the read of a poisoned
entry is recorded (R96). -/
def execCommandDoorbell (vi value : Nat) (s : State) : Out :=
  s.onDie 0 <|
  let i := s.iface vi
  let v := value % 2 ^ 64
  if !i.enabled || decide (v ≤ i.cmdRead) then .next s
  else
    let at_ (m : Nat) : Nat := i.ringBase + 64 * (m % 2 ^ i.ringK)
    let new := (upFrom i.cmdRead (v - i.cmdRead)).map fun m =>
      ({ pos := m, bytes := s.memBytes (at_ m) 64, pois := s.memPois (at_ m) 64 } : HostCmd)
    let s := new.foldl (fun s h => if h.pois then s.traceAdd 0 0 2 (at_ h.pos) 0 else s) s
    .next (s.modIface vi fun i => { i with cmdRead := v, cmds := i.cmds ++ new })

/-! ## Queues -/

/-- QCREATE (R321): a queue of the interface on a die of its partition, from the descriptor. -/
def execQcreate (vi : Nat) (s : State) : Out :=
  s.hostStep vi 1 false fun h =>
    let q := h.arg 0 2
    let d := h.arg 2 1
    let (f, n) := s.partOf (s.iface vi)
    match s.devRead vi d (h.arg 8 8) 64 with
    | some b =>
      if decide (4096 ≤ q) || (s.queue vi q).isSome || !decide (f ≤ d ∧ d < f + n) || !descOk b then s.refuse vi h Hs.badcmd
      else
        let k : Queue := { die := d, desc := b, descVa := h.arg 8 8 }
        let k : Queue := { k with cyc := k.bcyc, pas := k.bpas, hbm := k.bhbm, perAt := s.cycles / k.per * k.per }
        .next ((s.setQueue vi q (some k)).accept vi h)
    | none => (s.noteDev vi d (h.arg 8 8) 64).refuse vi h Hs.badcmd

/-- An existing queue that is not being destroyed. -/
def State.openQueue (s : State) (vi q : Nat) : Option Queue := (s.queue vi q).filter fun k => !k.destroyed

/-- QMAP (R325): the scheduler maps the queue into a free hardware slot by QUEUE_MAP. -/
def execQmap (vi : Nat) (s : State) : Out :=
  s.hostStep vi 2 false fun h =>
    match s.openQueue vi (h.arg 0 2) with
    | none => s.refuse vi h Hs.badcmd
    | some _ => .next ((s.modQueue vi (h.arg 0 2) fun k => { k with journal := true }).accept vi h)

/-- A queue leaves its hardware slot, if it has one. -/
def State.unmapQueue (s : State) (vi q : Nat) : State :=
  match s.queue vi q with
  | some k => (match k.st with
    | .mapped hw => s.unmap k.die hw
    | _ => s)
  | none => s

/-- QUNMAP (R325). -/
def execQunmap (vi : Nat) (s : State) : Out :=
  s.hostStep vi 3 false fun h =>
    match s.openQueue vi (h.arg 0 2) with
    | none => s.refuse vi h Hs.badcmd
    | some _ => .next (((s.unmapQueue vi (h.arg 0 2)).modQueue vi (h.arg 0 2) fun k => { k with journal := false }).accept vi h)

/-- The queue accepts no card and deals no record; each card that has not completed is to end with CANCEL, and is complete
where no task of it is left. -/
def State.cancelQueue (s : State) (vi q : Nat) : State :=
  let cancel (d : Card) : Card := if d.complete then d else { d with cancelled := true, status := max d.status 6 }
  let s := (s.unmapQueue vi q).modQueue vi q fun k =>
    Queue.noteDone { k with destroyed := true, w := k.r, cards := k.cards.map cancel }
  ((s.queue vi q).elim [] Queue.dones).foldl (fun s n => s.releaseHandles vi q n) s

/-- QDESTROY (Table 25-2): its cards end by CARD_COMPLETE, and the reply follows the last of them. -/
def execQdestroy (vi : Nat) (s : State) : Out :=
  s.hostStep vi 4 false fun h =>
    let q := h.arg 0 2
    if h.begun then
      match s.queue vi q with
      | some k => .next (if k.cards.isEmpty then (s.setQueue vi q none).accept vi h else s)
      | none => .next (s.accept vi h)
    else
      match s.openQueue vi q with
      | none => s.refuse vi h Hs.badcmd
      | some _ => .next ((s.cancelQueue vi q).markBegun vi)

/-! ## Endpoints (R85, R86) -/

/-- EPATTACH. -/
def execEpattach (vi : Nat) (s : State) : Out :=
  s.hostStep vi 5 false fun h =>
    let p := h.arg 1 1
    if 4 ≤ p ∨ 2 ^ 48 < h.arg 16 8 then s.refuse vi h Hs.badcmd
    else
      let e : Endpoint := { attached := true, addr := h.arg 8 8, extent := h.arg 16 8, r := bitAt p 0, w := bitAt p 1 }
      .next ((s.modIface vi fun i => { i with eps := Tab.set i.eps (h.arg 0 1) e }).accept vi h)

def Side.names (x : Side) (ep : Nat) : Bool := x.space == 2 && x.ep == ep

/-- A command of the queues names an endpoint. -/
def Cmd.names (k : Cmd) (ep : Nat) : Bool :=
  match k.kind with
  | .cpy | .cpyg | .cpyx => k.srcSide.names ep || k.dstSide.names ep
  | .sbind => (bindSide k.block k.src).names ep
  | _ => false

/-- A bind of a port, carried or pending, names an endpoint of an interface. -/
def Port.names (p : Port) (vi ep : Nat) : Bool :=
  (p.stream.any fun t => t.bind.vi == vi && t.bind.side.names ep && !t.ended)
    || p.pending.any fun b => b.vi == vi && b.side.names ep

/-- A port saved in a context area names an endpoint: of a slot that holds its task, or of a task whose context is saved. -/
def State.savedEpBusy (s : State) (vi ep : Nat) : Bool :=
  (s.cores.any fun (_, k) => k.slots.any fun (n, l) =>
      l.task.any (fun t => t.vi == vi) && l.savedPorts.any fun j => (s.areaPort (k.area n) j n vi).names vi ep)
    || s.saved.any fun t => t.task.vi == vi && (upFrom 0 8).any fun j => (s.areaPort t.area j 0 vi).names vi ep

/-- Some command or stream of an interface that names an endpoint has not performed all its accesses (R86). -/
def State.epBusy (s : State) (vi ep : Nat) : Bool :=
  (s.cores.any fun (_, k) =>
    (k.slots.any fun (_, l) => l.queues.any fun (_, ks) => ks.any fun x => x.vi == vi && x.names ep)
      || k.ports.any fun (_, p) => p.names vi ep)
    || s.savedEpBusy vi ep

/-- EPDETACH: commands issued from now on are rejected; the reply waits for the earlier ones. -/
def execEpdetach (vi : Nat) (s : State) : Out :=
  s.hostStep vi 6 false fun h =>
    let ep := h.arg 0 1
    if s.epBusy vi ep then
      if h.begun then .next s
      else
        .next ((s.modIface vi fun i =>
          { i with eps := Tab.set i.eps ep { (Tab.get {} i.eps ep) with attached := false } }).markBegun vi)
    else .next ((s.modIface vi fun i => { i with eps := Tab.set i.eps ep {} }).accept vi h)

/-! ## Physical-function commands -/

/-- PARTCHG (R370): runtime firmware performs PARTCTL for it, on a core of its own choice without placed slots; the change
and the reply follow by PARTCTL_QUIESCED. The operation's core is 640, which names none. -/
def execPartchg (vi : Nat) (s : State) : Out :=
  s.hostStep vi 9 true fun h =>
    if h.begun || !s.part.isEmpty then .next s
    else
      let va := h.arg 8 8
      match (if va % 64 = 0 then s.devRead 0 (s.iface 0).die va 64 else none) with
      | none => (if va % 64 = 0 then s.noteDev 0 (s.iface 0).die va 64 else s).refuse vi (h.put 0 (toLE 4 2)) Hs.badcmd
      | some b =>
        if s.partBad b then s.refuse vi (h.put 0 (toLE 4 2)) Hs.badcmd
        else
          .next ((s.beginPart { core := 640, req := b, addr := BitVec.ofNat 64 va, began := s.cycles, cmdVi := some vi }).markBegun vi)

/-- LLS blocks a die can grant outside its carve-out. -/
def Die.blocks (k : Die) : Nat := 16 * (48 - k.carv)

/-- The quotas of the interfaces bound to the partition of a die, but one interface. -/
def State.quotaSum (s : State) (vi die : Nat) (f : Iface → Nat) : Nat :=
  s.ifaces.foldl (fun t (v, i) => if v ≠ vi ∧ i.enabled ∧ i.die = die then t + f i else t) 0

/-- QUOTA exceeds what the partition has. -/
def State.quotaBad (s : State) (vi hbm lls : Nat) : Bool :=
  let (f, n) := s.partOf (s.iface vi)
  decide (n * unitsPerDie - Config.firmwareUnits < s.quotaSum vi f Iface.qHbm + hbm)
    || (upFrom f n).any fun d => decide ((s.die d).blocks < s.quotaSum vi f Iface.qLls + lls)

/-- The first `n` of a list, the rest filled from another list. -/
def fillUp {α : Type} [BEq α] (n : Nat) (held pool : List α) : List α :=
  let l := held.take n
  l ++ (pool.filter fun x => !held.contains x).take (n - l.length)

/-- Grant an interface its quota: what it holds, then the lowest units and blocks that no interface holds (log entry 21). -/
def State.grant (s : State) (vi : Nat) : State :=
  let i := s.iface vi
  let (f, n) := s.partOf i
  let others := (s.ifaces.filter fun (v, j) => v != vi && j.enabled).map Prod.snd
  let top := (f + n) * unitsPerDie - Config.firmwareUnits
  let units := (upFrom (f * unitsPerDie) (top - f * unitsPerDie)).filter fun u => !(others.any fun j => j.hbm.contains u)
  let hbm := fillUp i.qHbm (i.hbm.filter fun u => decide (f * unitsPerDie ≤ u ∧ u < top)) units
  let near := others.filter fun j => j.die == i.die
  let free (d m : Nat) : List (Nat × Nat) :=
    ((upFrom 0 m).map fun b => (d, b)).filter fun x => !(near.any fun j => j.lls.contains x)
  let lls := if (s.die i.die).pooled then
      fillUp (n * i.qLls) (i.lls.filter fun x => x.1 == 4) (free 4 (((upFrom f n).map fun d => (s.die d).blocks).foldl min 768 * n))
    else (upFrom f n).flatMap fun d => fillUp i.qLls (i.lls.filter fun x => x.1 == d) (free d (s.die d).blocks)
  -- a unit that changes hands is read with another key (R83, R374)
  let moved := (i.hbm.filter fun u => !hbm.contains u) ++ hbm.filter fun u => !i.hbm.contains u
  let s := moved.foldl (fun s u => (s.addFog (u * 0x20000000) 0x20000000).dropResv (u * 0x20000000) 0x20000000) s
  (s.modIface vi fun i => { i with hbm := hbm, lls := lls }).shootAll vi

/-- QUOTA (R365). -/
def execQuota (vi : Nat) (s : State) : Out :=
  s.hostStep vi 10 true fun h =>
    let v := h.arg 0 2
    if !(s.iface v).enabled then s.refuse vi h Hs.badcmd
    else if 32 < h.arg 2 1 ∨ 2048 < h.arg 4 2 ∨ s.quotaBad v (h.arg 8 4) (h.arg 12 4) then s.refuse vi h Hs.quota
    else
      let s := s.modIface v fun i =>
        { i with winShare := h.arg 2 1, barShare := h.arg 4 2, qHbm := h.arg 8 4, qLls := h.arg 12 4 }
      .next ((s.grant v).accept vi h)

/-- KEYSET (R366): the SHA-512 of the modulus. -/
def execKeyset (vi : Nat) (s : State) : Out :=
  s.hostStep vi 11 true fun h =>
    let v := h.arg 0 2
    match s.devRead vi (s.iface vi).die (h.arg 8 8) 512 with
    | some b =>
      if (s.iface v).enabled then
        .next ((s.modIface v fun i => { i with keyHash := sha512 b }).accept vi h)
      else s.refuse vi h Hs.badcmd
    | none => (s.noteDev vi (s.iface vi).die (h.arg 8 8) 512).refuse vi h Hs.badcmd

/-! ## QUOTE (R375) -/

def Lifecycle.code : Lifecycle → Nat
  | .manuf => 0
  | .prod => 1
  | .debug => 2
  | .rma => 3

def State.quoteBytes (s : State) (vi : Nat) (nonce : List Byte) : List Byte :=
  (upFrom 0 16).map Config.deviceId ++ toLE 4 s.life.code ++ toLE 2 vi ++ List.replicate 42 0
    ++ ((upFrom 0 8).flatMap fun n => measured (Tab.get [] s.mregs n)) ++ measured (s.iface vi).imreg ++ padTo 64 nonce
    ++ List.replicate 320 0

/-- QUOTE is answered without a journal entry. -/
def execQuote (vi : Nat) (s : State) : Out :=
  s.hostStep vi 12 false fun h =>
    let d := (s.iface vi).die
    match s.devRead vi d (h.arg 8 8) 64 with
    | none => (s.noteDev vi d (h.arg 8 8) 64).refuse vi h Hs.badcmd
    | some n =>
      let q := s.quoteBytes vi n
      match s.devWrite vi d (h.arg 16 8) (q ++ (upFrom 0 512).map (Config.attest q)) with
      | none => (s.noteWrite vi d (h.arg 16 8) (q.length + 512)).refuse vi h Hs.badcmd
      | some s => .next (s.reply vi h Hs.ok 0)

/-! ## BAR2 and the trace window -/

/-- The cell of an offset of BAR2: the interface's units in ascending order of address (R364). -/
def Iface.barCell (i : Iface) (o : Nat) : Option Nat :=
  let units := (upFrom 0 (4 * unitsPerDie)).filter fun u => i.hbm.contains u
  (units[o / 0x20000000]?).map fun u => u * 0x20000000 + o % 0x20000000

/-- Write bytes at an offset of BAR2, unit by unit; what lies beyond the grant is not written. -/
def State.barWrite (s : State) (i : Iface) : Nat → Nat → List Byte → State
  | 0, _, _ => s
  | fuel + 1, o, b =>
    let n := 0x20000000 - o % 0x20000000
    let s := match i.barCell o with
      | some a => s.memWrite a (b.take n)
      | none => s
    if b.length ≤ n then s else State.barWrite s i fuel (o + n) (b.drop n)

/-- The bytes of the grant at offsets of BAR2; there are none beyond it. -/
def State.barBytes (s : State) (i : Iface) (o n : Nat) : List Byte := (upFrom o n).filterMap fun x => (i.barCell x).map s.memByte

/-- A host access through BAR2 (R364): a write stores the bytes, a read returns `len` of them. -/
def execBar2Access (vi off : Nat) (write : Option (List Byte)) (len : Nat) (s : State) : Out :=
  s.onDie 0 <|
  let i := s.iface vi
  if !i.enabled then .next s
  else
    match write with
    | none => .next (s.send (.read vi (s.barBytes i off len)))
    | some b => .next (s.barWrite i (b.length / 0x20000000 + 2) off b)

/-- What a host read of a doubleword of BAR0 returns (R364, R323, R372): JNEXT, the boot status word, zero at a notify
register, and zero at the doorbell, which is write-only (R7). How the status word names a stage is not given: it holds the
stage's number plus one, and zero where boot has not failed (log entry 72). -/
def State.bar0 (s : State) (vi off : Nat) : Option Word :=
  if off % 8 ≠ 0 then none
  else if off ≤ 0x8000 then some 0
  else if off = 0x8008 then some (BitVec.ofNat 64 (s.iface vi).jnext)
  else if off = 0x8010 then some (BitVec.ofNat 64 (s.bootFailed.elim 0 (· + 1)))
  else none

/-- What a host read of a doubleword of BAR4 returns: the interface's MSI-X table of 2,048 vectors of 16 bytes (R364). -/
def State.bar4 (s : State) (vi off : Nat) : Option Word :=
  if off % 8 = 0 ∧ off < 0x8000 then some (BitVec.ofNat 64 (fld (s.iface vi).msix off 8)) else none

/-- A host write of a doubleword of BAR4. No step carries it: no row of the opcode table is an access of BAR4, so a
statement about programmed vectors starts from a state that holds them (log entry 72). -/
def State.bar4Write (s : State) (vi off : Nat) (x : Word) : State :=
  if off % 8 = 0 ∧ off < 0x8000 then
    s.modIface vi fun i =>
      let t := if i.msix.isEmpty then List.replicate 0x8000 0 else i.msix
      { i with msix := t.take off ++ toLE 8 x.toNat ++ t.drop (off + 8) }
  else s

/-- The bytes of the trace entry interface 0 reads next (R379). -/
def State.traceBytes (s : State) (die : Nat) : List Byte :=
  let t := (s.die die).trace
  match t.entries[t.reading]? with
  | none => List.replicate 32 0
  | some e =>
    toLE 8 e.time ++ toLE 2 die ++ toLE 2 e.core ++ toLE 2 (Config.traceCode e.kind).toNat ++ toLE 2 0
      ++ (upFrom 0 16).map (Config.tracePayload e.kind e.a e.b)

/-- TRACE_WINDOW_READ: interface 0 is given the next entry of a frozen trace, oldest first; the read of the last one
unfreezes it. A trace that goes on is not read (log entry 72). -/
def execTraceWindowRead (die : Nat) (s : State) : Out :=
  if 4 ≤ die then .next s
  else
    let t := (s.die die).trace
    if !t.frozen then .next s
    else
      let s := s.send (.read 0 (s.traceBytes die))
      if t.reading + 1 < t.entries.length then
        .next (s.modDie die fun k => { k with trace := { k.trace with reading := t.reading + 1 } })
      else .next (s.modDie die fun k => { k with trace := { k.trace with frozen := false, reading := 0 } })

/-! ## Interfaces -/

/-- A command firmware performs for a function-level reset. -/
def internalCmd (code : Nat) (args : List Byte) : HostCmd :=
  { pos := 0, bytes := padTo 64 (toLE 2 code ++ toLE 2 0 ++ args), internal := true }

/-- FUNCTION_LEVEL_RESET of a virtual function (R367): QDESTROY of every queue, EPDETACH of every endpoint, COUNLOAD of
every object, each performed and journalled in turn. -/
def execFunctionLevelReset (vi : Nat) (s : State) : Out :=
  s.onDie 0 <|
  let i := s.iface vi
  if vi = 0 ∨ !i.enabled then .next s
  else
    let qs := i.queues.filterMap fun (q, k) => if k.any fun x => !x.destroyed then some (internalCmd 4 (toLE 2 q)) else none
    let es := i.eps.filterMap fun (e, x) => if x.attached then some (internalCmd 6 (toLE 1 e)) else none
    let os := i.objs.filterMap fun o => if o.unload.isNone then some (internalCmd 8 (toLE 4 o.id)) else none
    .next (s.modIface vi fun i => { i with cmds := i.cmds ++ qs ++ es ++ os })

/-- INTERFACE_ENABLE (R366, R367, R374): its key is generated, its XROOT invalid, IMREG zero; MANUF and RMA hold no tenant
key. Where boot has failed only interface 0 is presented (R372). -/
def execInterfaceEnable (vi die ringBase ringK journalBase : Nat) (s : State) : Out :=
  if vi ≠ 0 ∧ (s.bootFailed.isSome ∨ (s.die 0).fatal) then .next s
  else if 1024 < vi ∨ 4 ≤ die ∨ (s.iface vi).enabled ∨ ringK < 4 ∨ 12 < ringK then .next s
  else
    let key := if s.life = .prod ∨ s.life = .debug then some s.keyNo else none
    let i : Iface := { enabled := true, die := (s.die die).first, hbmKey := key, ringBase := ringBase, ringK := ringK, jbase := journalBase }
    .next { s with ifaces := Tab.set s.ifaces vi i, keyNo := s.keyNo + 1 }

/-- What an interface's key encrypted can no longer be read (R373, R374). -/
def State.loseKey (s : State) (vi : Nat) : State :=
  let s := (s.iface vi).hbm.foldl (fun s u => s.addFog (u * 0x20000000) 0x20000000) s
  s.modIface vi fun i => { i with hbmKey := none }

/-- INTERFACE_DISABLE (R374). -/
def execInterfaceDisable (vi : Nat) (s : State) : Out :=
  s.onDie 0 <|
  if !(s.iface vi).enabled then .next s
  else .next ((s.loseKey vi).modIface vi fun i => { i with enabled := false, xroot := none })

/-- DEBUG_UNLOCK (R373): accepted in PROD with a token that verifies. -/
def execDebugUnlock (token : List Byte) (s : State) : Out :=
  s.onDie 0 <|
  if s.life = .prod ∧ Config.tokenVerifies token then
    let s := (s.ifaces.map Prod.fst).foldl (fun s vi => (s.loseKey vi).modIface vi fun i => { i with keyHash := [] }) s
    .next { (s.extendMreg 4 (sha512 token)) with life := .debug, debugOpen := true }
  else .next s

end Sys2Proof.Machine
end

