-- ==== Sys2Proof/Machine/Loops.lean ====
section
/-! DEFINITION. LOOP, LOOPI and LBRK (R160, R162). -/

namespace Sys2Proof.Machine

/-- A level whose body does not enclose `[b, e]` is abandoned (R160). -/
def LoopLevel.enclose (l : LoopLevel) (b e : Word) : LoopLevel :=
  if l.act ∧ (b < l.start ∨ l.stop < e) then { l with act := false, pw := false } else l

/-- loop_open of R160: open level `n` over the body of `bl + 1` parcels after the instruction at `a`. -/
def Ctl.openLoop (k : Ctl) (n : Nat) (cnt : W32) (bl : BitVec 8) (a : Word) : Ctl :=
  let b := a + 4
  let e := b + 2 * (zx bl + 1)
  let k := { k with loops := k.loops.map fun (m, l) => (m, LoopLevel.enclose l b e) }
  k.setLoop n { act := true, bl := bl, cnt := cnt, start := b, stop := e, body := true }

/-- LBRK's effect on a level: it and every active level inside its body become inactive (R162). -/
def Ctl.breakLoop (k : Ctl) (n : Nat) : Ctl :=
  let o := k.loop n
  { k with loops := k.loops.map fun (m, l) =>
      (m, if m = n ∨ (l.act ∧ o.start ≤ l.start ∧ l.stop ≤ o.stop) then { l with act := false, pw := false } else l) }

/-- min(x, 2^32 - 1), unsigned (R160). -/
def loopCount (x : Word) : W32 := if x.toNat < 2 ^ 32 then x.truncate 32 else 0xFFFFFFFF

def execLoop (l : BitVec 2) (bl : BitVec 8) (rs1 : Reg) (s : State) : Out :=
  s.begin (.loop l bl rs1) [rs1] <|
    let n := loopCount (s.getX rs1)
    -- a count of 0 opens no level and continues at the body's end, which is no jump (log entry 23)
    if n = 0 then .next (s.retire (4 + 2 * (bl.toNat + 1)))
    else .next ((s.modMe fun k => k.openLoop l.toNat n bl k.pc).retire)

def execLoopi (l : BitVec 2) (bl : BitVec 8) (cnt : BitVec 5) (s : State) : Out :=
  s.begin (.loopi l bl cnt) [] <|
    .next ((s.modMe fun k => k.openLoop l.toNat (cnt.zeroExtend 32 + 1) bl k.pc).retire)

/-- LBRK: an active level l and the levels inside it end, and the pc is the address after its body, which an outer level that
ends there sees arrive by a fall (R161, R162). DESIGN CHOICE (log entry 82): no rule says how LBRK arrives there. -/
def execLbrk (l : BitVec 2) (s : State) : Out :=
  s.begin (.lbrk l) [] <|
    let o := s.me.loop l.toNat
    if o.act then
      .next (s.countInstr.modMe fun k =>
        let k := k.breakLoop l.toNat
        { k with wait := none }.takeGroup.goto true o.stop)
    else .next s.retire

end Sys2Proof.Machine
end

