-- ==== Sys2Proof/Machine/Ordering.lean ====
section
/-! DEFINITION. ZFENCE, the scoped atomics, the prefixes, HINT and TSTAMP (R174 to R177, R184, R189). Accesses are
performed one after another in the agenda's order, so a fence finds every earlier access performed (log entries 1, 2). -/

namespace Sys2Proof.Machine

/-- What an atomic writes: a value, or nothing (R175). -/
inductive AtomicOp where
  | add
  | mins
  | maxs
  | xchg
  | cas
deriving DecidableEq, Repr

/-- The new value of an atomic of `8*w` bits on the old value, the operand and the comparand (R175). -/
def atomicNew (op : AtomicOp) (w old v cmp : Nat) : Option Nat :=
  let n := 8 * w
  match op with
  | .add => some (wrapN n (sgn n old + sgn n v))
  | .mins => some (wrapN n (min (sgn n old) (sgn n v)))
  | .maxs => some (wrapN n (max (sgn n old) (sgn n v)))
  | .xchg => some (v % 2 ^ n)
  | .cas => if old = cmp % 2 ^ n then some (v % 2 ^ n) else none

/-- Sign-extend the low `8*w` bits to 64. -/
def sextW (w x : Nat) : Word := BitVec.ofInt 64 (sgn (8 * w) x)

/-- A read-modify-write at `va`, indivisible (R104): translated for reading and writing; poison in the old value
takes cause 31 and writes nothing. The continuation gets the old value. -/
def State.rmw (s : State) (va : Word) (w : Nat) (f : Nat → Option Nat) (k : State → Nat → Out) : Out :=
  s.forStore va w .rmw fun s l =>
    let s := s.chargeLoad s.cur l
    if s.poisPieces l then (s.consumed s.cur va.toNat (s.core s.cur).dataMode l).recordTrap 31 0 va.toNat s.me.epc
    else
      let old := leNat (s.readPieces l)
      match f old with
      | none => k s old
      | some v => k ((s.writePieces l (toLE w v)).chargeRun s.cur (costPieces l)) old

/-- x(8 + rdc), the destination and comparand of an atomic (R131). -/
def rdcReg (rdc : BitVec 3) : Reg := BitVec.ofNat 5 (8 + rdc.toNat)

/-- A scoped atomic (R175). -/
def State.atomic (s : State) (i : Instr) (op : AtomicOp) (w : Nat) (rs2 rs1 : Reg) (rdc : BitVec 3) : Out :=
  s.begin i [rs1, rs2, rdcReg rdc] <|
    let a := s.getX rs1
    if a.toNat % w ≠ 0 then s.trap 6 a
    else
      s.rmw a w (fun old => atomicNew op w old (s.getX rs2).toNat (s.getX (rdcReg rdc)).toNat) fun t old =>
        t.result (rdcReg rdc) (sextW w old)

def execAaddW (sc : Scope) (rs2 rs1 : Reg) (aq rl : Bool) (rdc : BitVec 3) (s : State) : Out :=
  s.atomic (.aaddW sc rs2 rs1 aq rl rdc) .add 4 rs2 rs1 rdc
def execAminsW (sc : Scope) (rs2 rs1 : Reg) (aq rl : Bool) (rdc : BitVec 3) (s : State) : Out :=
  s.atomic (.aminsW sc rs2 rs1 aq rl rdc) .mins 4 rs2 rs1 rdc
def execAmaxsW (sc : Scope) (rs2 rs1 : Reg) (aq rl : Bool) (rdc : BitVec 3) (s : State) : Out :=
  s.atomic (.amaxsW sc rs2 rs1 aq rl rdc) .maxs 4 rs2 rs1 rdc
def execAxchgW (sc : Scope) (rs2 rs1 : Reg) (aq rl : Bool) (rdc : BitVec 3) (s : State) : Out :=
  s.atomic (.axchgW sc rs2 rs1 aq rl rdc) .xchg 4 rs2 rs1 rdc
def execAcasW (sc : Scope) (rs2 rs1 : Reg) (aq rl : Bool) (rdc : BitVec 3) (s : State) : Out :=
  s.atomic (.acasW sc rs2 rs1 aq rl rdc) .cas 4 rs2 rs1 rdc
def execAaddD (sc : Scope) (rs2 rs1 : Reg) (aq rl : Bool) (rdc : BitVec 3) (s : State) : Out :=
  s.atomic (.aaddD sc rs2 rs1 aq rl rdc) .add 8 rs2 rs1 rdc
def execAminsD (sc : Scope) (rs2 rs1 : Reg) (aq rl : Bool) (rdc : BitVec 3) (s : State) : Out :=
  s.atomic (.aminsD sc rs2 rs1 aq rl rdc) .mins 8 rs2 rs1 rdc
def execAmaxsD (sc : Scope) (rs2 rs1 : Reg) (aq rl : Bool) (rdc : BitVec 3) (s : State) : Out :=
  s.atomic (.amaxsD sc rs2 rs1 aq rl rdc) .maxs 8 rs2 rs1 rdc
def execAxchgD (sc : Scope) (rs2 rs1 : Reg) (aq rl : Bool) (rdc : BitVec 3) (s : State) : Out :=
  s.atomic (.axchgD sc rs2 rs1 aq rl rdc) .xchg 8 rs2 rs1 rdc
def execAcasD (sc : Scope) (rs2 rs1 : Reg) (aq rl : Bool) (rdc : BitVec 3) (s : State) : Out :=
  s.atomic (.acasD sc rs2 rs1 aq rl rdc) .cas 8 rs2 rs1 rdc

/-- ZFENCE (R174): every earlier access is already performed, so it completes. -/
def execZfence (sc : Scope) (pred succ : BitVec 2) (s : State) : Out :=
  s.begin (.zfence sc pred succ) [] <| .next s.retire

/-- Complete a prefix: it joins the pending group (R133). -/
def State.addPrefix (s : State) (f : Prefixes → Prefixes) : State :=
  s.countInstr.modMe fun k =>
    let p := k.pre.getD { first := k.pc }
    { k with pre := some (f p) }.goto true (k.pc + 4)

def execScope (sc : Scope) (s : State) : Out :=
  if s.me.pre.any fun p => p.scope.isSome then s.illegal (s.bitsOf (.scope sc)) Enc.subRepeat
  else .next (s.addPrefix fun p => { p with scope := some sc })

def execLogp (fa fb fc : BitVec 2) (rs2 rs1 : Reg) (s : State) : Out :=
  if s.me.pre.any fun p => p.logp.isSome then s.illegal (s.bitsOf (.logp fa fb fc rs2 rs1)) Enc.subRepeat
  else if [rs1, rs2].any fun r => r != 0 && (s.core s.cur).pendingRegs.contains r then .next s
  else .next (s.addPrefix fun p => { p with logp := some ⟨fa, fb, fc, s.getX rs1, s.getX rs2⟩ })

/-- HINT takes and ignores any pending group (R133, R189). -/
def execHint (_imm : BitVec 12) (_rs1 _rd : Reg) (s : State) : Out := .next s.retire

def execTstamp (rd : Reg) (s : State) : Out :=
  s.begin (.tstamp rd) [rd] <| s.result rd (BitVec.ofNat 64 s.time)

end Sys2Proof.Machine
end

