-- ==== Sys2Proof/Machine/StdInt.lean ====
section
/-! DEFINITION. The integer operations of the control core (R126): RV64I, M, Zba and Zbb, loads and stores, the A extension
(R104, R106, R176), Zicsr and Zifencei (R118). -/

namespace Sys2Proof.Machine

/-! ## Computation -/

/-- The low 32 bits, and their sign extension back to a register. -/
def lowW (x : Word) : W32 := x.truncate 32

/-- The high half of the product of two 128-bit extensions. -/
def mulHigh (a b : BitVec 128) : Word := (a * b).extractLsb' 64 64

/-- Signed division: -1 for a zero divisor; the most negative number divided by -1 is itself. -/
def divS {n : Nat} (a b : BitVec n) : BitVec n := if b = 0 then BitVec.allOnes n else a.sdiv b
def divU {n : Nat} (a b : BitVec n) : BitVec n := if b = 0 then BitVec.allOnes n else a / b
def remS {n : Nat} (a b : BitVec n) : BitVec n := if b = 0 then a else a.srem b
def remU {n : Nat} (a b : BitVec n) : BitVec n := if b = 0 then a else a % b

/-- Shift amounts: the low 6 bits, or the low 5 for 32-bit operations. -/
def sh6 (x : Word) : Nat := x.toNat % 64
def sh5 (x : Word) : Nat := x.toNat % 32

/-- A register-register operation. -/
def regEval (op : RegOp) (a b : Word) : Word :=
  let aw := lowW a
  let bw := lowW b
  match op with
  | .add => a + b
  | .sub => a - b
  | .sll => a <<< sh6 b
  | .slt => zx (BitVec.ofBool (a.slt b))
  | .sltu => zx (BitVec.ofBool (a.ult b))
  | .xor => a ^^^ b
  | .srl => a >>> sh6 b
  | .sra => a.sshiftRight (sh6 b)
  | .or => a ||| b
  | .and => a &&& b
  | .addw => sx (aw + bw)
  | .subw => sx (aw - bw)
  | .sllw => sx (aw <<< sh5 b)
  | .srlw => sx (aw >>> sh5 b)
  | .sraw => sx (aw.sshiftRight (sh5 b))
  | .mul => a * b
  | .mulh => mulHigh (a.signExtend 128) (b.signExtend 128)
  | .mulhsu => mulHigh (a.signExtend 128) (b.zeroExtend 128)
  | .mulhu => mulHigh (a.zeroExtend 128) (b.zeroExtend 128)
  | .div => divS a b
  | .divu => divU a b
  | .rem => remS a b
  | .remu => remU a b
  | .mulw => sx (aw * bw)
  | .divw => sx (divS aw bw)
  | .divuw => sx (divU aw bw)
  | .remw => sx (remS aw bw)
  | .remuw => sx (remU aw bw)
  | .addUw => b + zx aw
  | .sh1add => b + a <<< 1
  | .sh2add => b + a <<< 2
  | .sh3add => b + a <<< 3
  | .sh1addUw => b + (zx aw : Word) <<< 1
  | .sh2addUw => b + (zx aw : Word) <<< 2
  | .sh3addUw => b + (zx aw : Word) <<< 3
  | .andn => a &&& ~~~b
  | .orn => a ||| ~~~b
  | .xnor => ~~~(a ^^^ b)
  | .max => if a.slt b then b else a
  | .maxu => if a.ult b then b else a
  | .min => if a.slt b then a else b
  | .minu => if a.ult b then a else b
  | .rol => a.rotateLeft (sh6 b)
  | .ror => a.rotateRight (sh6 b)
  | .rolw => sx (aw.rotateLeft (sh5 b))
  | .rorw => sx (aw.rotateRight (sh5 b))

/-- A register-immediate operation; the immediate is sign-extended. -/
def immEval (op : ImmOp) (a : Word) (imm : BitVec 12) : Word :=
  let i : Word := sx imm
  match op with
  | .addi => a + i
  | .slti => zx (BitVec.ofBool (a.slt i))
  | .sltiu => zx (BitVec.ofBool (a.ult i))
  | .xori => a ^^^ i
  | .ori => a ||| i
  | .andi => a &&& i
  | .addiw => sx (lowW a + lowW i)

def shiftEval (op : ShiftOp) (a : Word) (sh : BitVec 6) : Word :=
  let n := sh.toNat
  match op with
  | .slli => a <<< n
  | .srli => a >>> n
  | .srai => a.sshiftRight n
  | .rori => a.rotateRight n
  | .slliUw => (zx (lowW a) : Word) <<< n

def shiftWEval (op : ShiftWOp) (a : Word) (sh : BitVec 5) : Word :=
  let x := lowW a
  let n := sh.toNat
  match op with
  | .slliw => sx (x <<< n)
  | .srliw => sx (x >>> n)
  | .sraiw => sx (x.sshiftRight n)
  | .roriw => sx (x.rotateRight n)

/-- Set bits among the low `n` of a number. -/
def onesIn (n x : Nat) : Nat := ((upFrom 0 n).filter x.testBit).length

/-- Leading and trailing zeros of the low `n` bits; `n` for zero. -/
def leadZeros (n x : Nat) : Nat := if x = 0 then n else n - 1 - Nat.log2 x
def trailZeros (n x : Nat) : Nat := (firstFrom x.testBit 0 n).getD n

def unaryEval (op : UnaryOp) (a : Word) : Word :=
  let x := a.toNat
  let w := x % 2 ^ 32
  let num (n : Nat) : Word := BitVec.ofNat 64 n
  match op with
  | .clz => num (leadZeros 64 x)
  | .ctz => num (trailZeros 64 x)
  | .cpop => num (onesIn 64 x)
  | .clzw => num (leadZeros 32 w)
  | .ctzw => num (trailZeros 32 w)
  | .cpopw => num (onesIn 32 w)
  | .sextB => sx (a.extractLsb' 0 8)
  | .sextH => sx (a.extractLsb' 0 16)
  | .zextH => zx (a.extractLsb' 0 16)
  | .orcB => num (leNat ((toLE 8 x).map fun b => if b = 0 then 0 else 0xFF))
  | .rev8 => num (leNat (toLE 8 x).reverse)

def branchTaken (op : BranchOp) (a b : Word) : Bool :=
  match op with
  | .beq => a == b
  | .bne => a != b
  | .blt => a.slt b
  | .bge => !a.slt b
  | .bltu => a.ult b
  | .bgeu => !a.ult b

/-! ## Control flow -/

/-- A target `off` parcels from the pc. -/
def Ctl.target {n : Nat} (k : Ctl) (off : BitVec n) : Word := k.pc + (sx off <<< 1)

/-- The address of the instruction after one of `len` bytes, which JAL and JALR link. -/
def State.nextPc (s : State) (len : Nat) : Word := s.me.pc + BitVec.ofNat 64 len

def State.jal (s : State) (rd : Reg) (off : BitVec 20) (len : Nat) : Out :=
  .next ((s.setX rd (s.nextPc len)).retireTo (s.me.target off))

/-- The target is computed before the link is written; its bit 0 is cleared. -/
def State.jalr (s : State) (rd rs1 : Reg) (imm : BitVec 12) (len : Nat) : Out :=
  let t := (s.getX rs1 + sx imm) &&& ~~~1#64
  .next ((s.setX rd (s.nextPc len)).retireTo t)

def State.branch (s : State) (op : BranchOp) (rs1 rs2 : Reg) (off : BitVec 12) (len : Nat) : Out :=
  if branchTaken op (s.getX rs1) (s.getX rs2) then .next (s.retireTo (s.me.target off)) else .next (s.retire len)

/-! ## Loads and stores -/

def loadWidth : LoadOp → Nat
  | .lb | .lbu => 1
  | .lh | .lhu => 2
  | .lw | .lwu => 4
  | .ld => 8

/-- The value a load gives from the number read. -/
def loadValue (op : LoadOp) (x : Nat) : Word :=
  match op with
  | .lb => sextW 1 x
  | .lh => sextW 2 x
  | .lw => sextW 4 x
  | _ => BitVec.ofNat 64 x

/-- A load of any alignment (R126; log entry 6). -/
def State.loadInto (s : State) (op : LoadOp) (rd rs1 : Reg) (imm : BitVec 12) (len : Nat) : Out :=
  s.load (s.getX rs1 + sx imm) (loadWidth op) fun s b => s.result rd (loadValue op (leNat b)) len

def storeWidth : StoreOp → Nat
  | .sb => 1
  | .sh => 2
  | .sw => 4
  | .sd => 8

def State.storeFrom (s : State) (op : StoreOp) (rs1 rs2 : Reg) (imm : BitVec 12) (len : Nat) : Out :=
  s.store (s.getX rs1 + sx imm) (toLE (storeWidth op) (s.getX rs2).toNat) fun s => .next (s.retire len)

/-! ## The A extension -/

/-- The scope an access to memory acts at: `.lane` acts as `.core`, `.pod` as `.pkg` (R98). -/
def memScope (sc : Scope) : Scope := if sc = 0 then 1 else if sc = 5 then 4 else sc

/-- The scope of an A-extension instruction: SCOPE's, else `.core` (R98, R176). -/
def State.aScope (s : State) : Scope := memScope ((s.me.pre.bind Prefixes.scope).getD 1)

/-- A SCOPE prefix is pending on the instruction. -/
def State.scoped (s : State) : Bool := s.me.pre.any fun p => p.scope.isSome

/-- The instruction of width `w` at `a` is misaligned: cause 6, or 4 for an LR without SCOPE (R106; log entry 6). -/
def State.aligned (s : State) (a : Word) (w cause : Nat) (k : Out) : Out := if a.toNat % w ≠ 0 then s.trap cause a else k

/-- The reservation an LR leaves, replacing the core's last one (R104). -/
def State.reserveAt (s : State) (cell : Nat) (sc : Scope) : State :=
  { s with resvs := s.resvs.filter (fun r => r.core != s.cur) ++ [⟨s.cur, cell / 64, sc⟩] }

/-- LR: with SCOPE its target must be readable and writable (R106). -/
def State.loadReserved (s : State) (dbl : Bool) (rd rs1 : Reg) : Out :=
  let a := s.getX rs1
  let w := if dbl then 8 else 4
  let sc := s.aScope
  let got (s : State) (l : List (Nat × Nat)) : Out :=
    let s := s.chargeLoad s.cur l
    if s.poisPieces l then (s.consumed s.cur a.toNat (s.core s.cur).dataMode l).recordTrap 31 0 a.toNat s.me.epc
    else
      let v := sextW w (leNat (s.readPieces l))
      (s.reserveAt (l.headD (0, 0)).1 sc).result rd v
  s.aligned a w (if s.scoped then 6 else 4) <|
    if s.scoped then s.forStore a w .rmw got
    else
      match s.locate s.cur (s.core s.cur).dataMode a.toNat w .read with
      | (_, .reserved pa) => .fault (.reservedAddress pa)
      | (s, .fault kind x) => s.recordTrap 13 kind x s.me.epc
      | (s, .pieces l) => got s l

/-- SC writes only where the core's reservation covers the address and has the same scope; either way the reservation is
gone (R104). rd gets 0 for success and 1 for failure. -/
def State.storeConditional (s : State) (dbl : Bool) (rd rs1 rs2 : Reg) : Out :=
  let a := s.getX rs1
  let w := if dbl then 8 else 4
  let sc := s.aScope
  let v := toLE w (s.getX rs2).toNat
  s.aligned a w 6 <|
    s.forStore a w (if s.scoped then .rmw else .write) fun s l =>
      let cell := (l.headD (0, 0)).1
      let good := s.resvs.any fun r => r.core == s.cur && r.granule == cell / 64 && r.scope == sc
      let s : State := { s with resvs := s.resvs.filter fun r => r.core != s.cur }
      if good then ((s.writePieces l v).chargeRun s.cur (costPieces l)).result rd 0 else s.result rd 1

/-- What an AMO writes. -/
def amoNew (op : AmoOp) (w old v : Nat) : Nat :=
  let n := 8 * w
  let a := sgn n old
  let b := sgn n v
  let u := v % 2 ^ n
  match op with
  | .swap => u
  | .add => wrapN n (a + b)
  | .xor => old ^^^ u
  | .and => old &&& u
  | .or => old ||| u
  | .min => wrapN n (min a b)
  | .max => wrapN n (max a b)
  | .minu => min old u
  | .maxu => max old u

def State.amo (s : State) (op : AmoOp) (dbl : Bool) (rd rs1 rs2 : Reg) : Out :=
  let a := s.getX rs1
  let w := if dbl then 8 else 4
  let v := (s.getX rs2).toNat
  s.aligned a w 6 <|
    s.rmw a w (fun old => some (amoNew op w old v)) fun s old => s.result rd (sextW w old)

/-! ## CSRs, FENCE.I, system -/

/-- A CSR operation: RW always writes; RS and RC write unless their source is x0 or the immediate 0. -/
def State.csrOp (s : State) (i : Instr) (op : CsrOp) (rd : Reg) (src : CsrSrc) (num : Nat) : Out :=
  let v : Word := match src with
    | .reg r => s.getX r
    | .imm z => zx z
  let writes := op == .rw || match src with
    | .reg r => r != 0
    | .imm z => z != 0
  if s.csrBad num writes then s.illegal (s.bitsOf i) Enc.subStandard
  else
    let old := (s.csrRead num).getD 0
    let new := match op with
      | .rw => v
      | .rs => old ||| v
      | .rc => old &&& ~~~v
    (if writes then s.csrWrite num new else s).result rd old

/-- FENCE.I: the core's instruction cache holds nothing any more; the image cache keeps its lines (R118). -/
def State.fenceI (s : State) : Out := .next ((s.modCore s.cur fun k => { k with icache := [] }).retire)

/-- ECALL: cause 8 from U mode, 11 from M mode. -/
def State.ecall (s : State) : Out := s.trap (if (s.core s.cur).mode = .u then 8 else 11) 0

/-- WFI has no effect; in U mode with TW set it is illegal (log entry 6). -/
def State.wfi (s : State) : Out :=
  if (s.core s.cur).mode = .u ∧ (s.core s.cur).csr.mstatus.getLsbD 21 then
    s.illegal (s.bitsOf (.standard .wfi false)) Enc.subStandard
  else .next s.retire

end Sys2Proof.Machine
end

