-- ==== Sys2Proof/Machine/StdFp.lean ====
section
/-! DEFINITION. The F and D extensions of the control core (R71): fflags exactly as they specify, tininess after rounding. -/

namespace Sys2Proof.Machine

def FFmt.fmt : FFmt → FloatFmt
  | .s => .f32
  | .d => .f64

/-- The bits an operand of a format is read as: a single that is not NaN-boxed reads as the canonical NaN. -/
def fpBits (f : FFmt) (x : Word) : Nat :=
  match f with
  | .d => x.toNat
  | .s => if x.extractLsb' 32 32 = BitVec.allOnes 32 then (lowW x).toNat else FloatFmt.f32.canonNan

/-- A result as the register holds it: a single is NaN-boxed. -/
def fpBox (f : FFmt) (x : Nat) : Word :=
  match f with
  | .d => BitVec.ofNat 64 x
  | .s => BitVec.ofNat 64 (0xFFFFFFFF00000000 + x % 2 ^ 32)

/-- A signalling NaN: the top fraction bit is 0. -/
def fpSignals (f : FloatFmt) (x : Nat) : Bool := (Num.ofBits f x).isNan && !x.testBit (f.p - 2)

/-- The rounding mode of an instruction: its own field, or frm where the field is 7; none where it names no mode. -/
def Ctl.rounding (k : Ctl) (rm : BitVec 3) : Option RMode :=
  match (if rm = 7 then k.fcsr.extractLsb' 5 3 else rm).toNat with
  | 0 => some .rne
  | 1 => some .rtz
  | 2 => some .rdn
  | 3 => some .rup
  | 4 => some .rmm
  | _ => none

/-- A rounded result with its exception flags. -/
abbrev FpRes := Nat × FFlags

/-- Round an exact value; `nv` and `dz` are raised besides. -/
def fpRound (f : FloatFmt) (m : RMode) (x : Num) (nv dz : Bool) : FpRes :=
  let r := roundNum f m x
  (r.bits, { nv := nv, dz := dz, ovf := r.of, uf := r.uf, nx := r.nx })

/-- The sign of an exact zero sum: negative when rounding down unless every term is positive (IEEE 754). -/
def fpZero (m : RMode) (ts : List Num) (x : Num) : Num :=
  if x.isZero && m == .rdn then .fin (!ts.all fun t => !t.sign) 0 0 else x

/-- A sum of exact terms, rounded once. -/
def fpSum (f : FloatFmt) (m : RMode) (ts : List Num) (nv : Bool) : FpRes :=
  let (x, bad) := exactSum ts
  fpRound f m (fpZero m ts x) (nv || bad) false

/-- Division: 0/0 and ∞/∞ are invalid, a finite nonzero number over zero is exact infinity with DZ. -/
def fpDiv (f : FloatFmt) (m : RMode) (a b : Num) (nv : Bool) : FpRes :=
  let s := a.sign != b.sign
  match a, b with
  | .nan, _ => fpRound f m .nan nv false
  | _, .nan => fpRound f m .nan nv false
  | .inf _, .inf _ => fpRound f m .nan true false
  | .inf _, _ => fpRound f m (.inf s) nv false
  | _, .inf _ => fpRound f m (.fin s 0 0) nv false
  | .fin _ x _, .fin _ y _ =>
    if y = 0 then (if x = 0 then fpRound f m .nan true false else fpRound f m (.inf s) nv true)
    else fpRound f m (divNum a b) nv false

def fpSqrt (f : FloatFmt) (m : RMode) (a : Num) (nv : Bool) : FpRes :=
  match a with
  | .nan => fpRound f m .nan nv false
  | .inf n => if n then fpRound f m .nan true false else fpRound f m a nv false
  | .fin n x _ => if n && x != 0 then fpRound f m .nan true false else fpRound f m (sqrtNum a) nv false

def fpBin (op : FBinOp) (f : FloatFmt) (m : RMode) (x y : Nat) : FpRes :=
  let a := Num.ofBits f x
  let b := Num.ofBits f y
  let nv := fpSignals f x || fpSignals f y
  match op with
  | .add => fpSum f m [a, b] nv
  | .sub => fpSum f m [a, b.neg] nv
  | .mul => let (p, bad) := a.mul b; fpRound f m p (nv || bad) false
  | .div => fpDiv f m a b nv

/-- Fused multiply-add: ∞ times 0 is invalid even where the addend is a quiet NaN. -/
def fpFma (op : FmaOp) (f : FloatFmt) (m : RMode) (x y z : Nat) : FpRes :=
  let a := Num.ofBits f x
  let b := Num.ofBits f y
  let c := Num.ofBits f z
  let (p, bad) := a.mul b
  let nv := fpSignals f x || fpSignals f y || fpSignals f z || bad
  match op with
  | .madd => fpSum f m [p, c] nv
  | .msub => fpSum f m [p, c.neg] nv
  | .nmsub => fpSum f m [p.neg, c] nv
  | .nmadd => fpSum f m [p.neg, c.neg] nv

/-- Sign injection, minimum and maximum: -0 lies below +0; a NaN operand gives the other, two give the canonical NaN. -/
def fpSel (op : FSelOp) (f : FloatFmt) (x y : Nat) : FpRes :=
  let top := f.width - 1
  let body := x % 2 ^ top
  let signed (b : Bool) : Nat := body + f.signBit b
  let a := Num.ofBits f x
  let b := Num.ofBits f y
  let flags : FFlags := { nv := fpSignals f x || fpSignals f y }
  let less := a.lt b || (a.isZero && b.isZero && a.sign && !b.sign)
  match op with
  | .sgnj => (signed (y.testBit top), {})
  | .sgnjn => (signed !(y.testBit top), {})
  | .sgnjx => (signed (x.testBit top != y.testBit top), {})
  | .min =>
    (if a.isNan && b.isNan then f.canonNan else if a.isNan then y else if b.isNan then x else if less then x else y, flags)
  | .max =>
    (if a.isNan && b.isNan then f.canonNan else if a.isNan then y else if b.isNan then x else if less then y else x, flags)

/-- Comparisons: FEQ is quiet, FLT and FLE are invalid on any NaN. -/
def fpCmp (op : FCmpOp) (f : FloatFmt) (x y : Nat) : Bool × FFlags :=
  let a := Num.ofBits f x
  let b := Num.ofBits f y
  let sig := fpSignals f x || fpSignals f y
  let un := a.isNan || b.isNan
  match op with
  | .feq => (a.eqv b, { nv := sig })
  | .flt => (a.lt b, { nv := un })
  | .fle => (a.le b, { nv := un })

/-- FCLASS's ten classes. -/
def fpClass (f : FloatFmt) (x : Nat) : Nat :=
  match Num.ofBits f x with
  | .nan => if fpSignals f x then 8 else 9
  | .inf n => if n then 0 else 7
  | .fin n m _ => if m = 0 then (if n then 3 else 4)
      else if m < 2 ^ (f.p - 1) then (if n then 2 else 5)
      else (if n then 1 else 6)

def FIntTy.ty : FIntTy → IntTy
  | .w => ⟨32, true⟩
  | .wu => ⟨32, false⟩
  | .l => ⟨64, true⟩
  | .lu => ⟨64, false⟩

/-- A float to an integer: out of range is invalid and gives the nearest bound; NaN gives the highest. -/
def fpToInt (ty : IntTy) (f : FloatFmt) (m : RMode) (x : Nat) : Int × FFlags :=
  let a := Num.ofBits f x
  match a with
  | .nan => (ty.max, { nv := true })
  | .inf n => (if n then ty.min else ty.max, { nv := true })
  | a =>
    let (i, nx) := a.toInt m
    if i < ty.min then (ty.min, { nv := true }) else if ty.max < i then (ty.max, { nv := true }) else (i, { nx := nx })

/-- An integer result as the register holds it: 32-bit results are sign-extended. -/
def intBox (ty : FIntTy) (i : Int) : Word :=
  match ty with
  | .w | .wu => sextW 4 (wrapN 32 i)
  | _ => BitVec.ofInt 64 i

/-- The integer a source register holds. -/
def intFrom (ty : FIntTy) (x : Word) : Int := (FIntTy.ty ty).read x.toNat

/-! ## Instructions -/

/-- Write f[rd] with its flags and complete. -/
def State.fpResult (s : State) (f : FFmt) (rd : Reg) (r : FpRes) : Out :=
  .next ((s.modMe fun k => (k.setF rd (fpBox f r.1)).accrue r.2).retire)

/-- Write x[rd] with flags and complete. -/
def State.fpToX (s : State) (rd : Reg) (v : Word) (g : FFlags) : Out :=
  (s.modMe fun k => k.accrue g).result rd v

/-- An instruction that rounds: a mode that names none is illegal. -/
def State.withMode (s : State) (i : Instr) (rm : BitVec 3) (k : RMode → Out) : Out :=
  match s.me.rounding rm with
  | some m => k m
  | none => s.illegal (s.bitsOf i) Enc.subStandard

def State.fload (s : State) (f : FFmt) (rd rs1 : Reg) (imm : BitVec 12) (len : Nat) : Out :=
  s.load (s.getX rs1 + sx imm) (match f with | .s => 4 | .d => 8) fun s b =>
    .next ((s.setF rd (fpBox f (leNat b))).retire len)

def State.fstore (s : State) (f : FFmt) (rs1 rs2 : Reg) (imm : BitVec 12) (len : Nat) : Out :=
  s.store (s.getX rs1 + sx imm) (toLE (match f with | .s => 4 | .d => 8) (s.getF rs2).toNat) fun s => .next (s.retire len)

/-- An operand of a format. -/
def State.fp (s : State) (f : FFmt) (r : Reg) : Nat := fpBits f (s.getF r)

/-- FMV.X: the low bits as they stand, sign-extended; FMV to f: NaN-boxed. -/
def State.fmvToInt (s : State) (f : FFmt) (rd rs1 : Reg) : Out :=
  s.result rd (match f with
    | .s => sextW 4 ((s.getF rs1).toNat % 2 ^ 32)
    | .d => s.getF rs1)

def State.fmvFromInt (s : State) (f : FFmt) (rd rs1 : Reg) : Out :=
  .next ((s.setF rd (fpBox f (s.getX rs1).toNat)).retire)

/-- The other format of a conversion. -/
def otherFmt : FFmt → FFmt
  | .s => .d
  | .d => .s

/-- A conversion between formats: a signalling NaN is invalid, any NaN gives the canonical one. -/
def State.fcvtFmt (s : State) (dst : FFmt) (m : RMode) (rd rs1 : Reg) : Out :=
  let x := s.fp (otherFmt dst) rs1
  s.fpResult dst rd (fpRound (FFmt.fmt dst) m (Num.ofBits (FFmt.fmt (otherFmt dst)) x) (fpSignals (FFmt.fmt (otherFmt dst)) x) false)

end Sys2Proof.Machine
end

