-- ==== Sys2Proof/Machine/Standard.lean ====
section
/-! DEFINITION. STANDARD_INSTRUCTION (R126) and ILLEGAL_INSTRUCTION (R127). -/

namespace Sys2Proof.Machine

/-- The x registers a standard instruction reads or writes (R149). -/
def stdRegs : Std → List Reg
  | .lui rd _ => [rd]
  | .auipc rd _ => [rd]
  | .jal rd _ => [rd]
  | .jalr rd rs1 _ => [rd, rs1]
  | .branch _ rs1 rs2 _ => [rs1, rs2]
  | .load _ rd rs1 _ => [rd, rs1]
  | .store _ rs1 rs2 _ => [rs1, rs2]
  | .immOp _ rd rs1 _ => [rd, rs1]
  | .shift _ rd rs1 _ => [rd, rs1]
  | .shiftW _ rd rs1 _ => [rd, rs1]
  | .regOp _ rd rs1 rs2 => [rd, rs1, rs2]
  | .unary _ rd rs1 => [rd, rs1]
  | .csr _ rd (.reg rs1) _ => [rd, rs1]
  | .csr _ rd (.imm _) _ => [rd]
  | .lr _ _ _ rd rs1 => [rd, rs1]
  | .sc _ _ _ rd rs1 rs2 => [rd, rs1, rs2]
  | .amo _ _ _ _ rd rs1 rs2 => [rd, rs1, rs2]
  | .fload _ _ rs1 _ => [rs1]
  | .fstore _ rs1 _ _ => [rs1]
  | .fcmp _ _ rd _ _ => [rd]
  | .fclass _ rd _ => [rd]
  | .fcvtToInt _ _ _ rd _ => [rd]
  | .fcvtFromInt _ _ _ _ rs1 => [rs1]
  | .fmvToInt _ rd _ => [rd]
  | .fmvFromInt _ _ rs1 => [rs1]
  | _ => []

/-- The standard instructions that take SCOPE (R133). -/
def takesScope : Std → Bool
  | .lr .. => true
  | .sc .. => true
  | .amo .. => true
  | _ => false

/-- The effect of a standard instruction of `len` bytes. -/
def State.stdEffect (s : State) (i : Instr) (len : Nat) : Std → Out
  | .lui rd imm => s.result rd (sx (imm ++ 0#12)) len
  | .auipc rd imm => s.result rd (s.me.pc + sx (imm ++ 0#12)) len
  | .jal rd off => s.jal rd off len
  | .jalr rd rs1 imm => s.jalr rd rs1 imm len
  | .branch op rs1 rs2 off => s.branch op rs1 rs2 off len
  | .load op rd rs1 imm => s.loadInto op rd rs1 imm len
  | .store op rs1 rs2 imm => s.storeFrom op rs1 rs2 imm len
  | .immOp op rd rs1 imm => s.result rd (immEval op (s.getX rs1) imm) len
  | .shift op rd rs1 sh => s.result rd (shiftEval op (s.getX rs1) sh) len
  | .shiftW op rd rs1 sh => s.result rd (shiftWEval op (s.getX rs1) sh) len
  | .regOp op rd rs1 rs2 => s.result rd (regEval op (s.getX rs1) (s.getX rs2)) len
  | .unary op rd rs1 => s.result rd (unaryEval op (s.getX rs1)) len
  -- accesses are performed one after another: FENCE finds every earlier one performed (log entries 1, 2)
  | .fence _ _ _ _ _ => .next (s.retire len)
  | .fenceI _ _ _ => s.fenceI
  | .ecall => s.ecall
  | .ebreak => s.trap 3 0
  | .wfi => s.wfi
  | .csr op rd src num => s.csrOp i op rd src num.toNat
  | .lr dbl _ _ rd rs1 => s.loadReserved dbl rd rs1
  | .sc dbl _ _ rd rs1 rs2 => s.storeConditional dbl rd rs1 rs2
  | .amo op dbl _ _ rd rs1 rs2 => s.amo op dbl rd rs1 rs2
  | .fload f rd rs1 imm => s.fload f rd rs1 imm len
  | .fstore f rs1 rs2 imm => s.fstore f rs1 rs2 imm len
  | .fma op f rm rd rs1 rs2 rs3 =>
    s.withMode i rm fun m => s.fpResult f rd (fpFma op (FFmt.fmt f) m (s.fp f rs1) (s.fp f rs2) (s.fp f rs3))
  | .fbin op f rm rd rs1 rs2 => s.withMode i rm fun m => s.fpResult f rd (fpBin op (FFmt.fmt f) m (s.fp f rs1) (s.fp f rs2))
  | .fsqrt f rm rd rs1 =>
    s.withMode i rm fun m =>
      let x := s.fp f rs1
      s.fpResult f rd (fpSqrt (FFmt.fmt f) m (Num.ofBits (FFmt.fmt f) x) (fpSignals (FFmt.fmt f) x))
  | .fsel op f rd rs1 rs2 => s.fpResult f rd (fpSel op (FFmt.fmt f) (s.fp f rs1) (s.fp f rs2))
  | .fcmp op f rd rs1 rs2 =>
    let (b, g) := fpCmp op (FFmt.fmt f) (s.fp f rs1) (s.fp f rs2)
    s.fpToX rd (zx (BitVec.ofBool b)) g
  | .fclass f rd rs1 => s.result rd (1#64 <<< fpClass (FFmt.fmt f) (s.fp f rs1))
  | .fcvtToInt ty f rm rd rs1 =>
    s.withMode i rm fun m =>
      let (v, g) := fpToInt (FIntTy.ty ty) (FFmt.fmt f) m (s.fp f rs1)
      s.fpToX rd (intBox ty v) g
  | .fcvtFromInt ty f rm rd rs1 =>
    s.withMode i rm fun m => s.fpResult f rd (fpRound (FFmt.fmt f) m (Num.ofInt (intFrom ty (s.getX rs1))) false false)
  | .fcvtFmt dst rm rd rs1 => s.withMode i rm fun m => s.fcvtFmt dst m rd rs1
  | .fmvToInt f rd rs1 => s.fmvToInt f rd rs1
  | .fmvFromInt f rd rs1 => s.fmvFromInt f rd rs1

/-- STANDARD_INSTRUCTION; a 16-bit form is 2 bytes long. -/
def execStandard (op : Std) (short : Bool) (s : State) : Out :=
  let i : Instr := .standard op short
  let go := s.stdEffect i (if short then 2 else 4) op
  if takesScope op then s.beginScope i (stdRegs op) go else s.begin i (stdRegs op) go

/-- ILLEGAL_INSTRUCTION: cause 2 with the bits and the subcode, before any effect (R127). -/
def execIllegal (bits : BitVec 32) (sub : BitVec 8) (s : State) : Out := s.illegal bits sub

end Sys2Proof.Machine
end

