-- ==== Sys2Proof/Machine/System.lean ====
section
/-! DEFINITION. Register writes of M-mode firmware (R7, R76, R81, R87, R362, R371, R380, R384, R190), time (R184), resets and
boot (R372, R379), links (R371), errors and limits (R95, R96, R379, R381, R382), FIRMWARE_TASK_END (R334). -/

namespace Sys2Proof.Machine

/-! ## Registers -/

/-- SWIN_WRITE (R76): discarded when out of range, overlapping another slot's window, or for a placed slot. -/
def execSwinWrite (core slot : Nat) (value : W32) (s : State) : Out :=
  s.onCore core <|
    let v := value.toNat
    let b := bits v 0 5
    let n := bits v 8 6
    let k := s.core core
    let clash := (upFrom 0 8).any fun j => j != slot && overlap b n (k.win j).1 (k.win j).2
    if 8 ≤ slot ∨ 32 < b + n ∨ clash ∨ (k.slot slot).task.isSome then .next s
    else .next (s.modCore core fun k => { k with swin := Tab.set k.swin slot (b, n) })

/-- XROOT_WRITE (R87): the root of one of the 1,025 interfaces is set and valid. -/
def execXrootWrite (vi : Nat) (value : Word) (s : State) : Out :=
  if 1024 < vi then .next s
  else .next (s.modIface vi fun i => { i with xroot := some value })

/-- Discard every cached translation and range entry of LLS pages. -/
def State.dropLls (s : State) : State :=
  let keep (l : List RangeEntry) : List RangeEntry := l.filter fun r => r.mt != 2
  { s with cores := s.cores.map fun (c, k) =>
      (c, { k with
        tlb := k.tlb.filter fun e => e.mt != 2,
        slots := k.slots.map fun (n, l) => (n, { l with queues := l.queues.map fun (q, ks) =>
          (q, ks.map fun x => { x with ranges := keep x.ranges }) }),
        ports := k.ports.map fun (j, p) => (j, { p with stream := p.stream.map fun x => { x with ranges := keep x.ranges } }) }) }

/-- CARVD_WRITE (R81): the tiles that enter or leave the carve-out are written back, zeroed and shot down. A value above
48 names no size and is discarded. -/
def execCarvdWrite (die : Nat) (value : Word) (s : State) : Out :=
  let c := bits value.toNat 0 6
  if 4 ≤ die ∨ 48 < c then .next s
  else
    let old := (s.die die).carv
    let lo := 48 - max c old
    let hi := 48 - min c old
    let a := llsBase die + lo * 0x1000000
    let n := (hi - lo) * 0x1000000
    let s := ((s.zeroRange a n).dropResv a n).dropLls
    .next (s.modDie die fun k => { k with carv := c })

/-- The pod links of a package (Table 00-1). -/
def podLinks : Nat := 16

def ctxaMask : Word := 0x0000FFFFFFFFF000#64

/-- REGISTER_WRITE: registers without a behaviour of their own; reserved bits read zero. -/
def execRegisterWrite (name : RegName) (value : Word) (s : State) : Out :=
  match name with
  | .ctxa core slot =>
    if 640 ≤ core ∨ 8 ≤ slot then .next s
    else .next (s.modCore core fun k => { k with ctxa := Tab.set k.ctxa slot (value &&& ctxaMask) })
  | .prqb die => if 4 ≤ die then .next s else .next (s.modDie die fun k => { k with prqb := value })
  | .abtd die => if 4 ≤ die then .next s else .next (s.modDie die fun k => { k with abtd := value })
  | .scrb die => if 4 ≤ die then .next s else .next (s.modDie die fun k => { k with scrb := value &&& 0x0000FFFFFFFFFFFF#64 })
  | .podid => .next { s with podid := value.truncate 8 }
  | .zfrec core => if 640 ≤ core then .next s else .next (s.modCore core fun k => { k with csr := k.csr.write 0x7C0 value })
  -- the entry's layout is not given: [63] removes the path, else the value is the number of its pod link (log entry 61)
  | .route pkg =>
    if 256 ≤ pkg then .next s
    else if value.getLsbD 63 then .next { s with routes := Tab.del s.routes pkg }
    else if podLinks ≤ value.toNat then .next s
    else .next { s with routes := Tab.set s.routes pkg value.toNat }

/-! ## Time (R184, R342) -/

/-- Charge `n` cycles to the slot that runs on a core. -/
def State.chargeCycles (s : State) (c n : Nat) : State :=
  match (s.core c).running with
  | none => s
  | some m =>
    let s := s.modCore c fun k => { k with sliceUsed := k.sliceUsed + n }
    match (s.slot c m).task with
    | none => s
    | some t =>
      let s := s.modQueue t.vi t.q fun k => { k with cyc := k.cyc - n }
      let s := s.modCard t.vi t.q t.card fun d => { d with ucyc := d.ucyc + n }
      s.setTask c m fun t => { t with ucyc := t.ucyc + n, dcyc := t.dcyc + n }

/-- PACKAGE_TIMER_TICK: five package cycles pass, and the timer counts 4 ns (log entry 22). -/
def execPackageTimerTick (s : State) : Out :=
  .next (s.coreNums.foldl (fun s c => s.chargeCycles c 5) { s with cycles := s.cycles + 5 })

/-! ## Resets and boot (R372, R379) -/

/-- The boot digest of a stage. -/
def bootDigest (i : Nat) : List Byte := (upFrom 0 64).map (Config.bootDigest i)

/-- A fatal stop of every die, or boot that has stopped: no control core or agent steps. -/
def State.stopDies (s : State) : State := [0, 1, 2, 3].foldl (fun s d => s.modDie d fun k => { k with fatal := true }) s

/-- Stage `i` is verified by the one before it and measured; a failed check stops boot at that stage. The first stage is
the boot ROM, which nothing verifies. -/
def State.bootStage (s : State) (i : Nat) : State :=
  if s.bootFailed.isSome then s
  else if i ≠ 0 ∧ !Config.bootVerifies i then { s.stopDies with bootFailed := some i }
  else s.extendMreg i (bootDigest i)

/-- The digest of a lifecycle state, which MREG4 measures. -/
def lifeDigest : Lifecycle → List Byte
  | .manuf => bootDigest 8
  | .prod => bootDigest 9
  | .debug => bootDigest 10
  | .rma => bootDigest 11

/-- The cores as a reset leaves them: a permanent fault outlasts it (R382). -/
def State.resetCores (s : State) : Tab Core :=
  (s.cores.filter fun k => k.2.outOfUse).map fun (c, _) => (c, { outOfUse := true })

/-- COLD_RESET: everything at its reset value, the timer zero, the boot chain measured; MREG4 measures the lifecycle state,
and DEBUG ends. What the host has been sent and the agenda are not the machine's. -/
def execColdReset (s : State) : Out :=
  let r : State := { State.reset with agenda := s.agenda, out := s.out, free := s.free, keyNo := s.keyNo,
                                      cores := s.resetCores, life := if s.life = .debug then .prod else s.life }
  .next (([0, 1, 2, 3].foldl State.bootStage r).extendMreg 4 (lifeDigest r.life))

/-- WARM_RESET: the event traces survive, the package cycle count, the lifecycle state and the measurements go on from cold
reset; memory is unpredictable, and the rest is at its reset value (log entry 28). -/
def execWarmReset (s : State) : Out :=
  let r : State := { State.reset with
    agenda := s.agenda, out := s.out, free := s.free, keyNo := s.keyNo, cycles := s.cycles, life := s.life,
    debugOpen := s.debugOpen, mregs := s.mregs, fog := s.fog, cores := s.resetCores, bootFailed := s.bootFailed,
    dies := [0, 1, 2, 3].map fun d => (d, { Die.reset d with trace := (s.die d).trace }) }
  let r := (if s.bootFailed.isSome then r.stopDies else r).addFog 0 hbmTop
  .next ([0, 1, 2, 3].foldl (fun r d => r.addFog (llsBase d) llsSize) r)

/-! ## Links (R371) -/

/-- FLIT_REPLAY: one more replay of a flit, or the first of another flit. -/
def execFlitReplay (f : LinkFlit) (s : State) : Out :=
  let l := Tab.get {} s.links f.link
  if podLinks ≤ f.link ∨ !l.up then .next s
  else .next { s with links := Tab.set s.links f.link
                        { l with flit := f.flit, replays := if l.flit = f.flit then l.replays + 1 else 1 } }

/-- LINK_DOWN: a link that exceeds 16 replays of one flit is taken down, and the trace records it. -/
def execLinkDown (link : Nat) (s : State) : Out :=
  let l := Tab.get {} s.links link
  if link < podLinks ∧ l.up ∧ 16 < l.replays then
    .next ({ s with links := Tab.set s.links link { l with up := false } }.traceAdd 0 0 3 link 0)
  else .next s

/-! ## Fatal errors and limits (R379, R381) -/

/-- WATCHDOG_EXPIRY. -/
def execWatchdogExpiry (die : Nat) (s : State) : Out := if 4 ≤ die then .next s else .next (s.fatalError die 1)

/-- THERMAL_WARNING at 100 degrees, which TEMPd reads as 800. -/
def execThermalWarning (die : Nat) (s : State) : Out :=
  if 4 ≤ die then .next s
  else .next (((s.modDie die fun k => { k with temp := max k.temp 800 }).traceAdd die 0 4 die 0).send (.msix 0 1))

/-- THERMAL_STOP at 110 degrees: every die stops with a fatal error. -/
def execThermalStop (s : State) : Out := .next ([0, 1, 2, 3].foldl (fun s d => s.fatalError d 2) s).stopDies

/-! ## Soft and permanent errors (R95, R96, R382) -/

/-- The die whose stack holds an HBM address, by the interleave of the partition whose share it lies in (R369). -/
def State.stackDie (s : State) (pa : Nat) : Nat :=
  let k := s.die (pa / hbmShare)
  k.first + (pa - k.first * hbmShare) / 0x1000 % (3 * k.size) / 3

/-- The stack of that die, and the offset in it (R369). -/
def State.stackOf (s : State) (pa : Nat) : Nat × Nat :=
  let k := s.die (pa / hbmShare)
  let o := pa - k.first * hbmShare
  (o / 0x1000 % (3 * k.size) % 3, o / 0x1000 / (3 * k.size) * 0x1000 + o % 0x1000)

/-- Whether Table 00-2 gives the core a word of that place: 2 MiB of scratchpad, 16 lanes of 24 rotating and 8 static
registers, four latches, the predicates and the two input registers, tm0-tm7, acc0-acc7, lut0-lut3, four banks of 96 words
in each lane, and the entries its caches, its translation cache and its ports can hold. -/
def locPlaced : Loc → Bool
  | .spad _ w => decide (w < 2 ^ 19)
  | .lane _ l i => decide (l < 16 ∧ i < 39)
  | .tm _ r w => decide (r < 8 ∧ w < 1536)
  | .acc _ r e => decide (r < 8 ∧ e < 1024)
  | .lut _ r w => decide (r < 4 ∧ w < 8)
  | .bank _ b l w => decide (b < 4 ∧ l < 16 ∧ w < 96)
  | .cache _ n => decide (n < 1024)
  | .image _ n => decide (n < 512)
  | .tlb _ n => decide (n < 64)
  | .range _ p n => decide (p < 72 ∧ n < 16)
  | .walk _ n => decide (n < 256)
  | .mem _ => true

/-- The die of a protected word; none for a place that holds no word (Table 00-2). -/
def State.locDie (s : State) (l : Loc) : Option Nat :=
  if !locPlaced l then none
  else
    match l with
    | .mem g => if 8 * g < hbmTop then some (s.stackDie (8 * g)) else llsDie (8 * g)
    | .walk d _ => if d < 4 then some d else none
    | .spad c _ | .lane c _ _ | .tm c _ _ | .acc c _ _ | .lut c _ _ | .bank c _ _ _ | .cache c _ | .image c _ | .tlb c _
    | .range c _ _ => if c < 640 then some (dieOf c) else none

/-- Drop a range entry of an edge port: of its stream, or of the command at the head of its queue. -/
def State.dropRange (s : State) (c p entry : Nat) : State :=
  if p < 8 then
    s.modPort c p fun x => { x with stream := x.stream.map fun y => { y with ranges := y.ranges.eraseIdx entry } }
  else
    s.modSlot c ((p - 8) / 8) fun l =>
      l.setQueue ((p - 8) % 8) (match l.queue ((p - 8) % 8) with
        | [] => []
        | e :: es => { e with ranges := e.ranges.eraseIdx entry } :: es)

/-- STORAGE_BIT_ERROR. For a single-bit error the step is the read that finds it, corrects it and counts it: an error that
nothing reads shows nowhere, and no step stands for it (log entry 55). A double-bit error poisons the word; a clean line of
a cache and an entry of a translation structure are discarded and fetched again (R95). -/
def execStorageBitError (loc : Loc) (double : Bool) (s : State) : Out :=
  match s.locDie loc with
  | none => .next s
  | some d =>
    if !double then .next (s.modDie d fun k => { k with corrected := k.corrected + 1 })
    else
      match loc with
      | .cache c line => .next (s.modCore c fun k =>
          if line < 512 then { k with icache := k.icache.eraseIdx line } else { k with dcache := k.dcache.eraseIdx (line - 512) })
      | .image c line => .next (s.modCore c fun k => { k with imcache := k.imcache.eraseIdx line })
      | .tlb c e => .next (s.modCore c fun k => { k with tlb := k.tlb.eraseIdx e })
      | .walk d e => .next (s.modDie d fun k => { k with walks := k.walks.eraseIdx e })
      | .range c p e => .next (s.dropRange c p e)
      | l => .next (s.setPois l true)

/-- SCRUB: the scrubber reads an 8-byte word of LLS or HBM within its budget (R96, R343); a word's poison stays marked. -/
def execScrub (granule : Nat) (s : State) : Out :=
  match s.locDie (.mem granule) with
  | none => .next s
  | some d =>
    s.onDie d <|
    if (s.die d).actParked 3 0 0 then .next s
    else .next (s.modDie d fun k => { (k.chargeAct 3 0 0 8) with scrubbed := k.scrubbed + 8 })

/-- PERMANENT_FAULT: the trace records the core; firmware keeps it out of every placement range. -/
def execPermanentFault (core : Nat) (s : State) : Out :=
  s.onCore core <| .next ((s.modCore core fun k => { k with outOfUse := true }).traceAdd (dieOf core) (core % 160) 9 core 0)

/-! ## FIRMWARE_TASK_END -/

/-- Runtime firmware ends a task after a fault it treats as fatal (R334); a handler that does so goes on as firmware. -/
def execFirmwareTaskEnd (core slot : Nat) (s : State) : Out :=
  s.onCore core <|
    let k := s.core core
    if (k.slot slot).task.isNone then .next s
    else
      let handler := k.running == some slot && k.mode == .m
      let s := s.retireTask core slot 0 true
      .next (if handler then s.modCore core fun x => { x with fw := { (k.slot slot).ctl with wait := none } } else s)

end Sys2Proof.Machine
end

