-- ==== Sys2Proof/Machine/Wait.lean ====
section
/-! DEFINITION. WAIT_COMPLETE: a waiting instruction looks again at its condition (R148). -/

namespace Sys2Proof.Machine

/-- A waiting instruction completes where its condition holds by now, and else goes on waiting. -/
def State.retryWait (s : State) (w : Waiting) : Out :=
  match w.instr with
  | .rlnch rd _ _ => s.tryLaunch rd w
  | .rwait rd => s.tryRwait rd w
  | .rhalt rd => s.tryRhalt rd w
  | .rsave rd _ => s.tryRsave rd w
  | .rrstr rd _ => s.tryRrstr rd w
  | .bwait rd _ => s.tryBarrier rd w
  | .barw rd _ => s.tryBarrier rd w
  | .tend _ => s.tryTend w
  | .relatch _ _ _ => s.tryRelatch w
  | .partctl rd _ => s.tryPartctl rd w
  | .cast rd _ => s.tryCast rd w
  | .mould _ => s.tryMark w
  | .cbwait _ _ => s.tryCbwait w
  | .qfence set => s.tryQfence set w
  | .cpy cq rd _ _ => s.tryCopy .cpy (2 + cq.toNat) rd w
  | .cpyg cq rd _ _ => s.tryCopy .cpyg (2 + cq.toNat) rd w
  | .cpyx cq rd _ _ => s.tryCopy .cpyx (2 + cq.toNat) rd w
  | .sbind rd _ _ => s.trySbind rd w
  | .sunb rd _ => s.trySunb rd w
  | .ccmd rd _ _ => s.tryCcmd rd w
  -- TYIELD goes on waiting for CORE_STOP
  | .tyield => .next s
  -- the tile instructions, which wait for the unit or for room in tq
  | _ => s.tryTile w

def execWaitComplete (core : Nat) (s : State) : Out :=
  s.onCore core <| s.onCur core fun s =>
    match s.me.wait with
    | none => .next s
    | some w => if s.standsStill then .next s else s.retryWait w

end Sys2Proof.Machine
end

