-- ==== Sys2Proof/Machine/Dispatch.lean ====
section
/-! DEFINITION. The dispatch of every instruction and step to its meaning. -/

namespace Sys2Proof.Machine

def exec (i : Instr) (s : State) : Host.Outcome State Fault Refusal :=
  match i with
  | .rcfg rd rs1 rs2 => Sys2Proof.Machine.execRcfg rd rs1 rs2 s
  | .rlnch rd rs1 rs2 => Sys2Proof.Machine.execRlnch rd rs1 rs2 s
  | .rwait rd => Sys2Proof.Machine.execRwait rd s
  | .rhalt rd => Sys2Proof.Machine.execRhalt rd s
  | .rsave rd rs1 => Sys2Proof.Machine.execRsave rd rs1 s
  | .rrstr rd rs1 => Sys2Proof.Machine.execRrstr rd rs1 s
  | .rstat rd rs1 => Sys2Proof.Machine.execRstat rd rs1 s
  | .riter rd => Sys2Proof.Machine.execRiter rd s
  | .loop l bl rs1 => Sys2Proof.Machine.execLoop l bl rs1 s
  | .loopi l bl cnt => Sys2Proof.Machine.execLoopi l bl cnt s
  | .lbrk l => Sys2Proof.Machine.execLbrk l s
  | .binit rd rs1 rs2 => Sys2Proof.Machine.execBinit rd rs1 rs2 s
  | .barv rs1 => Sys2Proof.Machine.execBarv rs1 s
  | .bwait rd rs1 => Sys2Proof.Machine.execBwait rd rs1 s
  | .barw rd rs1 => Sys2Proof.Machine.execBarw rd rs1 s
  | .btest rd rs1 => Sys2Proof.Machine.execBtest rd rs1 s
  | .bphase rd rs1 => Sys2Proof.Machine.execBphase rd rs1 s
  | .ssig rd rs1 rs2 => Sys2Proof.Machine.execSsig rd rs1 rs2 s
  | .evpop rd => Sys2Proof.Machine.execEvpop rd s
  | .evpeek rd => Sys2Proof.Machine.execEvpeek rd s
  | .evcnt rd => Sys2Proof.Machine.execEvcnt rd s
  | .zfence sc pred succ => Sys2Proof.Machine.execZfence sc pred succ s
  | .aaddW sc rs2 rs1 aq rl rdc => Sys2Proof.Machine.execAaddW sc rs2 rs1 aq rl rdc s
  | .aminsW sc rs2 rs1 aq rl rdc => Sys2Proof.Machine.execAminsW sc rs2 rs1 aq rl rdc s
  | .amaxsW sc rs2 rs1 aq rl rdc => Sys2Proof.Machine.execAmaxsW sc rs2 rs1 aq rl rdc s
  | .axchgW sc rs2 rs1 aq rl rdc => Sys2Proof.Machine.execAxchgW sc rs2 rs1 aq rl rdc s
  | .acasW sc rs2 rs1 aq rl rdc => Sys2Proof.Machine.execAcasW sc rs2 rs1 aq rl rdc s
  | .aaddD sc rs2 rs1 aq rl rdc => Sys2Proof.Machine.execAaddD sc rs2 rs1 aq rl rdc s
  | .aminsD sc rs2 rs1 aq rl rdc => Sys2Proof.Machine.execAminsD sc rs2 rs1 aq rl rdc s
  | .amaxsD sc rs2 rs1 aq rl rdc => Sys2Proof.Machine.execAmaxsD sc rs2 rs1 aq rl rdc s
  | .axchgD sc rs2 rs1 aq rl rdc => Sys2Proof.Machine.execAxchgD sc rs2 rs1 aq rl rdc s
  | .acasD sc rs2 rs1 aq rl rdc => Sys2Proof.Machine.execAcasD sc rs2 rs1 aq rl rdc s
  | .tend rs1 => Sys2Proof.Machine.execTend rs1 s
  | .tyield => Sys2Proof.Machine.execTyield s
  | .thand rd rs1 => Sys2Proof.Machine.execThand rd rs1 s
  | .tslot rd => Sys2Proof.Machine.execTslot rd s
  | .tspawn rd rs1 rs2 => Sys2Proof.Machine.execTspawn rd rs1 rs2 s
  | .budq rd rs1 => Sys2Proof.Machine.execBudq rd rs1 s
  | .tstamp rd => Sys2Proof.Machine.execTstamp rd s
  | .scope sc => Sys2Proof.Machine.execScope sc s
  | .logp fa fb fc rs2 rs1 => Sys2Proof.Machine.execLogp fa fb fc rs2 rs1 s
  | .icinv sc rs2 rs1 => Sys2Proof.Machine.execIcinv sc rs2 rs1 s
  | .tlbinv sc rs2 rs1 => Sys2Proof.Machine.execTlbinv sc rs2 rs1 s
  | .relatch sc rs2 rs1 => Sys2Proof.Machine.execRelatch sc rs2 rs1 s
  | .partctl rd rs1 => Sys2Proof.Machine.execPartctl rd rs1 s
  | .hint imm rs1 rd => Sys2Proof.Machine.execHint imm rs1 rd s
  | .tld td rs1 tm => Sys2Proof.Machine.execTld td rs1 tm s
  | .tst ta rs1 tm => Sys2Proof.Machine.execTst ta rs1 tm s
  | .tzero td tm => Sys2Proof.Machine.execTzero td tm s
  | .thdr td rs1 => Sys2Proof.Machine.execThdr td rs1 s
  | .thdrGet td rs1 => Sys2Proof.Machine.execThdrGet td rs1 s
  | .thdrFlags rs1 => Sys2Proof.Machine.execThdrFlags rs1 s
  | .thdrFlagsClr rs1 => Sys2Proof.Machine.execThdrFlagsClr rs1 s
  | .tlut td rs1 => Sys2Proof.Machine.execTlut td rs1 s
  | .tmma td ta tb rs1 new sat neg => Sys2Proof.Machine.execTmma td ta tb rs1 new sat neg s
  | .tmms td ta tb rs1 new sat neg n => Sys2Proof.Machine.execTmms td ta tb rs1 new sat neg n s
  | .tmmc td ta tb rs1 i8 new sat neg => Sys2Proof.Machine.execTmmc td ta tb rs1 i8 new sat neg s
  | .tdist td ta tb rs1 new mode metric => Sys2Proof.Machine.execTdist td ta tb rs1 new mode metric s
  | .tcupd td ta tb rs1 => Sys2Proof.Machine.execTcupd td ta tb rs1 s
  | .tcdiv td ta rs1 int => Sys2Proof.Machine.execTcdiv td ta rs1 int s
  | .tcvt td ta rs1 sat rtz int tm => Sys2Proof.Machine.execTcvt td ta rs1 sat rtz int tm s
  | .tadd td ta tb sat int => Sys2Proof.Machine.execTadd td ta tb sat int s
  | .tmul td ta tb sat int => Sys2Proof.Machine.execTmul td ta tb sat int s
  | .tact td ta fn => Sys2Proof.Machine.execTact td ta fn s
  | .tactD td ta tb fn => Sys2Proof.Machine.execTactD td ta tb fn s
  | .tscl td ta rs1 int vec => Sys2Proof.Machine.execTscl td ta rs1 int vec s
  | .tred td ta int op col => Sys2Proof.Machine.execTred td ta int op col s
  | .ttrn td ta rs1 tm => Sys2Proof.Machine.execTtrn td ta rs1 tm s
  | .mxhint => Sys2Proof.Machine.execMxhint s
  | .shape rd rs1 rs2 => Sys2Proof.Machine.execShape rd rs1 rs2 s
  | .sbind rd rs1 rs2 => Sys2Proof.Machine.execSbind rd rs1 rs2 s
  | .sunb rd rs1 => Sys2Proof.Machine.execSunb rd rs1 s
  | .cpy cq rd rs1 rs2 => Sys2Proof.Machine.execCpy cq rd rs1 rs2 s
  | .cpyg cq rd rs1 rs2 => Sys2Proof.Machine.execCpyg cq rd rs1 rs2 s
  | .cpyx cq rd rs1 rs2 => Sys2Proof.Machine.execCpyx cq rd rs1 rs2 s
  | .ccmd rd rs1 rs2 => Sys2Proof.Machine.execCcmd rd rs1 rs2 s
  | .cbwait rs1 rs2 => Sys2Proof.Machine.execCbwait rs1 rs2 s
  | .cbtest rd rs1 rs2 => Sys2Proof.Machine.execCbtest rd rs1 rs2 s
  | .mould rs1 => Sys2Proof.Machine.execMould rs1 s
  | .cast rd rs1 => Sys2Proof.Machine.execCast rd rs1 s
  | .mstat rd => Sys2Proof.Machine.execMstat rd s
  | .qfence set => Sys2Proof.Machine.execQfence set s
  | .standard op short => Sys2Proof.Machine.execStandard op short s
  | .mret => Sys2Proof.Machine.execMret s
  | .illegal bits sub => Sys2Proof.Machine.execIllegal bits sub s
  | .rowAdvance core => Sys2Proof.Machine.execRowAdvance core s
  | .holdCycle core => Sys2Proof.Machine.execHoldCycle core s
  | .deadlineFault core => Sys2Proof.Machine.execDeadlineFault core s
  | .regionComplete core => Sys2Proof.Machine.execRegionComplete core s
  | .ldgReply core lane lslot => Sys2Proof.Machine.execLdgReply core lane lslot s
  | .storeQueuePerform core => Sys2Proof.Machine.execStoreQueuePerform core s
  | .translationWalk core vi va acc => Sys2Proof.Machine.execTranslationWalk core vi va acc s
  | .relatchToken token => Sys2Proof.Machine.execRelatchToken token s
  | .armatureLoadDone core => Sys2Proof.Machine.execArmatureLoadDone core s
  | .tqEntryStart core => Sys2Proof.Machine.execTqEntryStart core s
  | .tqEntryComplete core => Sys2Proof.Machine.execTqEntryComplete core s
  | .castEntry core => Sys2Proof.Machine.execCastEntry core s
  | .arrayRampDown core => Sys2Proof.Machine.execArrayRampDown core s
  | .engineCommandStart core slot queue => Sys2Proof.Machine.execEngineCommandStart core slot queue s
  | .chunkComplete core slot queue chunk => Sys2Proof.Machine.execChunkComplete core slot queue chunk s
  | .commandComplete core slot queue => Sys2Proof.Machine.execCommandComplete core slot queue s
  | .pageRequestPost core slot queue => Sys2Proof.Machine.execPageRequestPost core slot queue s
  | .prqaWrite die value => Sys2Proof.Machine.execPrqaWrite die value s
  | .streamStart core port => Sys2Proof.Machine.execStreamStart core port s
  | .beatArrival core port => Sys2Proof.Machine.execBeatArrival core port s
  | .beatWrite core port => Sys2Proof.Machine.execBeatWrite core port s
  | .streamEnd core port => Sys2Proof.Machine.execStreamEnd core port s
  | .collectiveBegin core slot => Sys2Proof.Machine.execCollectiveBegin core slot s
  | .collectiveTimeout core slot => Sys2Proof.Machine.execCollectiveTimeout core slot s
  | .barrierArrival flight => Sys2Proof.Machine.execBarrierArrival flight s
  | .messageDelivery flight => Sys2Proof.Machine.execMessageDelivery flight s
  | .notify vi q => Sys2Proof.Machine.execNotify vi q s
  | .queueMap die hw vi q => Sys2Proof.Machine.execQueueMap die hw vi q s
  | .queueUnmap die hw => Sys2Proof.Machine.execQueueUnmap die hw s
  | .cardAccept die hw => Sys2Proof.Machine.execCardAccept die hw s
  | .deal die hw places => Sys2Proof.Machine.execDeal die hw places s
  | .taskStart core slot => Sys2Proof.Machine.execTaskStart core slot s
  | .cardComplete vi q card => Sys2Proof.Machine.execCardComplete vi q card s
  | .periodBoundary vi q => Sys2Proof.Machine.execPeriodBoundary vi q s
  | .budgetExhausted vi q which => Sys2Proof.Machine.execBudgetExhausted vi q which s
  | .activityBudgetExhausted die vi kind unit => Sys2Proof.Machine.execActivityBudgetExhausted die vi kind unit s
  | .sliceExpiry core => Sys2Proof.Machine.execSliceExpiry core s
  | .preemptRequest core slot => Sys2Proof.Machine.execPreemptRequest core slot s
  | .coreStop core => Sys2Proof.Machine.execCoreStop core s
  | .dispatch core => Sys2Proof.Machine.execDispatch core s
  | .asyncTrap core => Sys2Proof.Machine.execAsyncTrap core s
  | .faultRecord core => Sys2Proof.Machine.execFaultRecord core s
  | .waitComplete core => Sys2Proof.Machine.execWaitComplete core s
  | .swinWrite core slot value => Sys2Proof.Machine.execSwinWrite core slot value s
  | .xrootWrite vi value => Sys2Proof.Machine.execXrootWrite vi value s
  | .carvdWrite die value => Sys2Proof.Machine.execCarvdWrite die value s
  | .zlcWrite core level value => Sys2Proof.Machine.execZlcWrite core level value s
  | .ctxcmdHalt core slot => Sys2Proof.Machine.execCtxcmdHalt core slot s
  | .ctxcmdSave core slot => Sys2Proof.Machine.execCtxcmdSave core slot s
  | .ctxcmdLoad core slot => Sys2Proof.Machine.execCtxcmdLoad core slot s
  | .ctxcmdRelease core slot => Sys2Proof.Machine.execCtxcmdRelease core slot s
  | .ctxcmdDone core => Sys2Proof.Machine.execCtxcmdDone core s
  | .registerWrite name value => Sys2Proof.Machine.execRegisterWrite name value s
  | .commandDoorbell vi value => Sys2Proof.Machine.execCommandDoorbell vi value s
  | .qcreate vi => Sys2Proof.Machine.execQcreate vi s
  | .qmap vi => Sys2Proof.Machine.execQmap vi s
  | .qunmap vi => Sys2Proof.Machine.execQunmap vi s
  | .qdestroy vi => Sys2Proof.Machine.execQdestroy vi s
  | .epattach vi => Sys2Proof.Machine.execEpattach vi s
  | .epdetach vi => Sys2Proof.Machine.execEpdetach vi s
  | .coload vi => Sys2Proof.Machine.execCoload vi s
  | .counload vi => Sys2Proof.Machine.execCounload vi s
  | .partchg vi => Sys2Proof.Machine.execPartchg vi s
  | .quota vi => Sys2Proof.Machine.execQuota vi s
  | .keyset vi => Sys2Proof.Machine.execKeyset vi s
  | .quote vi => Sys2Proof.Machine.execQuote vi s
  | .bar2Access vi off write len => Sys2Proof.Machine.execBar2Access vi off write len s
  | .traceWindowRead die => Sys2Proof.Machine.execTraceWindowRead die s
  | .functionLevelReset vi => Sys2Proof.Machine.execFunctionLevelReset vi s
  | .interfaceEnable vi die ringBase ringK journalBase => Sys2Proof.Machine.execInterfaceEnable vi die ringBase ringK journalBase s
  | .interfaceDisable vi => Sys2Proof.Machine.execInterfaceDisable vi s
  | .partctlQuiesced core => Sys2Proof.Machine.execPartctlQuiesced core s
  | .partctlQuiesceTimeout core => Sys2Proof.Machine.execPartctlQuiesceTimeout core s
  | .linkDown link => Sys2Proof.Machine.execLinkDown link s
  | .coldReset => Sys2Proof.Machine.execColdReset s
  | .warmReset => Sys2Proof.Machine.execWarmReset s
  | .debugUnlock token => Sys2Proof.Machine.execDebugUnlock token s
  | .thermalWarning die => Sys2Proof.Machine.execThermalWarning die s
  | .thermalStop => Sys2Proof.Machine.execThermalStop s
  | .watchdogExpiry die => Sys2Proof.Machine.execWatchdogExpiry die s
  | .scrub granule => Sys2Proof.Machine.execScrub granule s
  | .packageTimerTick => Sys2Proof.Machine.execPackageTimerTick s
  | .rowTablePassComplete core => Sys2Proof.Machine.execRowTablePassComplete core s
  | .flitReplay rep => Sys2Proof.Machine.execFlitReplay rep s
  | .storageBitError loc double => Sys2Proof.Machine.execStorageBitError loc double s
  | .permanentFault core => Sys2Proof.Machine.execPermanentFault core s
  | .firmwareTaskEnd core slot => Sys2Proof.Machine.execFirmwareTaskEnd core slot s

end Sys2Proof.Machine
end

