-- ==== Sys2Proof/Machine/Fetch.lean ====
section
/-! DEFINITION. Fetching an instruction's parcels through the instruction cache (R118, R185), and decoding at the pc. -/

namespace Sys2Proof.Machine

/-- What a fetch of a 2-byte parcel found. -/
inductive Fetched where
  | parcel (h : Half)
  | pageFault (kind va : Nat)
  | poison (a : Nat)
  | reserved (pa : Nat)
deriving DecidableEq, Repr

/-- The 64-byte line of a cell address: held, or read from memory and entered (512 lines of 64 bytes are 32 KiB,
the oldest leaving; log entry 9). A poisoned line is not entered; what is read is charged (R342). -/
def State.fetchLine (s : State) (c a : Nat) : State × Option (List Byte) :=
  let b := a / 64 * 64
  match (s.core c).icache.find? fun l => l.pa == b with
  | some l => (s, some l.bytes)
  | none =>
    let s := s.chargeRun c (hbmCost b 64)
    if s.memPois b 64 then (s, none)
    else
      let bs := s.memBytes b 64
      (s.modCore c fun k =>
        let l := k.icache ++ [⟨b, bs⟩]
        { k with icache := if l.length > 512 then l.drop 1 else l }, some bs)

/-- Fetch the parcel at `va` on core `c`. -/
def State.fetchParcel (s : State) (c : Nat) (va : Word) : State × Fetched :=
  match s.locate c (s.core c).mode va.toNat 2 .fetch with
  | (s, .reserved pa) => (s, .reserved pa)
  | (s, .fault k a) => (s, .pageFault k a)
  | (s, .pieces l) =>
    match l with
    | (a, _) :: _ =>
      match s.fetchLine c a with
      | (s, some bs) => (s, .parcel (BitVec.ofNat 16 (fld bs (a % 64) 2)))
      | (s, none) =>
        -- another word of the line is poisoned: the parcel itself may still be read from memory
        if s.memPois a 2 then (s, .poison a) else (s, .parcel (BitVec.ofNat 16 (s.memNat a 2)))
    | [] => (s, .poison 0)

/-- Fetch and decode the instruction at the pc of the core that steps, then continue with it. A page fault is
cause 12 and poison cause 31, mepc at the first prefix of a pending group (R133, R96). -/
def State.fetchDecode (s : State) (k : Instr → State → Out) : Out :=
  let c := s.cur
  let pc := s.me.pc
  match s.fetchParcel c pc with
  | (_, .reserved pa) => .fault (.reservedAddress pa)
  | (s, .pageFault kind va) => s.recordTrap 12 kind va s.me.epc
  | (s, .poison a) => (s.consumed c pc.toNat (s.core c).mode [(a, 2)]).recordTrap 31 0 pc.toNat s.me.epc
  | (s, .parcel lo) =>
    if lo.extractLsb' 0 2 == 3#2 then
      match s.fetchParcel c (pc + 2) with
      | (_, .reserved pa) => .fault (.reservedAddress pa)
      | (s, .pageFault kind va) => s.recordTrap 12 kind va s.me.epc
      | (s, .poison a) => (s.consumed c (pc + 2).toNat (s.core c).mode [(a, 2)]).recordTrap 31 0 (pc + 2).toNat s.me.epc
      | (s, .parcel hi) => k (decode lo hi).1 { s with ir := hi ++ lo }
    else k (decode lo 0).1 { s with ir := zeroExtendHalf lo }
where
  zeroExtendHalf (h : Half) : W32 := h.zeroExtend 32

/-- Place bytes where the fetch of core `c` will read them: the cells of the 4 bytes at the pc, with no cached
line over them. Where the pc does not translate, nothing is placed. -/
def State.placeAtPc (s : State) (c : Nat) (bs : List Byte) : State :=
  match s.locate c (s.core c).mode (s.ctl c).pc.toNat bs.length .fetch with
  | (_, .pieces l) =>
    (s.writePieces l bs).modCore c fun k =>
      { k with icache := k.icache.filter fun n => !(l.any fun p => decide (p.1 / 64 * 64 ≤ n.pa ∧ n.pa < p.1 + p.2)) }
  | _ => s

end Sys2Proof.Machine
end

