-- ==== Sys2Proof/Machine/Step.lean ====
section
/-! DEFINITION. The step: the agenda says which agent moves next (log entry 1). -/

namespace Sys2Proof.Machine

/-- One step of the control core `s.cur`: nothing for a core the device does not have (R4), or on a die that a fatal error
has stopped (R381); a pending asynchronous
cause or enabled interrupt is taken at the boundary it stands at (R344); nothing on a core that has been asked to halt and
stands at a boundary (R353); a waiting instruction looks again at its condition (R148); otherwise the instruction at the
pc is fetched and executed. -/
def controlStep (s : State) : Host.Outcome State Fault Refusal :=
  s.onCore s.cur <|
  if s.trapsNow then .next s.asyncTrap
  else if s.standsStill then .next s
  else if s.me.wait.isSome then exec (.waitComplete s.cur) s
  else s.fetchDecode exec

def step (s : State) : Host.Outcome State Fault Refusal :=
  match s.agenda with
  | [] => controlStep s
  | .event i :: rest => exec i { s with agenda := rest }
  | .control c :: rest => controlStep { s with agenda := rest, cur := c }

/-- The state with an instruction word stored where the control core that steps fetches it next, and nothing on
the agenda before it. -/
def State.withFetchWord (s : State) (nbits w : Nat) : State :=
  let s := { s with agenda := [] }
  (s.modMe fun k => { k with wait := none }).placeAtPc s.cur (toLE 4 (w % 2 ^ nbits))

end Sys2Proof.Machine
end

