-- ==== Sys2Proof/Safety.lean ====
section
/-! DEFINITION. What counts as a safe run, and the words in which claims say what a step leaves unchanged. -/

namespace Sys2Proof

/-- A step that goes on. -/
def Safe (s : Machine.State) : Prop := ∃ t, Machine.step s = .next t

end Sys2Proof

namespace Sys2Proof.Machine

/-! ## What a step leaves unchanged -/

/-- `t` is `s` but for core `c`. -/
def OnlyCore (c : Nat) (s t : State) : Prop :=
  t = { s with cores := t.cores } ∧ ∀ d, d ≠ c → t.core d = s.core d

/-- A core whose count of retired instructions is `m`. -/
def Core.counted (k : Core) (m : Word) : Core := { k with csr := { k.csr with minstret := m } }

/-- `t` is `s` but for the control context of the core that steps and its count of retired instructions. -/
def OnlyCtl (s t : State) : Prop :=
  OnlyCore s.cur s t ∧
  t.core s.cur = ((s.core s.cur).counted (t.core s.cur).csr.minstret).setCtl t.me

/-- The control context of the core that steps is unchanged but for the x registers `xs`, the f registers `fs`, the
pc, the loop levels, the prefix group and the wait; `fcsr` may change only where `fl` stands. -/
def CtlFrame (xs fs : List Reg) (fl : Bool) (s t : State) : Prop :=
  t.me = { s.me with pc := t.me.pc, x := t.me.x, f := t.me.f, fcsr := t.me.fcsr, loops := t.me.loops,
                     pre := t.me.pre, wait := t.me.wait } ∧
  (∀ r, r ∉ xs → t.getX r = s.getX r) ∧ (∀ r, r ∉ fs → t.getF r = s.getF r) ∧
  (fl = false → t.me.fcsr = s.me.fcsr)

/-- `t` is `s` after an instruction that writes the x registers `xs` and the f registers `fs` and nothing else: every
other register, every special register, every other core and every byte of memory is as before, and no prefix group
and no wait stands. -/
def Completed (xs fs : List Reg) (fl : Bool) (s t : State) : Prop :=
  OnlyCtl s t ∧ CtlFrame xs fs fl s t ∧ t.me.pre = none ∧ t.me.wait = none ∧ ∀ a, t.memByte a = s.memByte a

/-- `t` goes on behind an instruction of `len` bytes of `s`: the pc and the loop levels are those of falling through to
the next address (R147, R161). -/
def FallsThrough (s t : State) (len : Nat := 4) : Prop :=
  t.me.pc = (s.me.advance len).pc ∧ t.me.loops = (s.me.advance len).loops

/-- An instruction of `len` bytes is done that writes the registers `xs` and `fs` and nothing else, and is no jump. -/
def Done (xs fs : List Reg) (fl : Bool) (s t : State) (len : Nat := 4) : Prop :=
  Completed xs fs fl s t ∧ FallsThrough s t len

/-- Port `j` of core `c` as `v` leaves it, but that the oldest pending bind has started if the port and the engine it names
are free (R289). -/
def StartsNext (v : State) (c j : Nat) (t : State) : Prop :=
  match (v.port c j).pending with
  | [] => t.port c j = v.port c j
  | b :: rest =>
    if (v.port c j).free = true ∧ v.engineBusy c b = false ∧ j < 8 then
      ∃ x : Stream, x.bind = b ∧ x.beats = [] ∧ x.ended = false ∧ t.port c j = { stream := some x, pending := rest }
    else t.port c j = v.port c j

/-- A reservation lies on a granule that the cells `l` touch (R104). -/
def Touches (l : List (Nat × Nat)) (r : Resv) : Prop :=
  ∃ p ∈ l, p.1 < 64 * r.granule + 64 ∧ 64 * r.granule < p.1 + p.2

/-- No reservation arises, and those on granules the cells `l` do not touch stand. -/
def ResvFrame (l : List (Nat × Nat)) (s t : State) : Prop :=
  (∀ r ∈ t.resvs, r ∈ s.resvs) ∧ ∀ r ∈ s.resvs, ¬ Touches l r → r ∈ t.resvs

/-- Every byte of memory is as before but those of the cells `l` (address and length). -/
def MemFrame (l : List (Nat × Nat)) (s t : State) : Prop :=
  ∀ a, (∀ p ∈ l, a < p.1 ∨ p.1 + p.2 ≤ a) → t.memByte a = s.memByte a

/-- `t` is `s` but for what an access of the core that steps to memory may touch: its control context and count, its
translation, data and image caches (R4, R90, R107), the charge of the running task (R342), the walk caches and queues, memory
with its poison, and the reservations. -/
def AccessFrame (s t : State) : Prop :=
  t = { s with cores := t.cores, dies := t.dies, ifaces := t.ifaces, mem := t.mem, poison := t.poison, resvs := t.resvs } ∧
  (∀ d, d ≠ s.cur → t.core d = s.core d) ∧
  (∃ fw slots m tlb dc im, t.core s.cur =
    { (s.core s.cur).counted m with fw := fw, slots := slots, tlb := tlb, dcache := dc, imcache := im }) ∧
  (∀ n, (s.core s.cur).running ≠ some n → t.slot s.cur n = s.slot s.cur n) ∧
  (∀ n, ∃ ctl task, t.slot s.cur n = { s.slot s.cur n with ctl := ctl, task := task })

/-! ## When an instruction can execute -/

/-- None of the registers waits for an armature load (R149). -/
abbrev RegsFree (rs : List Reg) (s : State) : Prop := ∀ r ∈ rs, r = 0 ∨ r ∉ (s.core s.cur).pendingRegs

/-- Nothing is pending that keeps an A-extension instruction from executing: no LOGP prefix, and no armature load to a
register it uses. -/
abbrev ReadyScoped (rs : List Reg) (s : State) : Prop :=
  (s.me.pre.any fun p => p.logp.isSome) = false ∧ RegsFree rs s

/-- Nothing is pending that keeps a tile instruction from executing: no SCOPE prefix, and no armature load to a
register it uses. -/
abbrev ReadyLogp (rs : List Reg) (s : State) : Prop :=
  (s.me.pre.any fun p => p.scope.isSome) = false ∧ RegsFree rs s

/-- No prefix group is pending (R133), and none of the registers waits for an armature load (R149). -/
abbrev Ready (rs : List Reg) (s : State) : Prop := s.me.pre = none ∧ RegsFree rs s

/-- Core `c` exists and no fatal error has stopped its die, so that its agents step. -/
abbrev Up (c : Nat) (s : State) : Prop := c < 640 ∧ (s.die (dieOf c)).fatal = false

/-- Die `d` exists and no fatal error has stopped it, so that its units and runtime firmware there step. -/
abbrev DieUp (d : Nat) (s : State) : Prop := d < 4 ∧ (s.die d).fatal = false

/-- The core that steps is up, waits in `w`, and has not been asked to halt: WAIT_COMPLETE looks at the condition again (R148). -/
abbrev WaitsIn (w : Waiting) (s : State) : Prop := Up s.cur s ∧ s.standsStill = false ∧ s.me.wait = some w

/-- A load of `n` bytes at `va` by the core that steps is located and reads no poison: it gives the bytes `b` and the
state `u`, in which the access is charged. -/
def Loads (s : State) (va : Word) (n : Nat) (u : State) (b : List Byte) : Prop :=
  ∃ v l, s.locate s.cur (s.core s.cur).dataMode va.toNat n .read = (v, .pieces l) ∧ v.poisPieces l = false ∧
    b = v.readPieces l ∧ u = v.chargeLoad s.cur l

/-- A store of `n` bytes at `va` by the core that steps is located at the cells `l`, in the state `u`. -/
def StoresAt (s : State) (va : Word) (n : Nat) (u : State) (l : List (Nat × Nat)) : Prop :=
  ∃ v, s.locate s.cur (s.core s.cur).dataMode va.toNat n .write = (v, .pieces l) ∧ u = v.dropImages s.cur l

/-- The group record at `va` is read as `g`, leaving `u`: nothing of a record that is not aligned, and nothing behind a head
that names no group (R294). -/
def GroupRead (s : State) (va : Word) (u : State) (g : List Byte) : Prop :=
  (va.toNat % 8 ≠ 0 ∧ u = s ∧ g = []) ∨
  (va.toNat % 8 = 0 ∧ ∃ w h, Loads s va 8 w h ∧
    ((groupHeadOk h = false ∧ u = w ∧ g = []) ∨ (groupHeadOk h = true ∧ Loads w va (8 + 8 * fld h 0 4) u g)))

/-- The command at the head of interface `vi`'s ring is `h`, well-formed, with this code and permitted, no other interface's
command is in progress, and the firmware behind die 0 runs: the step of its code performs it (R366). -/
abbrev HostTurn (s : State) (vi code : Nat) (pf : Bool) (h : HostCmd) : Prop :=
  (s.die 0).fatal = false ∧ (s.iface vi).cmds.head? = some h ∧ s.hostBusy vi = false ∧ h.malformed = false ∧ h.code = code ∧ (pf = true → vi = 0)

/-- The head command has been answered in `t` with a status (R366): it has left the ring, and one that has a place in the ring
has its status word there and vector 0 sent. -/
def Replied (s : State) (vi : Nat) (h : HostCmd) (status : Nat) (t : State) : Prop :=
  let i := s.iface vi
  (t.iface vi).cmds = i.cmds.drop 1 ∧
  (h.internal = false → t.out = .msix vi 0 :: s.out ∧
    t.memBytes (i.ringBase + 64 * (h.pos % 2 ^ i.ringK) + 0x38) 8 = toLE 8 (2 ^ 63 + status))

/-- The head command has been performed (R366, R367): it is in the journal, and answered with OK. -/
def Accepted (s : State) (vi : Nat) (h : HostCmd) (t : State) : Prop :=
  Replied s vi h 0 t ∧ (t.iface vi).jnext = (s.iface vi).jnext + 1

/-- The event trace of die `d`, where it is not frozen, has recorded an event (R379). -/
def Traced (s : State) (d core kind a b : Nat) (t : State) : Prop :=
  (s.die d).trace.frozen = false → ⟨s.time, core, kind, a, b⟩ ∈ (t.die d).trace.entries

/-- Every byte of a 512 MiB unit of HBM reads as a value that nothing constrains (R373, R374; log entry 11). -/
def Unreadable (s : State) (u : Nat) (t : State) : Prop :=
  ∀ a, u * 0x20000000 ≤ a → a < (u + 1) * 0x20000000 → ∃ g, s.fog.length < g ∧ t.memByte a = Config.fogByte g a

/-- A physical address lies in what runtime firmware has granted an interface, for an agent of die `d` (R84): a 512 MiB unit of
HBM in its partition's share, or a 1 MiB block of the LLS in use there, a private one of the agent's own die. -/
def State.inGrant (s : State) (vi d pa : Nat) : Prop :=
  let i := s.iface vi
  let m := (s.die i.die).size
  (pa / 0x20000000 ∈ i.hbm ∧ i.die * hbmShare ≤ pa ∧ pa < (i.die + m) * hbmShare) ∨
  ((s.die i.die).pooled = true ∧ poolBase ≤ pa ∧ pa < poolBase + m * llsSize ∧ (4, (pa - poolBase) / 0x100000) ∈ i.lls) ∨
  ((s.die i.die).pooled = false ∧ llsBase d ≤ pa ∧ pa < llsBase d + llsSize ∧ i.die ≤ d ∧ d < i.die + m ∧
    (d, (pa - llsBase d) / 0x100000) ∈ i.lls)

/-- Each translation that core `c` caches for an interface is of an aligned page that lies wholly in its grant. -/
def State.tlbGranted (s : State) (c vi : Nat) : Prop :=
  ∀ e ∈ (s.core c).tlb, e.vi = vi → 12 ≤ e.sz ∧ e.va % 2 ^ e.sz = 0 ∧ e.pa % 2 ^ e.sz = 0 ∧
    ∀ o, o < 2 ^ e.sz → s.inGrant vi (dieOf c) (e.pa + o)

/-- The source register of an instruction that goes through tq; none for any other instruction (R233). -/
def tileOperand (i : Instr) : Option Reg :=
  match i with
  | .tld _ r _ | .tst _ r _ | .thdr _ r | .thdrGet _ r | .thdrFlags r | .thdrFlagsClr r | .tlut _ r | .tmma _ _ _ r _ _ _
  | .tmms _ _ _ r _ _ _ _ | .tmmc _ _ _ r _ _ _ _ | .tdist _ _ _ r _ _ _ | .tcupd _ _ _ r | .tcdiv _ _ r _
  | .tcvt _ _ r _ _ _ _ | .tscl _ _ r _ _ | .ttrn _ _ r _ => some r
  | .tzero .. | .tadd .. | .tmul .. | .tact .. | .tactD .. | .tred .. => some 0
  | _ => none

/-! ## What a tile operation writes (R233, R234) -/

/-- The tile unit of core `c` performs `e`, which has no log entry, for slot `n`, and nothing is poisoned. -/
def State.performing (s : State) (c n : Nat) (e : TqEntry) : Prop :=
  Up c s ∧ (s.tile c).owner = some n ∧ (s.tile c).busy = some e ∧ e.log = none ∧ e.zt.toNat % 128 = 0x2B ∧ s.poison = []

/-- The flag set of a tile unit gains the flags `fl i j` of all `i < 32` and `j < k` and no other. -/
def FlagsGain (c k : Nat) (fl : Nat → Nat → Flags) (s t : State) : Prop :=
  ∀ b, (t.tile c).flags.getLsbD b = true ↔
    ((s.tile c).flags.getLsbD b = true ∨ ∃ i j, i < 32 ∧ j < k ∧ (fl i j).getLsbD b = true)

/-- Element (i, j) of accumulator `m` holds `f m i j` where that gives a value; every other element of the tile unit, its
headers and codebooks, every byte of memory and every other core are as before, and the unit is free for the next entry. -/
def AccResult (c : Nat) (f : Nat → Nat → Nat → Option Nat) (s t : State) : Prop :=
  (∀ m i j, i < 32 → j < 32 →
    (t.tile c).el m i j = (match f m i j with | some v => v % 2 ^ 32 | none => (s.tile c).el m i j)) ∧
  (t.tile c).tm = (s.tile c).tm ∧ (t.tile c).hdr = (s.tile c).hdr ∧ (t.tile c).lut = (s.tile c).lut ∧
  (t.tile c).busy = none ∧ (∀ d, d ≠ c → t.core d = s.core d) ∧ ∀ a, t.memByte a = s.memByte a

/-- The same for the elements of tile register `td`, of format `df`. -/
def TmResult (c td df : Nat) (f : Nat → Nat → Option Nat) (s t : State) : Prop :=
  (∀ i k, i < 32 → k < capOf df →
    rowEl df ((t.tile c).row td i) k
      = (match f i k with | some v => v % 2 ^ fmtWidth df | none => rowEl df ((s.tile c).row td i) k)) ∧
  (∀ m i, m ≠ td → i < 32 → (t.tile c).row m i = (s.tile c).row m i) ∧
  (t.tile c).acc = (s.tile c).acc ∧ (t.tile c).hdr = (s.tile c).hdr ∧ (t.tile c).lut = (s.tile c).lut ∧
  (t.tile c).busy = none ∧ (∀ d, d ≠ c → t.core d = s.core d) ∧ ∀ a, t.memByte a = s.memByte a

/-- A region that has gone on from the block `b`, with the descriptor `d` its DVA names, for the slot `owner` (Tables 23-5 and
23-6, R358): a HALTED block after the boundary step it had put off (R31), a FROZEN one at its row, or the row after it with
SKIP. -/
def RestoredFrom (b d : List Byte) (owner : Nat) (r : Region) : Prop :=
  let mark := fld b 0 8
  let word := fun o => BitVec.ofNat 32 (fld b o 4)
  let k := word 0x1C
  let nxt := word 0x18
  let mask := BitVec.ofNat 8 (fld b 0x21 1)
  let starts := fld b 0x22 1 == 0 && (dOpen d || decide (nxt.toNat < dTrip d))
  r.st = .running ∧ r.owner = some owner ∧ r.desc = d ∧
  r.tag = word 0x10 ∧ r.ioff = word 0x14 ∧ r.kcp = fld b 0x26 1 ∧ r.ncp = fld b 0x27 1 ∧ r.exited = (fld b 0x22 1 == 1) ∧
  r.holds = BitVec.ofNat 64 (fld b 0x28 8) ∧ r.flags = BitVec.ofNat 3 (fld b 0x30 1) ∧ r.bph = BitVec.ofNat 16 (fld b 0x32 2) ∧
  (bits mark 32 2 = 2 → r.t = 0 ∧ r.k = k + 1 ∧ r.rrb = (fld b 0x20 1 + 23) % 24 ∧ r.hacc = 0 ∧
    r.mask = ((mask <<< 1) ||| (if starts then 1 else 0)) &&& BitVec.ofNat 8 (2 ^ dS d - 1) ∧
    r.nxt = (if starts then nxt + 1 else nxt)) ∧
  (bits mark 32 2 ≠ 2 → r.k = k ∧ r.rrb = fld b 0x20 1 ∧ r.mask = mask ∧ r.nxt = nxt ∧
    r.t = (if bitAt mark 35 then (fld b 0x23 1 + 1) % dII d else fld b 0x23 1) ∧
    r.hacc = (if bitAt mark 36 then 0 else fld b 0x24 2)) ∧
  ∀ lane, lane < 16 →
    (∀ m, m < 32 → (r.lane lane).reg m = word (0x100 + 240 * lane + 4 * m)) ∧
    (∀ m, m < 4 → Tab.get 0 (r.lane lane).lat m = word (0x180 + 240 * lane + 4 * m)) ∧
    (r.lane lane).p = BitVec.ofNat 8 (fld b (0x1E8 + 240 * lane) 1) ||| 1

/-- A row of the region of core `c` issues: the region may advance, nothing holds it, no violation or fault stops it, and
a BRKPT in it may freeze the region. -/
def State.rowIssues (s : State) (c : Nat) : Prop :=
  Up c s ∧ s.rowReady c = true ∧ s.violation c = none ∧ s.held c = false ∧ s.rowFault c = none ∧
  (s.mayFreeze c = true ∨ ∀ x ∈ s.laneActs c, x.op ≠ .brkpt)

/-- Bytes of the window of slot `n`. -/
def State.windowBytes (s : State) (c n off len : Nat) : List Byte := (s.core c).spadBytes ((s.core c).spadAddr n off) len

/-- The real value of element `k` of row `i` of a tile register (R48 to R50). -/
def TileUnit.real (t : TileUnit) (m i k : Nat) : Num :=
  let h := t.hd m
  elReal (hFmt h) (t.lutEl (hCb h)) (rowEl (hFmt h) (t.row m i) k)

/-- The exact sum of the products at the positions `ks` (R63). -/
def dotAt (a b : Nat → Num) (ks : List Nat) : NumV :=
  let ps := ks.map fun k => (a k).mul (b k)
  let x := exactSum (ps.map Prod.fst)
  (x.1, ps.any Prod.snd || x.2)

/-- The positions of block `blk` of `k` elements (R61). -/
def blockAt (k blk : Nat) : List Nat := upFrom (32 * blk) (min k (32 * blk + 32) - 32 * blk)

/-- The scale of row `i` and block `blk` of an operand whose scales lie at window offset `off` (R65, R245). -/
def State.scaleAt (s : State) (c n off h i blk : Nat) : Num :=
  if hSm h = 1 then Num.ofBits .f32 (fld (s.windowBytes c n (off + 4 * i) 4) 0 4)
  else if hSm h = 2 then Num.ofBits .bf16 (fld (s.windowBytes c n (off + 2 * (hSc h * i + blk)) 2) 0 2)
  else .fin false 1 0

/-- One element of a product pass (R62): `x` gives the exact sums of its `nb` blocks, `sa` and `sb` the scales. -/
def passElement (int neg sat : Bool) (x : Nat → NumV) (sa sb : Nat → Num) (nb c : Nat) : Nat × Flags :=
  (upFrom 0 nb).foldl (fun (r : Nat × Flags) blk =>
    if int then
      let v := (x blk).1.scaled 0
      let v := sgn 32 r.1 + (if neg then -v else v)
      let y := if sat then i32.sat v else (i32.wrap v, 0)
      (wrapN 32 y.1, r.2 ||| y.2)
    else
      let p := (x blk).1.mul (sa blk)
      let q := p.1.mul (sb blk)
      let v := roundF .f32 .rne (if neg then q.1.neg else q.1)
      let y := roundV .f32 .rne ((f32Bits r.1).add (f32Bits v.1))
      (y.1, r.2 ||| v.2 ||| y.2 ||| flagNv ((x blk).2 || p.2 || q.2))) (c, 0)

/-- One distance of R67, from the partial `p`. -/
def distElement (int : Bool) (x : Nat → NumV) (nb : Nat) (p : Option Nat) : Nat × Flags :=
  let r := (upFrom 0 nb).foldl (fun (r : Option Nat × Flags) blk =>
    match int, r.1 with
    | true, none => (some (wrapN 32 ((x blk).1.scaled 0)), r.2)
    | true, some d => let y := i32.sat (sgn 32 d + (x blk).1.scaled 0); (some (wrapN 32 y.1), r.2 ||| y.2)
    | false, none => let v := roundV .f32 .rne (x blk); (some v.1, r.2 ||| v.2)
    | false, some d =>
      let v := roundV .f32 .rne (x blk)
      let y := roundV .f32 .rne ((f32Bits d).add (f32Bits v.1))
      (some y.1, r.2 ||| v.2 ||| y.2)) (p, 0)
  (r.1.getD 0, r.2)

/-- The quotient a / n rounded to the nearest integer, ties to even. -/
def nearestQuot (a : Int) (n : Nat) : Int :=
  let q := a / (n : Int)
  let r := a % (n : Int)
  if (n : Int) < 2 * r ∨ (2 * r = (n : Int) ∧ q % 2 = 1) then q + 1 else q

/-! ## Encodings that are refused (R127, R128) -/

/-- The bits of its word that an instruction does not use, as its row of Tables 09-7 to 09-10 shows. -/
def unusedBits : Instr → BitVec 32
  | .rwait _ | .rhalt _ | .riter _ | .evpop _ | .evpeek _ | .evcnt _ | .tslot _ | .tstamp _ | .mstat _ => 0x1FF8000
  | .rsave .. | .rrstr .. | .rstat .. | .bwait .. | .barw .. | .btest .. | .bphase .. | .thand .. | .budq .. | .sunb ..
  | .cast .. | .partctl .. => 0x1F00000
  | .loop .. | .loopi .. | .cbwait .. => 0xF80
  | .lbrk _ => 0xFFF8F80
  | .barv _ | .tend _ | .mould _ => 0x1F00F80
  | .zfence .. => 0x1FE0E00
  | .tyield => 0x1FF8F80
  | .scope _ => 0xF1FF8000
  | .logp .. => 0x2000000
  | .qfence _ => 0xF00F8F80
  | .icinv .. | .tlbinv .. | .relatch .. => 0xF0000F80
  | .tld .. => 0x7E01F00
  | .tst .. => 0xFC1F00
  | .tzero .. => 0x7E3FF00
  | .thdr .. | .thdrGet .. => 0x7E01C80
  | .thdrFlags _ | .thdrFlagsClr _ => 0x7FC1C80
  | .tlut .. => 0x7F01F80
  | .tmma .. => 0x1880
  | .tmms .. | .tdist .. => 0x80
  | .tmmc .. => 0x1080
  | .tcupd .. => 0x1F80
  | .tcdiv .. => 0xE01E80
  | .tcvt .. => 0xE01800
  | .tadd .. | .tmul .. => 0x3FC80
  | .tact .. => 0xE3F880
  | .tactD .. => 0x3F880
  | .tscl .. => 0xE01880
  | .tred .. => 0xE3F080
  | .ttrn _ _ _ tm => if tm then 0xE01F00 else 0xE3FF00
  | .mxhint => 0x7FFFF80
  | _ => 0

/-- The Zarni words that no row of Tables 09-7 to 09-10 assigns by group, selector, scope, loop level or LOGP flag, and the tile words
whose fl value Table 15-3 marks unassigned (R237). -/
def unassignedWord (w : BitVec 32) : Bool :=
  let f3 := (w.extractLsb' 12 3).toNat
  let f7 := (w.extractLsb' 25 7).toNat
  let sc := f7 % 8
  let rd := (w.extractLsb' 7 5).toNat
  match (w.extractLsb' 0 7).toNat with
  | 0x0B =>
    (match f3 with
      | 0 => decide (8 ≤ f7)
      | 1 => f7 / 32 == 3 || f7 / 8 % 4 == 3
      | 2 => decide (6 ≤ f7)
      | 3 => decide (4 ≤ f7)
      | 4 => decide (6 ≤ sc ∨ f7 / 8 ∈ [6, 7, 8, 14, 15])
      | 5 => decide (5 ≤ f7)
      | 6 => decide (2 ≤ f7)
      | _ => decide (2 ≤ rd ∨ rd = 0 ∧ 6 ≤ sc ∨ rd = 1 ∧ (f7 / 32 = 3 ∨ f7 / 8 % 4 = 3 ∨ f7 / 2 % 4 = 3)))
  | 0x2B =>
    let fl := (w.extractLsb' 8 5).toNat
    (match (w.extractLsb' 27 5).toNat with
      | 6 | 15 => fl % 4 == 3
      | 8 => fl % 4 == 3 || decide (fl / 4 ∈ [5, 6])
      | 12 | 13 => fl % 4 == 2
      | 16 => fl / 2 % 4 == 3
      | top => decide (19 ≤ top))
  | 0x5B =>
    (match f3 with
      | 0 | 3 => decide (3 ≤ f7)
      | 1 => decide (13 ≤ f7)
      | 2 => decide (2 ≤ f7)
      | 5 => false
      | _ => true)
  | 0x7B =>
    (match f3 with
      | 0 | 1 | 2 => decide (6 ≤ sc)
      | 3 => f7 != 0
      | 7 => false
      | _ => true)
  | _ => false

/-- The opcodes of the four Zarni spaces and of the standard extensions the core implements (R124, R126). -/
def knownOpcodes : List (BitVec 7) :=
  [0x0B, 0x2B, 0x5B, 0x7B, 0x37, 0x17, 0x6F, 0x67, 0x63, 0x03, 0x23, 0x13, 0x1B, 0x33, 0x3B, 0x0F, 0x73, 0x2F, 0x07, 0x27, 0x43,
   0x47, 0x4B, 0x4F, 0x53]

/-! ## Formulas of the manual -/

/-- The new value of a scoped atomic of R175 on the old value, the operand and the comparand; none writes nothing. -/
def atomicRule {n : Nat} (op : AtomicOp) (old v cmp : BitVec n) : Option (BitVec n) :=
  match op with
  | .add => some (old + v)
  | .mins => some (if old.slt v then old else v)
  | .maxs => some (if old.slt v then v else old)
  | .xchg => some v
  | .cas => if old = cmp then some v else none

end Sys2Proof.Machine
end

