-- ==== Sys2Proof/Certificates/Slice0/Obligations.lean ====
section
/-! DEFINITION. The statements about the model. Each docstring names the rules of spec/ its statement formalises; `log entry n`
is notes/assumptions/n.md. -/

open Sys2Proof Sys2Proof.Machine

/-! ## Encoding and the step -/

/-- R123 to R135 and the ratified encodings: the word of a well-formed instruction decodes to that instruction, with every
operand at every value the encoding admits, and takes exactly its four bytes. -/
def Obligations.EncodeThenDecode : Prop :=
  ∀ (i : Instr) (w : BitVec 32) (rest : List Byte), i.wf = true → encode i = some w →
    decodeBytes (w.extractLsb' 0 8 :: w.extractLsb' 8 8 :: w.extractLsb' 16 8 :: w.extractLsb' 24 8 :: rest) = some (i, rest)

/-- Each 32-bit word has one meaning: a word that decodes to an instruction is the word that instruction encodes to, and the
instruction is well-formed; a word that decodes to ILLEGAL_INSTRUCTION carries its own bits.
R126, R127: every 16-bit encoding of the C extension, at every value of its fields, is its standard operation and takes two
bytes; every reserved one is illegal with subcode STANDARD and its own bits.
R127, R128, R237: a Zarni word that differs from an instruction's word only in bits the instruction does not use, or names
tile registers past the last, is illegal with subcode RSV_FIELD; a word that no row of the tables assigns is illegal with
UNASSIGNED, whatever its other fields hold (the model's choice where an unused field of it is not zero too, log entry 68); a
32-bit word of another opcode than those of the spaces and extensions the core implements, and any longer encoding, is illegal
with STANDARD. -/
def Obligations.DecodeThenEncode : Prop :=
  (
  ∀ (lo hi : Half) (i : Instr), decode lo hi = (i, 4) →
    (∃ sub, i = .illegal (hi ++ lo) sub) ∨ (encode i = some (hi ++ lo) ∧ i.wf = true)) ∧
  (
  ∀ (hi : Half) (b : BitVec 1) (x y : BitVec 3) (d r : Reg) (u5 : BitVec 5) (u6 i6 : BitVec 6) (u8 i8 : BitVec 8) (j : BitVec 11),
    let c := fun (n : BitVec 3) => (0b01#2 ++ n : Reg)
    let is := fun (p : Half) (op : Std) => decode p hi = (.standard op true, 2)
    let bad := fun (p : Half) => decode p hi = (.illegal (p.zeroExtend 32) 0, 2)
    let e := fun (u : BitVec 5) => (u.zeroExtend 12 : BitVec 12)
    let e6 := fun (u : BitVec 6) => (u.zeroExtend 12 : BitVec 12)
    let s6 := i6.extractLsb' 5 1
    let l6 := i6.extractLsb' 0 5
    -- quadrant 0: stack addresses, loads and stores of x8 to x15 and f8 to f15
    (u8 ≠ 0 → is (0b000#3 ++ u8.extractLsb' 2 2 ++ u8.extractLsb' 4 4 ++ u8.extractLsb' 0 1 ++ u8.extractLsb' 1 1 ++ x ++ 0#2)
      (.immOp .addi (c x) 2 (u8.zeroExtend 12 <<< 2))) ∧
    (∀ f op, (f, op) ∈ [(0b001#3, Std.fload .d (c x) (c y) (e u5 <<< 3)), (0b011, .load .ld (c x) (c y) (e u5 <<< 3)),
        (0b101, .fstore .d (c y) (c x) (e u5 <<< 3)), (0b111, .store .sd (c y) (c x) (e u5 <<< 3))] →
      is (f ++ u5.extractLsb' 0 3 ++ y ++ u5.extractLsb' 3 2 ++ x ++ 0#2) op) ∧
    (∀ f op, (f, op) ∈ [(0b010#3, Std.load .lw (c x) (c y) (e u5 <<< 2)), (0b110, .store .sw (c y) (c x) (e u5 <<< 2))] →
      is (f ++ u5.extractLsb' 1 3 ++ y ++ u5.extractLsb' 0 1 ++ u5.extractLsb' 4 1 ++ x ++ 0#2) op) ∧
    bad (0#11 ++ x ++ 0#2) ∧ bad (0b100#3 ++ j ++ 0#2) ∧
    -- quadrant 1: immediates, arithmetic, jumps and branches
    is (0b000#3 ++ s6 ++ d ++ l6 ++ 1#2) (.immOp .addi d d (i6.signExtend 12)) ∧
    (d ≠ 0 → is (0b001#3 ++ s6 ++ d ++ l6 ++ 1#2) (.immOp .addiw d d (i6.signExtend 12))) ∧
    bad (0b001#3 ++ s6 ++ 0#5 ++ l6 ++ 1#2) ∧
    is (0b010#3 ++ s6 ++ d ++ l6 ++ 1#2) (.immOp .addi d 0 (i6.signExtend 12)) ∧
    (i6 ≠ 0 → is (0b011#3 ++ s6 ++ 2#5 ++ i6.extractLsb' 0 1 ++ i6.extractLsb' 2 1 ++ i6.extractLsb' 3 2 ++ i6.extractLsb' 1 1 ++ 1#2)
      (.immOp .addi 2 2 ((i6 ++ 0#4 : BitVec 10).signExtend 12))) ∧
    (d ≠ 2 → i6 ≠ 0 → is (0b011#3 ++ s6 ++ d ++ l6 ++ 1#2) (.lui d (i6.signExtend 20))) ∧
    bad (0b0110#4 ++ d ++ 0#5 ++ 1#2) ∧
    is (0b100#3 ++ s6 ++ 0b00#2 ++ x ++ l6 ++ 1#2) (.shift .srli (c x) (c x) i6) ∧
    is (0b100#3 ++ s6 ++ 0b01#2 ++ x ++ l6 ++ 1#2) (.shift .srai (c x) (c x) i6) ∧
    is (0b100#3 ++ s6 ++ 0b10#2 ++ x ++ l6 ++ 1#2) (.immOp .andi (c x) (c x) (i6.signExtend 12)) ∧
    (∀ h f op, (h, f, op) ∈ [(0#1, 0b00#2, RegOp.sub), (0, 0b01, .xor), (0, 0b10, .or), (0, 0b11, .and), (1, 0b00, .subw),
        (1, 0b01, .addw)] → is (0b100#3 ++ h ++ 0b11#2 ++ x ++ f ++ y ++ 1#2) (.regOp op (c x) (c x) (c y))) ∧
    bad (0b100111#6 ++ x ++ 1#1 ++ b ++ y ++ 1#2) ∧
    is (0b101#3 ++ j.extractLsb' 10 1 ++ j.extractLsb' 3 1 ++ j.extractLsb' 7 2 ++ j.extractLsb' 9 1 ++ j.extractLsb' 5 1 ++
      j.extractLsb' 6 1 ++ j.extractLsb' 0 3 ++ j.extractLsb' 4 1 ++ 1#2) (.jal 0 (j.signExtend 20)) ∧
    (∀ f op, (f, op) ∈ [(0b110#3, BranchOp.beq), (0b111, .bne)] →
      is (f ++ i8.extractLsb' 7 1 ++ i8.extractLsb' 2 2 ++ x ++ i8.extractLsb' 5 2 ++ i8.extractLsb' 0 2 ++ i8.extractLsb' 4 1 ++ 1#2)
        (.branch op (c x) 0 (i8.signExtend 12))) ∧
    -- quadrant 2: shifts, loads and stores by the stack pointer, moves and jumps through registers
    is (0b000#3 ++ s6 ++ d ++ l6 ++ 2#2) (.shift .slli d d i6) ∧
    (∀ f op, (f, op) ∈ [(0b001#3, Std.fload .d d 2 (e6 u6 <<< 3)), (0b011, .load .ld d 2 (e6 u6 <<< 3))] → (f = 0b011 → d ≠ 0) →
      is (f ++ u6.extractLsb' 2 1 ++ d ++ u6.extractLsb' 0 2 ++ u6.extractLsb' 3 3 ++ 2#2) op) ∧
    (d ≠ 0 → is (0b010#3 ++ u6.extractLsb' 3 1 ++ d ++ u6.extractLsb' 0 3 ++ u6.extractLsb' 4 2 ++ 2#2)
      (.load .lw d 2 (e6 u6 <<< 2))) ∧
    bad (0b01#2 ++ b ++ s6 ++ 0#5 ++ l6 ++ 2#2) ∧
    (d ≠ 0 → is (0b1000#4 ++ d ++ 0#5 ++ 2#2) (.jalr 0 d 0) ∧ is (0b1001#4 ++ d ++ 0#5 ++ 2#2) (.jalr 1 d 0)) ∧
    (r ≠ 0 → is (0b1000#4 ++ d ++ r ++ 2#2) (.regOp .add d 0 r) ∧ is (0b1001#4 ++ d ++ r ++ 2#2) (.regOp .add d d r)) ∧
    is (0b1001#4 ++ 0#10 ++ 2#2) .ebreak ∧ bad (0b1000#4 ++ 0#10 ++ 2#2) ∧
    (∀ f op, (f, op) ∈ [(0b101#3, Std.fstore .d 2 r (e6 u6 <<< 3)), (0b111, .store .sd 2 r (e6 u6 <<< 3))] →
      is (f ++ u6.extractLsb' 0 3 ++ u6.extractLsb' 3 3 ++ r ++ 2#2) op) ∧
    is (0b110#3 ++ u6.extractLsb' 0 4 ++ u6.extractLsb' 4 2 ++ r ++ 2#2) (.store .sw 2 r (e6 u6 <<< 2))) ∧
  (
  (∀ (i : Instr) (w x : BitVec 32), i.wf = true → encode i = some w → x ≠ 0 → x &&& ~~~(unusedBits i) = 0 →
    decode32 (w ||| x) = .illegal (w ||| x) 2) ∧
  (∀ (w : BitVec 32), unassignedWord w = true → decode32 w = .illegal w 1) ∧
  (∀ (w : BitVec 32), w.extractLsb' 0 7 = 0x2B → w.extractLsb' 27 5 = 6 → w.extractLsb' 8 2 ≠ 3 →
    8 < (w.extractLsb' 24 3).toNat + (if w.extractLsb' 8 2 = 0 then 2 else 4) → decode32 w = .illegal w 2) ∧
  (∀ (w : BitVec 32), w.extractLsb' 0 7 ∉ knownOpcodes → decode32 w = .illegal w 0) ∧
  (∀ (lo hi : Half), lo.extractLsb' 0 5 = 31 → decode lo hi = (.illegal (hi ++ lo) 0, 4)) ∧
  (∀ (lo hi : Half), lo.extractLsb' 0 2 = 3 → lo.extractLsb' 0 5 ≠ 31 → decode lo hi = (decode32 (hi ++ lo), 4)))

/-- Words written out from the encoding tables: RLNCH x5,x6,x7; LOOP zlc1 over 4 parcels, x10; BARW x1,x2; AADD.D scope
die, rdc x9; SCOPE die; TMMA acc1,tm2,tm3 with NEW; CPY cq2; QFENCE 0x41; C.ADDI x8,1; ADDI x1,x2,-1; an unassigned f7 of
group 000. -/
def Obligations.SampleWordsDecode : Prop :=
  decodeTableWord 32 0b00000010011100110000001010001011 = some (.rlnch 5 6 7) ∧
  decodeTableWord 32 0b00010000001101010001000000001011 = some (.loop 1 3 10) ∧
  decodeTableWord 32 0b00000110000000010010000010001011 = some (.barw 1 2) ∧
  decodeTableWord 32 0b10010110011100110100000010001011 = some (.aaddD 3 7 6 false false 1) ∧
  decodeTableWord 32 0b00000110000000000111000000001011 = some (.scope 3) ∧
  decodeTableWord 32 0b00101010011001001000010000101011 = some (.tmma 1 2 3 4 true false false) ∧
  decodeTableWord 32 0b00000100011100110001001011011011 = some (.cpy 2 5 6 7) ∧
  decodeTableWord 32 0b00000100000100000101000001011011 = some (.qfence 0x41) ∧
  decodeTableWord 16 0b0000010000000101 = some (.standard (.immOp .addi 8 8 1) true) ∧
  decodeTableWord 32 0b11111111111100010000000010010011 = some (.standard (.immOp .addi 1 2 0xFFF) false) ∧
  decodeTableWord 32 0b00010000000000000000000000001011 = none

/-- R126, R148, R344, R353: a control core that may step, that waits for nothing, that has not been asked to halt and that has
no asynchronous trap to take executes the instruction at its pc: two parcels where bits 1:0 of the first are 11, one otherwise.
One with an asynchronous trap to take at the boundary it stands at takes it before that instruction.
R4: a core that the device does not have (640 and above) does nothing.
Log entry 1: a step of another agent that the agenda puts first is taken, and the agenda goes on behind it. -/
def Obligations.StepRunsDecodedInstruction : Prop :=
  (
  (∀ (s : State), s.agenda = [] → 640 ≤ s.cur → step s = .next s) ∧
  ∀ (s t : State) (lo : Half), s.agenda = [] → s.cur < 640 → (s.die (dieOf s.cur)).fatal = false →
    (s.trapsNow = true → step s = .next s.asyncTrap) ∧
    (s.trapsNow = false → s.standsStill = false → s.me.wait = none → s.fetchParcel s.cur s.me.pc = (t, .parcel lo) →
    (lo.extractLsb' 0 2 ≠ 3#2 → step s = exec (decode lo 0).1 { t with ir := lo.zeroExtend 32 }) ∧
    (∀ (u : State) (hi : Half), lo.extractLsb' 0 2 = 3#2 → t.fetchParcel s.cur (s.me.pc + 2) = (u, .parcel hi) →
      step s = exec (decode lo hi).1 { u with ir := hi ++ lo }))) ∧
  (
  ∀ (s : State) (i : Instr) (rest : List Item), s.agenda = .event i :: rest → step s = exec i { s with agenda := rest })

/-- Writing a byte of memory: that address reads the byte, every other address reads as before.
R7, R118, R126: an M-mode fetch of a parcel of which no line is held reads the two bytes at its address, the low byte
first. -/
def Obligations.MemoryReadsAndFetches : Prop :=
  (
  ∀ (s : State) (a : Nat) (bs : List Byte),
    (s.memWrite a bs).memBytes a bs.length = bs ∧ MemFrame [(a, bs.length)] s (s.memWrite a bs)) ∧
  (
  ∀ (s : State) (c a : Nat) (va : Word), (s.core c).mode = .m → va.toNat % 2 = 0 → s.home (dieOf c) va.toNat = some a →
    a % 2 = 0 → (∀ l ∈ (s.core c).icache, l.pa ≠ a / 64 * 64) → s.memPois a 2 = false →
    (s.fetchParcel c va).2 = .parcel (s.memByte (a + 1) ++ s.memByte a))

/-- The memory list keeps its canonical form under every step of every agent, those that zero memory (R80) and those that make
it unpredictable (R370) included: addresses rise strictly, and no listed byte equals what an unlisted address reads as. The
list, its canonical form and what an unlisted address reads as are the model's own (log entries 5 and 11); no rule states
them. -/
def Obligations.StepKeepsMemoryCanonical : Prop :=
  ∀ (s t : State), Memory.wf s = true → step s = .next t → Memory.wf t = true

/-- The same for the instructions of the control core that reach memory by their own accesses (R72): every standard instruction,
MRET, an illegal encoding and the ten scoped atomics keep the canonical form, which is the model's own (log entries 5 and 11). -/
def Obligations.StandardKeepsMemoryCanonical : Prop :=
  ∀ (s t : State) (i : Instr),
    (match i with
      | .standard .. | .mret | .illegal .. | .aaddW .. | .aminsW .. | .amaxsW .. | .axchgW .. | .acasW .. | .aaddD ..
      | .aminsD .. | .amaxsD .. | .axchgD .. | .acasD .. => True
      | _ => False) →
    Memory.wf s = true → exec i s = .next t → Memory.wf t = true

/-- R369: after cold reset each die is a partition of its own, with private LLS. What else the statement says of the reset state
is the model's choice: every core begins in M mode with no slot running (log entry 3); no task is placed, no interface enabled,
every region idle, the windows at 4 tiles each and no cycle counted (log entry 4); no byte of memory is listed, and the list
is in canonical form (log entries 5 and 11); the agenda is empty (log entry 1). -/
def Obligations.ResetState : Prop :=
  Memory.wf State.reset = true ∧ State.reset.mem = [] ∧ State.reset.agenda = [] ∧ State.reset.cycles = 0 ∧
  (∀ c, (State.reset.core c).running = none ∧ (State.reset.core c).mode = .m ∧ (State.reset.region c).st = .idle) ∧
  (∀ c n, (State.reset.slot c n).task = none ∧ (State.reset.core c).win n = (4 * n, 4)) ∧
  (∀ v, (State.reset.iface v).enabled = false) ∧
  (∀ d, d < 4 → (State.reset.die d).first = d ∧ (State.reset.die d).size = 1 ∧ (State.reset.die d).pooled = false)

/-! ## Standard instructions -/

/-- R126, R147, R149: the integer operations of RV64I, M, Zba and Zbb complete in every mode: rd holds the result (x0 reads
zero), the upper-immediate forms give the sign-extended immediate alone or added to the pc, and nothing but rd, the pc and
the loop levels changes. -/
def Obligations.IntegerOperationsComplete : Prop :=
  ∀ (s : State) (short : Bool) (rd rs1 rs2 : Reg),
    let len := if short then 2 else 4
    (∀ imm, Ready [rd] s →
      (∃ t, exec (.standard (.lui rd imm) short) s = .next t ∧
        t.getX rd = (if rd = 0 then 0 else sx (imm ++ 0#12)) ∧ Done [rd] [] false s t len) ∧
      (∃ t, exec (.standard (.auipc rd imm) short) s = .next t ∧
        t.getX rd = (if rd = 0 then 0 else s.me.pc + sx (imm ++ 0#12)) ∧ Done [rd] [] false s t len)) ∧
    (∀ op imm, Ready [rd, rs1] s → ∃ t, exec (.standard (.immOp op rd rs1 imm) short) s = .next t ∧
      t.getX rd = (if rd = 0 then 0 else immEval op (s.getX rs1) imm) ∧ Done [rd] [] false s t len) ∧
    (∀ op sh, Ready [rd, rs1] s → ∃ t, exec (.standard (.shift op rd rs1 sh) short) s = .next t ∧
      t.getX rd = (if rd = 0 then 0 else shiftEval op (s.getX rs1) sh) ∧ Done [rd] [] false s t len) ∧
    (∀ op sh, Ready [rd, rs1] s → ∃ t, exec (.standard (.shiftW op rd rs1 sh) short) s = .next t ∧
      t.getX rd = (if rd = 0 then 0 else shiftWEval op (s.getX rs1) sh) ∧ Done [rd] [] false s t len) ∧
    (∀ op, Ready [rd, rs1, rs2] s → ∃ t, exec (.standard (.regOp op rd rs1 rs2) short) s = .next t ∧
      t.getX rd = (if rd = 0 then 0 else regEval op (s.getX rs1) (s.getX rs2)) ∧ Done [rd] [] false s t len) ∧
    (∀ op, Ready [rd, rs1] s → ∃ t, exec (.standard (.unary op rd rs1) short) s = .next t ∧
      t.getX rd = (if rd = 0 then 0 else unaryEval op (s.getX rs1)) ∧ Done [rd] [] false s t len)

/-- R126, R147: JAL and JALR link the address of the next instruction and go to their target (JALR's with bit 0 cleared,
computed before the link is written); a branch goes to its target exactly when its condition holds, and to the next address
otherwise. The target passes through the loop levels as a redirect, the next address as a fall through: the pc and the levels
are what R161 makes of them.
R161, R133: how an address `a` passes the levels that are active and not suspended, the smaller body first (log entry 23 for
equal bodies). A redirect goes to `a`, and ends the innermost levels whose bodies `a` lies outside of, up to the first it lies
within; every other level stays. A fall through does the same, but at a level's end address the level ends only on its last
iteration: otherwise the pc is the start of the body, the count falls by one, PW is set where a prefix group is pending, and the
levels further out stay; where PW stands already the group is being replayed and nothing is counted. Completing an instruction
falls through to the next address, a taken jump redirects; where it takes a pending prefix group, PW is first cleared in every
level that is not suspended. -/
def Obligations.ControlFlowCompletes : Prop :=
  (
  ∀ (s : State) (short : Bool) (rd rs1 rs2 : Reg),
    let len := if short then 2 else 4
    let redirected := fun (t : State) (a : Word) => t.me.pc = (s.me.jump a).pc ∧ t.me.loops = (s.me.jump a).loops
    (∀ off, Ready [rd] s → ∃ t, exec (.standard (.jal rd off) short) s = .next t ∧
      t.getX rd = (if rd = 0 then 0 else s.me.pc + BitVec.ofNat 64 len) ∧
      redirected t (s.me.pc + (sx off <<< 1)) ∧ Completed [rd] [] false s t) ∧
    (∀ imm, Ready [rd, rs1] s → ∃ t, exec (.standard (.jalr rd rs1 imm) short) s = .next t ∧
      t.getX rd = (if rd = 0 then 0 else s.me.pc + BitVec.ofNat 64 len) ∧
      redirected t ((s.getX rs1 + sx imm) &&& ~~~1#64) ∧ Completed [rd] [] false s t) ∧
    (∀ op off, Ready [rs1, rs2] s → ∃ t, exec (.standard (.branch op rs1 rs2 off) short) s = .next t ∧
      (branchTaken op (s.getX rs1) (s.getX rs2) = true → redirected t (s.me.pc + (sx off <<< 1))) ∧
      (branchTaken op (s.getX rs1) (s.getX rs2) = false → FallsThrough s t len) ∧ Completed [] [] false s t)) ∧
  (
  ∀ (k : Ctl) (a : Word) (len : Nat),
    let live := fun m => m < 3 ∧ (k.loop m).act = true ∧ (k.loop m).susp = false
    let before := fun n m => (k.loop n).bl < (k.loop m).bl ∨ ((k.loop n).bl = (k.loop m).bl ∧ n < m)
    let outside := fun m => a < (k.loop m).start ∨ (k.loop m).stop ≤ a
    let leaves := fun m => if a = (k.loop m).stop then (k.loop m).pw = false ∧ (k.loop m).cnt.toNat ≤ 1 else outside m
    let r := k.goto false a
    let f := k.goto true a
    let g : Ctl := { k with wait := none, pre := none,
                            loops := if k.pre.isSome then k.loops.map fun (m, l) => (m, if l.susp then l else { l with pw := false })
                                     else k.loops }
    r.pc = a ∧
    (∀ m, live m → outside m → (∀ n, live n → before n m → outside n) →
      r.loop m = { k.loop m with act := false, pw := false }) ∧
    (∀ m, ¬ (live m ∧ outside m ∧ ∀ n, live n → before n m → outside n) → r.loop m = k.loop m) ∧
    ((∀ m, live m → leaves m) → f.pc = a) ∧
    (∀ m, ¬ (live m ∧ ∀ n, live n → before n m → leaves n) → f.loop m = k.loop m) ∧
    (∀ m, live m → (∀ n, live n → before n m → leaves n) →
      (leaves m → f.loop m =
        { k.loop m with act := false, pw := false, cnt := if a = (k.loop m).stop then (k.loop m).cnt - 1 else (k.loop m).cnt }) ∧
      (¬ leaves m → a ≠ (k.loop m).stop → f.pc = a ∧ f.loop m = k.loop m) ∧
      (¬ leaves m → a = (k.loop m).stop → f.pc = (k.loop m).start ∧
        f.loop m = if (k.loop m).pw then k.loop m else { k.loop m with cnt := (k.loop m).cnt - 1, pw := k.pre.isSome })) ∧
    k.advance len = g.goto true (k.pc + BitVec.ofNat 64 len) ∧ k.jump a = g.goto false a)

/-- R126, R7: a load whose bytes are located and not poisoned completes: rd holds the number read, extended as its name says,
or f[rd] holds it, a single NaN-boxed; no byte of memory and no other register changes. That a misaligned load completes, byte by
byte, is the model's choice (log entry 6).
R126, R7, R104: a store whose bytes are located completes: the bytes at its address, lowest first, are the low bytes of rs2
(or of f[rs2]); every other byte of memory and every register is as before. Where the bytes lie in one piece, reading them back
gives what was stored. A reservation of any core on a granule the store touches, in whichever piece, is lost; every other
stands. That a misaligned store completes, byte by byte, is the model's choice (log entry 6). -/
def Obligations.LoadsAndStoresComplete : Prop :=
  (
  ∀ (s u : State) (short : Bool) (rd rs1 : Reg) (imm : BitVec 12) (l : List (Nat × Nat)),
    let len := if short then 2 else 4
    u.poisPieces l = false →
    (∀ op, Ready [rd, rs1] s →
      s.locate s.cur (s.core s.cur).dataMode (s.getX rs1 + sx imm).toNat (loadWidth op) .read = (u, .pieces l) →
      ∃ t, exec (.standard (.load op rd rs1 imm) short) s = .next t ∧
        t.getX rd = (if rd = 0 then 0 else loadValue op (leNat (s.readPieces l))) ∧
        CtlFrame [rd] [] false s t ∧ FallsThrough s t len ∧ AccessFrame s t ∧ t.resvs = s.resvs ∧ ∀ a, t.memByte a = s.memByte a) ∧
    (∀ f, Ready [rs1] s →
      s.locate s.cur (s.core s.cur).dataMode (s.getX rs1 + sx imm).toNat (match f with | .s => 4 | .d => 8) .read
        = (u, .pieces l) →
      ∃ t, exec (.standard (.fload f rd rs1 imm) short) s = .next t ∧
        t.getF rd = fpBox f (leNat (s.readPieces l)) ∧
        CtlFrame [] [rd] false s t ∧ FallsThrough s t len ∧ AccessFrame s t ∧ t.resvs = s.resvs ∧ ∀ a, t.memByte a = s.memByte a)) ∧
  (
  ∀ (s u : State) (short : Bool) (rs1 rs2 : Reg) (imm : BitVec 12) (l : List (Nat × Nat)),
    let len := if short then 2 else 4
    let stored := fun (op : Std) (n : Nat) (v : Word) =>
      s.locate s.cur (s.core s.cur).dataMode (s.getX rs1 + sx imm).toNat n .write = (u, .pieces l) →
      ∃ t, exec (.standard op short) s = .next t ∧
        (∀ a, l = [(a, n)] → t.memBytes a n = toLE n v.toNat) ∧ (∀ r ∈ t.resvs, ¬ Touches l r) ∧
        (∀ a, t.memByte a = (s.writePieces l (toLE n v.toNat)).memByte a) ∧
        CtlFrame [] [] false s t ∧ FallsThrough s t len ∧ AccessFrame s t ∧ MemFrame l s t ∧ ResvFrame l s t
    (∀ op, Ready [rs1, rs2] s → stored (.store op rs1 rs2 imm) (storeWidth op) (s.getX rs2)) ∧
    (∀ f, Ready [rs1] s → stored (.fstore f rs1 rs2 imm) (match f with | .s => 4 | .d => 8) (s.getF rs2)))

/-- R104, R106, R126, R176: an aligned LR reads its word and leaves the core one reservation, of the 64-byte granule and the
scope of the instruction. An aligned SC whose core holds a reservation of that granule and scope stores and writes 0; any
other SC writes 1 and stores nothing; the core then holds no reservation. An aligned AMO stores the result of its operation
and writes rd the old value. A successful SC and an AMO, whatever value they write, end the reservation of every core on the
granule; no other reservation is lost, and a failed SC ends none of another core. -/
def Obligations.ReservedAndAtomicComplete : Prop :=
  ∀ (s u : State) (dbl aq rl : Bool) (rd rs1 rs2 : Reg) (a : Nat),
    let w := if dbl then 8 else 4
    let lcd := fun (acc : Acc) => s.locate s.cur (s.core s.cur).dataMode (s.getX rs1).toNat w acc
    let mine := fun (r : Resv) => r.core == s.cur && r.granule == a / 64 && r.scope == s.aScope
    (s.getX rs1).toNat % w = 0 →
    (ReadyScoped [rd, rs1] s → u.poisPieces [(a, w)] = false → lcd (if s.scoped then .rmw else .read) = (u, .pieces [(a, w)]) →
      ∃ t, exec (.standard (.lr dbl aq rl rd rs1) false) s = .next t ∧
        t.getX rd = (if rd = 0 then 0 else sextW w (s.memNat a w)) ∧
        t.resvs = s.resvs.filter (fun r => r.core != s.cur) ++ [⟨s.cur, a / 64, s.aScope⟩] ∧
        CtlFrame [rd] [] false s t ∧ FallsThrough s t ∧ AccessFrame s t ∧ ∀ b, t.memByte b = s.memByte b) ∧
    (ReadyScoped [rd, rs1, rs2] s → lcd (if s.scoped then .rmw else .write) = (u, .pieces [(a, w)]) →
      ∃ t, exec (.standard (.sc dbl aq rl rd rs1 rs2) false) s = .next t ∧
        t.getX rd = (if rd = 0 then 0 else if s.resvs.any mine then 0 else 1) ∧
        (s.resvs.any mine = true → t.memBytes a w = toLE w (s.getX rs2).toNat) ∧
        (s.resvs.any mine = false → ∀ b, t.memByte b = s.memByte b) ∧
        (∀ r ∈ t.resvs, r.core ≠ s.cur ∧ r ∈ s.resvs ∧ (s.resvs.any mine = true → ¬ Touches [(a, w)] r)) ∧
        (∀ r ∈ s.resvs, r.core ≠ s.cur → (s.resvs.any mine = false ∨ ¬ Touches [(a, w)] r) → r ∈ t.resvs) ∧
        CtlFrame [rd] [] false s t ∧ FallsThrough s t ∧ AccessFrame s t ∧ MemFrame [(a, w)] s t) ∧
    (∀ op, ReadyScoped [rd, rs1, rs2] s → u.poisPieces [(a, w)] = false → lcd .rmw = (u, .pieces [(a, w)]) →
      ∃ t, exec (.standard (.amo op dbl aq rl rd rs1 rs2) false) s = .next t ∧
        t.getX rd = (if rd = 0 then 0 else sextW w (s.memNat a w)) ∧
        t.memBytes a w = toLE w (amoNew op w (s.memNat a w) (s.getX rs2).toNat) ∧
        ResvFrame [(a, w)] s t ∧ (∀ r ∈ t.resvs, ¬ Touches [(a, w)] r) ∧
        CtlFrame [rd] [] false s t ∧ FallsThrough s t ∧ AccessFrame s t ∧ MemFrame [(a, w)] s t)

/-- R126, R138, R163, R311: a permitted CSR access writes rd the old value; one that does not write changes nothing else; one that
writes a register leaves what that register holds of the new value (which bits the machine-mode CSRs hold is the model's choice,
log entry 6): mtvec without bit 1, mepc without bit 0, zfrec bits
47:6, mscratch, mcause, mtval and the counters whole; fcsr, frm and fflags take their own bits; the mould's registers take
theirs, but for zmlbase, zmlptr and zmlcast while the mould is enabled. mip takes bit 16 alone. zlc0 to zlc2 store every field
of their level, with SUSP wherever ACT is written; the level so written is not passed by the access's own fall through (R163). -/
def Obligations.CsrAccessesComplete : Prop :=
  ∀ (s : State) (op : CsrOp) (rd : Reg) (src : CsrSrc) (num : BitVec 12),
    let v : Word := match src with | .reg r => s.getX r | .imm z => zx z
    let writes := op == .rw || (match src with | .reg r => r != 0 | .imm z => z != 0)
    let old := (s.csrRead num.toNat).getD 0
    let new := match op with | .rw => v | .rs => old ||| v | .rc => old &&& ~~~v
    Ready (stdRegs (.csr op rd src num)) s → s.csrBad num.toNat writes = false →
    ∃ t, exec (.standard (.csr op rd src num) false) s = .next t ∧
      t.getX rd = (if rd = 0 then 0 else old) ∧
      (∀ r, r ≠ rd → t.getX r = s.getX r) ∧ (∀ r, t.getF r = s.getF r) ∧ (∀ a, t.memByte a = s.memByte a) ∧
      (∀ c, c ≠ s.cur → t.core c = s.core c) ∧
      (writes = false → Done [rd] [] false s t) ∧
      (writes = true →
        (∀ m, (num.toNat, m) ∈ [(0x305, ~~~2#64), (0x340, BitVec.allOnes 64), (0x341, ~~~1#64), (0x342, BitVec.allOnes 64),
            (0x343, BitVec.allOnes 64), (0x7C0, 0x0000FFFFFFFFFFC0#64), (0x003, 0xFF#64), (0x002, 7#64), (0x001, 31#64),
            (0x304, 0x30000#64), (0x320, 5#64), (0xB00, BitVec.allOnes 64), (0xB02, BitVec.allOnes 64), (0x801, mlMask)] →
          t.csrRead num.toNat = some (new &&& m)) ∧
        (∀ m, s.me.en = false → (num.toNat, m) ∈ [(0x800, mlMask), (0x802, mlMask), (0x803, castMask)] →
          t.csrRead num.toNat = some (new &&& m)) ∧
        (s.me.en = true → num.toNat ∈ [0x800, 0x802, 0x803] → t.csrRead num.toNat = s.csrRead num.toNat) ∧
        (num.toNat = 0x804 → t.csrRead 0x804 = some ((new &&& modeMask) ||| (s.me.zmlmode &&& 1))) ∧
        (num.toNat = 0x300 → t.csrRead 0x300 = some (mstatusLegal new ||| mstatusConst)) ∧
        (num.toNat = 0x344 → t.csrRead 0x344 = some ((new &&& 0x10000) ||| (old &&& 0x20000))) ∧
        (num.toNat ∉ [0x805, 0x806, 0x807] → FallsThrough s t) ∧
        (∀ l, l < 3 → num.toNat = 0x805 + l →
          let k := s.me.setLoop l { s.me.loop l with
            act := new.getLsbD 63, susp := new.getLsbD 63 || new.getLsbD 62, pw := new.getLsbD 61, off := new.extractLsb' 48 9,
            bl := new.extractLsb' 40 8, cnt := new.extractLsb' 0 32, body := false }
          t.me.loop l = k.loop l ∧ t.me.loops = (k.advance 4).loops ∧ t.me.pc = (k.advance 4).pc))

/-- R71, R126: with a rounding mode the instruction or frm names, the F and D arithmetic completes: f[rd] holds the result, the
exception flags it raises join fcsr, and nothing else but the pc changes.
R71, R126: comparisons, classification, conversions to an integer and moves write x[rd] and the flags they raise. A
rounding mode that names none is an illegal instruction with subcode 0. -/
def Obligations.FloatingPointCompletes : Prop :=
  (
  ∀ (s : State) (f : FFmt) (rm : BitVec 3) (rd rs1 rs2 rs3 : Reg) (m : RMode),
    let F := FFmt.fmt f
    let gives := fun (op : Std) (r : FpRes) => ∃ t, exec (.standard op false) s = .next t ∧
      t.getF rd = fpBox f r.1 ∧ t.me.fcsr = s.me.fcsr ||| r.2.bits.zeroExtend 8 ∧ Done [] [rd] true s t
    Ready [rs1] s →
    (s.me.rounding rm = some m →
      (∀ op, gives (.fbin op f rm rd rs1 rs2) (fpBin op F m (s.fp f rs1) (s.fp f rs2))) ∧
      (∀ op, gives (.fma op f rm rd rs1 rs2 rs3) (fpFma op F m (s.fp f rs1) (s.fp f rs2) (s.fp f rs3))) ∧
      gives (.fsqrt f rm rd rs1) (fpSqrt F m (Num.ofBits F (s.fp f rs1)) (fpSignals F (s.fp f rs1))) ∧
      gives (.fcvtFmt f rm rd rs1)
        (fpRound F m (Num.ofBits (FFmt.fmt (otherFmt f)) (s.fp (otherFmt f) rs1))
          (fpSignals (FFmt.fmt (otherFmt f)) (s.fp (otherFmt f) rs1)) false) ∧
      (∀ ty, gives (.fcvtFromInt ty f rm rd rs1)
        (fpRound F m (Num.ofInt (intFrom ty (s.getX rs1))) false false))) ∧
    (∀ op, gives (.fsel op f rd rs1 rs2) (fpSel op F (s.fp f rs1) (s.fp f rs2))) ∧
    (∃ t, exec (.standard (.fmvFromInt f rd rs1) false) s = .next t ∧ t.getF rd = fpBox f (s.getX rs1).toNat ∧
      Done [] [rd] false s t)) ∧
  (
  ∀ (s : State) (f : FFmt) (rm : BitVec 3) (rd rs1 rs2 : Reg),
    let F := FFmt.fmt f
    let gives := fun (op : Std) (v : Word) (g : BitVec 5) => ∃ t, exec (.standard op false) s = .next t ∧
      t.getX rd = (if rd = 0 then 0 else v) ∧ t.me.fcsr = s.me.fcsr ||| g.zeroExtend 8 ∧ Done [rd] [] true s t
    let ill := fun (op : Std) => exec (.standard op false) s
      = .next (s.takeTrap s.cur false 2 (zx (s.bitsOf (.standard op false))) s.me.pc)
    Ready [rd] s →
    (∀ op, gives (.fcmp op f rd rs1 rs2) (zx (BitVec.ofBool (fpCmp op F (s.fp f rs1) (s.fp f rs2)).1))
      (fpCmp op F (s.fp f rs1) (s.fp f rs2)).2.bits) ∧
    gives (.fclass f rd rs1) (1#64 <<< fpClass F (s.fp f rs1)) 0 ∧
    gives (.fmvToInt f rd rs1)
      (match f with | .s => sextW 4 ((s.getF rs1).toNat % 2 ^ 32) | .d => s.getF rs1) 0 ∧
    (∀ ty m, s.me.rounding rm = some m →
      gives (.fcvtToInt ty f rm rd rs1) (intBox ty (fpToInt (FIntTy.ty ty) F m (s.fp f rs1)).1)
        (fpToInt (FIntTy.ty ty) F m (s.fp f rs1)).2.bits) ∧
    (s.me.rounding rm = none →
      (∀ ty, ill (.fcvtToInt ty f rm rd rs1)) ∧ (∀ op, ill (.fbin op f rm rd rs1 rs2)) ∧
      (∀ op rs3, ill (.fma op f rm rd rs1 rs2 rs3)) ∧ ill (.fsqrt f rm rd rs1) ∧ ill (.fcvtFmt f rm rd rs1) ∧
      (∀ ty, Ready [rd, rs1] s → ill (.fcvtFromInt ty f rm rd rs1))))

/-- R126, R118: FENCE, WFI (in M mode, or with TW clear) and FENCE.I complete and change no register; FENCE.I leaves the core's
instruction cache empty. That WFI completes at once, and traps in U mode with TW set, is the model's choice (log entry 6).
R185, R118: ICINV removes the lines of the instruction and image caches that overlap the range, in every core within its
scope and in no other; no register and no byte of memory changes. A length of 0 removes nothing. A range of up to `icinvLimit`
bytes removes those lines and no others; a longer one may also remove others (the model's choice, log entry 9). -/
def Obligations.FencesAndCachesComplete : Prop :=
  (
  ∀ (s : State) (short : Bool) (fm pred succ : BitVec 4) (rd rs1 : Reg) (imm : BitVec 12), Ready [] s →
    (∃ t, exec (.standard (.fence fm pred succ rd rs1) short) s = .next t ∧ Done [] [] false s t (if short then 2 else 4)) ∧
    (((s.core s.cur).mode = .m ∨ (s.core s.cur).csr.mstatus.getLsbD 21 = false) →
      ∃ t, exec (.standard .wfi short) s = .next t ∧ Done [] [] false s t) ∧
    ((s.core s.cur).mode = .u → (s.core s.cur).csr.mstatus.getLsbD 21 = true →
      exec (.standard .wfi short) s = .next (s.takeTrap s.cur false 2 (zx (0x10500073 : W32)) s.me.pc)) ∧
    (∃ t, exec (.standard (.fenceI rd rs1 imm) short) s = .next t ∧ (t.core s.cur).icache = [] ∧
      (∀ c, c ≠ s.cur → t.core c = s.core c) ∧ CtlFrame [] [] false s t ∧ FallsThrough s t ∧
      ∀ a, t.memByte a = s.memByte a)) ∧
  (
  ∀ (s : State) (sc : Scope) (rs2 rs1 : Reg), Ready [rs1, rs2] s →
    let n := (s.getX rs2).toNat
    let l := s.cachePieces (s.runVi s.cur) (dieOf s.cur) (pieces n) (s.getX rs1).toNat n
    ∃ t, exec (.icinv sc rs2 rs1) s = .next t ∧
      (∀ c, inScope sc s.cur c = true → n ≤ icinvLimit →
        (∀ x, x ∈ (t.core c).icache ↔ x ∈ (s.core c).icache ∧ x.inPieces l = false) ∧
        (∀ x, x ∈ (t.core c).imcache ↔ x ∈ (s.core c).imcache ∧ x.inPieces l = false)) ∧
      (∀ c, inScope sc s.cur c = false → (t.core c).icache = (s.core c).icache ∧ (t.core c).imcache = (s.core c).imcache) ∧
      (n = 0 → ∀ c, (t.core c).icache = (s.core c).icache ∧ (t.core c).imcache = (s.core c).imcache) ∧
      CtlFrame [] [] false s t ∧ FallsThrough s t ∧ (∀ c, (t.core c).banks = (s.core c).banks) ∧ ∀ a, t.memByte a = s.memByte a)

/-- R126, R127, R133: ECALL takes cause 8 from U mode and 11 from M mode, EBREAK cause 3; mepc is the instruction. An illegal
encoding takes cause 2 with mtval its bits and, in bits 39:32, its subcode; mepc is the first prefix of a pending group, but
the instruction itself for PREFIX_MISMATCH (3) and PREFIX_REPEAT (4). A standard instruction other than LR, SC and the AMOs
with a prefix group pending is illegal with PREFIX_MISMATCH, before anything else it would trap for (log entry 15).
R106, R126: a misaligned SC or AMO, and a misaligned LR with a SCOPE prefix, take cause 6; a misaligned LR without one
takes cause 4; mtval is the address, mepc the instruction or its first prefix. The causes of those without a prefix are the
model's choice (log entry 6).
R128, R127, R133: in U mode TLBINV, RELATCH and PARTCTL are illegal with subcode PRIV (5), whatever their operands; the
trap saves the address of the first prefix where a group is pending, and else their own. -/
def Obligations.ExceptionsAreTaken : Prop :=
  (
  ∀ (s : State) (short : Bool),
    (Ready [] s →
      exec (.standard .ecall short) s
        = .next (s.takeTrap s.cur false (if (s.core s.cur).mode = .u then 8 else 11) 0 s.me.pc) ∧
      exec (.standard .ebreak short) s = .next (s.takeTrap s.cur false 3 0 s.me.pc)) ∧
    (∀ bits sub, exec (.illegal bits sub) s
      = .next (s.takeTrap s.cur false 2 (zx bits ||| (zx sub <<< 32))
          (match s.me.pre with
            | some p => if sub = 3 ∨ sub = 4 then s.me.pc else p.first
            | none => s.me.pc))) ∧
    (∀ op, takesScope op = false → s.me.pre.isSome = true → exec (.standard op short) s
      = .next (s.takeTrap s.cur false 2 (zx (s.bitsOf (.standard op short)) ||| (3#64 <<< 32)) s.me.pc))) ∧
  (
  ∀ (s : State) (dbl aq rl : Bool) (rd rs1 rs2 : Reg),
    (s.getX rs1).toNat % (if dbl then 8 else 4) ≠ 0 →
    (ReadyScoped [rd, rs1] s → exec (.standard (.lr dbl aq rl rd rs1) false) s
      = .next (s.takeTrap s.cur false (if s.scoped then 6 else 4) (s.getX rs1) s.me.epc)) ∧
    (ReadyScoped [rd, rs1, rs2] s → exec (.standard (.sc dbl aq rl rd rs1 rs2) false) s
      = .next (s.takeTrap s.cur false 6 (s.getX rs1) s.me.epc)) ∧
    (∀ op, ReadyScoped [rd, rs1, rs2] s → exec (.standard (.amo op dbl aq rl rd rs1 rs2) false) s
      = .next (s.takeTrap s.cur false 6 (s.getX rs1) s.me.epc))) ∧
  (
  ∀ (s : State) (sc : Scope) (rd rs1 rs2 : Reg), (s.core s.cur).mode = .u →
    ∀ i ∈ [Instr.tlbinv sc rs2 rs1, .relatch sc rs2 rs1, .partctl rd rs1],
      exec i s = .next (s.takeTrap s.cur false 2 (zx (s.bitsOf i) ||| (5#64 <<< 32)) s.me.epc))

/-- R126, R163, R104, R344: taking a trap on a core saves the pc it is given in mepc, the cause (bit 63 for an interrupt) in
mcause and mtval, MIE in MPIE, the mode in MPP; clears MIE; enters M mode at mtvec's base, or for an interrupt in vectored mode
4 bytes per cause beyond it; suspends every active loop level; drops the prefix group, the wait and the core's reservation.
Every register x and f, every other core, every die, interface and byte of memory is as before. -/
def Obligations.TrapEntryEffect : Prop :=
  ∀ (s : State) (c cause : Nat) (intr : Bool) (tval epc : Word),
    let t := s.takeTrap c intr cause tval epc
    let m := (s.core c).csr
    let n := (t.core c).csr
    n.mepc = epc ∧ n.mtval = tval ∧ n.mcause = (BitVec.ofNat 64 cause ||| (if intr then 1#64 <<< 63 else 0)) ∧
    n.mstatus.getLsbD 3 = false ∧ n.mstatus.getLsbD 7 = m.mstatus.getLsbD 3 ∧ mppOf n.mstatus = (s.core c).mode ∧
    (∀ i, i ∉ [3, 7, 11, 12] → n.mstatus.getLsbD i = m.mstatus.getLsbD i) ∧ (t.core c).mode = .m ∧
    (t.ctl c).pc = (m.mtvec &&& ~~~3#64) + (if intr && m.mtvec.getLsbD 0 then BitVec.ofNat 64 (4 * cause) else 0) ∧
    (t.ctl c).pre = none ∧ (t.ctl c).wait = none ∧
    (∀ l, (t.ctl c).loop l = if ((s.ctl c).loop l).act then { (s.ctl c).loop l with susp := true } else (s.ctl c).loop l) ∧
    (∀ r, (t.ctl c).getX r = (s.ctl c).getX r ∧ (t.ctl c).getF r = (s.ctl c).getF r) ∧ (t.ctl c).fcsr = (s.ctl c).fcsr ∧
    (∀ r ∈ t.resvs, r.core ≠ c) ∧ (∀ r ∈ s.resvs, r.core ≠ c → r ∈ t.resvs) ∧
    t = { s with cores := t.cores, resvs := t.resvs } ∧ (∀ d, d ≠ c → t.core d = s.core d) ∧
    ∀ a, t.memByte a = s.memByte a

/-- R126, R163, R161: MRET in M mode with no prefix group pending enters the mode MPP names, puts MPIE in MIE, sets MPIE, sets
MPP to U and clears MPRV if that mode is U (log entry 6), clears SUSP in every level, gives an active level that a CSR write
set its body from mepc and OFF, or makes it inactive where OFF is 0x1FF, and continues at mepc passed through the levels so
resumed as a fall through; no register, no other core and no byte of memory changes. (The MRET that leaves a BUDGET trap for U
mode parks its task instead, with no halt and no BUDGET of it pending: it frees the core, R346.) With a prefix pending it is
illegal with PREFIX_MISMATCH in either mode (before the mode is looked at: the model's choice, log entry 15), and in U mode
without one an illegal standard instruction (R133, R127). -/
def Obligations.TrapReturnEffect : Prop :=
  ∀ (s : State),
    let k := s.core s.cur
    let parks := ∃ n, k.parkTrap = some n ∧ k.running = some n ∧ mppOf k.csr.mstatus = .u
    let resumed := fun (l : LoopLevel) =>
      if l.act = true ∧ l.body = false then
        let start := k.csr.mepc - 2 * l.off.zeroExtend 64
        { l with susp := false, body := true, start := start, stop := start + 2 * (l.bl.zeroExtend 64 + 1),
                 act := l.off != 0x1FF }
      else { l with susp := false }
    (k.mode = .m → s.me.pre = none → ¬ parks → ∃ t, exec .mret s = .next t ∧
      (t.core s.cur).mode = mppOf k.csr.mstatus ∧
      (t.core s.cur).csr.mstatus.getLsbD 3 = k.csr.mstatus.getLsbD 7 ∧
      (t.core s.cur).csr.mstatus.getLsbD 7 = true ∧ mppOf (t.core s.cur).csr.mstatus = .u ∧
      (t.core s.cur).csr.mstatus.getLsbD 17 = (k.csr.mstatus.getLsbD 17 && mppOf k.csr.mstatus == .m) ∧
      (∃ r : Ctl, r.pre = none ∧ (∀ l, r.loop l = resumed (s.me.loop l)) ∧
        t.me.pc = (r.goto true k.csr.mepc).pc ∧ ∀ l, t.me.loop l = (r.goto true k.csr.mepc).loop l) ∧
      ((∀ l, l < 3 → (s.me.loop l).act = false) → t.me.pc = k.csr.mepc) ∧
      (∀ l, (t.me.loop l).susp = false) ∧
      (∀ r, t.getX r = s.getX r ∧ t.getF r = s.getF r) ∧
      (∀ c, c ≠ s.cur → t.core c = s.core c) ∧ ∀ a, t.memByte a = s.memByte a) ∧
    (∀ n, k.mode = .m → s.me.pre = none → k.parkTrap = some n → k.running = some n → mppOf k.csr.mstatus = .u →
      ∃ t, exec .mret s = .next t ∧ (t.core s.cur).running = none ∧ (t.slot s.cur n).haltReq = false ∧
        (∀ p ∈ (t.slot s.cur n).pend, p.cause ≠ 30) ∧ ∀ a, t.memByte a = s.memByte a) ∧
    (s.me.pre.isSome = true →
      exec .mret s = .next (s.takeTrap s.cur false 2 (zx (0x30200073 : W32) ||| (3#64 <<< 32)) s.me.pc)) ∧
    (k.mode = .u → s.me.pre = none → exec .mret s = .next (s.takeTrap s.cur false 2 (zx (0x30200073 : W32)) s.me.pc))

/-! ## Loops, barriers, messages and events -/

/-- R160, R162: LOOP with a nonzero count and LOOPI open their level over the parcels after them, abandon each active level
whose body does not enclose it, and continue at the body's start; LOOP with count 0 opens nothing and continues at the body's
end, as a fall through (log entry 23). LBRK ends its level and every active level inside it and continues at its end, which the
levels that stay active see arrive as a fall (R161; the model's choice, log entry 82); on an inactive level it does nothing. The
bodies lie below the top of the address space. -/
def Obligations.LoopInstructionsComplete : Prop :=
  ∀ (s : State) (l : BitVec 2) (bl : BitVec 8) (rs1 : Reg) (cnt : BitVec 5),
    let b := s.me.pc + 4
    let e := b + 2 * (zx bl + 1)
    let opens := fun (i : Instr) (n : W32) => ∃ t, exec i s = .next t ∧ t.me.pc = b ∧
      t.me.loop l.toNat = { act := true, bl := bl, cnt := n, start := b, stop := e, body := true } ∧
      (∀ m, m ≠ l.toNat → t.me.loop m =
        if (s.me.loop m).act = true ∧ (b < (s.me.loop m).start ∨ (s.me.loop m).stop < e) then
          { s.me.loop m with act := false, pw := false } else s.me.loop m) ∧ Completed [] [] false s t
    levelOk l = true → s.me.pc.toNat + 1024 < 2 ^ 64 →
    (Ready [rs1] s → s.getX rs1 ≠ 0 →
      opens (.loop l bl rs1) (BitVec.ofNat 32 (min (s.getX rs1).toNat (2 ^ 32 - 1)))) ∧
    (Ready [rs1] s → s.getX rs1 = 0 → ∃ t, exec (.loop l bl rs1) s = .next t ∧
      Done [] [] false s t (4 + 2 * (bl.toNat + 1))) ∧
    (Ready [] s → opens (.loopi l bl cnt) (cnt.zeroExtend 32 + 1)) ∧
    (Ready [] s → (s.me.loop l.toNat).act = true → ∃ t, exec (.lbrk l) s = .next t ∧
      (t.me.loop l.toNat).act = false ∧
      (∀ m, (s.me.loop m).act = true → (s.me.loop l.toNat).start ≤ (s.me.loop m).start →
        (s.me.loop m).stop ≤ (s.me.loop l.toNat).stop → (t.me.loop m).act = false) ∧
      t.me.pc = ((s.me.breakLoop l.toNat).goto true (s.me.loop l.toNat).stop).pc ∧
      t.me.loops = ((s.me.breakLoop l.toNat).goto true (s.me.loop l.toNat).stop).loops ∧
      ((∀ m, m < 3 → m ≠ l.toNat → (s.me.loop m).act = false) → t.me.pc = (s.me.loop l.toNat).stop) ∧
      Completed [] [] false s t) ∧
    (Ready [] s → (s.me.loop l.toNat).act = false → ∃ t, exec (.lbrk l) s = .next t ∧
      Done [] [] false s t)

/-- R165: BINIT of a barrier granted to the running slot sets EXP, SC and TE from its setting and zeroes ARR, PH, EP and EL,
writing 0; with EXP = 0 or an unassigned SC it writes 1, and for a barrier not granted it writes 2, and no barrier changes.
R166, R171: BARV whose reference names this core (LOC) or a package core below 640 puts one arrival in flight, with the
reference's barrier, ERR and package and the running task's interface, writes no register and waits for nothing; a reference
to core 640 or above is a dead letter of the running slot at once. -/
def Obligations.BarriersInitialiseAndArrive : Prop :=
  (
  ∀ (s : State) (rd rs1 rs2 : Reg), Ready [rd, rs1, rs2] s →
    let bn := (s.getX rs1).toNat % 2 ^ 11
    let v := s.getX rs2
    let exp := v.extractLsb' 0 16
    let sc := v.extractLsb' 16 3
    let code : Word := match s.myBar bn with
      | none => 2
      | some _ => if exp = 0 ∨ 6 ≤ sc.toNat then 1 else 0
    ∃ t, exec (.binit rd rs1 rs2) s = .next t ∧ t.getX rd = (if rd = 0 then 0 else code) ∧
      (∀ n, (t.core s.cur).bar n =
        if n = bn ∧ code = 0 then
          some { owner := ((s.core s.cur).running).getD 0, sc := sc, exp := exp, arr := 0, ph := 0, ep := false, el := false,
                 te := v.getLsbD 19 }
        else (s.core s.cur).bar n) ∧
      (code ≠ 0 → Completed [rd] [] false s t) ∧
      CtlFrame [rd] [] false s t ∧ FallsThrough s t ∧ (∀ c, c ≠ s.cur → t.core c = s.core c) ∧ ∀ a, t.memByte a = s.memByte a) ∧
  (
  ∀ (s : State) (rs1 : Reg), Ready [rs1] s →
    let r := s.getX rs1
    (r.getLsbD 12 = true ∨ (r.extractLsb' 16 10).toNat < 640 → s.cur < 640 → ∃ (t : State) (a : Arrival), exec (.barv rs1) s = .next t ∧
      t.net = Tab.set s.net s.netNo (.arrival a) ∧ t.netNo = s.netNo + 1 ∧ a.bn = (r.extractLsb' 0 11).toNat ∧
      a.err = r.getLsbD 11 ∧ a.vi = s.runVi s.cur ∧
      a.core = (if r.getLsbD 12 then s.cur else (r.extractLsb' 16 10).toNat) ∧
      a.pkg = (if r.getLsbD 12 then s.podid.toNat else (r.extractLsb' 32 8).toNat) ∧
      CtlFrame [] [] false s t ∧ FallsThrough s t ∧ (∀ c n, (t.core c).bar n = (s.core c).bar n) ∧
      ∀ x, t.memByte x = s.memByte x) ∧
    (∀ n task, r.getLsbD 12 = false → 640 ≤ (r.extractLsb' 16 10).toNat → (s.core s.cur).running = some n →
      (s.slot s.cur n).task = some task → ∃ t, exec (.barv rs1) s = .next t ∧
      (t.slot s.cur n).dead = sat16 (s.slot s.cur n).dead ∧ t.net = s.net ∧ CtlFrame [] [] false s t ∧ FallsThrough s t ∧
      ∀ x, t.memByte x = s.memByte x))

/-- R166: an arrival counts, and when it makes ARR equal to EXP it completes the phase: PH advances modulo 2^16, EL takes what
EP has become, EP and ARR become zero. An arrival in flight for this package, at a barrier in use whose owner is a placed
slot of the sender's interface, has exactly this effect on that barrier, and posts BARERR to the owner when the phase ends
with EL set; at any other barrier it changes no barrier. -/
def Obligations.BarrierArrivalEffect : Prop :=
  (∀ (b : Barrier) (err : Bool),
    (b.arr + 1 = b.exp → b.arrive err = { b with ph := b.ph + 1, el := b.ep || err, ep := false, arr := 0 }) ∧
    (b.arr + 1 ≠ b.exp → b.arrive err = { b with arr := b.arr + 1, ep := b.ep || err })) ∧
  (∀ (s : State) (f : Nat) (a : Arrival), s.net.find? (fun x => x.1 == f) = some (f, .arrival a) →
    a.pkg = s.podid.toNat → Up a.core s →
    (∀ b, (s.core a.core).bar a.bn = some b → b.exp ≠ 0 → (s.slot a.core b.owner).task.map Task.vi = some a.vi →
      ∃ t, exec (.barrierArrival f) s = .next t ∧ t.net = Tab.del s.net f ∧
        (t.core a.core).bar a.bn = some (b.arrive a.err) ∧
        (∀ c n, (c ≠ a.core ∨ n ≠ a.bn) → (t.core c).bar n = (s.core c).bar n) ∧
        t.slot a.core b.owner = (if b.arr + 1 = b.exp ∧ (b.ep || a.err) = true then
          (s.slot a.core b.owner).post 4 a.bn else s.slot a.core b.owner) ∧
        ∀ x, t.memByte x = s.memByte x) ∧
    ((∀ b, (s.core a.core).bar a.bn = some b → b.exp = 0 ∨ (s.slot a.core b.owner).task.map Task.vi ≠ some a.vi) →
      ∃ t, exec (.barrierArrival f) s = .next t ∧ t.net = Tab.del s.net f ∧
        (∀ c n, (t.core c).bar n = (s.core c).bar n) ∧ ∀ x, t.memByte x = s.memByte x))

/-- R167, R168: the wait word of a barrier granted to the running slot holds its number, the target, PH, EL, RCH and INV.
BTEST writes it at once. BWAIT writes it once RCH or INV is set, and takes BARRIER_ERROR at the following instruction when
RCH and EL are set and TE is; until then it waits and has no effect.
R167: BARW arrives once at barrier x[rs1][10:0] of its own core. When that arrival completes the phase (so that PH reaches
the target, PH + 1 before the arrival) and no error is to be trapped, it writes the wait word with RCH set and completes; when
it does not, it waits with that target and its arrival has been made. R168: where the completed phase had an error and TE is
set, rd is written the same way and BARRIER_ERROR is taken at the following instruction, with the wait word for mtval. -/
def Obligations.BarrierWaitsComplete : Prop :=
  (
  ∀ (s : State) (rd rs1 : Reg) (b : Barrier), Ready [rd, rs1] s →
    let r := s.getX rs1
    let tgt := r.extractLsb' 16 16
    let rch := decide ((b.ph - tgt).toNat < 0x8000)
    let w : Word := (0 : BitVec 13) ++ BitVec.ofBool (b.exp == 0) ++ BitVec.ofBool rch ++ BitVec.ofBool b.el ++ b.ph ++ tgt ++
      (0 : BitVec 5) ++ r.extractLsb' 0 11
    s.myBar (r.extractLsb' 0 11).toNat = some b →
    (∃ t, exec (.btest rd rs1) s = .next t ∧ t.getX rd = (if rd = 0 then 0 else w) ∧ Done [rd] [] false s t) ∧
    ((rch = true ∨ b.exp = 0) → (rch && b.el && b.te) = false →
      ∃ t, exec (.bwait rd rs1) s = .next t ∧ t.getX rd = (if rd = 0 then 0 else w) ∧ Done [rd] [] false s t) ∧
    ((rch && b.el && b.te) = true → ∃ u, Done [rd] [] false s u ∧ u.getX rd = (if rd = 0 then 0 else w) ∧
      exec (.bwait rd rs1) s = .next (u.takeTrap s.cur false 29 w u.me.pc)) ∧
    (rch = false → b.exp ≠ 0 → exec (.bwait rd rs1) s
      = .next (s.modMe fun k => { k with wait := some { instr := .bwait rd rs1, len := 4, a := r } }))) ∧
  (
  ∀ (s : State) (rd rs1 : Reg) (b : Barrier) (n : Nat), Ready [rd, rs1] s →
    let bn := ((s.getX rs1).extractLsb' 0 11).toNat
    let tgt := b.ph + 1
    let w : Word := (0 : BitVec 14) ++ (1 : BitVec 1) ++ BitVec.ofBool b.ep ++ tgt ++ tgt ++
      (0 : BitVec 5) ++ (s.getX rs1).extractLsb' 0 11
    let done := fun (t : State) => t.getX rd = (if rd = 0 then 0 else w) ∧
      (t.core s.cur).bar bn = some { b with ph := tgt, el := b.ep, ep := false, arr := 0 } ∧ t.me.wait = none ∧
      CtlFrame [rd] [] false s t ∧ FallsThrough s t ∧ ∀ a, t.memByte a = s.memByte a
    s.cur < 640 → (s.core s.cur).running = some n → b.owner = n → (s.slot s.cur n).task.isSome = true →
    (s.core s.cur).bar bn = some b → b.exp ≠ 0 →
    (b.arr + 1 = b.exp → (b.ep && b.te) = false → ∃ t, exec (.barw rd rs1) s = .next t ∧ done t) ∧
    (b.arr + 1 = b.exp → (b.ep && b.te) = true →
      ∃ u, exec (.barw rd rs1) s = .next (u.takeTrap s.cur false 29 w u.me.pc) ∧ done u) ∧
    (b.arr + 1 ≠ b.exp →
      ∃ t, exec (.barw rd rs1) s = .next t ∧ (t.core s.cur).bar bn = some { b with arr := b.arr + 1 } ∧
        t.me = { s.me with wait := some (Waiting.mk (.barw rd rs1) 4
          ((0 : BitVec 32) ++ tgt ++ (0 : BitVec 5) ++ (s.getX rs1).extractLsb' 0 11) 0 0) } ∧
        ∀ a, t.memByte a = s.memByte a))

/-- R169: BPHASE returns the whole state of a granted barrier in one word, all ones for one that is not granted; R173: EVPEEK
returns the oldest event of the running slot and EVCNT their number, EVPOP also removes it; an empty queue returns 0. -/
def Obligations.BarrierStateAndEvents : Prop :=
  ∀ (s : State) (rd rs1 : Reg),
    (∀ b, Ready [rd, rs1] s → s.myBar ((s.getX rs1).extractLsb' 0 11).toNat = some b →
      ∃ t, exec (.bphase rd rs1) s = .next t ∧
        t.getX rd = (if rd = 0 then 0 else b.exp ++ b.arr ++ (0 : BitVec 10) ++ b.sc ++ BitVec.ofBool b.te ++
          BitVec.ofBool b.ep ++ BitVec.ofBool b.el ++ b.ph) ∧ Done [rd] [] false s t) ∧
    (Ready [rd, rs1] s → s.myBar ((s.getX rs1).extractLsb' 0 11).toNat = none →
      ∃ t, exec (.bphase rd rs1) s = .next t ∧ t.getX rd = (if rd = 0 then 0 else BitVec.allOnes 64) ∧
        Done [rd] [] false s t) ∧
    (∀ n, Ready [rd] s → (s.core s.cur).running = some n →
      (∃ t, exec (.evpeek rd) s = .next t ∧ t.getX rd = (if rd = 0 then 0 else (s.slot s.cur n).events.headD 0) ∧
        Done [rd] [] false s t) ∧
      (∃ t, exec (.evcnt rd) s = .next t ∧
        t.getX rd = (if rd = 0 then 0 else BitVec.ofNat 64 (s.slot s.cur n).events.length) ∧ Done [rd] [] false s t) ∧
      (∃ t, exec (.evpop rd) s = .next t ∧ t.getX rd = (if rd = 0 then 0 else (s.slot s.cur n).events.headD 0) ∧
        t.slot s.cur n = { s.slot s.cur n with events := (s.slot s.cur n).events.drop 1, ctl := t.me } ∧
        CtlFrame [rd] [] false s t ∧ FallsThrough s t ∧ ∀ a, t.memByte a = s.memByte a))

/-- R170: SSIG of an aligned, readable, unpoisoned block: a handle that may not be used writes 1, a malformed block writes 2
(where both apply 1 is the model's choice, log entry 71), and nothing is sent; otherwise one message goes in flight with the
block's data, offset, barrier and flags, and rd is 0. A misaligned block takes cause 4.
R115, R171, R337: a message of this package behind an earlier one of its sender to its target stays in flight. Another is
delivered by the state of its target. A task that is placed has it applied: the store of 4 or 8 bytes into its window, which is
suppressed where it falls outside, and, unless NOSIG stands, an arrival at its barrier, an error arrival where ERR stands or the
store was suppressed; an arrival at a barrier the task does not hold is a dead letter. For a task not yet placed it is held in
the die's mailbox area, and is a dead letter where 64 are held for the task or the area is full. For a task swapped out it is
written into its saved-context mailbox, which holds 64; for one that has exited it is a dead letter. A dead letter counts in the
sender slot's DEAD while the sending task holds it (log entry 24). Of a placed task that still waits for the banks it claims the
window is taken to be those banks (log entry 71). -/
def Obligations.SignalStoresAndMessages : Prop :=
  (
  ∀ (s u : State) (rd rs1 rs2 : Reg) (l : List (Nat × Nat)), Ready [rd, rs1, rs2] s →
    let bytes := s.readPieces l
    ((s.getX rs2).toNat % 16 ≠ 0 → exec (.ssig rd rs1 rs2) s = .next (s.takeTrap s.cur false 4 (s.getX rs2) s.me.pc)) ∧
    ((s.getX rs2).toNat % 16 = 0 → u.poisPieces l = false →
      s.locate s.cur (s.core s.cur).dataMode (s.getX rs2).toNat 16 .read = (u, .pieces l) →
      ∃ t, exec (.ssig rd rs1 rs2) s = .next t ∧
        t.getX rd = (if rd = 0 then 0 else if !s.handleOk (s.runVi s.cur) (s.getX rs1) then 1
          else if !msgBlockOk bytes then 2 else 0) ∧
        (s.handleOk (s.runVi s.cur) (s.getX rs1) && msgBlockOk bytes = true → ∃ m,
          t.net = Tab.set s.net s.netNo (.message m) ∧ m.target = s.getX rs1 ∧ m.data.toNat = fld bytes 0 8 ∧
          m.doff.toNat = fld bytes 8 4 ∧ m.bn.toNat = fld bytes 12 2 ∧ m.flags.toNat = fld bytes 14 1) ∧
        (s.handleOk (s.runVi s.cur) (s.getX rs1) && msgBlockOk bytes = false → t.net = s.net) ∧
        CtlFrame [rd] [] false s t ∧ FallsThrough s t ∧ ∀ a, t.memByte a = s.memByte a)) ∧
  (
  ∀ (s : State) (f : Nat) (m : Message), s.net.find? (fun x => x.1 == f) = some (f, .message m) →
    let die := hDie m.target
    let w := if m.flags.getLsbD 0 then 8 else 4
    let stores := decide (m.doff ≠ 0xFFFFFFFF)
    let win := fun c n => if (s.slot c n).claiming then s.msgWindow c n else (s.core c).win n
    let inside := fun c n => decide (m.doff.toNat + w ≤ (win c n).2 * 0x10000)
    let bn := (m.bn.extractLsb' 0 11).toNat
    let delivered := fun (P : State → Prop) => ∃ t, exec (.messageDelivery f) s = .next t ∧ t.net = Tab.del s.net f ∧ P t
    let barsKept := fun (t : State) => ∀ d k, (t.core d).bar k = (s.core d).bar k
    let memKept := fun (t : State) => ∀ x, t.memByte x = s.memByte x
    let dead := fun (t : State) => ∀ d k x, m.sender = some (d, k) → (s.slot d k).task = some x → s.handleOf x = m.senderTask →
      (t.slot d k).dead = sat16 (s.slot d k).dead
    let room := ((s.die die).mail.filter fun x => x.target == m.target).length < 64 ∧ (s.die die).mail.length < Config.mailboxSize
    (s.firstInOrder f m = false → exec (.messageDelivery f) s = .next s) ∧
    (s.firstInOrder f m = true → hPkg m.target = s.podid.toNat → (s.die die).fatal = false →
      (s.handleState m.target = .exited → delivered fun t => dead t ∧ barsKept t ∧ memKept t) ∧
      (∀ c n h x, (s.slot c n).task.bind Task.claim = some h → (s.slot c n).claiming = true →
        s.handles.find? (fun y => y.handle == h) = some x → s.msgWindow c n = (x.base, x.count)) ∧
      (s.handleState m.target = .notPlaced →
        (room → delivered fun t => (t.die die).mail = (s.die die).mail ++ [m] ∧ t.cores = s.cores ∧ memKept t) ∧
        (¬ room → delivered fun t => dead t ∧ (t.die die).mail = (s.die die).mail ∧ barsKept t ∧ memKept t)) ∧
      (∀ c n, s.handleState m.target = .placed c n → c < 640 →
        delivered fun t =>
          memKept t ∧ (∀ d k, (d ≠ c ∨ k ≠ bn) → (t.core d).bar k = (s.core d).bar k) ∧
          (stores = true → inside c n = true → m.pois = false →
            (t.core c).spadBytes ((win c n).1 * 0x10000 + m.doff.toNat) w = toLE w m.data.toNat) ∧
          ((stores && inside c n) = false → ∀ a k, (t.core c).spadBytes a k = (s.core c).spadBytes a k) ∧
          (m.bn.getLsbD 15 = true → barsKept t) ∧
          (m.bn.getLsbD 15 = false →
            (∀ b, (s.core c).bar bn = some b → b.owner = n → b.exp ≠ 0 →
              (s.slot c n).task.map Task.vi = some (hVi m.target) →
              (t.core c).bar bn = some (b.arrive (m.flags.getLsbD 1 || (stores && !inside c n)))) ∧
            ((∀ b, (s.core c).bar bn = some b → b.owner ≠ n ∨ b.exp = 0) → barsKept t ∧ dead t))) ∧
      (∀ a x, s.handleState m.target = .swapped a → s.saved.find? (fun y => y.area == a) = some x →
        (x.nmail < 64 → delivered fun t =>
          t.memBytes (a + 0x4000 + 32 * x.nmail) 32 =
            toLE 8 m.data.toNat ++ toLE 4 m.doff.toNat ++ toLE 2 m.bn.toNat ++ toLE 1 m.flags.toNat ++ [0] ++
              toLE 8 m.senderTask.toNat ++ toLE 8 0 ∧
          (∃ y, t.saved.find? (fun y => y.area == a) = some y ∧ y.nmail = x.nmail + 1) ∧
          MemFrame [(a + 0x4000 + 32 * x.nmail, 32)] s t) ∧
        (64 ≤ x.nmail → delivered fun t => dead t ∧ memKept t))))

/-! ## Ordering, atomics, prefixes, tasks and system instructions -/

/-- R175, R131, R104: an aligned scoped atomic whose word is located for reading and writing and is not poisoned stores the value
its operation gives (a failed ACAS stores nothing) and writes x(8 + rdc) the old value, sign-extended; a misaligned one takes
cause 6 and has no effect. One that stores, whatever value, ends the reservation of every core on its granule and no other; a
failed ACAS ends none. Each of the ten instructions, at each scope and ordering. -/
def Obligations.ScopedAtomicsComplete : Prop :=
  ∀ (s u : State) (sc : Scope) (rs2 rs1 : Reg) (aq rl : Bool) (rdc : BitVec 3) (a : Nat),
    let dst : Reg := BitVec.ofNat 5 (8 + rdc.toNat)
    let does := fun (i : Instr) (op : AtomicOp) (w : Nat) =>
      let n := 8 * w
      let old : BitVec n := BitVec.ofNat n (s.memNat a w)
      ((s.getX rs1).toNat % w ≠ 0 → exec i s = .next (s.takeTrap s.cur false 6 (s.getX rs1) s.me.pc)) ∧
      ((s.getX rs1).toNat % w = 0 → u.poisPieces [(a, w)] = false →
        s.locate s.cur (s.core s.cur).dataMode (s.getX rs1).toNat w .rmw = (u, .pieces [(a, w)]) →
        ∃ t, exec i s = .next t ∧ t.getX dst = old.signExtend 64 ∧
          (match atomicRule op old ((s.getX rs2).truncate n) ((s.getX dst).truncate n) with
            | some v => t.memNat a w = v.toNat ∧ ∀ r ∈ t.resvs, ¬ Touches [(a, w)] r
            | none => t.resvs = s.resvs ∧ ∀ b, t.memByte b = s.memByte b) ∧
          ResvFrame [(a, w)] s t ∧ CtlFrame [dst] [] false s t ∧ FallsThrough s t ∧ AccessFrame s t ∧ MemFrame [(a, w)] s t)
    Ready [rs1, rs2, dst] s →
    does (.aaddW sc rs2 rs1 aq rl rdc) .add 4 ∧ does (.aminsW sc rs2 rs1 aq rl rdc) .mins 4 ∧
    does (.amaxsW sc rs2 rs1 aq rl rdc) .maxs 4 ∧ does (.axchgW sc rs2 rs1 aq rl rdc) .xchg 4 ∧
    does (.acasW sc rs2 rs1 aq rl rdc) .cas 4 ∧ does (.aaddD sc rs2 rs1 aq rl rdc) .add 8 ∧
    does (.aminsD sc rs2 rs1 aq rl rdc) .mins 8 ∧ does (.amaxsD sc rs2 rs1 aq rl rdc) .maxs 8 ∧
    does (.axchgD sc rs2 rs1 aq rl rdc) .xchg 8 ∧ does (.acasD sc rs2 rs1 aq rl rdc) .cas 8

/-- R133, R176, R177, R189: SCOPE and LOGP join the pending group, which keeps the address of its first prefix, and complete: the
next address passes the loop levels with the group pending (R161), so that a level that wraps notes it; a
second of the same kind is illegal with PREFIX_REPEAT (subcode 4); HINT completes with any group pending, takes the group and
changes no register.
R174, R181, R183, R184: ZFENCE completes and changes no register; TSTAMP returns 4 times the whole fifths of the package's
cycles; TSLOT returns the running task's handle; BUDQ returns what is left of the queue's budgets (all ones for an unlimited
one), the cycles to the period's end, the period, the task's cycles, and all ones for any other selector. -/
def Obligations.PrefixesAndReadsComplete : Prop :=
  (
  ∀ (s : State) (sc : Scope) (fa fb fc : BitVec 2) (rs2 rs1 rd : Reg) (imm : BitVec 12),
    let group := s.me.pre.getD { first := s.me.pc }
    let joins := fun (i : Instr) (g : Prefixes) => ∃ t, exec i s = .next t ∧ t.me.pre = some g ∧
      t.me.pc = (({ s.me with pre := some g } : Ctl).goto true (s.me.pc + 4)).pc ∧
      t.me.loops = (({ s.me with pre := some g } : Ctl).goto true (s.me.pc + 4)).loops ∧ OnlyCtl s t ∧ CtlFrame [] [] false s t
    ((s.me.pre.any fun p => p.scope.isSome) = false → joins (.scope sc) { group with scope := some sc }) ∧
    ((s.me.pre.any fun p => p.scope.isSome) = true → exec (.scope sc) s
      = .next (s.takeTrap s.cur false 2 (zx (s.bitsOf (.scope sc)) ||| (4#64 <<< 32)) s.me.pc)) ∧
    ((s.me.pre.any fun p => p.logp.isSome) = false → RegsFree [rs1, rs2] s →
      joins (.logp fa fb fc rs2 rs1) { group with logp := some ⟨fa, fb, fc, s.getX rs1, s.getX rs2⟩ }) ∧
    ((s.me.pre.any fun p => p.logp.isSome) = true → exec (.logp fa fb fc rs2 rs1) s
      = .next (s.takeTrap s.cur false 2 (zx (s.bitsOf (.logp fa fb fc rs2 rs1)) ||| (4#64 <<< 32)) s.me.pc)) ∧
    (∃ t, exec (.hint imm rs1 rd) s = .next t ∧ Done [] [] false s t)) ∧
  (
  ∀ (s : State) (rd rs1 : Reg) (sc : Scope) (pred succ : BitVec 2),
    let gives := fun (i : Instr) (v : Word) => ∃ t, exec i s = .next t ∧ t.getX rd = (if rd = 0 then 0 else v) ∧
      Done [rd] [] false s t
    (Ready [] s → ∃ t, exec (.zfence sc pred succ) s = .next t ∧ Done [] [] false s t) ∧
    (Ready [rd] s → gives (.tstamp rd) (BitVec.ofNat 64 (4 * (s.cycles / 5)))) ∧
    (∀ task, Ready [rd] s → s.runTask s.cur = some task → gives (.tslot rd) (s.handleOf task)) ∧
    (∀ task q, Ready [rd, rs1] s → s.runTask s.cur = some task → s.queue task.vi task.q = some q →
      let left := fun (limit : Nat) (x : Int) => if limit = 0 then BitVec.allOnes 64 else BitVec.ofNat 64 x.toNat
      (s.getX rs1 = 0 → gives (.budq rd rs1) (left q.bcyc q.cyc)) ∧
      (s.getX rs1 = 1 → gives (.budq rd rs1) (left q.bpas q.pas)) ∧
      (s.getX rs1 = 2 → gives (.budq rd rs1) (left q.bhbm q.hbm)) ∧
      (s.getX rs1 = 3 → gives (.budq rd rs1) (BitVec.ofNat 64 (q.per - s.cycles % q.per))) ∧
      (s.getX rs1 = 4 → gives (.budq rd rs1) (BitVec.ofNat 64 q.per)) ∧
      (s.getX rs1 = 5 → gives (.budq rd rs1) (BitVec.ofNat 64 task.ucyc)) ∧
      (6 ≤ (s.getX rs1).toNat → gives (.budq rd rs1) (BitVec.allOnes 64))))

/-- R178, R384: TEND with the task's queues performed, no stream of it paused and its region not running retires the task: its
card counts one task fewer out and keeps the first nonzero exit status, its slot is emptied, a region it owned becomes idle with
no owner, the core runs no slot and is in M mode, and no barrier of the slot stays granted; otherwise it waits. Another core
changes only where the pages of an unloaded object of the interface are freed, whose lines its caches drop (R377).
R179, R180: TYIELD asks for the core to be given up and waits; THAND of one or more banks of the window, with fewer than
four handles outstanding, makes a handle over those banks whose nonzero value rd gets; otherwise rd is 0 and no handle is
made. The handle's value is free. -/
def Obligations.TasksEndAndYield : Prop :=
  (
  ∀ (s : State) (rs1 : Reg) (n : Nat) (task : Task), Ready [rs1] s → (s.core s.cur).running = some n →
    (s.slot s.cur n).task = some task →
    (s.queuesEmpty s.cur n = true → s.regionRuns s.cur n = false → s.portsPaused s.cur n = false → ∃ t, exec (.tend rs1) s = .next t ∧
      t.slot s.cur n = {} ∧ (t.core s.cur).running = none ∧ (t.core s.cur).mode = .m ∧
      (∀ k b, (t.core s.cur).bar k = some b → b.owner ≠ n) ∧
      ((s.region s.cur).owner = some n → (t.region s.cur).st = .idle ∧ (t.region s.cur).owner = none) ∧
      ((s.region s.cur).owner ≠ some n → t.region s.cur = s.region s.cur) ∧
      (∀ m, m ≠ n → t.slot s.cur m = s.slot s.cur m) ∧
      (∀ c, c ≠ s.cur → t.core c = { s.core c with icache := (t.core c).icache, imcache := (t.core c).imcache }) ∧
      ((∀ o ∈ (s.iface task.vi).objs, o.unload = none) → ∀ c, c ≠ s.cur → t.core c = s.core c) ∧
      (∀ q d, s.queue task.vi task.q = some q → q.card task.card = some d →
        ∃ q' d', t.queue task.vi task.q = some q' ∧ q'.card task.card = some d' ∧ d'.out = d.out - 1 ∧
          d'.exit = (if d.exit = 0 then ((s.getX rs1).extractLsb' 0 16).toNat else d.exit) ∧ q'.dc = q.dc - task.dcyc) ∧
      ∀ a, t.memByte a = s.memByte a) ∧
    ((s.queuesEmpty s.cur n = false ∨ s.regionRuns s.cur n = true ∨ s.portsPaused s.cur n = true) → exec (.tend rs1) s
      = .next (s.modMe fun k => { k with wait := some { instr := .tend rs1, len := 4, a := s.getX rs1 } }))) ∧
  (
  ∀ (s : State) (rd rs1 : Reg) (n : Nat) (task : Task), (s.core s.cur).running = some n →
    (s.slot s.cur n).task = some task →
    (Ready [] s → ∃ t, exec .tyield s = .next t ∧ (t.slot s.cur n).yielding = true ∧
      t.me = { s.me with wait := some { instr := .tyield, len := 4 } } ∧
      ((s.region s.cur).owner = some n → (s.region s.cur).st = .running → (t.region s.cur).haltReq = true) ∧
      (∀ c, c ≠ s.cur → t.core c = s.core c) ∧ ∀ a, t.memByte a = s.memByte a) ∧
    (Ready [rd, rs1] s →
      let first := ((s.getX rs1).extractLsb' 0 5).toNat
      let count := ((s.getX rs1).extractLsb' 8 5).toNat
      let held := (s.handles.filter fun h => h.core == s.cur && h.slot == n && !h.handed).length
      let w := (s.core s.cur).win n
      (count ≠ 0 → first + count ≤ w.2 → held < 4 → ∃ (t : State) (h : Handle), exec (.thand rd rs1) s = .next t ∧
        t.handles = s.handles ++ [h] ∧ h.handle ≠ 0 ∧ h.core = s.cur ∧ h.slot = n ∧ h.base = w.1 + first ∧ h.count = count ∧
        h.handed = false ∧ t.getX rd = (if rd = 0 then 0 else h.handle) ∧ CtlFrame [rd] [] false s t ∧ FallsThrough s t ∧
        (∀ c, c ≠ s.cur → t.core c = s.core c) ∧ ∀ a, t.memByte a = s.memByte a) ∧
      (count = 0 ∨ w.2 < first + count ∨ 4 ≤ held → ∃ t, exec (.thand rd rs1) s = .next t ∧
        t.getX rd = 0 ∧ Done [rd] [] false s t)))

/-- R182: TSPAWN of an aligned card that is located and not poisoned enqueues it for the running task's interface and writes
rd how that went: 2 for a queue that does not exist or takes no device enqueue, 1 for a full queue, 3 where the W or the R
index cannot be read (it does not translate or is poisoned) or the W index or the slot of the ring cannot be written, each
with nothing enqueued (code 3 records any poison that a walk consumed, R96); otherwise 0, with the card in the ring slot W
names, W one higher, and the queue notified. The reads of W and R and the
writes of the card and of W are charged to the running task's queue (R342). A misaligned card takes cause 4. -/
def Obligations.SpawnEnqueues : Prop :=
  (∀ (s u : State) (rd rs1 rs2 : Reg) (l : List (Nat × Nat)), Ready [rd, rs1, rs2] s →
    let q := ((s.getX rs1).extractLsb' 0 12).toNat
    ((s.getX rs2).toNat % 64 ≠ 0 → exec (.tspawn rd rs1 rs2) s = .next (s.takeTrap s.cur false 4 (s.getX rs2) s.me.pc)) ∧
    ((s.getX rs2).toNat % 64 = 0 → u.poisPieces l = false →
      s.locate s.cur (s.core s.cur).dataMode (s.getX rs2).toNat 128 .read = (u, .pieces l) →
      let v := u.chargeLoad s.cur l
      let r := v.spawn (s.runVi s.cur) q (s.readPieces l)
      ∃ t, exec (.tspawn rd rs1 rs2) s = .next t ∧ t.getX rd = (if rd = 0 then 0 else BitVec.ofNat 64 r.2) ∧
        Done [rd] [] false r.1 t)) ∧
  (∀ (s : State) (vi q w r : Nat) (k : Queue) (card wb rb : List Byte),
    (s.queue vi q = none → s.spawn vi q card = (s, 2)) ∧
    (s.queue vi q = some k → k.destroyed = true ∨ k.devenq = false → s.spawn vi q card = (s, 2)) ∧
    (s.queue vi q = some k → k.destroyed = false → k.devenq = true →
      s.devRead vi (dieOf s.cur) k.widx 8 = none ∨ s.devRead vi (dieOf s.cur) k.ridx 8 = none →
      s.spawn vi q card = ((s.noteDev vi (dieOf s.cur) k.widx 8).noteDev vi (dieOf s.cur) k.ridx 8, 3)) ∧
    (s.queue vi q = some k → k.destroyed = false → k.devenq = true →
      s.devRead vi (dieOf s.cur) k.widx 8 = some wb → s.devRead vi (dieOf s.cur) k.ridx 8 = some rb →
      w = leNat wb → r = leNat rb →
      let a := k.ring + 128 * (w % 2 ^ k.logn)
      let s1 := (s.chargeAt .read vi k.widx 8).chargeAt .read vi k.ridx 8
      (r + 2 ^ k.logn ≤ w → s.spawn vi q card = (s1, 1)) ∧
      (w < r + 2 ^ k.logn → (∀ l, s1.devLocate vi (dieOf s.cur) .write k.widx 8 ≠ .ok l) ∨
          s1.devWrite vi (dieOf s.cur) a card = none →
        s.spawn vi q card = ((s1.noteWrite vi (dieOf s.cur) k.widx 8).noteWrite vi (dieOf s.cur) a 128, 3)) ∧
      (∀ t l, w < r + 2 ^ k.logn → s1.devLocate vi (dieOf s.cur) .write k.widx 8 = .ok l →
        s1.devWrite vi (dieOf s.cur) a card = some t →
        let t1 := (t.chargeAt .write vi a 128).chargeAt .write vi k.widx 8
        s.spawn vi q card = (((t1.devWrite vi (dieOf s.cur) k.widx (toLE 8 (w + 1))).getD t1).notify vi q, 0))))

/-- R186, R91, R90: in M mode TLBINV discards, in every core within its scope and in no other, exactly the cached translations
of its interface that overlap its range; and in the walk cache of its die, or at package scope of every die, exactly the entries
of the interface that stand for a part of the range (2^42 bytes at level 2, 2^29 at level 1).
R186, R187, R92: in M mode RELATCH sends one token, for the range and the interface its operands name, through the open
ports of its scope and waits for it; with no open port it completes at once. Either way it completes no earlier than a RELATCH
its core sent before (an abandoned one): it waits while such a token is under way, and completes once none is. A token that
reaches a stream port removes the range entries it names there, goes on to its next port, and is gone after its last. -/
def Obligations.TranslationsAreShotDown : Prop :=
  (
  ∀ (s : State) (sc : Scope) (rs2 rs1 : Reg), Ready [rs1, rs2] s → (s.core s.cur).mode = .m →
    let base := ((s.getX rs1).extractLsb' 16 39).toNat * 0x10000
    let n := ((s.getX rs2).extractLsb' 0 48).toNat
    let hit := fun (vi va len : Nat) =>
      ((s.getX rs2).getLsbD 63 || vi == ((s.getX rs2).extractLsb' 48 11).toNat) &&
      (n == 0 || decide (va < base + (n + 0xFFFF) / 0x10000 * 0x10000 ∧ base < va + len))
    let walkHit := fun (w : WalkEntry) => if w.level = 2 then hit w.vi (w.va * 2 ^ 42) (2 ^ 42) else hit w.vi (w.va * 2 ^ 29) (2 ^ 29)
    ∃ t, exec (.tlbinv sc rs2 rs1) s = .next t ∧
      (∀ c, inScope sc s.cur c = true → (t.core c).tlb = (s.core c).tlb.filter fun e => !hit e.vi e.va (2 ^ e.sz)) ∧
      (∀ c, inScope sc s.cur c = false → (t.core c).tlb = (s.core c).tlb) ∧
      (∀ d, (t.die d).walks =
        if (sc.toNat ≤ 3 ∧ d = dieOf s.cur) ∨ (3 < sc.toNat ∧ d < 4) then (s.die d).walks.filter fun w => !walkHit w
        else (s.die d).walks) ∧
      CtlFrame [] [] false s t ∧ FallsThrough s t ∧ ∀ a, t.memByte a = s.memByte a) ∧
  (
  (∀ (s : State) (sc : Scope) (rs2 rs1 : Reg), Ready [rs1, rs2] s → (s.core s.cur).mode = .m →
    (∀ k ∈ s.tokens, k.num < s.tokenNo) →
    let n := ((s.getX rs2).extractLsb' 0 48).toNat
    let waits := fun (t : State) => ∃ w, t.me.wait = some w ∧ w.instr = .relatch sc rs2 rs1 ∧ w.n = s.tokenNo + 1
    (s.edgePorts sc s.cur = [] → (∀ k ∈ s.tokens, k.core ≠ s.cur) → ∃ t, exec (.relatch sc rs2 rs1) s = .next t ∧
      t.tokens = s.tokens ∧ CtlFrame [] [] false s t ∧ FallsThrough s t ∧ ∀ a, t.memByte a = s.memByte a) ∧
    (s.edgePorts sc s.cur = [] → (∃ k ∈ s.tokens, k.core = s.cur) → ∃ t, exec (.relatch sc rs2 rs1) s = .next t ∧
      t.tokens = s.tokens ∧ waits t) ∧
    (s.edgePorts sc s.cur ≠ [] → ∃ t k, exec (.relatch sc rs2 rs1) s = .next t ∧ t.tokens = s.tokens ++ [k] ∧
      k.num = s.tokenNo ∧ k.core = s.cur ∧ k.ports = s.edgePorts sc s.cur ∧
      k.base = ((s.getX rs1).extractLsb' 16 39).toNat * 0x10000 ∧
      k.len = (if n = 0 then none else some ((n + 0xFFFF) / 0x10000 * 0x10000)) ∧
      k.vi = (if (s.getX rs2).getLsbD 63 then none else some ((s.getX rs2).extractLsb' 48 11).toNat) ∧
      waits t ∧ ∀ a, t.memByte a = s.memByte a)) ∧
  (∀ (s : State) (w : Waiting) (sc : Scope) (rs2 rs1 : Reg), WaitsIn w s → w.instr = .relatch sc rs2 rs1 →
    ((∀ k ∈ s.tokens, k.core ≠ s.cur ∨ w.n ≤ k.num) → ∃ t, exec (.waitComplete s.cur) s = .next t ∧ Done [] [] false s t) ∧
    ((∃ k ∈ s.tokens, k.core = s.cur ∧ k.num < w.n) → ∃ t, exec (.waitComplete s.cur) s = .next t ∧ t.me.wait = some w)) ∧
  (∀ (s : State) (k : Token) (c p : Nat) (rest : List (Nat × Nat)), s.tokens.find? (fun x => x.num == k.num) = some k →
    DieUp (dieOf k.core) s → k.ports = (c, p) :: rest → p < 8 → ∃ t, exec (.relatchToken k.num) s = .next t ∧
      (∀ y, (s.port c p).stream = some y → ∃ z, (t.port c p).stream = some z ∧
        (∀ e, e ∈ z.ranges ↔ e ∈ y.ranges ∧ (k.vi.all (· == e.vi) &&
          k.len.all fun n => decide (e.va < k.base + n ∧ k.base < e.va + e.len)) = false) ∧ z.beats = y.beats) ∧
      (rest = [] → ∀ x ∈ t.tokens, x.num ≠ k.num) ∧
      (rest ≠ [] → ∃ x ∈ t.tokens, x.num = k.num ∧ x.ports = rest) ∧ ∀ a, t.memByte a = s.memByte a))

/-- R188, R370: PARTCTL in M mode returns HELD on a core with a placed slot; with no other change in progress it returns BADREQ
for a request that is misaligned, does not translate or is malformed (the read is charged, R342), and for a good one it stops
dealing and acceptance on the affected dies and waits (its address: log entry 70). Once those dies are quiet, before the limit,
PARTCTL_QUIESCED gives each affected die its new partition and a generation one higher, unmaps its queues, gives a listed
interface its new die and makes its XROOT invalid, touches no interface that is neither bound to an affected die nor listed but
for interface 0's journal, and hands PARTCTL the result 0. PARTCTL_QUIESCE_TIMEOUT, once the limit has passed, ends the stop,
changes no partition and hands it BUSY with the lowest die and hardware slot of a busy queue; with no busy queue it names the
lowest affected die and slot 0 (log entry 70). PARTCTL then completes with that result in rd. -/
def Obligations.PartitionChangeSteps : Prop :=
  (∀ (s : State) (rd rs1 : Reg), Ready [rd, rs1] s → (s.core s.cur).mode = .m →
    let a := (s.getX rs1).toNat
    let answers := fun (u : State) (v : Word) => ∃ t, exec (.partctl rd rs1) s = .next t ∧
      t.getX rd = (if rd = 0 then 0 else v) ∧ Done [rd] [] false u t
    ((s.core s.cur).anyPlaced = true → answers s 3) ∧
    ((s.core s.cur).anyPlaced = false → s.part = [] → a % 64 ≠ 0 → answers s 2) ∧
    (∀ u f, (s.core s.cur).anyPlaced = false → s.part = [] → a % 64 = 0 →
      s.locate s.cur (s.core s.cur).dataMode a 64 .read = (u, f) →
      ((∀ l, f ≠ .pieces l) → answers u 2) ∧
      (∀ l, f = .pieces l → u.poisPieces l = false → u.partBad (u.readPieces l) = true →
        answers (u.chargeLoad s.cur l) 2) ∧
      (∀ l, f = .pieces l → u.poisPieces l = false → u.partBad (u.readPieces l) = false →
        ∃ t op, exec (.partctl rd rs1) s = .next t ∧ t.part = [op] ∧ op.core = s.cur ∧ op.cmdVi = none ∧
        op.req = u.readPieces l ∧ op.began = s.cycles ∧ (∃ w, t.me.wait = some w ∧ w.n = 1 ∧ w.b = 0 ∧ w.instr = .partctl rd rs1) ∧
        (∀ d ∈ rqDies op.req, (t.die d).quiet = true) ∧
        (∀ d, (t.die d).first = (s.die d).first ∧ (t.die d).size = (s.die d).size ∧ (t.die d).gen = (s.die d).gen) ∧
        ∀ b, t.memByte b = s.memByte b))) ∧
  (∀ (s : State) (op : PartOp), s.part = [op] → op.cmdVi = none → DieUp 0 s →
    let late := op.began + 1024 * rqLim op.req ≤ s.cycles
    (s.quietFor op.req = false ∨ late → exec (.partctlQuiesced op.core) s = .next s) ∧
    (¬ late → exec (.partctlQuiesceTimeout op.core) s = .next s) ∧
    (s.quietFor op.req = true → ¬ late → ∃ t, exec (.partctlQuiesced op.core) s = .next t ∧ t.part = [] ∧
      (∀ d ∈ rqDies op.req, (t.die d).first = rqFirst op.req d ∧ (t.die d).size = rqSize op.req d ∧
        (t.die d).pooled = rqPooled op.req d ∧ (t.die d).gen = (s.die d).gen + 1 ∧ (t.die d).quiet = false ∧
        ∀ hw, Tab.get none (t.die d).hwq hw = none) ∧
      (∀ d, d ∉ rqDies op.req → (t.die d).first = (s.die d).first ∧ (t.die d).size = (s.die d).size ∧
        (t.die d).gen = (s.die d).gen) ∧
      (∀ vi f, (rqBinds op.req).filter (fun x => x.1 == vi) = [(vi, f)] → (t.iface vi).die = f ∧ (t.iface vi).xroot = none) ∧
      (∀ vi, Tab.sorted s.ifaces = true → rqBound op.req (s.iface vi) = false → vi ∉ (rqBinds op.req).map Prod.fst →
        t.iface vi = { s.iface vi with queues := (t.iface vi).queues, jnext := (t.iface vi).jnext } ∧
        (vi ≠ 0 → (t.iface vi).jnext = (s.iface vi).jnext) ∧
        ∀ q, (∀ d ∈ rqDies op.req, ∀ e ∈ (s.die d).hwq, e.2 ≠ some (vi, q)) → t.queue vi q = s.queue vi q) ∧
      (∀ w, (s.ctl op.core).wait = some w → (t.ctl op.core).wait = some { w with b := 0x8000000000000000#64 })) ∧
    (late →
      ∃ t, exec (.partctlQuiesceTimeout op.core) s = .next t ∧ t.part = [] ∧
        (∀ d ∈ rqDies op.req, (t.die d).quiet = false) ∧
        (∀ d, (t.die d).first = (s.die d).first ∧ (t.die d).size = (s.die d).size ∧ (t.die d).gen = (s.die d).gen) ∧
        (∀ w, (s.ctl op.core).wait = some w → ∃ die hw, (t.ctl op.core).wait
            = some { w with b := BitVec.ofNat 64 (2 ^ 63 + 1 + die * 2 ^ 8 + hw * 2 ^ 16) } ∧
          ((∀ vi q, (vi, q) ∈ s.allQueues → s.queueBusy op.req vi q = false) → die = (rqDies op.req).headD 0 ∧ hw = 0) ∧
          ∀ d n vi q, d ∈ rqDies op.req → s.queueBusy op.req vi q = true → (s.queue vi q).map Queue.die = some d →
            (∀ e v p, e ∈ rqDies op.req → e < d → s.queueBusy op.req v p = true → (s.queue v p).map Queue.die ≠ some e) →
            Tab.sorted (s.die d).hwq = true → Tab.get none (s.die d).hwq n = some (vi, q) →
            (∀ m v p, m < n → Tab.get none (s.die d).hwq m = some (v, p) → s.queueBusy op.req v p = false) →
            die = d ∧ hw = n) ∧
        ∀ a, t.memByte a = s.memByte a)) ∧
  (∀ (s : State) (rd rs1 : Reg) (w : Waiting), WaitsIn w s → w.instr = .partctl rd rs1 → w.n = 1 → w.b.getLsbD 63 = true →
    ∃ t, exec (.waitComplete s.cur) s = .next t ∧ t.getX rd = (if rd = 0 then 0 else w.b &&& 0x7FFFFFFFFFFFFFFF#64) ∧
      Done [rd] [] false s t)

/-! ## The region -/

/-- R16, R149, R151, R152: RCFG puts its load at the end of the armature's line with the lowest status that already applies (BUSY
for an image into the running region's bank, ALIGN, STATE for a static load while the region is not IDLE), leaves rd pending
and completes; no register changes yet. That these are decided at issue and delivered in load order is DEDUCED (log entry 36).
R15, R16, R149, R152: the armature finishes its head load and no other. A load already rejected writes its status, with the
region's state, to the register that waits, and leaves its bank empty unless it is BUSY or a static load. An image that reads
fills its bank when its status is OK and empties it otherwise; a static load that reads sets c0 to c7 of the sixteen lanes. -/
def Obligations.ArmatureLoads : Prop :=
  (
  ∀ (s : State) (rd rs1 rs2 : Reg), Ready [rd, rs1, rs2] s →
    let r := s.region s.cur
    let a := s.getX rs1
    let w := s.getX rs2
    (r.owner = none ∨ r.owner = some s.mySlot ∨ r.st = .idle ∨ r.st = .running) →
    ∃ (t : State) (x : ArmLoad), exec (.rcfg rd rs1 rs2) s = .next t ∧ (t.core s.cur).arm = (s.core s.cur).arm ++ [x] ∧
      x.rd = some rd ∧ x.addr = a ∧ x.bank = (w.extractLsb' 0 2).toNat ∧ x.sreg = w.getLsbD 2 ∧
      x.early = (if w.getLsbD 2 = false ∧ r.st = .running ∧ dBank r.desc = (w.extractLsb' 0 2).toNat then some 1
        else if a.toNat % 64 ≠ 0 then some 5
        else if w.getLsbD 2 = true ∧ r.st ≠ .idle then some 15 else none) ∧
      rd ∈ (t.core s.cur).pendingRegs ∧ CtlFrame [] [] false s t ∧ FallsThrough s t ∧ (t.core s.cur).banks = (s.core s.cur).banks ∧
      ∀ b, t.memByte b = s.memByte b) ∧
  (
  ∀ (s u v : State) (c : Nat) (x : ArmLoad) (rest : List ArmLoad) (n : Nat) (rd : Reg) (head tail b : List Byte),
    c < 640 → (s.die (dieOf c)).fatal = false → (s.core c).arm = x :: rest →
    (s.die (dieOf c)).actParked 2 c x.vi = false → x.rd = some rd → x.slot = some n →
    let writes := fun (t : State) (code : Nat) => (t.core c).arm = rest ∧ (t.slot c n).ctl.getX rd =
      (if rd = 0 then 0 else BitVec.ofNat 64 (code + (s.region c).st.code * 256))
    let popped := s.modCore c fun k => { k with arm := rest }
    (∀ code, x.early = some code → ∃ t, exec (.armatureLoadDone c) s = .next t ∧ writes t code ∧
      (Tab.get {} (t.core c).banks x.bank = if x.sreg = false ∧ code ≠ 1 then {} else Tab.get {} (s.core c).banks x.bank)) ∧
    (x.early = none → x.sreg = true → popped.armRead c x 8 x.addr.toNat = (u, b, false) →
      ∃ t, exec (.armatureLoadDone c) s = .next t ∧ writes t 0 ∧
        ∀ l m, l < 16 → m < 8 → ((t.region c).lane l).reg (24 + m) = BitVec.ofNat 32 (fld b (32 * l + 4 * m) 4)) ∧
    (x.early = none → x.sreg = false → popped.armRead c x 1 x.addr.toNat = (u, head, false) →
      u.armRead c x (imageUnits head) (x.addr.toNat + 64) = (v, tail, false) →
      let image := head ++ tail
      let code := imageStatus image (imgLen image) false
      ∃ t, exec (.armatureLoadDone c) s = .next t ∧ writes t code ∧
        Tab.get {} (t.core c).banks x.bank = (if code = 0 then bankOf image else {}) ∧
        ∀ m, m ≠ x.bank → Tab.get {} (t.core c).banks m = Tab.get {} (s.core c).banks m))

/-- R31, R34, R39, R42, R153: RLNCH of an aligned descriptor that can be read, alone or with a good stamp table, once nothing
it waits for is pending. With no check of a copy failing it starts the region of every copy for its slot: RUNNING, at row 0 of
interval 0 with the first boundary taken (iteration 0 starts where OPEN is set or TRIP is not 0, and the region has finished
where it does not), with the descriptor's tag, the copy's iteration offset and numbers and one launch number for all (of a
launch without a stamp the numbers are the descriptor's own, log entry 76); hm.bar rows await the phase after the one WBAR has
completed. rd then holds OK and the state. With checks failing it launches nothing and returns the lowest status; a misaligned
descriptor or stamp returns ALIGN. -/
def Obligations.LaunchStartsTheRegion : Prop :=
  ∀ (s : State) (rd rs1 rs2 : Reg), Ready [rd, rs1, rs2] s →
    let c := s.cur
    let me := s.mySlot
    let st := (s.getX rs2).toNat
    let n := bits st 59 5 + 1
    let misaligned := (s.getX rs1).toNat % 64 ≠ 0 ∨ (st ≠ 0 ∧ (bits st 55 4 ≠ 0 ∨ bits st 0 55 % 8 ≠ 0))
    let answers := fun (u : State) (v : Word) => ∃ t, exec (.rlnch rd rs1 rs2) s = .next t ∧
      t.getX rd = (if rd = 0 then 0 else v) ∧ (∀ e, t.region e = u.region e) ∧ FallsThrough s t ∧ ∀ r, r ≠ rd → t.getX r = s.getX r
    (misaligned → answers s (BitVec.ofNat 64 (5 + (s.region c).st.code * 256))) ∧
    (∀ (w u v : State) (d b : List Byte) (ts : List Target), ¬ misaligned → (s.slot c me).queue 1 = [] →
      s.fetchBytes (s.getX rs1).toNat 256 = (w, some d) →
      (st = 0 → u = w ∧ ts = [⟨c, me, BitVec.ofNat 32 (dIoff d), dKcp d, dNcp d⟩]) →
      (st ≠ 0 → w.fetchBytes (bits st 0 55) (8 * n) = (u, some b) ∧ stampBad u.myGang b n = false ∧ ts = stampTargets u.myGang b n) →
      (∀ x ∈ ts, (u.core x.core).armPending (dBank d) = false) → freeRegions ts u = (v, true) →
      ((∀ x ∈ ts, (v.region x.core).st = .idle) → ∀ x ∈ ts, (v.region x.core).passes = []) → (∀ x ∈ ts, v.tileAreaBad x.core x.slot = false) →
      (∀ z, (∀ x ∈ ts, v.copyCauses d x = []) → claimTiles d ts v = some z → (ts.map Target.core).Nodup →
        ∃ t, exec (.rlnch rd rs1 rs2) s = .next t ∧
        t.getX rd = (if rd = 0 then 0 else BitVec.ofNat 64 ((t.region c).st.code * 256)) ∧
        t.launchNo = s.launchNo + 1 ∧ (t.slot c me).launch = s.launchNo + 1 ∧
        (∀ x ∈ ts,
          let r := t.region x.core
          let starts := dOpen d || decide (0 < dTrip d)
          r.st = .running ∧ r.owner = some x.slot ∧ r.desc = d ∧ r.t = 0 ∧ r.k = 0 ∧ r.rrb = 0 ∧ r.hacc = 0 ∧ r.exited = false ∧
          r.mask = (if starts then 1 else 0) ∧ r.nxt = (if starts then 1 else 0) ∧ r.done = !starts ∧
          r.tag = BitVec.ofNat 32 (dTag d) ∧ r.ioff = x.ioff ∧ r.kcp = x.kcp ∧ r.ncp = x.ncp ∧ r.launch = s.launchNo + 1 ∧
          r.issuer = (c, me) ∧
          (∀ y, (z.core x.core).bar (dWbar d) = some y → y.owner = x.slot → r.bph = y.ph + 1) ∧
          ((z.region x.core).owner = some x.slot → ∀ l m, (r.lane l).reg m = ((z.region x.core).lane l).reg m)) ∧
        FallsThrough s t ∧ ∀ r, r ≠ rd → t.getX r = s.getX r) ∧
      (∀ code, lowest (ts.flatMap (v.copyCauses d)) = some code → answers v (BitVec.ofNat 64 (code + (v.region c).st.code * 256))))

/-- R154, R155: RWAIT completes once the core's region and every copy of the launch has left RUNNING, with OK, the state and
whether a copy stands stopped; until then it waits. RHALT of a running region asks for the halt and waits, and remembers the
slot, mode and pc that asked (the model's own record, log entry 37); executed again after its request has stopped the region it
completes with OK. Of a region that is not running and that it has not stopped so it returns STATE, and of another slot's
region both return OWNER.
R158, R159: RSTAT returns the item its selector names, as Table 11-3 lays it out (the state word, the flags, a bank's tag and
load, the hold count, the static registers), and all ones for an unlisted selector; for selector 2 it clears the flags it has
returned. After a restore the hold count goes on from the block's (log entry 81). RITER returns NXT and K. A slot that does not
own the region reads all ones from both, but for the state word and the bank words. -/
def Obligations.RegionWaitsAndReads : Prop :=
  (
  ∀ (s : State) (rd : Reg), Ready [rd] s →
    let c := s.cur
    let r := s.region c
    let cs := s.copies c s.mySlot
    let answers := fun (i : Instr) (code : Nat) => ∃ t, exec i s = .next t ∧
      t.getX rd = (if rd = 0 then 0 else BitVec.ofNat 64 (code + r.st.code * 256)) ∧ Done [rd] [] false s t
    (s.notOwner = false → r.st ≠ .running → (∀ x ∈ cs, x.st ≠ .running) → ∃ t, exec (.rwait rd) s = .next t ∧
      t.getX rd = (if rd = 0 then (0 : Word) else (BitVec.ofNat 64 (r.st.code * 256) : Word) |||
        (if cs.any (fun x => x.st == .halted || x.st == .frozen) then 1#64 <<< 10 else 0)) ∧ Done [rd] [] false s t) ∧
    (s.notOwner = false → r.st = .running ∨ (∃ x ∈ cs, x.st = .running) → exec (.rwait rd) s
      = .next (s.modMe fun k => { k with wait := some { instr := .rwait rd, len := 4 } })) ∧
    (s.notOwner = true → answers (.rwait rd) 16) ∧
    (s.notOwner = false → r.st = .running → ∃ t, exec (.rhalt rd) s = .next t ∧ (t.region c).haltReq = true ∧
      (t.region c).asked = some (s.mySlot, (s.core c).mode, s.me.pc) ∧ (t.region c).st = .running ∧
      t.me = { s.me with wait := some { instr := .rhalt rd, len := 4 } } ∧ ∀ a, t.memByte a = s.memByte a) ∧
    (s.notOwner = false → r.st ≠ .running → r.asked = some (s.mySlot, (s.core c).mode, s.me.pc) → ∃ t,
      exec (.rhalt rd) s = .next t ∧ t.getX rd = (if rd = 0 then 0 else BitVec.ofNat 64 (r.st.code * 256)) ∧
      (t.region c).st = r.st ∧ (t.region c).asked = none ∧ CtlFrame [rd] [] false s t ∧ FallsThrough s t ∧
      ∀ a, t.memByte a = s.memByte a) ∧
    (r.st ≠ .running → r.asked ≠ some (s.mySlot, (s.core c).mode, s.me.pc) → answers (.rhalt rd) 15) ∧
    (s.notOwner = true → r.st = .running → answers (.rhalt rd) 16)) ∧
  (
  ∀ (s : State) (rd rs1 : Reg),
    let r := s.region s.cur
    let sel := s.getX rs1
    let gives := fun (i : Instr) (v : Word) => ∃ t, exec i s = .next t ∧ t.getX rd = (if rd = 0 then 0 else v) ∧
      Done [rd] [] false s t
    (Ready [rd] s → gives (.riter rd) (if s.hidden then BitVec.allOnes 64 else r.k ++ r.nxt)) ∧
    (Ready [rd, rs1] s → sel = 0 → gives (.rstat rd rs1)
      (BitVec.ofNat 64 (r.st.code + dBank r.desc * 2 ^ 2 + b2n r.exited * 2 ^ 4 + r.mask.toNat * 2 ^ 8 + (dII r.desc - 1) * 2 ^ 16 +
        (dS r.desc - 1) * 2 ^ 21 + r.hacc * 2 ^ 32))) ∧
    (Ready [rd, rs1] s → sel.toNat ∉ [0, 1, 2, 4, 5, 6, 7, 0x10] → ¬ (0x100 ≤ sel.toNat ∧ sel.toNat ≤ 0x17F) →
      gives (.rstat rd rs1) (BitVec.allOnes 64)) ∧
    (Ready [rd, rs1] s → s.hidden = false →
      (sel = 1 → gives (.rstat rd rs1) (zx r.flags)) ∧ (sel = 0x10 → gives (.rstat rd rs1) r.holds) ∧
      (∀ l n, l < 16 → n < 8 → sel = BitVec.ofNat 64 (0x100 + 8 * l + n) →
        gives (.rstat rd rs1) (zx ((r.lane l).reg (24 + n)))) ∧
      (sel = 2 → ∃ t, exec (.rstat rd rs1) s = .next t ∧ t.getX rd = (if rd = 0 then 0 else zx r.flags) ∧
        (t.region s.cur).flags = 0 ∧ CtlFrame [rd] [] false s t ∧ FallsThrough s t ∧ ∀ a, t.memByte a = s.memByte a)) ∧
    (Ready [rd, rs1] s → s.hidden = true → sel.toNat ∉ [0, 4, 5, 6, 7] → gives (.rstat rd rs1) (BitVec.allOnes 64)) ∧
    (Ready [rd, rs1] s → ∀ n, n < 4 → sel = BitVec.ofNat 64 (4 + n) → gives (.rstat rd rs1)
      (BitVec.ofNat 64 ((Tab.get {} (s.core s.cur).banks n).tag.toNat +
        b2n ((s.core s.cur).arm.any fun a => !a.sreg && a.bank == n) * 2 ^ 32))))

/-- R156, R157, R357, R358: RSAVE of a stopped region of the issuing slot, aligned and writable, with its ports and stores
settled, writes the block (and the store tail behind it where stores are left) to the located bytes and no others, and leaves
the region IDLE with no owner; c0 to c7 of its lanes keep their contents (R152). RRSTR of a good block with no poisoned word,
whose bank, descriptor and ports still stand, brings the region back RUNNING for its slot: the working registers, statics,
predicates and captured latches of its sixteen lanes, the tag, iteration offset, copy numbers, phase, flags and hold count (log
entry 81) as the block holds them; a FROZEN block goes on at its interval and row (the row after it with SKIP), a HALTED one at
row 0 after the boundary step it had put off (R31); the store queue is the block's tail. Each writes rd OK with the region's
state. -/
def Obligations.RegionSaveAndRestore : Prop :=
  (∀ (s u w : State) (rd rs1 : Reg) (l0 l : List (Nat × Nat)), Ready [rd, rs1] s →
    let c := s.cur
    let va := (s.getX rs1).toNat
    let v := u.flushPorts c (u.ownerOf c)
    let k := v.core c
    let image := if k.stq.isEmpty then k.block else k.block ++ k.tail
    va % 4096 = 0 → s.notOwner = false → ((s.region c).st = .halted ∨ (s.region c).st = .frozen) →
    s.writable va 4096 = (u, some l0) → v.regionSettled c = true →
    v.writable va (if k.stq.isEmpty then 4096 else 8192) = (w, some l) →
    ∃ t, exec (.rsave rd rs1) s = .next t ∧ t.getX rd = 0 ∧ (t.region c).st = .idle ∧ (t.region c).owner = none ∧
      (∀ lane m, lane < 16 → 24 ≤ m → m < 32 → ((t.region c).lane lane).reg m = ((s.region c).lane lane).reg m) ∧
      (∀ a, t.memByte a = (s.writePieces l image).memByte a) ∧ MemFrame l s t ∧ FallsThrough s t ∧
      ∀ r, r ≠ rd → t.getX r = s.getX r) ∧
  (∀ (s u v z : State) (rd rs1 : Reg) (l : List (Nat × Nat)) (d tb : List Byte), Ready [rd, rs1] s →
    let c := s.cur
    let va := (s.getX rs1).toNat
    let b := s.readPieces l
    let mark := fld b 0 8
    let tail := bitAt mark 34
    let owner := if (s.core c).mode = .m then bits mark 37 3 else s.mySlot
    va % 4096 = 0 → s.freeRegion c (some s.mySlot) = (s, true) →
    s.locate c (s.core c).mode va 4096 .read = (u, .pieces l) → u.poisonedOffsets (l.headD (0, 0)).1 4096 = [] →
    u.tileAreaBad c s.mySlot = false → blockOk b = true →
    (tail = true → u.fetchBytes (va + 4096) 4096 = (v, some tb) ∧ tailOk tb = true) → (tail = false → v = u) →
    (v.core c).armPending (bits mark 40 2) = false → (v.region c).passes = [] →
    v.rrstrCauses c b true = [] → v.descHeld c owner b = some d → v.claimFor c owner d = some z →
    ∃ t, exec (.rrstr rd rs1) s = .next t ∧ t.getX rd = (if rd = 0 then 0 else 256) ∧ RestoredFrom b d owner (t.region c) ∧
      (t.core c).stq = (if tail then getTail owner tb else []) ∧
      FallsThrough s t ∧ (∀ r, r ≠ rd → t.getX r = s.getX r) ∧ (∀ e, e ≠ c → t.core e = z.core e))

/-- R31, R12, R35, R109, R155: a row that nothing holds and nothing stops advances the row counter modulo II. When the counter
returns to 0 the next interval begins, also while a region that has finished drains: K counts up, the rotating base goes down by
one modulo 24, hacc is cleared, and the mask shifts in whether the next iteration starts; but a region asked to halt, which that
step would not complete, is HALTED there and takes no step. A row touches no other core and no byte of memory: its stores wait in
the store queue.
R36, R37, R38, R120: a held row takes a hold cycle, which counts in hacc and in the hold count and changes no row, no lane and
no memory; where one more would exceed HL, DEADLINE freezes the region instead, and a record with cause 25 waits for the slot
that issued the launch. A condition raised at a row whose mask bit for it is clear, whatever other conditions hold the row, is a
schedule violation: the region freezes at that row with nothing of it issued, and a record with cause 24 and the subcode of the
lowest such condition waits. Both freezes wait until the stores of the rows before have been performed (R9, R120).
R10, R12, R222: a running region that has found its last boundary and whose results and stores are all written becomes IDLE
and keeps its owner; a row-table pass that is due writes its accumulator elements and raises its flags and starts the array's
idle count (R261), the oldest pass first, and changes no other element. -/
def Obligations.RegionRows : Prop :=
  (
  ∀ (s : State) (c : Nat),
    let r := s.region c
    let starts := !r.exited && (dOpen r.desc || decide (r.nxt.toNat < dTrip r.desc))
    let mask := ((r.mask <<< 1) ||| (if starts then 1 else 0)) &&& BitVec.ofNat 8 (2 ^ dS r.desc - 1)
    c < 640 → (s.die (dieOf c)).fatal = false → s.rowReady c = true → s.violation c = none → s.held c = false →
    s.rowFault c = none → (∀ x ∈ s.laneActs c, x.op ≠ .brkpt ∧ x.op ≠ .exit) →
    ∃ t, exec (.rowAdvance c) s = .next t ∧ (t.region c).t = (r.t + 1) % dII r.desc ∧
      ((r.t + 1) % dII r.desc ≠ 0 → (t.region c).k = r.k ∧ (t.region c).rrb = r.rrb ∧ (t.region c).nxt = r.nxt ∧
        (t.region c).mask = r.mask ∧ (t.region c).hacc = r.hacc ∧ (t.region c).st = .running) ∧
      ((r.t + 1) % dII r.desc = 0 → (r.haltReq = false ∨ mask = 0) → (t.region c).k = r.k + 1 ∧
        (t.region c).st = .running ∧ (t.region c).hacc = 0 ∧ (t.region c).rrb = (r.rrb + 23) % 24 ∧
        (t.region c).mask = mask ∧ (t.region c).nxt = (if starts then r.nxt + 1 else r.nxt) ∧ (t.region c).done = (mask == 0)) ∧
      ((r.t + 1) % dII r.desc = 0 → r.haltReq = true → mask ≠ 0 → (t.region c).st = .halted ∧ (t.region c).k = r.k ∧
        (t.region c).rrb = r.rrb ∧ (t.region c).mask = r.mask ∧ (t.region c).nxt = r.nxt ∧ (t.region c).haltReq = false) ∧
      (∀ e, e ≠ c → t.core e = s.core e) ∧ ∀ a, t.memByte a = s.memByte a) ∧
  (
  ∀ (s : State) (c : Nat),
    let r := s.region c
    let freezes := fun (t : State) (f : FaultRec) => (t.region c).st = .frozen ∧ (t.region c).t = r.t ∧ (t.region c).k = r.k ∧
      (t.region c).lanes = r.lanes ∧ (t.core r.issuer.1).frq = (s.core r.issuer.1).frq ++ [f] ∧ f.slot = r.issuer.2 ∧
      ∀ a, t.memByte a = s.memByte a
    c < 640 → (s.die (dieOf c)).fatal = false →
    (s.holds c = true →
    (r.hacc + 1 ≤ dHL r.desc → ∃ t, exec (.holdCycle c) s = .next t ∧ (t.region c).hacc = r.hacc + 1 ∧
      (t.region c).holds = r.holds + 1 ∧ (t.region c).t = r.t ∧ (t.region c).k = r.k ∧ (t.region c).lanes = r.lanes ∧
      (t.region c).st = r.st ∧ (∀ e, e ≠ c → t.core e = s.core e) ∧ ∀ a, t.memByte a = s.memByte a) ∧
    (dHL r.desc < r.hacc + 1 → s.mayFreeze c = true → ∃ (t : State) (f : FaultRec), exec (.deadlineFault c) s = .next t ∧
      (t.region c).dln = true ∧ f.cause = 25 ∧ freezes t f) ∧
    (dHL r.desc < r.hacc + 1 → s.mayFreeze c = false → exec (.deadlineFault c) s = .next s)) ∧
    (∀ (n : Nat) (x : Bool × Nat × Nat), (s.conditions c)[n]? = some x → x.1 = true → bitAt (rowWord r) x.2.1 = false →
      (∀ (m : Nat) (y : Bool × Nat × Nat), m < n → (s.conditions c)[m]? = some y → y.1 = true → bitAt (rowWord r) y.2.1 = true) → s.rowReady c = true →
      (s.mayFreeze c = true → ∃ (t : State) (f : FaultRec), exec (.rowAdvance c) s = .next t ∧ f.cause = 24 ∧
        fld f.bytes 1 1 = x.2.2 ∧ freezes t f) ∧
      (s.mayFreeze c = false → exec (.rowAdvance c) s = .next s)) ∧
    (s.mayFreeze c = true ↔ (s.core c).stq = [] ∨ r.stuck = true)) ∧
  (
  ∀ (s : State) (c : Nat), c < 640 → (s.die (dieOf c)).fatal = false →
    ((s.region c).st = .running → (s.region c).done = true → (s.core c).drained = true →
      ∃ t, exec (.regionComplete c) s = .next t ∧ t.region c = { s.region c with st := .idle, haltReq := false } ∧
        (∀ e, e ≠ c → t.core e = s.core e) ∧ ∀ a, t.memByte a = s.memByte a) ∧
    (∀ p ps, (s.region c).passes = p :: ps → ((s.region c).st ≠ .running ∨ 16 ≤ p.rows) →
      ∃ t, exec (.rowTablePassComplete c) s = .next t ∧ (t.region c).passes = ps ∧
        (t.tile c).flags = (s.tile c).flags ||| p.flags ∧ (t.tile c).idleAt = s.cycles ∧
        (∀ m, (∀ w ∈ p.writes, 1024 * w.1 + w.2.1 ≠ m) → Tab.get 0 (t.tile c).acc m = Tab.get 0 (s.tile c).acc m) ∧
        (∀ (n : Nat) (w : Nat × Nat × W32), p.writes[n]? = some w →
          (∀ (m : Nat) (v : Nat × Nat × W32), n < m → p.writes[m]? = some v → 1024 * v.1 + v.2.1 ≠ 1024 * w.1 + w.2.1) →
          Tab.get 0 (t.tile c).acc (1024 * w.1 + w.2.1) = w.2.2) ∧ ∀ a, t.memByte a = s.memByte a))

/-- R109, R104, R217 to R220: the reply of an LDG that translates, whose bytes no earlier store of the region writes and are not
poisoned, brings the bytes at its address into its landing slot and changes no memory. The head of the store queue is performed
and leaves it: an STG stores its element; an AMOG returns the old value to its landing slot and stores its operation's result, or
nothing where its comparison fails. One that stores ends the reservation of every core on its granule; nothing else of memory
changes, and no other reservation ends. A BSIG (R223, R166) arrives at the barrier its reference names, which counts for the owner
slot's interface, or is a dead letter of the owner slot; an SSEND (R225, R171) of this package is applied to the task that is
placed as a message is: its store, suppressed where it leaves the window, and its arrival; one to a task that has exited, or to a
package that cannot be reached, is a dead letter (which counts while its task holds the slot, log entry 24). -/
def Obligations.RegionMemoryAccesses : Prop :=
  ∀ (s u : State) (c : Nat), Up c s →
    (∀ lane n y l, (s.region c).landing lane n = some y → (s.region c).st ≠ .idle → y.amo = false → y.reply = none →
      y.pois = false →
      s.slotXlate c (s.ownerOf c) .read y.va.toNat (tyBytes y.ty.toNat) = (u, .ok l) →
      u.overlapsStq c ((u.core c).stq.take y.ahead) l = false → u.poisPieces l = false →
      ∃ t z, exec (.ldgReply c lane n) s = .next t ∧ (t.region c).landing lane n = some z ∧
        z.reply = some (BitVec.ofNat 32 (leNat (s.readPieces l))) ∧ z.rem = y.rem ∧ t.resvs = s.resvs ∧
        ∀ a, t.memByte a = s.memByte a) ∧
    (∀ e es, (s.core c).stq = e :: es → (s.region c).stuck = false →
      let stores := fun (t : State) (a w v : Nat) => t.memBytes a w = toLE w v ∧ MemFrame [(a, w)] s t ∧
        ResvFrame [(a, w)] s t ∧ ∀ r ∈ t.resvs, ¬ Touches [(a, w)] r
      (∀ a, e.kind = 0 →
        let w := tyBytes e.ty.toNat
        s.slotXlate c e.slot .write e.va.toNat w = (u, .ok [(a, w)]) →
        ∃ t, exec (.storeQueuePerform c) s = .next t ∧ (t.core c).stq = es ∧ stores t a w e.data.toNat) ∧
      (∀ a, 1 ≤ e.kind → e.kind ≤ 8 →
        s.slotXlate c e.slot .rmw e.va.toNat 4 = (u, .ok [(a, 4)]) → u.poisPieces [(a, 4)] = false →
        ∃ t, exec (.storeQueuePerform c) s = .next t ∧ (t.core c).stq = es ∧
          (match amogNew e.kind e.ty.toNat (s.memNat a 4) (e.data.toNat % 2 ^ 32) e.cmp.toNat with
            | some v => stores t a 4 v
            | none => t.resvs = s.resvs ∧ ∀ b, t.memByte b = s.memByte b) ∧
          ∀ y, (s.region c).landing e.lane e.lslot = some y → ∃ z, (t.region c).landing e.lane e.lslot = some z ∧
            z.reply = some (BitVec.ofNat 32 (s.memNat a 4))) ∧
      (∀ task, (s.slot c e.slot).task = some task →
        let memKept := fun (t : State) => ∀ a, t.memByte a = s.memByte a
        let barsKept := fun (t : State) => ∀ d n, (t.core d).bar n = (s.core d).bar n
        let dead := fun (t : State) => (t.slot c e.slot).dead = sat16 (s.slot c e.slot).dead
        let arrived := fun (t : State) (d n : Nat) (b : Barrier) (err : Bool) => (t.core d).bar n = some (b.arrive err) ∧
          ∀ x y, (x ≠ d ∨ y ≠ n) → (t.core x).bar y = (s.core x).bar y
        let counts := fun (d : Nat) (b : Barrier) (vi : Nat) => b.exp ≠ 0 ∧ (s.slot d b.owner).task.map Task.vi = some vi ∧ d < 640
        (e.kind = 9 →
          let d := if e.data.getLsbD 12 then c else (e.data.extractLsb' 16 10).toNat
          let n := (e.data.extractLsb' 0 11).toNat
          ∃ t, exec (.storeQueuePerform c) s = .next t ∧ (t.core c).stq = es ∧ memKept t ∧
            (∀ b, (s.core d).bar n = some b → counts d b task.vi → arrived t d n b (e.data.getLsbD 11)) ∧
            ((∀ b, (s.core d).bar n = some b → ¬ counts d b task.vi) → barsKept t ∧ dead t)) ∧
        (e.kind = 10 →
          let w := if e.flags.getLsbD 0 then 8 else 4
          let stores := decide (e.doff ≠ 0xFFFFFFFF)
          let n := (e.bn.extractLsb' 0 11).toNat
          ∃ t, exec (.storeQueuePerform c) s = .next t ∧ (t.core c).stq = es ∧
            (hPkg e.handle = s.podid.toNat → s.handleState e.handle = .exited → dead t ∧ barsKept t ∧ memKept t) ∧
            (hPkg e.handle ≠ s.podid.toNat → s.reaches (hPkg e.handle) = false → dead t ∧ barsKept t ∧ memKept t) ∧
            (∀ d k, hPkg e.handle = s.podid.toNat → s.handleState e.handle = .placed d k → (s.slot d k).claiming = false → d < 640 →
              let inside := decide (e.doff.toNat + w ≤ (s.core d).winBytes k)
              memKept t ∧
              ((stores && inside) = true → e.pois = false →
                (t.core d).spadBytes ((s.core d).spadAddr k e.doff.toNat) w = toLE w e.data.toNat) ∧
              ((stores && inside) = false → ∀ a m, (t.core d).spadBytes a m = (s.core d).spadBytes a m) ∧
              (e.bn.getLsbD 15 = true → barsKept t) ∧
              (e.bn.getLsbD 15 = false → ∀ b, (s.core d).bar n = some b → b.owner = k →
                (counts d b (hVi e.handle) → arrived t d n b (e.flags.getLsbD 1 || (stores && !inside))) ∧
                (b.exp = 0 → barsKept t ∧ dead t))))))

/-- R88, R90, R96: a refill of a core's translation cache holds, after it, the leaf the walk gives for the address, and changes
no byte of memory; where the walk faults on anything but poison, or a leaf for the address is held, the state is unchanged;
where it reads poison the die's trace records it and nothing else changes. -/
def Obligations.TranslationRefill : Prop :=
  ∀ (s : State) (c vi : Nat) (va : Word) (acc : BitVec 2), Up c s →
    let a : Acc := if acc = 0 then .read else if acc = 1 then .write else if acc = 2 then .rmw else .fetch
    (∀ e ws, (s.core c).tlb.find? (fun x => x.covers vi va.toNat) = none → s.walk vi (dieOf c) va.toNat a = .ok (e, ws) →
      ∃ t, exec (.translationWalk c vi va acc) s = .next t ∧ e ∈ (t.core c).tlb ∧ (∀ d, d ≠ c → t.core d = s.core d) ∧
        ∀ b, t.memByte b = s.memByte b) ∧
    (∀ k, (s.core c).tlb.find? (fun x => x.covers vi va.toNat) = none → s.walk vi (dieOf c) va.toNat a = .error k →
      exec (.translationWalk c vi va acc) s = .next (if k = 11 then s.traceAdd (dieOf c) (c % 160) 2 va.toNat 0 else s)) ∧
    ((s.core c).tlb.any (fun x => x.covers vi va.toNat) = true → exec (.translationWalk c vi va acc) s = .next s)

/-- R84, R88, R90: isolation. While every translation a core caches for an interface is of a page within that interface's grant,
an address that translates for it lies in the grant, by a leaf that permits the access, and the caches stay so; and every byte
that a U-mode access of the core reaches, whatever its address and length, is the home of a physical address within the grant of
the interface whose task runs. -/
def Obligations.TranslationStaysInsideGrants : Prop :=
  (∀ (s t : State) (c vi va pa : Nat) (acc : Acc), s.tlbGranted c vi → s.xlate c vi va acc = (t, .ok pa) →
    s.inGrant vi (dieOf c) pa ∧ t.tlbGranted c vi ∧
    ∃ e ∈ (t.core c).tlb, e.covers vi va = true ∧ e.permits acc = true ∧ pa = e.pa + (va - e.va)) ∧
  (∀ (s t : State) (c va n : Nat) (acc : Acc) (l : List (Nat × Nat)), s.tlbGranted c (s.runVi c) →
    s.locate c .u va n acc = (t, .pieces l) →
    ∀ p ∈ l, ∀ o, o < p.2 → ∃ pa, s.home (dieOf c) pa = some (p.1 + o) ∧ s.inGrant (s.runVi c) (dieOf c) pa)

/-! ## The tile unit and the mould -/

/-- R233, R311: each of the 22 tile instructions, once its slot has the tile unit and tq has room, enters the end of tq with
its address, its word and x[rs1] as they are now, and completes; no register and no byte of memory changes. While the mould is
enabled it also reserves its log entry, after the reads of its producers' headers (R309, charged by R342): one that does not
fit below the limit takes MOULD_FULL (cause 27) with the bytes needed, and one that does advances the log pointer by its
length. While the unit cannot be claimed, or tq is full, it waits. While a fault of tq waits for its trap the instruction
completes and its entry is discarded (R238). Poison in what the slot's area holds of the unit's headers, flags or producer map
is a SOFT_ERROR of the instruction (the model's reading of R352, log entries 19 and 52). -/
def Obligations.TileInstructionsEnterTheQueue : Prop :=
  ∀ (s : State) (i : Instr) (rs1 : Reg), tileOperand i = some rs1 → ReadyLogp [rs1] s →
    let c := s.cur
    let n := s.mySlot
    let w := s.bitsOf i
    let a := s.getX rs1
    let enters := fun (u t : State) (g : Option LogEntry) =>
      (t.slot c n).tq = (u.slot c n).tq ++ [{ seq := (u.slot c n).nseq, va := s.me.pc, zt := w, arg := a, log := g }] ∧
      (t.slot c n).nseq = (u.slot c n).nseq + 1 ∧ t.tile c = u.tile c ∧ (∀ r, t.getX r = s.getX r ∧ t.getF r = s.getF r) ∧
      FallsThrough s t ∧ (∀ d, d ≠ c → t.core d = u.core d) ∧ ∀ b, t.memByte b = u.memByte b
    (s.tileAreaBad c n = true → exec i s =
      (s.tracePois c ((s.core c).area n + 0xE00)).recordTrap 31 0 ((s.core c).area n + 0xE00) s.me.epc) ∧
    (s.tileAreaBad c n = false → (∀ u, s.claimTile c n = some u → (u.slot c n).tq.length < 64 → (u.slot c n).tqDead = none →
      (s.me.en = false → ∃ t, exec i s = .next t ∧ enters u t none ∧ CtlFrame [] [] false s t) ∧
      (s.me.en = true →
        let lp := s.me.pre.bind Prefixes.logp
        let e := u.decideEntry c n w.toNat a lp
        let u0 := u.readProducers c n w.toNat lp
        (∀ v g, u0.reserve c n e.1 e.2 = .ok v g → ∃ t, exec i s = .next t ∧ enters v t (some g) ∧
          t.me.zmlptr = s.me.zmlptr + BitVec.ofNat 64 e.1.size ∧ t.me.zmlcast = s.me.zmlptr) ∧
        (∀ m, u0.reserve c n e.1 e.2 = .full m →
          exec i s = .next (u0.takeTrap c false 27 (BitVec.ofNat 64 m) s.me.epc)))) ∧
    (∀ u d, s.claimTile c n = some u → (u.slot c n).tq.length < 64 → (u.slot c n).tqDead = some d → s.me.en = false →
      ∃ t, exec i s = .next t ∧ (t.slot c n).tq = (u.slot c n).tq ∧ t.tile c = u.tile c ∧ CtlFrame [] [] false s t ∧
        FallsThrough s t ∧ ∀ b, t.memByte b = u.memByte b) ∧
    (s.claimTile c n = none → exec i s = .next (s.modMe fun k => { k with wait := some { instr := i, len := 4, a := a } })) ∧
    (∀ u, s.claimTile c n = some u → 64 ≤ (u.slot c n).tq.length →
      exec i s = .next (u.modMe fun k => { k with wait := some { instr := i, len := 4, a := a } })))

/-- R261, R262, R302, R304, R305: MXHINT warms a ramped-down array at once and otherwise restarts its idle count. MOULD 0 clears EN
and the producer map, MOULD 1 sets EN, empties the log, clears the map and MSTAT's counts and forgets an unread CAST status (log
entry 42), MOULD 2 puts a marker with a
reserved entry into tq while EN is set, and does nothing else in every other case. MSTAT returns EN and the two counts.
R306, R316, R319: CAST enters tq once, and waits with the number of its entry; the CAST of a restored slot finds its entry
there, or the status it has left. When the entry has ended, its status is written to rd, or kept by the slot while the
instruction has still to be executed again (DEDUCED, log entry 42). A cast step ends at once with status 2 while the mould is
enabled, with 6 on an empty log and with 4 when the window is too small for RBUF; otherwise it casts the entry the pointer
names and moves the pointer BACK, and the cast ends with 0 behind the oldest entry. -/
def Obligations.MouldAndCastComplete : Prop :=
  (
  ∀ (s : State) (rd rs1 : Reg),
    let c := s.cur
    let n := s.mySlot
    let l := s.slot c n
    let sel := (s.getX rs1).extractLsb' 0 2
    let quiet := fun (t : State) => (∀ r, t.getX r = s.getX r ∧ t.getF r = s.getF r) ∧ (∀ d, d ≠ c → t.core d = s.core d) ∧
      FallsThrough s t ∧ ∀ b, t.memByte b = s.memByte b
    (Ready [] s → ∃ t, exec .mxhint s = .next t ∧ CtlFrame [] [] false s t ∧ FallsThrough s t ∧
      t.tile c = (if (s.tile c).rampedDown then { s.tile c with hintAt := some s.cycles }
        else { s.tile c with idleAt := s.cycles }) ∧ ∀ b, t.memByte b = s.memByte b) ∧
    (Ready [rs1] s → sel = 0 → ∃ t, exec (.mould rs1) s = .next t ∧
      t.me = ({ s.me with zmlmode := s.me.zmlmode &&& ~~~1#64 }).advance 4 ∧ (t.slot c n).prod = [] ∧ quiet t) ∧
    (Ready [rs1] s → sel = 1 → ∃ t, exec (.mould rs1) s = .next t ∧ t.me.en = true ∧ t.me.zmlptr = s.me.zmlbase ∧
      t.me.zmlbase = s.me.zmlbase ∧ t.me.zmlcast = 0x8000000000000000#64 ∧ (t.slot c n).prod = [] ∧
      (t.slot c n).demoted = 0 ∧ (t.slot c n).appended = 0 ∧ (t.slot c n).castDone = none ∧ quiet t) ∧
    (Ready [rs1] s → sel = 2 → s.me.en = true → s.tileAreaBad c n = false →
      (∀ u v g, s.claimTile c n = some u → (u.slot c n).tq.length < 64 → (u.slot c n).tqDead = none →
        u.reserve c n { mark := true } 0 = .ok v g → ∃ t, exec (.mould rs1) s = .next t ∧
          (t.slot c n).tq = (u.slot c n).tq ++ [{ seq := (u.slot c n).nseq, va := s.me.pc, zt := 0, arg := 0, log := some g }] ∧
          t.me.zmlcast = s.me.zmlptr ∧ FallsThrough s t ∧ ∀ r, t.getX r = s.getX r)) ∧
    (Ready [rs1] s → sel = 3 ∨ (sel = 2 ∧ s.me.en = false) → ∃ t, exec (.mould rs1) s = .next t ∧ Done [] [] false s t) ∧
    (Ready [rd] s → ∃ t, exec (.mstat rd) s = .next t ∧
      t.getX rd = (if rd = 0 then 0 else BitVec.ofBool s.me.en ++ (0 : BitVec 15) ++ l.demoted ++ l.appended) ∧
      Done [rd] [] false s t)) ∧
  (
  (∀ (s : State) (rd rs1 : Reg), Ready [rd, rs1] s →
    let c := s.cur
    let n := s.mySlot
    let w : Waiting := { instr := .cast rd rs1, len := 4, a := s.getX rs1 }
    (∀ v, (s.slot c n).castDone = some v → ∃ t, exec (.cast rd rs1) s = .next t ∧ t.getX rd = (if rd = 0 then 0 else v) ∧
      (t.slot c n).castDone = none ∧ CtlFrame [rd] [] false s t ∧ FallsThrough s t ∧ ∀ b, t.memByte b = s.memByte b) ∧
    ((s.slot c n).castDone = none → s.tileAreaBad c n = false →
    (∀ u, s.claimTile c n = some u → u.castInTq c n = none → (u.slot c n).tq.length < 64 → (u.slot c n).tqDead = none →
      ∃ t, exec (.cast rd rs1) s = .next t ∧
        (t.slot c n).tq = (u.slot c n).tq ++
          [{ seq := (u.slot c n).nseq, va := s.me.pc, zt := s.bitsOf (.cast rd rs1), arg := s.getX rs1 }] ∧
        t.me = { s.me with wait := some { w with n := (u.slot c n).nseq + 1 } } ∧ ∀ b, t.memByte b = u.memByte b) ∧
    (∀ u e, s.claimTile c n = some u → u.castInTq c n = some e →
      exec (.cast rd rs1) s = .next (u.modMe fun k => { k with wait := some { w with n := e.seq + 1 } })) ∧
    (s.claimTile c n = none → exec (.cast rd rs1) s = .next (s.modMe fun k => { k with wait := some w })))) ∧
  (∀ (s : State) (rd rs1 : Reg) (w : Waiting), WaitsIn w s →
    w.instr = .cast rd rs1 → w.b ≠ 0 → ∃ t, exec (.waitComplete s.cur) s = .next t ∧
      t.getX rd = (if rd = 0 then 0 else w.b &&& 0xFFFF#64) ∧ Done [rd] [] false s t) ∧
  (∀ (s : State) (c n : Nat) (e : TqEntry), Up c s → (s.tile c).owner = some n → (s.tile c).busy = some e →
    isCast e = true → (s.core c).active n = true →
    let k := s.ctl c
    let rbuf := bits k.zmlmode.toNat 38 15 * 64
    let ends := fun (t : State) (code : Nat) => (t.tile c).busy = none ∧
      (∀ w, k.wait = some w → k.inCast = true → (t.ctl c).wait = some { w with b := BitVec.ofNat 64 (2 ^ 63 + code) }) ∧
      (k.inCast = false → (t.slot c n).castDone = some (BitVec.ofNat 64 code))
    (e.begun = false → k.en = true → ∃ t, exec (.castEntry c) s = .next t ∧ ends t 2 ∧ ∀ b, t.memByte b = s.memByte b) ∧
    (e.begun = false → k.en = false → k.zmlcast.getLsbD 63 = true → ∃ t, exec (.castEntry c) s = .next t ∧ ends t 6 ∧
      ∀ b, t.memByte b = s.memByte b) ∧
    (e.begun = false → k.en = false → k.zmlcast.getLsbD 63 = false → (s.core c).winBytes n < rbuf + 18432 →
      ∃ t, exec (.castEntry c) s = .next t ∧ ends t 4 ∧ ∀ b, t.memByte b = s.memByte b) ∧
    (∀ b u, (e.begun = true ∨ (k.en = false ∧ k.zmlcast.getLsbD 63 = false ∧ rbuf + 18432 ≤ (s.core c).winBytes n)) →
      let h := headerFrom b
      s.castRead c n (slotAddr k.zmlcast) 64 = .ok b → headerGood b = true → h.mark = false →
      (s.chargeReads c n [(slotAddr k.zmlcast, 64)]).castEntry c n (slotAddr k.zmlcast) h = .ok u →
      ∃ t, exec (.castEntry c) s = .next t ∧ (∀ b, t.memByte b = u.memByte b) ∧
        (h.back = 0 → (t.ctl c).zmlcast = 0x8000000000000000#64 ∧ ends t 0) ∧
        (h.back ≠ 0 → (t.ctl c).zmlcast =
            BitVec.ofNat 64 (slotAddr (BitVec.ofNat 64 (slotAddr k.zmlcast) - BitVec.ofNat 64 (64 * h.back))) ∧
          (t.tile c).busy = some { e with begun := true }))))

/-- R233, R234, R238, R261, R314: the oldest entry of tq that may start and passes its checks leaves tq and is in progress; one
that fails a check is discarded with all behind it, and its trap (SOFT_ERROR for poison, R96) is pending. An entry in progress
completes: every register, accumulator, header, codebook and flag it writes is written together, and the unit is free for the
next. An array without a pass for 1,024 cycles ramps down.
R240 to R243, R258: the moves of the tile unit. TZERO zeroes its register. TLD and TST of an accumulator and of a tile register
move every element between the register and the window at x[rs1], a tile register through the swizzle of its header (which is
checked where SWZ is not 0, log entry 79); an access that is misaligned or leaves the window is a tile fault SPAD. THDR sets
a header or stores one, or the flags, which its clr form clears. TLUT loads a codebook; TTRN transposes.
R253 to R257, R59: TADD and TMUL, TSCL, TRED, TACT at its special operands and as relu, and TCVT from an accumulator and from a
tile register between the integer and float formats, each compute the exact result of each element, rounded or saturated once, and
raise the flags of their elements. TCVT rounds an integer to a float to nearest even whatever RTZ and SAT say, and between integer
formats of one width saturates as SAT says, and an FP32 accumulator goes to FP32 as it is (log entry 29).
R244 to R252, R61 to R68: a TMMA adds the exact sum of each block of 32 products, scaled where the operands carry scales, with one
rounding per block (or none, in an integer class); TMMS takes the products at its masks' positions alone, and TMMC takes its A from
an accumulator through the down-converter. A TDIST forms its distances block by block, keeps them as partials, and merges the
better of each row with its index. A TCUPD adds each assigned query row to its centroid and counts it, and a TCDIV divides. -/
def Obligations.TileQueueSteps : Prop :=
  (
  ∀ (s : State) (c n : Nat) (e : TqEntry), Up c s →
    let pass := isPass e.zt.toNat && e.zt.toNat % 128 == 0x2B
    let same := fun (u t : State) => (t.tile c).tm = (u.tile c).tm ∧ (t.tile c).acc = (u.tile c).acc ∧
      (t.tile c).hdr = (u.tile c).hdr ∧ (t.tile c).lut = (u.tile c).lut ∧ (t.tile c).flags = (u.tile c).flags
    let v := s.modSlot c n fun l => { l with tq := l.tq.drop 1 }
    let starts := fun (u : State) => ∃ t, exec (.tqEntryStart c) s = .next t ∧ (t.tile c).busy = some e ∧
      (t.slot c n).tq = (s.slot c n).tq.drop 1 ∧ same s t ∧ (pass = true → (t.tile c).rampedDown = false) ∧
      ∀ b, t.memByte b = u.memByte b
    let dies := fun (t : State) (k : Nat) => (t.tile c).busy = none ∧ (t.slot c n).tq = [] ∧ same s t ∧
      (t.slot c n).pend = (s.slot c n).pend ++
        [⟨if k = 0 then 31 else 26, BitVec.ofNat 64 (k + e.va.toNat % 2 ^ 55 * 2 ^ 8)⟩] ∧
      ∀ b, t.memByte b = s.memByte b
    (s.tqNext c = some (n, e) →
      (∀ w, e.log = none → v.entryRun c n e = .ok w → starts s) ∧
      (∀ w g u, e.log = some g → g.saved = false → v.entryRun c n e = .ok w →
        v.vaWrite c n g.addr.toNat (v.logBytes c n (headerFrom g.header)) = some u → starts u) ∧
      (∀ k, e.log = none → v.entryRun c n e = .fault k → ∃ t, exec (.tqEntryStart c) s = .next t ∧ dies t k) ∧
      (e.log = none → v.entryRun c n e = .poison → ∃ t, exec (.tqEntryStart c) s = .next t ∧ dies t 0)) ∧
    ((s.tile c).owner = some n → (s.tile c).busy = some e → e.zt.toNat % 128 ≠ 0x5B →
      (∀ w u, s.entryRun c n e = .ok w → (s.tileWrite c n w).writeWinners c n e = some u →
        ∃ t, exec (.tqEntryComplete c) s = .next t ∧ (t.tile c).busy = none ∧ same (s.tileWrite c n w) t ∧
          (t.slot c n).tq = (s.slot c n).tq ∧ ∀ b, t.memByte b = u.memByte b) ∧
      (∀ k, s.entryRun c n e = .fault k → ∃ t, exec (.tqEntryComplete c) s = .next t ∧ dies t k) ∧
      (s.entryRun c n e = .poison → ∃ t, exec (.tqEntryComplete c) s = .next t ∧ dies t 0)) ∧
    ((s.tile c).rampedDown = false → (s.region c).passes = [] → (s.tile c).busy = none → (s.tile c).idleAt + 1024 ≤ s.cycles →
      ∃ t, exec (.arrayRampDown c) s = .next t ∧ t.tile c = { s.tile c with rampedDown := true, hintAt := none } ∧
        (∀ d, d ≠ c → t.core d = s.core d) ∧ ∀ b, t.memByte b = s.memByte b)) ∧
  (
  ∀ (s : State) (c n : Nat) (e : TqEntry), s.performing c n e →
    let z := ztOf e.zt.toNat
    let x := e.arg.toNat
    let T := s.tile c
    let done := fun (p : State → Prop) => ∃ t, exec (.tqEntryComplete c) s = .next t ∧ p t
    let kept := fun (t : State) => (t.tile c).flags = T.flags
    let win := (s.core c).winBytes n
    let spad := fun (s : State) (o : Nat) => Tab.get 0 (s.core c).spad ((s.core c).spadAddr n o)
    let stores := fun (at_ : Nat → Nat) (len : Nat) (v : Nat → Byte) (t : State) =>
      (∀ b, b < len → spad t (at_ b) = v b) ∧
      (∀ a, (∀ b, b < len → a ≠ (s.core c).spadAddr n (at_ b)) → Tab.get 0 (t.core c).spad a = Tab.get 0 (s.core c).spad a) ∧
      (t.tile c).busy = none ∧ (t.tile c).tm = T.tm ∧ (t.tile c).acc = T.acc ∧ (t.tile c).hdr = T.hdr ∧ (t.tile c).lut = T.lut ∧
      ∀ a, t.memByte a = s.memByte a
    (z.top = 2 → z.sb = false → done fun t => AccResult c (fun m _ _ => if m = z.td then some 0 else none) s t ∧ kept t) ∧
    (z.top = 2 → z.sb = true → done fun t => (∀ i, i < 32 → (t.tile c).row z.td i = List.replicate 192 0) ∧
      (∀ m i, m ≠ z.td → i < 32 → (t.tile c).row m i = T.row m i) ∧ (t.tile c).acc = T.acc ∧ (t.tile c).hdr = T.hdr ∧ kept t) ∧
    (z.top = 0 → z.sb = false → x % 64 = 0 → x + 4096 ≤ win → done fun t => kept t ∧
      AccResult c (fun m i j => if m = z.td then some (fld (s.windowBytes c n (x + 128 * i + 4 * j) 4) 0 4) else none) s t) ∧
    (z.top = 0 → z.sb = true → (hSwz (T.hd z.td) ≠ 0 → hdrBad (T.hd z.td) = false ∧ hFmt (T.hd z.td) < 8) → x % 64 = 0 →
      x % swzAlign (hSwz (T.hd z.td)) = 0 → x + 6144 ≤ win → done fun t => kept t ∧
      (∀ b, b < 6144 → Tab.get 0 (t.tile c).tm (6144 * z.td + b) = spad s (swz (x + b) (hSwz (T.hd z.td)))) ∧
      (∀ m i, m ≠ z.td → i < 32 → (t.tile c).row m i = T.row m i) ∧ (t.tile c).acc = T.acc ∧ (t.tile c).hdr = T.hdr) ∧
    (z.top = 1 → z.sb = false → x % 64 = 0 → x + 4096 ≤ win → done fun t => kept t ∧
      stores (fun b => x + b) 4096 (fun b => BitVec.ofNat 8 (T.el z.ta (b / 128) (b % 128 / 4) / 2 ^ (8 * (b % 4)))) t) ∧
    (z.top = 1 → z.sb = true → (hSwz (T.hd z.ta) ≠ 0 → hdrBad (T.hd z.ta) = false ∧ hFmt (T.hd z.ta) < 8) → x % 64 = 0 →
      x % swzAlign (hSwz (T.hd z.ta)) = 0 → x + 6144 ≤ win → done fun t => kept t ∧
      stores (fun b => swz (x + b) (hSwz (T.hd z.ta))) 6144 (fun b => Tab.get 0 T.tm (6144 * z.ta + b)) t) ∧
    (z.top = 3 → z.fl % 4 = 0 → done fun t => kept t ∧ (t.tile c).hd z.td = x ∧ (∀ m, m ≠ z.td → (t.tile c).hd m = T.hd m) ∧
      (t.tile c).acc = T.acc ∧ (t.tile c).tm = T.tm) ∧
    (z.top = 3 → z.fl % 4 ≠ 0 → x % 8 = 0 → x + 8 ≤ win → done fun t =>
      stores (fun b => x + b) 8 (fun b => BitVec.ofNat 8 ((if z.fl % 4 = 1 then T.hd z.td else T.flags.toNat) / 2 ^ (8 * b))) t ∧
      (t.tile c).flags = if z.fl % 4 = 3 then 0 else T.flags) ∧
    (z.top = 4 → x % 32 = 0 → x + 32 ≤ win → done fun t => kept t ∧
      (∀ k, k < 16 → (t.tile c).lutEl (z.td % 4) k = fld (s.windowBytes c n (x + 2 * k) 2) 0 2) ∧
      (∀ m k, m ≠ z.td % 4 → k < 16 → (t.tile c).lutEl m k = T.lutEl m k) ∧ (t.tile c).acc = T.acc ∧ (t.tile c).tm = T.tm) ∧
    (z.top = 17 → z.sb = false → done fun t => kept t ∧
      AccResult c (fun m i j => if m = z.td then some (T.el z.ta j i) else none) s t) ∧
    (z.top = 17 → z.sb = true → hdrBad (T.hd z.ta) = false → hFmt (T.hd z.ta) < 8 →
      x % 512 + 32 ≤ capOf (hFmt (T.hd z.ta)) → done fun t => kept t ∧ TmResult c z.td (hFmt (T.hd z.ta)) (fun i k =>
        if x % 512 ≤ k ∧ k < x % 512 + 32 then some (rowEl (hFmt (T.hd z.ta)) (T.row z.ta (k - x % 512)) (x % 512 + i))
        else none) s t) ∧
    (z.top ∈ [0, 1] ∧ z.sb = false ∧ (x % 64 ≠ 0 ∨ win < x + 4096) ∨
        (z.top ∈ [0, 1] ∧ z.sb = true ∧
          let h := T.hd (if z.top = 0 then z.td else z.ta)
          (hSwz h ≠ 0 → hdrBad h = false ∧ hFmt h < 8) ∧ (x % 64 ≠ 0 ∨ x % swzAlign (hSwz h) ≠ 0 ∨ win < x + 6144)) ∨ z.top = 3 ∧ z.fl % 4 ≠ 0 ∧ (x % 8 ≠ 0 ∨ win < x + 8) ∨
        z.top = 4 ∧ (x % 32 ≠ 0 ∨ win < x + 32) →
      done fun t => (t.slot c n).pend = (s.slot c n).pend ++ [⟨26, BitVec.ofNat 64 (5 + e.va.toNat % 2 ^ 55 * 2 ^ 8)⟩] ∧
        (t.slot c n).tq = [] ∧ (t.tile c).tm = T.tm ∧ (t.tile c).acc = T.acc ∧ (t.core c).spad = (s.core c).spad)) ∧
  (
  ∀ (s : State) (c n : Nat) (e : TqEntry), s.performing c n e →
    let z := ztOf e.zt.toNat
    let x := e.arg.toNat
    let T := s.tile c
    let fl := fun k => bitAt z.fl k
    let A := fun i j => T.el z.ta i j
    let gives := fun (f : Nat → Nat → Nat × Flags) => ∃ t, exec (.tqEntryComplete c) s = .next t ∧
      AccResult c (fun m i j => if m = z.td then some (f i j).1 else none) s t ∧ FlagsGain c 32 (fun i j => (f i j).2) s t
    let int32 := fun (sat : Bool) (v : Int) =>
      (wrapN 32 (if sat then (i32.sat v).1 else v), if sat then (i32.sat v).2 else (0 : Flags))
    (z.top = 12 → gives fun i j => if fl 0 then int32 (fl 1) (sgn 32 (A i j) + sgn 32 (T.el z.tb i j))
      else roundV .f32 .rne ((f32Bits (A i j)).add (f32Bits (T.el z.tb i j)))) ∧
    (z.top = 13 → gives fun i j => if fl 0 then int32 (fl 1) (sgn 32 (A i j) * sgn 32 (T.el z.tb i j))
      else roundV .f32 .rne ((f32Bits (A i j)).mul (f32Bits (T.el z.tb i j)))) ∧
    (z.top = 15 → bits z.fl 0 2 ≤ 2 → (bits z.fl 0 2 ≠ 0 → x % 64 = 0 ∧ x + 128 ≤ (s.core c).winBytes n) → gives fun i j =>
      let sc := if bits z.fl 0 2 = 0 then x % 2 ^ 32
        else fld (s.windowBytes c n (x + 4 * if bits z.fl 0 2 = 1 then i else j) 4) 0 4
      roundV .f32 .rne ((if fl 2 then Num.ofInt (sgn 32 (A i j)) else f32Bits (A i j)).mul (f32Bits sc))) ∧
    (z.top = 16 →
      let src := fun i j => if fl 0 then A j i else A i j
      let row := fun i => (upFrom 0 32).map (src i)
      ∃ t, exec (.tqEntryComplete c) s = .next t ∧
        let v := fun i => if fl 0 then (t.tile c).el z.td 0 i else (t.tile c).el z.td i 0
        AccResult c (fun m i j => if m ≠ z.td then none else if fl 0 then (if i = 0 then some (v j) else none)
          else if j = 0 then some (v i) else none) s t ∧
        (bits z.fl 1 2 = 0 → ∀ i, i < 32 → v i =
          if fl 3 then (int32 true (((row i).map (sgn 32)).sum)).1
          else (roundV .f32 .rne (exactSum ((row i).map f32Bits))).1) ∧
        (bits z.fl 1 2 = 0 → FlagsGain c 1 (fun i _ =>
          if fl 3 then (int32 true (((row i).map (sgn 32)).sum)).2
          else (roundV .f32 .rne (exactSum ((row i).map f32Bits))).2) s t) ∧
        (bits z.fl 1 2 ∈ [1, 2] → (t.tile c).flags = T.flags ∧ ∀ i, i < 32 →
          if fl 3 then v i ∈ row i ∧ ∀ y ∈ row i,
            if bits z.fl 1 2 = 1 then sgn 32 y ≤ sgn 32 (v i) else sgn 32 (v i) ≤ sgn 32 y
          else if (row i).any (fun y => (f32Bits y).isNan) then v i = 0x7FC00000
          else v i ∈ row i ∧ ∀ y ∈ row i,
            let a := if bits z.fl 1 2 = 1 then y else v i
            let b := if bits z.fl 1 2 = 1 then v i else y
            (f32Bits a).le (f32Bits b) = true ∧ ((f32Bits a).eqv (f32Bits b) = true → (f32Bits b).sign = true →
              (f32Bits a).sign = true))) ∧
    (z.top = 14 → fl 2 = false → ∃ t, exec (.tqEntryComplete c) s = .next t ∧ (t.tile c).busy = none ∧
      (t.tile c).tm = T.tm ∧ (∀ m i j, m ≠ z.td → i < 32 → j < 32 → (t.tile c).el m i j = T.el m i j) ∧
      ∀ i j, i < 32 → j < 32 →
        let X := f32Bits (A i j)
        let y := (t.tile c).el z.td i j
        (X.isNan = true → y = 0x7FC00000) ∧
        (bits z.fl 0 2 = 0 → X.isNan = false → y = if X.lt (.fin false 0 0) ∨ X.isZero then 0 else A i j) ∧
        (X = .inf true → y = [0, 0xBF800000, 0, 0x80000000].getD (bits z.fl 0 2) 0) ∧
        (X = .inf false → y = [0x7F800000, 0x3F800000, 0x3F800000, 0x7F800000].getD (bits z.fl 0 2) 0) ∧
        (X.isZero = true → y = [0, A i j, 0x3F000000, A i j].getD (bits z.fl 0 2) 0)) ∧
    (z.top = 14 → fl 2 = true → ∃ t, exec (.tqEntryComplete c) s = .next t ∧ (t.tile c).busy = none ∧
      ∀ i j, i < 32 → j < 32 →
        let g := f32Bits (A i j)
        let X := f32Bits (T.el z.tb i j)
        let y := (t.tile c).el z.td i j
        let by_ := fun (d : Sys2Proof.Num) => y = (roundV .f32 .rne (g.mul d)).1
        (g.isNan = true ∨ X.isNan = true → y = 0x7FC00000) ∧
        (bits z.fl 0 2 = 0 → X.isNan = false → by_ (.fin false (if X.lt (.fin false 0 0) ∨ X.isZero then 0 else 1) 0)) ∧
        (X = .inf true → by_ (.fin false 0 0)) ∧
        (X = .inf false → by_ (.fin false ([1, 0, 0, 1].getD (bits z.fl 0 2) 0) 0)) ∧
        (X.isZero = true → by_ ([.fin false 0 0, .fin false 1 0, .fin false 1 (-2), .fin false 1 (-1)].getD (bits z.fl 0 2) .nan))) ∧
    (z.top = 11 → z.sb = false → hdrBad (T.hd z.td) = false →
      let df := hFmt (T.hd z.td)
      let gives := fun (f : Nat → Nat × Flags) => ∃ t, exec (.tqEntryComplete c) s = .next t ∧
        TmResult c z.td df (fun i k => if k < 32 then some (f (A i k)).1 else none) s t ∧
        FlagsGain c 32 (fun i j => (f (A i j)).2) s t
      (fl 0 = true → fmtIsInt df = true → df < 7 → gives fun a =>
        let v := shrRne (sgn 32 a) (x % 32)
        if fl 2 then (wrapN (fmtWidth df) ((fmtInt df).sat v).1, ((fmtInt df).sat v).2) else (wrapN (fmtWidth df) v, 0)) ∧
      (fl 0 = true → df ∈ [1, 2] → gives fun a =>
        roundF (if df = 2 then .bf16 else .f32) .rne (Num.ofInt (shrRne (sgn 32 a) (x % 32)))) ∧
      (fl 0 = false → df = 1 → gives fun a => roundF .f32 .rne (f32Bits a)) ∧
      (fl 0 = false → fmtIsInt df = true → df < 7 → gives fun a =>
        let r := f2i (fmtInt df) (if fl 1 then .rtz else .rne) (f32Bits a)
        (wrapN (fmtWidth df) r.1, r.2)) ∧
      (fl 0 = false → df = 2 → gives fun a =>
        if fl 2 then roundSat .bf16 (f32Bits a) else roundF .bf16 (if fl 1 then .rtz else .rne) (f32Bits a))) ∧
    (z.top = 11 → z.sb = true → hdrBad (T.hd z.ta) = false → hdrBad (T.hd z.td) = false →
      let sf := hFmt (T.hd z.ta)
      let df := hFmt (T.hd z.td)
      let el := fun i k => rowEl sf (T.row z.ta i) k
      let gives := fun (f : Nat → Nat → Nat × Flags) => ∃ t, exec (.tqEntryComplete c) s = .next t ∧
        TmResult c z.td df (fun i k => if k < hK (T.hd z.ta) then some (f i k).1 else none) s t ∧
        FlagsGain c (hK (T.hd z.ta)) (fun i j => (f i j).2) s t
      sf < 8 → df < 7 → hK (T.hd z.ta) ≤ capOf df →
      (sf = df → gives fun i k => (el i k, 0)) ∧
      (fmtIsInt sf = true → fmtIsInt df = true → sf ≠ df → gives fun i k =>
        let v := (fmtInt sf).read (el i k)
        if fl 2 ∧ fmtWidth df ≤ fmtWidth sf then (wrapN (fmtWidth df) ((fmtInt df).sat v).1, ((fmtInt df).sat v).2)
        else (wrapN (fmtWidth df) v, 0)) ∧
      (sf ≠ 1 → df = 1 → gives fun i k => roundF .f32 .rne (T.real z.ta i k)) ∧
      (fmtIsInt sf = true → df = 2 → gives fun i k => roundF .bf16 .rne (T.real z.ta i k)) ∧
      (sf = 7 → df = 2 → gives fun i k => roundF .bf16 .rne (T.real z.ta i k)) ∧
      (sf = 1 → df = 2 → gives fun i k => if fl 2 then roundSat .bf16 (T.real z.ta i k)
        else roundF .bf16 (if fl 1 then .rtz else .rne) (T.real z.ta i k)) ∧
      (fmtIsInt sf = false → fmtIsInt df = true → gives fun i k =>
        let r := f2i (fmtInt df) (if fl 1 then .rtz else .rne) (T.real z.ta i k)
        (wrapN (fmtWidth df) r.1, r.2)))) ∧
  (
  ∀ (s : State) (c n : Nat) (e : TqEntry), s.performing c n e →
    let z := ztOf e.zt.toNat
    let x := e.arg.toNat
    let T := s.tile c
    let fl := fun k => bitAt z.fl k
    let ha := T.hd z.ta
    let hb := T.hd z.tb
    let fa := hFmt ha
    let fb := hFmt hb
    let k := hK ha
    let isF := fun f => f == fBf16 || f == fLut4
    let is8 := fun f => f == fInt8 || f == fUint8
    let classOk := fun (k : Nat) => (isF fa && isF fb && decide (k ≤ 96)) || (is8 fa && is8 fb && decide (k ≤ 192)) ||
      (fa == fInt4 && fb == fInt4 && decide (k ≤ 384))
    let base := x / 64 * 64
    let win := (s.core c).winBytes n
    let acc0 := fun (new : Bool) i j => if new then 0 else T.el z.td i j
    let gives := fun (f : Nat → Nat → Nat × Flags) => ∃ t, exec (.tqEntryComplete c) s = .next t ∧
      AccResult c (fun m i j => if m = z.td then some (f i j).1 else none) s t ∧ FlagsGain c 32 (fun i j => (f i j).2) s t
    let scaleOk := fun h k => (hSm h = 1 → hSc h = 1) ∧ (hSm h = 2 → hSc h = (k + 31) / 32)
    let inWin := fun h off => (hSm h = 1 → off + 128 ≤ win) ∧ (hSm h = 2 → off + 64 * hSc h ≤ win)
    (z.top = 5 → hdrBad ha = false → hdrBad hb = false → hK hb = k → classOk k = true → scaleOk ha k → scaleOk hb k →
      inWin ha base → inWin hb (base + 0x300) →
      let scaled := hSm ha != 0 || hSm hb != 0
      gives fun i j => passElement (!(isF fa && isF fb) && !scaled) (fl 0) (fl 1)
        (fun b => dotAt (T.real z.ta i) (T.real z.tb j) (blockAt k b))
        (s.scaleAt c n base ha i) (s.scaleAt c n (base + 0x300) hb j) ((k + 31) / 32) (acc0 (fl 2) i j)) ∧
    (z.top = 6 → bits z.fl 0 2 ≤ 2 →
      let r := if bits z.fl 0 2 = 0 then 2 else 4
      let N := [64, 32, 16].getD (bits z.fl 0 2) 0
      let kb := hK hb
      let G := kb / N
      let cap := capOf fa
      let mask := fun j g => leNat (s.windowBytes c n (base + 16 * (G * j + g)) 16)
      let rank := fun m q => ((upFrom 0 q).filter fun b => bitAt m b).length
      (∀ q, q < r → hdrBad (T.hd (z.ta + q)) = false ∧ hFmt (T.hd (z.ta + q)) = fa ∧ hSm (T.hd (z.ta + q)) = 0) →
      hdrBad hb = false → hSm hb = 0 → classOk 0 = true → 0 < G → kb % N = 0 → 128 * G ≤ r * cap → base + 512 * G ≤ win →
      (∀ j g, j < 32 → g < G → rank (mask j g) 128 = N) →
      gives fun i j => passElement (!(isF fa && isF fb)) (fl 2) (fl 3)
        (fun b => dotAt (fun k => T.real (z.ta + k / cap) i (k % cap))
          (fun k => T.real z.tb j (N * (k / 128) + rank (mask j (k / 128)) (k % 128)))
          ((blockAt (128 * G) b).filter fun k => bitAt (mask j (k / 128)) (k % 128)))
        (fun _ => .fin false 1 0) (fun _ => .fin false 1 0) (4 * G) (acc0 (fl 4) i j)) ∧
    (z.top = 7 → hdrBad hb = false → hK hb = 32 → (if fl 3 then is8 fb else isF fb) = true → scaleOk hb 32 →
      inWin hb (base + 0x300) →
      let conv := fun i k =>
        if fl 3 then let y := Sys2Proof.i8.sat (shrRne (sgn 32 (T.el z.ta i k)) (x % 32)); (Num.ofInt y.1, y.2)
        else let y := roundF .bf16 .rne (f32Bits (T.el z.ta i k)); (Num.ofBits .bf16 y.1, y.2)
      gives fun i j =>
        let v := passElement (fl 3 && hSm hb == 0) (fl 0) (fl 1)
          (fun b => dotAt (fun k => (conv i k).1) (T.real z.tb j) (blockAt 32 b))
          (fun _ => .fin false 1 0) (s.scaleAt c n (base + 0x300) hb j) 1 (acc0 (fl 2) i j)
        (v.1, v.2 ||| (conv i j).2)) ∧
    (z.top = 8 → hdrBad ha = false → hdrBad hb = false → hK hb = k → classOk k = true → hSm ha = 0 → hSm hb = 0 →
      bits z.fl 0 2 ≤ 2 →
      let mode := bits z.fl 2 2
      let base := x % 2 ^ 32
      let int := !(isF fa && isF fb)
      let merges := mode == 0 || mode == 3
      (merges = true → base ≤ 0xFFFFFFDF) →
      let term := fun (a b : Sys2Proof.Num) => if bits z.fl 0 2 = 0 then ((a.sub b).1.abs, (a.sub b).2)
        else if bits z.fl 0 2 = 1 then (((a.sub b).1.mul (a.sub b).1).1, ((a.sub b).1.mul (a.sub b).1).2 || (a.sub b).2)
        else ((a.mul b).1.neg, (a.mul b).2)
      let d := fun i j => distElement int (fun blk =>
          let ts := (blockAt k blk).map fun q => term (T.real z.ta i q) (T.real z.tb j q)
          ((exactSum (ts.map Prod.fst)).1, ts.any Prod.snd || (exactSum (ts.map Prod.fst)).2)) ((k + 31) / 32)
        (if mode = 2 ∨ mode = 3 then some (T.el (z.td ^^^ 1) i j) else none)
      let first := fun i => if fl 4 then (if int then 0x7FFFFFFF else 0x7FC00000, 0xFFFFFFFF) else (T.el z.td i 0, T.el z.td i 1)
      let best := fun i => (upFrom 0 (hNr hb)).foldl (fun (b : Nat × Nat) j =>
        if better int (d i j).1 (base + j) b.1 b.2 then ((d i j).1, base + j) else b) (first i)
      ∃ t, exec (.tqEntryComplete c) s = .next t ∧ FlagsGain c 32 (fun i j => (d i j).2) s t ∧
        AccResult c (fun m i j =>
          if m = z.td then (if merges ∧ i < hNr ha ∧ j < 2 then some (if j = 0 then (best i).1 else (best i).2) else none)
          else if m = z.td ^^^ 1 ∧ mode ≠ 0 then some (d i j).1 else none) s t) ∧
    (z.top = 9 → hdrBad ha = false → fa ∈ [fBf16, fLut4, fInt8, fUint8, fInt4] → bits x 32 9 < k →
      let e0 := bits x 32 9
      let base := x % 2 ^ 32
      let into := fun r i => T.el z.tb i 1 = base + r ∧ T.el z.tb i 1 ≠ 0xFFFFFFFF
      let f := fun r q => (upFrom 0 (hNr ha)).foldl (fun (v : Nat × Flags) i =>
        if into r i then
          (if q = 31 then (let y := i32.sat (sgn 32 v.1 + 1); (wrapN 32 y.1, v.2 ||| y.2))
           else if isF fa then
            (let y := roundV .f32 .rne ((f32Bits v.1).add (T.real z.ta i (e0 + q))); (y.1 % 2 ^ 32, v.2 ||| y.2))
           else let y := i32.sat (sgn 32 v.1 + (T.real z.ta i (e0 + q)).scaled 0); (wrapN 32 y.1, v.2 ||| y.2))
        else v) (T.el z.td r q, 0)
      let on := fun q => q = 31 ∨ q < min 31 (k - e0)
      ∃ t, exec (.tqEntryComplete c) s = .next t ∧
        AccResult c (fun m r q => if m = z.td ∧ on q then some (f r q).1 else none) s t ∧
        FlagsGain c 32 (fun r q => if on q then (f r q).2 else 0) s t) ∧
    (z.top = 10 →
      let h := T.hd z.td
      let e0 := bits x 32 9
      let cols := min 31 (hK h - e0)
      let cnt := fun r => sgn 32 (T.el z.ta r 31)
      hdrBad h = false → hFmt h < 7 → e0 < hK h →
      let on := fun r q => r < hNr h ∧ 0 < cnt r ∧ q < cols
      let gives := fun (f : Nat → Nat → Nat × Flags) => ∃ t, exec (.tqEntryComplete c) s = .next t ∧
        TmResult c z.td (hFmt h) (fun r q => if e0 ≤ q ∧ on r (q - e0) then some (f r (q - e0)).1 else none) s t ∧
        FlagsGain c 31 (fun r q => if on r q then (f r q).2 else 0) s t
      (fl 0 = true → fmtIsInt (hFmt h) = true → gives fun r q =>
        let y := (fmtInt (hFmt h)).sat (nearestQuot (sgn 32 (T.el z.ta r q)) (cnt r).toNat)
        (wrapN (fmtWidth (hFmt h)) y.1, y.2)) ∧
      let num := fun r q => if fl 0 then Num.ofInt (sgn 32 (T.el z.ta r q)) else f32Bits (T.el z.ta r q)
      let quot := fun r q => match num r q with
        | .fin _ _ _ => divNum (num r q) (Num.ofInt (cnt r))
        | v => v
      (fl 0 = false → fmtIsInt (hFmt h) = true → gives fun r q =>
        let y := f2i (fmtInt (hFmt h)) .rne (quot r q)
        (wrapN (fmtWidth (hFmt h)) y.1, y.2)) ∧
      (hFmt h ∈ [1, 2] → gives fun r q => roundF (if hFmt h = 2 then .bf16 else .f32) .rne (quot r q))))

/-! ## Copies, streams and collectives -/

/-- R266 to R269, R272, R276, R278, R294: SHAPE of an aligned, readable record that fails no check puts it into its shape entry
and returns the bytes of its box; one that fails takes SHAPE with the lowest subcode. CPY, CPYG, CPYX, SBIND and CCMD of an
aligned block whose queue has room either append the command, with everything it captured, to the end of their queue and
return 0, or, where issue checks fail, return the lowest code, write it to the completion word and queue nothing. SUNB always
queues and returns whether its port will carry no stream once rq has come to it, which is found by running the binds and unbinds
that stand in rq (log entries 46 and 75), as SBIND's BUSY is. A full queue makes each wait; a record or block that is not aligned
takes cause 4. A copy's port latches the entries of its first touches at issue (R90; log entry 8). -/
def Obligations.CommandsIssue : Prop :=
  ∀ (s u v : State) (rd rs1 rs2 : Reg) (b : List Byte) (cells : List (Nat × Nat)), Ready [rd, rs1, rs2] s →
    let c := s.cur
    let n := s.mySlot
    let x := s.getX rs1
    let y := s.getX rs2
    let room := fun (q : Nat) => ((s.slot c n).queue q).length < 32
    let queues := fun (m : State) (i : Instr) (q : Nat) (k : Cmd) (r : Word) => ∃ t, exec i s = .next t ∧
      t.getX rd = (if rd = 0 then 0 else r) ∧
      (t.slot c n).queue q = (s.slot c n).queue q ++
        [{ k with seq := (s.slot c n).nseq, issued := s.cycles, ranges := m.latchCmd c n k }] ∧ FallsThrough s t ∧
      (∀ p, p ≠ q → (t.slot c n).queue p = (s.slot c n).queue p) ∧ CtlFrame [rd] [] false s t ∧
      ∀ a, t.memByte a = m.memByte a
    let rejects := fun (m : State) (i : Instr) (code : Nat) => ∃ t, exec i s = .next t ∧
      t.getX rd = (if rd = 0 then 0 else BitVec.ofNat 64 code) ∧ (∀ p, (t.slot c n).queue p = (s.slot c n).queue p) ∧
      CtlFrame [rd] [] false s t ∧ FallsThrough s t ∧ ∀ a, t.memByte a = (m.writePieces cells (toLE 8 (cwWord code 0 0))).memByte a
    let issues := fun (m : State) (i : Instr) (q : Nat) (k : Cmd) (codes : List Nat) =>
      (lowest codes = none → queues m i q k 0) ∧ (∀ code, lowest codes = some code → rejects m i code)
    let waits := fun (i : Instr) (a d : Word) => exec i s
      = .next (s.modMe fun k => { k with wait := some { instr := i, len := 4, a := a, b := d } })
    (x.toNat % 64 = 0 → Loads s x 64 u b →
      (firstFail (shapeChecks b) = none → ∃ t, exec (.shape rd rs1 rs2) s = .next t ∧
        t.getX rd = (if rd = 0 then 0 else BitVec.ofNat 64 (shBytes b)) ∧
        (∀ m, (t.slot c n).shape m = if m = (y.extractLsb' 0 6).toNat then b else (s.slot c n).shape m) ∧
        CtlFrame [rd] [] false s t ∧ FallsThrough s t ∧ ∀ a, t.memByte a = s.memByte a) ∧
      (∀ sub, firstFail (shapeChecks b) = some sub → exec (.shape rd rs1 rs2) s
        = .next (u.takeTrap c false 28 (BitVec.ofNat 64 sub) s.me.pc))) ∧
    (x.toNat % 64 ≠ 0 → exec (.shape rd rs1 rs2) s = .next (s.takeTrap c false 4 x s.me.pc)) ∧
    (∀ (cq : BitVec 2) (i : Instr) (kind : CmdKind),
      (i, kind) ∈ [(Instr.cpy cq rd rs1 rs2, CmdKind.cpy), (.cpyg cq rd rs1 rs2, .cpyg), (.cpyx cq rd rs1 rs2, .cpyx)] →
      (room (2 + cq.toNat) → x.toNat % 64 = 0 → Loads s x 64 u b → StoresAt u (x + 0x38) 8 v cells →
        issues s i (2 + cq.toNat) (v.copyCmd kind x y b) (v.copyCodes c n (v.copyCmd kind x y b))) ∧
      (room (2 + cq.toNat) → x.toNat % 64 ≠ 0 → exec i s = .next (s.takeTrap c false 4 x s.me.pc)) ∧
      (¬ room (2 + cq.toNat) → waits i x y)) ∧
    (∀ w, room 1 → y.toNat % 32 = 0 → s.freePort c (bwPort x.toNat) n = (w, true) → Loads w y 32 u b →
      StoresAt u (y + 0x18) 8 v cells →
      issues w (.sbind rd rs1 rs2) 1 (v.bindCmd x y b)
        (v.bindCodes c n (v.bindCmd x y b).vi x.toNat b (v.bindCmd x y b).src)) ∧
    (room 1 → y.toNat % 32 ≠ 0 → exec (.sbind rd rs1 rs2) s = .next (s.takeTrap c false 4 y s.me.pc)) ∧
    (¬ room 1 → waits (.sbind rd rs1 rs2) x y) ∧
    (room 1 → queues s (.sunb rd rs1) 1 { seq := 0, kind := .sunb, vi := s.myVi, block := [], word := x }
      (if (s.portLoad c n (x.extractLsb' 0 3).toNat).1 then 0 else 1)) ∧
    (¬ room 1 → waits (.sunb rd rs1) x 0) ∧
    (∀ z g, room 6 → x.toNat % 64 = 0 → Loads s x 64 u b → StoresAt u (x + 0x38) 8 v cells →
      GroupRead v (BitVec.ofNat 64 (fld b 0x10 8)) z g →
      issues s (.ccmd rd rs1 rs2) 6 (z.collectiveCmd x y b g)
        ((z.collectiveCmd x y b g).collectiveCodes ((z.runTask c).elim 0 z.handleOf))) ∧
    (room 6 → x.toNat % 64 ≠ 0 → exec (.ccmd rd rs1 rs2) s = .next (s.takeTrap c false 4 x s.me.pc)) ∧
    (¬ room 6 → waits (.ccmd rd rs1 rs2) x y)

/-- R286, R287: CBTEST returns the bits of a completion bitmap's word that the mask names; CBWAIT completes when all of them are
set and else waits; the word lies at an address, or at an offset of the window where bit 63 is set. QFENCE of no queue
completes and marks nothing; any other puts its marker at the slot's fences and completes, but with W it waits while an
operation issued before it stands in a named queue. -/
def Obligations.BitmapsAndFencesComplete : Prop :=
  ∀ (s : State) (rd rs1 rs2 : Reg) (set : BitVec 8),
    let c := s.cur
    let n := s.mySlot
    let x := s.getX rs1
    let y := s.getX rs2
    let does := fun (v : Word) =>
      (Ready [rd, rs1, rs2] s → ∃ t, exec (.cbtest rd rs1 rs2) s = .next t ∧ t.getX rd = (if rd = 0 then 0 else v &&& y) ∧
        CtlFrame [rd] [] false s t ∧ FallsThrough s t ∧ AccessFrame s t ∧ ∀ a, t.memByte a = s.memByte a) ∧
      (Ready [rs1, rs2] s → ∃ t, exec (.cbwait rs1 rs2) s = .next t ∧
        (v &&& y = y → t.me.wait = none ∧ FallsThrough s t) ∧
        (v &&& y ≠ y → t.me = { s.me with wait := some (Waiting.mk (.cbwait rs1 rs2) 4 x y 0) }) ∧
        CtlFrame [] [] false s t ∧ AccessFrame s t ∧ ∀ a, t.memByte a = s.memByte a)
    let o := (x.extractLsb' 0 21).toNat
    let mark : Fence := ⟨set.truncate 7, (s.slot c n).nseq⟩
    (x.toNat % 8 = 0 → x.getLsbD 63 = false → ∀ u b, Loads s (x &&& 0x007FFFFFFFFFFFFF#64) 8 u b →
      does (BitVec.ofNat 64 (leNat b))) ∧
    (x.toNat % 8 = 0 → x.getLsbD 63 = true → o + 8 ≤ (s.core c).winBytes n →
      s.spadPois c ((s.core c).spadAddr n o) 8 = false →
      does (BitVec.ofNat 64 (leNat ((s.core c).spadBytes ((s.core c).spadAddr n o) 8)))) ∧
    (Ready [] s → mark.set = 0 → ∃ t, exec (.qfence set) s = .next t ∧ Done [] [] false s t) ∧
    (Ready [] s → mark.set ≠ 0 → ∃ t, exec (.qfence set) s = .next t ∧ mark ∈ (t.slot c n).fences ∧
      (∀ f ∈ (t.slot c n).fences, f = mark ∨ f ∈ (s.slot c n).fences) ∧
      ((set.getLsbD 7 = false ∨ (s.slot c n).standing (s.busyOf c n) mark = false) →
        t.me.wait = none ∧ FallsThrough s t) ∧
      (set.getLsbD 7 = true → (s.slot c n).standing (s.busyOf c n) mark = true →
        t.me = { s.me with wait := some (Waiting.mk (.qfence set) 4 0 0 ((s.slot c n).nseq + 1)) }) ∧
      CtlFrame [] [] false s t ∧ ∀ a, t.memByte a = s.memByte a)

/-- R111, R112, R266, R280, R281, R285, R289, R292: the oldest command of a queue that is not fenced starts: a bind joins its
port's pending binds, and the oldest of these starts at once if the port and its engine are free; an unbind, of a port whose
stream is not paused, acts on its port, lets the oldest bind it leaves pending start so and, where it stops an output, stands
in rq until the port is free of it (log entry 75), and of a port that holds nothing of its slot it ends nothing; a copy has all
its chunks to do. A chunk of a started copy that nothing pauses is performed, with its bitmap bit, and is no longer to do; one
that stops on a translation that is not valid pauses the command, and on another kind ends it with XLATE, with nothing of it
written. (Chunks that share an aligned 8-byte word are performed together, `Cmd.goes`: log entry 75.) A gather reads its index
list as it starts, and one whose list is poisoned ends with POISON, which is traced (R96, R282; log entry 45). A finished
command leaves its queue after writing its completion word, and posts COPYERR where it failed. -/
def Obligations.EngineSteps : Prop :=
  ∀ (s : State) (c n q : Nat) (k : Cmd) (ks : List Cmd), Up c s → (s.slot c n).queue q = k :: ks →
    let mem := fun (u t : State) => ∀ a, t.memByte a = u.memByte a
    let j := (k.word.extractLsb' 0 3).toNat
    (k.started = false → (s.slot c n).fenced (s.busyOf c n) q k.seq = false →
      (q = 6 → ∃ t, exec (.engineCommandStart c n q) s = .next t ∧
        (t.slot c n).queue q = { k with started := true } :: ks ∧ mem s t) ∧
      (2 ≤ q → q ≤ 5 → ∃ t y, exec (.engineCommandStart c n q) s = .next t ∧ (t.slot c n).queue q = y :: ks ∧
        y.started = true ∧ y.block = k.block ∧ y.word = k.word ∧
        (k.kind ≠ .cpyg → y.todo = upFrom 0 k.chunks ∧ y.status = k.status) ∧ mem s t) ∧
      (2 ≤ q → q ≤ 5 → k.kind = .cpyg →
        let p := (s.core c).spadAddr n (64 * cwArg k.w)
        let len := 4 * cwLen k.w
        let z := { k with started := true, todo := upFrom 0 k.chunks, group := (s.core c).spadBytes p len }
        ∃ t y, exec (.engineCommandStart c n q) s = .next t ∧ (t.slot c n).queue q = y :: ks ∧
          (s.spadPois c p len = true → y.status = some (Cs.poison, 0) ∧ y.todo = [] ∧
            Traced s (dieOf c) (c % 160) 2 (64 * cwArg k.w) 0 t) ∧
          (s.spadPois c p len = false → (∀ e, e < k.count → s.gatherBad c n z e = none) → y = z)) ∧
      (q = 1 → s.portOpen c n j = true → k.kind = .sbind → (s.port c j).pending.length < 4 →
        let b : Bind := { slot := n, vi := k.vi, word := k.word, record := k.block, shape := k.src, cw := k.cw }
        ∃ t, exec (.engineCommandStart c n q) s = .next t ∧ (t.slot c n).queue q = ks ∧ mem s t ∧
          ((s.port c j).free = false → t.port c j = { s.port c j with pending := (s.port c j).pending ++ [b] }) ∧
          ((s.port c j).free = true → (s.port c j).pending = [] → s.engineBusy c b = true →
            t.port c j = { s.port c j with pending := [b] }) ∧
          ((s.port c j).free = true → (s.port c j).pending = [] → s.engineBusy c b = false →
            (t.port c j).pending = [] ∧ ∃ y, (t.port c j).stream = some y ∧ y.bind = b ∧ y.beats = [] ∧ y.ended = false)) ∧
      (q = 1 → k.kind = .sunb → (s.port c j).heldBy n = false → (s.slot c n).savedPorts.contains j = false →
        exec (.engineCommandStart c n q) s = .next (s.popHead c n 1)) ∧
      (q = 1 → s.portOpen c n j = true → k.kind = .sunb → (∀ y, (s.port c j).stream = some y → y.pause = none) →
        let v := s.performUnbind c k
        ((v.port c j).pending = (if k.word.getLsbD 3 then [] else (s.port c j).pending) ∧
          ∀ y, (s.port c j).stream = some y → (v.port c j).stream =
            if y.ended = false ∧ y.isOut = true then some y.unbind else none) ∧
        ∃ t, exec (.engineCommandStart c n q) s = .next t ∧
          (t.slot c n).queue q = (if (s.port c j).stream.any (fun y => y.isOut && !y.ended) then { k with started := true } :: ks
            else ks) ∧ StartsNext v c j t)) ∧
    (2 ≤ q → q ≤ 5 → s.copyGoes c n k = true → ∀ ch ∈ k.todo,
      let run := k.elements c n (k.goes ch) { s := s, rs := k.ranges } none
      (∀ w i x, run = .ok (w, i) →
        (if k.chunkWhole ch then k.setBit c n w ch = .ok x else x = w) → ∃ t y, exec (.chunkComplete c n q ch) s = .next t ∧
          (t.slot c n).queue q = y :: ks ∧ y.todo = k.todo.filter (· != ch) ∧ y.block = k.block ∧ y.status = k.status ∧
          mem x.s t) ∧
      (∀ kind va, run = .error (.xlate kind va) → ∃ t y, exec (.chunkComplete c n q ch) s = .next t ∧
        (t.slot c n).queue q = y :: ks ∧ mem s t ∧
        (kind = Kind.notValid → y = { k with pause := some { va := va, tag := 0 } }) ∧
        (kind ≠ Kind.notValid → y.status = some (16, kind) ∧ y.todo = [] ∧ y.finished = true))) ∧
    (2 ≤ q → q ≤ 6 → k.finished = true → ∃ t, exec (.commandComplete c n q) s = .next t ∧ (t.slot c n).queue q = ks ∧
      mem (s.writeCw c n k.cw (cwWord k.finalStatus.1 k.finalStatus.2 (k.idx.getD 0))) t ∧
      (cwBe k.w = false → t.net = s.net ∧
        (t.slot c n).events = (if k.finalStatus.1 = 0 then s.slot c n else (s.slot c n).post 2 k.cw).events))

/-- R284, R384: an agent that has paused on a page that is not valid posts one request to its die's ring while the ring has room,
under the die's next tag, and waits for the answer: a queue's command, an operand move, and a stream port. The write of PRQA
with a tag that a paused agent of its die holds counts as an answer and reaches every command and stream under that tag: it goes
on, or, declined, ends with XLATE and NOT_VALID. A tag no agent holds has no effect. -/
def Obligations.PageRequestSteps : Prop :=
  (∀ (s : State) (c n q : Nat) (p : Pause), Up c s → p.posted = false →
    let d := s.die (dieOf c)
    let posts := fun (vi : Nat) (now : State → Option Pause) => d.prqw - d.prqAns < 256 →
      ∃ t, exec (.pageRequestPost c n q) s = .next t ∧ now t = some { p with posted := true, tag := d.nextTag % 2 ^ 16 } ∧
        (t.die (dieOf c)).prqw = d.prqw + 1 ∧ (t.die (dieOf c)).prqAns = d.prqAns ∧
        t.memBytes (d.prqb.toNat + 32 * (d.prqw % 256)) 32 =
          toLE 8 (p.va % 2 ^ 55) ++ toLE 2 vi ++ toLE 1 2 ++ toLE 1 0 ++ toLE 2 (d.nextTag % 2 ^ 16) ++ List.replicate 18 0 ∧
        MemFrame [(d.prqb.toNat + 32 * (d.prqw % 256), 32)] s t
    (∀ k ks, q < 7 → (s.slot c n).queue q = k :: ks → k.pause = some p →
      posts k.vi fun t => ((t.slot c n).queue q).head?.bind Cmd.pause) ∧
    (∀ x, q = 7 → (s.slot c n).task = some x → x.opPause = some p →
      posts x.vi fun t => (t.slot c n).task.bind Task.opPause) ∧
    (∀ x, 8 ≤ q → (s.port c (q - 8)).stream = some x → x.pause = some p →
      posts x.bind.vi fun t => (t.port c (q - 8)).stream.bind Stream.pause)) ∧
  (∀ (s : State) (d : Nat) (value : Word),
    let tag := (value.extractLsb' 0 16).toNat
    let held := s.cores.any fun (c, k) => dieOf c == d && k.named tag
    (DieUp d s → held = true → ∃ t, exec (.prqaWrite d value) s = .next t ∧ (t.die d).prqAns = (s.die d).prqAns + 1 ∧
      (∀ c n q, dieOf c = d → (t.slot c n).queue q = ((s.slot c n).queue q).map (Cmd.answer tag (value.getLsbD 63))) ∧
      (∀ c j, dieOf c = d → (t.port c j).stream = (s.port c j).stream.map (Stream.answer tag (value.getLsbD 63))) ∧
      (∀ c, dieOf c ≠ d → t.core c = s.core c) ∧ ∀ a, t.memByte a = s.memByte a) ∧
    (held = false → exec (.prqaWrite d value) s = .next s)) ∧
  (∀ (k : Cmd) (p : Pause) (tag : Nat), k.pause = some p → p.posted = true → p.answered = false → p.tag = tag →
    (Cmd.answer tag false k).pause = none ∧ (Cmd.answer tag false k).status = k.status ∧
    (Cmd.answer tag true k).pause = none ∧ (Cmd.answer tag true k).status = some (16, 2)) ∧
  (∀ (x : Stream) (p : Pause) (tag : Nat), x.pause = some p → p.posted = true → p.answered = false → p.tag = tag →
    Stream.answer tag false x = { x with pause := none } ∧ Stream.answer tag true x = { x with pause := none, status := some (16, 2) })

/-- R288 to R293, R90: the oldest pending bind starts as its port falls free, with the range entries of its first touches (log
entry 8) and, on a memory-tile engine, the tile of its first element (log entry 75); an input port with room brings in the
stream's next beat; the oldest closed beat of an output is written to its elements; a stream that SUNB has stopped, or that a
fault ends, leaves its port, its SUNB leaves rq, and an exhausted one ends and goes on presenting PAD (log entry 26), once
nothing of it is left to write, each with its completion word, and the port's oldest pending bind then starts if its engine is
free. A tile engine's beat that meets NOT_VALID pauses the stream, and another fault ends it (R284). -/
def Obligations.StreamSteps : Prop :=
  ∀ (s : State) (c j : Nat), Up c s →
    (∀ b rest, (s.port c j).pending = b :: rest → (s.port c j).free = true → s.engineBusy c b = false → j < 8 →
      let x : Stream := {
        bind := b
        tile := if bwEng b.w = 0 then none else s.bindTile c b
        ranges := s.latchSide c b.slot b.side b.side.width (shCount b.side.sh) (if bwDir b.w then .write else .read) [] }
      ∃ t, exec (.streamStart c j) s = .next t ∧ t.port c j = { stream := some x, pending := rest } ∧
        (∀ i, i ≠ j → t.port c i = s.port c i) ∧ ∀ a, t.memByte a = s.memByte a) ∧
    (∀ x w vs m, (s.port c j).stream = some x → x.wants = true →
      let y := { x with tile := s.tileOf c x }
      y.readBeat c (x.no + x.beats.length) (upFrom 0 16) { s := s, rs := x.ranges } = .ok (w, vs, m) →
      ∃ t, exec (.beatArrival c j) s = .next t ∧
        (t.port c j).stream = some { y with beats := x.beats ++ [{ vals := vs, pois := m }], ranges := w.rs } ∧
        ∀ a, t.memByte a = s.memByte a) ∧
    (∀ x kind va, (s.port c j).stream = some x → x.wants = true → bwEng x.bind.w ≠ 0 →
      Stream.readBeat { x with tile := s.tileOf c x } c (x.no + x.beats.length) (upFrom 0 16) { s := s, rs := x.ranges }
        = .error (.xlate kind va) →
      ∃ t, exec (.beatArrival c j) s = .next t ∧ (∀ a, t.memByte a = s.memByte a) ∧
        (t.port c j).stream = some (if kind = Kind.notValid then { x with pause := some { va := va, tag := 0 } }
          else { x with status := some (16, kind) })) ∧
    (∀ x w b vs m rest, (s.port c j).stream = some x → x.closed = (b, vs, m) :: rest →
      x.writeBeat c b m vs { s := s, rs := x.ranges } = .ok w →
      ∃ t, exec (.beatWrite c j) s = .next t ∧
        (t.port c j).stream = some { x with closed := rest, ranges := w.rs } ∧ ∀ a, t.memByte a = w.s.memByte a) ∧
    (∀ x, (s.port c j).stream = some x → x.closed = [] → x.ended = false →
      let ends := fun (y : Option Stream) (st kind : Nat) => ∃ t, exec (.streamEnd c j) s = .next t ∧
        StartsNext ((s.modPort c j fun p => { p with stream := y }).endStream c x.bind st kind) c j t ∧
        (y = none → ∀ k ks, (s.slot c x.bind.slot).queue 1 = k :: ks → k.kind = .sunb → k.started = true →
          (k.word.extractLsb' 0 3).toNat = j → (t.slot c x.bind.slot).queue 1 = ks) ∧
        ∀ a, t.memByte a = ((s.modPort c j fun p => { p with stream := y }).writeCw c x.bind.slot x.bind.cw
          (cwWord st kind 0)).memByte a
      (∀ st kind, x.status = some (st, kind) → ends none st kind) ∧
      (x.status = none → x.stop = true → ends none 0 0) ∧
      (x.status = none → x.stop = false → x.exhausted = true → ends (some { x with ended := true }) 0 0))

/-- R294, R295, R296: once every rank of a call has issued, the call takes place in one step (log entry 47): participants that
disagree all end with MISMATCH; where they agree and every source and destination translates, every participant ends, without
error where no poison reaches it (log entry 45), and a destination of its own holds its result; no other byte of memory changes. A
participant whose page request was declined ends with the status that gave it (R384). A participant whose call the last rank's
issue has not completed within its limit ends with TIMEOUT. -/
def Obligations.CollectiveSteps : Prop :=
  (∀ (s : State) (c n : Nat) (k : Cmd) (ks : List Cmd) (ps : List Party), Up c s → (s.slot c n).queue 6 = k :: ks →
    s.parties k = some ps → ps ≠ [] →
    (∀ p ∈ ps, p.cmd.pause = none ∧ (s.die (dieOf p.core)).actParked 1 0 p.cmd.vi = false) →
    let agree := ∀ p ∈ ps, ∀ x ∈ ps, p.cmd.opw = x.cmd.opw ∧ p.cmd.ccount = x.cmd.ccount ∧ p.cmd.root = x.cmd.root
    let head := fun (t : State) (p : Party) => ((t.slot p.core p.slot).queue 6).head?
    (¬ agree → ∃ t, exec (.collectiveBegin c n) s = .next t ∧
      (∀ p : Party, p ∈ ps → ∃ y, head t p = some y ∧ y.status = p.cmd.status.or (some (5, 0)) ∧ y.finished = true) ∧
      ∀ a, t.memByte a = s.memByte a) ∧
    (∀ (srcs : List (List (Nat × Nat))), agree → ps.map s.partySrc = srcs.map Except.ok →
      (∀ p ∈ ps, p.cmd.status.isSome = true ∨ ∃ l, s.partyDst p = .ok l) → ∃ t, exec (.collectiveBegin c n) s = .next t ∧
        ∀ p : Party, p ∈ ps → ∀ z, p.cmd.status = some z → ∃ y, head t p = some y ∧ y.status = some z ∧ y.finished = true) ∧
    (∀ (srcs dsts : List (List (Nat × Nat))), agree → ps.map s.partySrc = srcs.map Except.ok → ps.map s.partyDst = dsts.map Except.ok →
      (∀ p : Party, p ∈ ps → s.reducesPoison p.cmd srcs p.cmd.rank = false) → ∃ t, exec (.collectiveBegin c n) s = .next t ∧
        (∀ p : Party, p ∈ ps → ∃ y, head t p = some y ∧ y.status = none ∧ y.finished = true) ∧ MemFrame dsts.flatten s t ∧
        (∀ (i : Nat) (p : Party) (a m : Nat), ps[i]? = some p → dsts[i]? = some [(a, m)] → p.cmd.outBytes p.cmd.rank = m →
          (p.cmd.result (srcs.map s.readPieces) p.cmd.rank).length = m →
          (∀ (h : Nat) (l : List (Nat × Nat)), h ≠ i → dsts[h]? = some l → ∀ z : Nat × Nat, z ∈ l → z.1 + z.2 ≤ a ∨ a + m ≤ z.1) →
          t.memBytes a m = p.cmd.result (srcs.map s.readPieces) p.cmd.rank))) ∧
  (∀ (s : State) (c n : Nat) (k : Cmd) (ks : List Cmd), Up c s → (s.slot c n).queue 6 = k :: ks →
    (∀ l, s.issues k = some l → k.inTime l = false) → k.done = false → k.status = none →
    k.tmo ≠ 0 → k.issued + 1024 * k.tmo ≤ s.cycles → ∃ t y, exec (.collectiveTimeout c n) s = .next t ∧
      (t.slot c n).queue 6 = y :: ks ∧ y.status = some (19, 0) ∧ (k.kind = .ccmd → y.finished = true) ∧
      ∀ a, t.memByte a = s.memByte a)

/-! ## Queues, cards and tasks -/

/-- R322 to R327, R336: a notify of a mapped queue reads its write index, and makes any other queue PENDING. The queue the scheduler
chooses for a free hardware slot is mapped into it, with its descriptor and write index as they stand in memory; one with
nothing to accept or deal leaves its slot while another waits. The next card of a mapped queue, when none is left to deal
before it, is accepted with R and RIDX one higher; a card with a defect, or that asks for more than its interface's share, is
complete at once. The cards of a queue that have no record left to deal and no task left leave it in the order in which they
completed, each with its completion record and status word written and its CSIG carried out (R335). -/
def Obligations.QueueSteps : Prop :=
  ∀ (s : State) (vi q : Nat) (k : Queue), s.queue vi q = some k →
    let same := fun (t : State) => ∀ a, t.memByte a = s.memByte a
    (∀ hw b, DieUp 0 s → k.st = .mapped hw → s.devRead vi k.die k.widx 8 = some b → ∃ t, exec (.notify vi q) s = .next t ∧
      t.queue vi q = some { k with w := leNat b } ∧ same t) ∧
    (DieUp 0 s → (∀ hw, k.st ≠ .mapped hw) → ∃ t, exec (.notify vi q) s = .next t ∧ t.queue vi q = some { k with st := .pending } ∧
      same t) ∧
    (∀ hw d b w, DieUp d s → hw < 128 → Tab.get none (s.die d).hwq hw = none → s.chosenForMap d vi q = true →
      s.devRead vi d k.descVa 64 = some b → s.devRead vi d (fld b 0x10 8) 8 = some w →
      ∃ t, exec (.queueMap d hw vi q) s = .next t ∧ Tab.get none (t.die d).hwq hw = some (vi, q) ∧
        t.queue vi q = some { k with desc := b, st := .mapped hw, w := leNat w } ∧ same t) ∧
    (∀ hw d, DieUp d s → Tab.get none (s.die d).hwq hw = some (vi, q) →
      (k.w = k.r → k.head = none → (s.allQueues.any fun x => s.mappable d x.1 x.2) = true →
        ∃ t, exec (.queueUnmap d hw) s = .next t ∧ Tab.get none (t.die d).hwq hw = none ∧
          t.queue vi q = some { k with st := .unmapped } ∧ same t) ∧
      (∀ b l, (s.die d).quiet = false → (s.iface vi).xroot.isSome = true → k.destroyed = false → k.r < k.w →
        k.head = none → k.die = d → s.devRead vi d (k.ring + 128 * (k.r % 2 ^ k.logn)) 128 = some b →
        s.devLocate vi d .write k.ridx 8 = .ok l →
        let c : Card := { num := k.r, bytes := b, remaining := fld b 0x10 4 }
        c.crec % 64 = 0 → (∃ m, s.devLocate vi d .write c.crec 64 = .ok m) →
        let fits := c.slotReq ≤ (s.iface vi).winShare ∧ c.nbar ≤ (s.iface vi).barShare
        (s.badCard vi k c = false → fits → ∃ t, exec (.cardAccept d hw) s = .next t ∧
          t.queue vi q = some { k with
            r := k.r + 1, cards := k.cards ++ [c], widths := Tab.set k.widths (k.r % 0x10000) c.gang } ∧
          ∀ a, t.memByte a = (s.writePieces l (toLE 8 (k.r + 1))).memByte a) ∧
        (s.badCard vi k c = true ∨ ¬ fits → ∃ t x, exec (.cardAccept d hw) s = .next t ∧ t.queue vi q = some x ∧
          x.r = k.r + 1 ∧ (k.dones = [] → ∀ y ∈ x.cards, y ∈ k.cards ∧ y.num ≠ k.r) ∧
          (k.dones ≠ [] → ∃ y ∈ x.cards, y.num = k.r ∧ y.remaining = 0 ∧
            y.status = if s.badCard vi k c then 4 else 3)))) ∧
    (∀ n c, DieUp k.die s → k.dones.head? = some n → k.card n = some c → ∃ t x, exec (.cardComplete vi q n) s = .next t ∧ t.queue vi q = some x ∧
      x.cards = k.cards.filter (fun y => y.num != n) ∧ x.dones = k.dones.filter (· != n) ∧
      (∀ u v, s.devWrite vi k.die (c.crec + 8) (c.recordTail vi s.time) = some u →
        u.devWrite vi k.die c.crec (toLE 8 c.statusWord) = some v → ∀ a, t.memByte a = v.memByte a) ∧
      (bits c.csig 62 2 = 2 → t.out = .msix vi (bits c.csig 0 11) :: s.out) ∧ (bits c.csig 62 2 = 0 → t.out = s.out))

/-- R76, R329, R330, R331, R334, R338: the queue the deficit round chooses deals the next chunk of its head card, half the
remaining records over the possible places rounded up (all of them where the card claims a handle or its ordinals end), to
places that can take it: each place's lowest free slot holds a task of that chunk, not started, with its pc at the entry and
its record, count, first index and job in x10 to x13, and its window is zero where the slot last held a task of another
interface. A card whose handle cannot be claimed ends BADCARD and places nothing. A task with no operands left to move starts
and joins the line of its core; a failing operand ends its card OPERAND and the task does not start. -/
def Obligations.DealingAndStart : Prop :=
  (∀ (s : State) (d hw vi q : Nat) (k : Queue) (c : Card) (dcs : List (Nat × Int × Int)) (places : List Nat),
    DieUp d s → s.choose d = some (hw, dcs) → Tab.get none (s.die d).hwq hw = some (vi, q) → s.queue vi q = some k → k.head = some c →
    (s.badClaim c = true → ∃ t x, exec (.deal d hw places) s = .next t ∧ t.queue vi q = some x ∧ t.cores = s.cores ∧
      ∃ y ∈ x.cards, y.num = c.num ∧ y.status = 4 ∧ y.remaining = 0) ∧
    (s.badClaim c = false → s.placeOk vi k c places = true →
      let m := 2 * s.count vi k c
      let n := if c.ordinal = 1023 ∨ c.handin ≠ 0 then c.remaining else max 1 ((c.remaining + m - 1) / m)
      ∃ t x, exec (.deal d hw places) s = .next t ∧ t.queue vi q = some x ∧
        (∃ y ∈ x.cards, y.num = c.num ∧ y.next = c.next + n ∧ y.remaining = c.remaining - n ∧ y.ordinal = c.ordinal + 1 ∧
          y.out = c.out + places.length) ∧
        (∀ i e : Nat, places[i]? = some e → ∃ j z, (s.core e).freeSlot = some j ∧ (t.slot e j).task = some z ∧ z.vi = vi ∧
          z.q = q ∧ z.card = c.num ∧ z.chunk = c.ordinal ∧ z.gidx = i ∧ z.started = false ∧
          (t.slot e j).ctl.pc = BitVec.ofNat 64 c.kentry ∧
          (t.slot e j).ctl.getX 10 = BitVec.ofNat 64 (c.argb + c.argsz * c.next) ∧
          (t.slot e j).ctl.getX 11 = BitVec.ofNat 64 n ∧ (t.slot e j).ctl.getX 12 = BitVec.ofNat 64 c.next ∧
          (t.slot e j).ctl.getX 13 = BitVec.ofNat 64 c.jobid ∧
          (Tab.get 2000 (s.core e).lastVi j ≠ vi → c.handin = 0 → (s.die k.die).mail = [] → ∀ o, o < (t.core e).winBytes j →
            Tab.get 0 (t.core e).spad ((t.core e).spadAddr j o) = 0)) ∧ ∀ a, t.memByte a = s.memByte a)) ∧
  (∀ (s : State) (c n : Nat) (y : Task) (k : Queue) (x : Card), Up c s → (s.slot c n).task = some y → y.started = false →
    s.queue y.vi y.q = some k → k.card y.card = some x → x.stopped = false → y.claim = none → y.opPause = none →
    (y.ops = [] → ∃ t, exec (.taskStart c n) s = .next t ∧ (t.slot c n).task = some { y with started := true } ∧
      (t.slot c n).since = s.cycles ∧
      ∀ a, t.memByte a = s.memByte a) ∧
    (∀ e u, y.ops = [e] → (s.die y.die).actParked 0 (quadOf c) y.vi = false → s.moveOperand c n y x e = .failed u →
      ∃ t z, exec (.taskStart c n) s = .next t ∧ (t.slot c n).task = none ∧ t.queue y.vi y.q = some z ∧
        (∃ w ∈ z.cards, w.num = x.num ∧ w.stopped = true ∧ 5 ≤ w.status) ∧ ∀ a, t.memByte a = s.memByte a))

/-- R338, R342, R343, R346, R380: a period boundary refills a queue's budgets less what was used beyond them, unparks it and
charges its deficit counter; an activity boundary lets what an interface's activities have used count no more. A budget that
is used up parks its queue, posts BUDGET at each of its slots, and asks a running one to halt, with cause 30 pending, also
where the queue is parked already for another budget (log entry 53); an activity that has used its budget is parked. That each
timer tick lets five cycles pass, and charges them to a running task, is the model's choice (log entry 22). -/
def Obligations.BudgetSteps : Prop :=
  (∀ (s : State) (vi q : Nat) (k : Queue), s.queue vi q = some k →
    DieUp k.die s →
    (q < 4096 → k.per ≠ 0 → (k.perAt / k.per + 1) * k.per ≤ s.cycles → ∃ t, exec (.periodBoundary vi q) s = .next t ∧
      t.queue vi q = some { k with
        cyc := (k.bcyc : Int) + min k.cyc 0, pas := (k.bpas : Int) + min k.pas 0,
        hbm := (k.bhbm : Int) + min k.hbm 0, xc := false, xp := false, xb := false, parked := false,
        perAt := (k.perAt / k.per + 1) * k.per, dc := k.dc - (s.unchargedOf vi q : Nat) } ∧
      ∀ a, t.memByte a = s.memByte a) ∧
    (∀ which, k.spent which = true → k.marked which = false → ∃ t, exec (.budgetExhausted vi q which) s = .next t ∧
      t.queue vi q = some { k with
        xc := k.xc || which == 0, xp := k.xp || which == 1, xb := k.xb || which == 2,
        parked := true } ∧
      (∀ c n y, (s.slot c n).task = some y → y.vi = vi → y.q = q →
        ((s.slot c n).events.length < 64 → BitVec.ofNat 64 (3 * 2 ^ 56 + which) ∈ (t.slot c n).events) ∧
        ((s.core c).running = some n → (t.slot c n).haltReq = true ∧ ∃ p ∈ (t.slot c n).pend, p.cause = 30)) ∧
      ∀ a, t.memByte a = s.memByte a)) ∧
  (∀ (s : State) (vi d : Nat), DieUp d s →
    let p := s.activityPeriod d vi
    let now := (Tab.get 0 (s.die d).actAt vi / p + 1) * p
    (p ≠ 0 → now ≤ s.cycles → ∃ t, exec (.periodBoundary vi (4096 + d)) s = .next t ∧
      (∀ a, a ∈ (t.die d).acts ↔ a ∈ (s.die d).acts ∧ a.vi ≠ vi) ∧ Tab.get 0 (t.die d).actAt vi = now ∧
      t.cores = s.cores ∧ ∀ a, t.memByte a = s.memByte a) ∧
    (∀ kind unit, let lim := (s.die d).actLimit kind vi
      ∃ t, exec (.activityBudgetExhausted d vi kind unit) s = .next t ∧ t.cores = s.cores ∧
        (t.die d).acts.length = (s.die d).acts.length ∧
        (∀ a ∈ (s.die d).acts, (a.kind = kind ∧ a.unit = unit ∧ a.vi = vi ∧ lim ≠ 0 ∧ lim ≤ a.used →
          { a with parked := true } ∈ (t.die d).acts) ∧
          (¬ (a.kind = kind ∧ a.unit = unit ∧ a.vi = vi ∧ lim ≠ 0 ∧ lim ≤ a.used) → a ∈ (t.die d).acts)) ∧
        ∀ a, t.memByte a = s.memByte a)) ∧
  (∀ (s : State), ∃ t, exec .packageTimerTick s = .next t ∧ t.cycles = s.cycles + 5 ∧
    (∀ c n y, (s.coreNums.filter (· == c)).length = 1 → (s.core c).running = some n → (s.slot c n).task = some y →
      (t.slot c n).task = some { y with ucyc := y.ucyc + 5, dcyc := y.dcyc + 5 } ∧
      (t.core c).sliceUsed = (s.core c).sliceUsed + 5) ∧ ∀ a, t.memByte a = s.memByte a)

/-! ## Sharing a core -/

/-- R339, R353, R361: a running slot that must give way, or whose slice is over while others stand in the line, is asked to
halt, with its region. A slot asked to halt that stands in U mode at an instruction's boundary, with its region stopped and its
stores performed, leaves the core free and joins the line as ready, its registers kept; with BUDGET pending it takes that trap
instead. The first of the line is dispatched to a free core, no PARTCTL of which is in progress: it runs in U mode, where it
stopped, and its region that was held HALTED runs again (R11), where its bank still holds the region's image. A port saved into
its area comes back from there with its binds (R359). A region saved there is restored from the block once the core's region is
IDLE (R358), and where the bank holds another tag (TAGLOST) or the descriptor fails its checks (DESCLOST) the region stays
IDLE, the block stays in the area, and the slot takes REGION_FAULT with that subcode before its first instruction (R361). A
region held HALTED whose bank holds another tag is saved first and then is TAGLOST (the model's choice, log entry 78). -/
def Obligations.CoreSharingSteps : Prop :=
  (∀ (s : State) (c n : Nat), Up c s → (s.core c).running = some n →
    let asked := fun (t : State) => (t.slot c n).haltReq = true ∧
      ((s.region c).owner = some n → (s.region c).st = .running → (t.region c).haltReq = true) ∧
      (t.core c).running = some n ∧ (∀ d, d ≠ c → t.core d = s.core d) ∧ ∀ a, t.memByte a = s.memByte a
    (s.mustYield c n = true → ∃ t, exec (.preemptRequest c n) s = .next t ∧ asked t) ∧
    (∀ y k, (s.slot c n).task = some y → s.queue y.vi y.q = some k → k.slice ≤ (s.core c).sliceUsed → s.line c ≠ [] →
      ∃ t, exec (.sliceExpiry c) s = .next t ∧ asked t) ∧
    (s.mayHalt c n = true → (s.ctl c).wait = none →
      ((∀ p ∈ (s.slot c n).pend, p.cause ≠ 30) → ∃ t, exec (.coreStop c) s = .next t ∧ (t.core c).running = none ∧
        (t.core c).mode = .m ∧ (t.slot c n).haltReq = false ∧ (t.slot c n).yielding = false ∧
        (t.slot c n).since = s.cycles ∧ (t.slot c n).ctl = (s.slot c n).ctl ∧
        (t.slot c n).task = (s.slot c n).task ∧ (∀ r ∈ t.resvs, r.core ≠ c) ∧ ∀ a, t.memByte a = s.memByte a) ∧
      (∀ p, (s.slot c n).pend.find? (fun p => p.cause == 30) = some p → ∃ t, exec (.coreStop c) s = .next t ∧
        (t.core c).running = some n ∧ (t.core c).mode = .m ∧ (t.core c).csr.mcause = 30 ∧ (t.core c).csr.mtval = p.mtval ∧
        (t.core c).csr.mepc = (s.ctl c).pc ∧ (t.core c).parkTrap = some n ∧ ∀ a, t.memByte a = s.memByte a))) ∧
  (∀ (s : State) (c n : Nat), Up c s → (s.core c).running = none → s.lineHead c = some n → (s.core c).fw.pre = none →
    (s.core c).inPartctl = false → (s.slot c n).pend = [] → (s.core c).csr.mie = 0 →
    let area := (s.core c).area n
    let rec_ := (s.core c).recordAddr n
    let b := s.memBytes (area + 0x9000) 4096
    let tail := bitAt (fld b 0 8) 34
    let image := Tab.get {} (s.core c).banks (bits (fld b 0 8) 40 2)
    let tagged := image.tag ≠ 0 ∧ image.tag.toNat = fld b 0x10 4
    let lost := fun (u : State) (sub : Nat) => ∃ t, exec (.dispatch c) s = .next t ∧ (t.core c).running = some n ∧
      (t.core c).mode = .m ∧ (t.core c).csr.mcause = 24 ∧ (t.core c).csr.mtval = BitVec.ofNat 64 (rec_ + 2 ^ 63) ∧
      (t.core c).csr.mepc = (s.slot c n).ctl.pc ∧ (t.region c).st = .idle ∧ (t.slot c n).savedRegion = false ∧
      t.memNat rec_ 1 = 24 ∧ t.memNat (rec_ + 1) 1 = sub ∧ MemFrame [(rec_, 64)] u t
    (∀ j y, (s.slot c n).savedPorts = [j] → (s.slot c n).savedRegion = false →
      ((s.region c).owner ≠ some n ∨ (s.region c).st ≠ .halted) → s.poison = [] → (s.slot c n).task = some y →
      (s.port c j).stream = none → (s.port c j).pending = [] →
      let bytes := s.memBytes (area + 0x2000 + 1024 * j) 1024
      ∃ t, exec (.dispatch c) s = .next t ∧ (t.core c).running = some n ∧ (t.slot c n).savedPorts = [] ∧
        (t.port c j).stream.map Stream.bind = bindFrom n y.vi bytes ∧
        (t.port c j).pending = (upFrom 1 4).filterMap (fun i => bindFrom n y.vi (bytes.drop (104 * i))) ∧
        (∀ i, i ≠ j → t.port c i = s.port c i) ∧ ∀ a, t.memByte a = s.memByte a) ∧
    ((s.slot c n).savedPorts = [] → (s.slot c n).savedRegion = true → (s.region c).st = .idle → (s.region c).passes = [] →
      (s.core c).armPending (bits (fld b 0 8) 40 2) = false → s.poison = [] →
      (∀ d z, tagged → s.descHeld c n b = some d → s.claimFor c n d = some z →
        ∃ t, exec (.dispatch c) s = .next t ∧ (t.core c).running = some n ∧ (t.core c).mode = .u ∧
          (t.slot c n).savedRegion = false ∧ RestoredFrom b d n (t.region c) ∧
          (t.core c).stq = (if tail then getTail n (s.memBytes (area + 0xA000) 4096) else []) ∧ ∀ a, t.memByte a = z.memByte a) ∧
      ((s.slot c n).ctl.wait = none → (s.slot c n).ctl.pre = none → s.recordBusy rec_ = false →
        (¬ tagged → lost s 0x18) ∧ (tagged → s.descHeld c n b = none → lost s 0x19))) ∧
    ((s.slot c n).savedPorts = [] → (s.slot c n).savedRegion = false →
    (∀ u, (s.region c).owner = some n → (s.region c).st = .halted → (s.core c).armPending (dBank (s.region c).desc) = false →
      (s.core c).holdsTag = false → s.saveRegion c n = (u, true) → (s.region c).passes = [] → s.poison = [] →
      (s.slot c n).ctl.wait = none → (s.slot c n).ctl.pre = none → u.recordBusy rec_ = false → lost u 0x18) ∧
    (∀ u, (s.region c).owner = some n → (s.region c).st = .halted → (s.core c).armPending (dBank (s.region c).desc) = false →
      (s.core c).holdsTag = true → s.claimFor c n (s.region c).desc = some u →
      ∃ t, exec (.dispatch c) s = .next t ∧ (t.core c).running = some n ∧ (t.core c).mode = .u ∧
        (t.region c).owner = some n ∧ (t.region c).st = .running ∧ (t.region c).k = (s.region c).k + 1) ∧
    (((s.region c).owner ≠ some n ∨ (s.region c).st ≠ .halted) → ∃ t, exec (.dispatch c) s = .next t ∧
      (t.core c).running = some n ∧ (t.core c).mode = .u ∧ (t.core c).sliceUsed = 0 ∧
      (t.slot c n).ctl = (s.slot c n).ctl ∧ (t.core c).fw = (s.core c).fw ∧
      (t.slot c n).task = (s.slot c n).task.map (fun y => { y with ran := true }) ∧
      (∀ d, d ≠ c → t.core d = s.core d) ∧ ∀ a, t.memByte a = s.memByte a)))

/-- R148, R167, R334, R344, R345, R348: at an instruction boundary a core takes its first pending cause, which is no longer
pending, with mepc the next instruction, or an enabled interrupt. A wait ends for it: a BARW completes with RCH = 0 and mepc is
the next instruction; PARTCTL's takes none; any other is abandoned with none of its effect, and mepc is the waiting instruction
or the first prefix of its group. A fault record is written once VALID is clear at its place, behind none but records whose
place is taken, and its cause becomes pending for its slot with the record's address. A waiting QFENCE completes when nothing
it names stands any more. A task that firmware ends after a fault leaves its slot empty and its card counts it with status
FAULT. -/
def Obligations.PendingCausesAndRecords : Prop :=
  ∀ (s : State) (c : Nat), Up c s →
    ((s.ctl c).mayStop = true → (s.ctl c).wait = none →
      (∀ n p, s.asyncNext c = some (.cause n p) → p.ofTq = false → exec (.asyncTrap c) s
        = .next ((s.modSlot c n fun l => { l with pend := l.pend.erase p }).takeTrap c false p.cause p.mtval (s.ctl c).pc)) ∧
      (∀ code, s.asyncNext c = some (.interrupt code) →
        exec (.asyncTrap c) s = .next (s.takeTrap c true code 0 (s.ctl c).pc)) ∧
      (s.asyncNext c = none → exec (.asyncTrap c) s = .next s)) ∧
    (∀ code w, s.cur = c → s.asyncNext c = some (.interrupt code) → s.me.wait = some w →
      (∀ rd rs1, w.instr = .barw rd rs1 → ∃ t, exec (.asyncTrap c) s = .next t ∧
        t.getX rd = (if rd = 0 then 0 else setBit (s.waitWord (w.a.extractLsb' 0 11).toNat (w.a.extractLsb' 16 16).toNat) 49 false) ∧
        (∀ r, r ≠ rd → t.getX r = s.getX r) ∧ (t.core c).mode = .m ∧ t.me.wait = none ∧
        (t.core c).csr.mepc = (s.me.advance 4).pc ∧ (t.core c).csr.mcause = BitVec.ofNat 64 (2 ^ 63 + code) ∧
        ∀ a, t.memByte a = s.memByte a) ∧
      (∀ rd rs1, w.instr = .partctl rd rs1 → exec (.asyncTrap c) s = .next s) ∧
      (w.instr ≠ .tyield → (∀ rd rs1, w.instr ≠ .barw rd rs1 ∧ w.instr ≠ .partctl rd rs1 ∧ w.instr ≠ .cast rd rs1) →
        exec (.asyncTrap c) s = .next (s.takeTrap c true code 0 s.me.epc))) ∧
    (∀ f fs gs, (s.core c).frq = gs ++ f :: fs → (∀ g ∈ gs, s.recordBusy ((s.core c).recordAddr g.slot) = true) →
      let a := (s.core c).recordAddr f.slot
      s.recordBusy a = false → ∃ t, exec (.faultRecord c) s = .next t ∧ (t.core c).frq = gs ++ fs ∧
        t.memBytes a f.bytes.length = f.bytes ∧ MemFrame [(a, f.bytes.length)] s t ∧
        (t.slot c f.slot).pend = (s.slot c f.slot).pend ++ [⟨f.cause, BitVec.ofNat 64 (a + 2 ^ 63)⟩]) ∧
    ((∀ f ∈ (s.core c).frq, s.recordBusy ((s.core c).recordAddr f.slot) = true) → exec (.faultRecord c) s = .next s) ∧
    (∀ set w, s.cur = c → WaitsIn w s → w.instr = .qfence set →
      (s.slot c s.mySlot).standing (s.busyOf c s.mySlot) ⟨set.truncate 7, w.n - 1⟩ = false →
      ∃ t, exec (.waitComplete c) s = .next t ∧ Done [] [] false s t) ∧
    (∀ n y k x, (s.slot c n).task = some y → s.queue y.vi y.q = some k → k.card y.card = some x →
      ∃ t z, exec (.firmwareTaskEnd c n) s = .next t ∧ t.slot c n = ({} : Slot) ∧
        ((s.core c).running = some n → (t.core c).running = none) ∧ t.queue y.vi y.q = some z ∧
        (∃ w ∈ z.cards, w.num = x.num ∧ w.out = x.out - 1 ∧ 2 ≤ w.status) ∧ ∀ a, t.memByte a = s.memByte a)

/-! ## Firmware's registers and context commands -/

/-- R7, R76, R81, R87, R163, R190, R371, R380, R384: a window register takes banks within the scratchpad that overlap no other slot's,
for a slot without a task, and discards any other write. XROOT takes a root and becomes valid. CARVD takes a size to 48 and
the tiles that change sides read zero; no other byte of memory changes. A loop level's register takes its fields, and ACT set
by a write leaves the level suspended. Each other register holds what is written to it, its reserved bits clear;
the number of a route's pod link is the model's form of that entry (log entry 61). -/
def Obligations.RegisterWritesComplete : Prop :=
  ∀ (s : State) (v : Word),
    let same := fun (t : State) => ∀ a, t.memByte a = s.memByte a
    let writes := fun (name : RegName) (r : State → Word) (mask : Word) => ∃ t, exec (.registerWrite name v) s = .next t ∧
      r t = v &&& mask ∧ same t
    (∀ c n (w : BitVec 32), Up c s → n < 8 →
      let b := (w.extractLsb' 0 5).toNat
      let m := (w.extractLsb' 8 6).toNat
      let free := (s.slot c n).task = none ∧ b + m ≤ 32 ∧
        ∀ j, j < 8 → j ≠ n → overlap b m ((s.core c).win j).1 ((s.core c).win j).2 = false
      (free → ∃ t, exec (.swinWrite c n w) s = .next t ∧ (t.core c).win n = (b, m) ∧
        (∀ j, j ≠ n → (t.core c).win j = (s.core c).win j) ∧ (∀ d, d ≠ c → t.core d = s.core d) ∧ same t) ∧
      (¬ free → exec (.swinWrite c n w) s = .next s)) ∧
    (∀ vi, vi ≤ 1024 → ∃ t, exec (.xrootWrite vi v) s = .next t ∧ (t.iface vi).xroot = some v ∧
      (∀ u, u ≠ vi → t.iface u = s.iface u) ∧ t.cores = s.cores ∧ same t) ∧
    (∀ d, d < 4 → (v.extractLsb' 0 6).toNat ≤ 48 →
      let c := (v.extractLsb' 0 6).toNat
      let o := (s.die d).carv
      let lo := llsBase d + (48 - max c o) * 0x1000000
      let hi := llsBase d + (48 - min c o) * 0x1000000
      ∃ t, exec (.carvdWrite d v) s = .next t ∧ (t.die d).carv = c ∧ (∀ a, lo ≤ a → a < hi → t.memByte a = 0) ∧
        ∀ a, a < lo ∨ hi ≤ a → t.memByte a = s.memByte a) ∧
    (∀ c l, c < 640 → l < 3 → ∃ t, exec (.zlcWrite c l v) s = .next t ∧
      (t.ctl c).loop l = { (s.ctl c).loop l with
        act := v.getLsbD 63, susp := v.getLsbD 62 || v.getLsbD 63, pw := v.getLsbD 61, off := v.extractLsb' 48 9,
        bl := v.extractLsb' 40 8, cnt := v.extractLsb' 0 32, body := false } ∧
      (∀ m, m ≠ l → (t.ctl c).loop m = (s.ctl c).loop m) ∧ (t.ctl c).pc = (s.ctl c).pc ∧ same t) ∧
    (∀ c n, c < 640 → n < 8 → writes (.ctxa c n) (fun t => Tab.get 0 (t.core c).ctxa n) 0x0000FFFFFFFFF000#64) ∧
    (∀ d, d < 4 → writes (.prqb d) (fun t => (t.die d).prqb) (BitVec.allOnes 64) ∧
      writes (.abtd d) (fun t => (t.die d).abtd) (BitVec.allOnes 64) ∧
      writes (.scrb d) (fun t => (t.die d).scrb) 0x0000FFFFFFFFFFFF#64) ∧
    writes .podid (fun t => t.podid.zeroExtend 64) 0xFF#64 ∧
    (∀ p, p < 256 → v.toNat < 16 → writes (.route p) (fun t => BitVec.ofNat 64 (Tab.get 0 t.routes p)) (BitVec.allOnes 64)) ∧
    (∀ c, c < 640 → writes (.zfrec c) (fun t => (t.core c).csr.zfrec) 0x0000FFFFFFFFFFC0#64)

/-- R362, R363: a CTXCMD write for a slot whose state permits the command sets BUSY; HALT also holds the slot out of the line and
asks a running one to halt, or the region of one that does not run; for any other slot state it sets STATE and starts nothing,
and while BUSY stands it is discarded. CMD 00 returns a held slot to the line. A halt ends once neither the slot nor its region
runs. A save, once everything of the slot has settled, writes its area (Table 23-9) and frees the slot: the marker with the slot
and the interface, the pc, the registers and fcsr, the tq entries, the events, the shapes, an empty mailbox, the barriers, and,
where the slot holds the tile unit, its headers, LUTs, flags, tiles and accumulators. A load of an area with the marker places
the task with the saved registers and puts it in the line; of one without it, it ends with BLOCK, and of poisoned words that
carry no register, latch or tile state with FETCH. Each end clears BUSY and makes interrupt 16 pending.
The model's choices: which poison makes FETCH (log entries 19, 52), what is kept beside the area (20), the window and the
barriers' numbers at LOAD (54), and a marked area where no task was saved (67). -/
def Obligations.ContextCommands : Prop :=
  ∀ (s : State) (c n : Nat), Up c s → n < 8 →
    let l := s.slot c n
    let a := (s.core c).area n
    let starts := fun (i : Instr) (cmd : Nat) => ∃ t, exec i s = .next t ∧ (t.core c).ctxBusy = some ⟨cmd, n⟩ ∧
      (t.core c).ctxSlot = n ∧ (t.slot c n).task = l.task ∧
      (cmd = 1 → (t.slot c n).held = true ∧ ((s.core c).running = some n → (t.slot c n).haltReq = true) ∧
        (s.regionRuns c n = true → (t.region c).haltReq = true)) ∧
      ∀ x, t.memByte x = s.memByte x
    let wrong := fun (i : Instr) => ∃ t, exec i s = .next t ∧ (t.core c).ctxBusy = none ∧ (t.core c).ctxSlot = n ∧
      (t.core c).ctxStatus = 1 ∧ t.slot c n = l ∧ ∀ x, t.memByte x = s.memByte x
    let done := fun (t : State) (status : Nat) => (t.core c).ctxBusy = none ∧ (t.core c).ctxStatus = status ∧
      (t.core c).csr.mip16 = true
    ((s.core c).ctxBusy = none →
      (l.task.isSome = true → starts (.ctxcmdHalt c n) 1) ∧ (l.task = none → wrong (.ctxcmdHalt c n)) ∧
      (l.task.isSome = true → s.slotHalted c n = true → starts (.ctxcmdSave c n) 2) ∧
      (l.task = none ∨ s.slotHalted c n = false → wrong (.ctxcmdSave c n)) ∧
      (l.task = none → starts (.ctxcmdLoad c n) 3) ∧ (l.task.isSome = true → wrong (.ctxcmdLoad c n)) ∧
      (l.held = true → ∃ t, exec (.ctxcmdRelease c n) s = .next t ∧ (t.slot c n).held = false ∧
        (t.slot c n).since = s.cycles ∧ (t.slot c n).task = l.task ∧ ∀ x, t.memByte x = s.memByte x)) ∧
    ((s.core c).ctxBusy.isSome = true →
      ∀ i ∈ [Instr.ctxcmdHalt c n, .ctxcmdSave c n, .ctxcmdLoad c n, .ctxcmdRelease c n], exec i s = .next s) ∧
    ((s.core c).ctxBusy = some ⟨1, n⟩ → (s.core c).running ≠ some n → s.regionRuns c n = false → ∃ t, exec (.ctxcmdDone c) s = .next t ∧ done t 0 ∧
      ∀ x, t.memByte x = s.memByte x) ∧
    (∀ y, (s.core c).ctxBusy = some ⟨2, n⟩ → l.task = some y → (s.flushPorts c n).saveReady c n = true →
      ∃ t, exec (.ctxcmdDone c) s = .next t ∧ done t 0 ∧ (t.slot c n).task = none ∧ t.memNat a 4 = 0x31584353 ∧
        (∃ x ∈ t.saved, x.area = a ∧ x.pend = l.pend) ∧
        bits (t.memNat a 8) 33 1 = (if l.savedTile || (s.tile c).owner == some n then 1 else 0) ∧
        bits (t.memNat a 8) 34 3 = n ∧ bits (t.memNat a 8) 37 11 = y.vi % 2 ^ 11 ∧
        t.memNat (a + 0x40) 8 = l.ctl.pc.toNat ∧ t.memNat (a + 0x240) 8 = l.ctl.fcsr.toNat ∧
        (∀ r, r < 32 → (1 ≤ r → t.memNat (a + 0x40 + 8 * r) 8 = (Tab.get 0 l.ctl.x r).toNat) ∧
          t.memNat (a + 0x140 + 8 * r) 8 = (Tab.get 0 l.ctl.f r).toNat) ∧
        (∀ j e, l.tq[j]? = some e → j < 64 → let o := a + 0x400 + 32 * j
          t.memNat o 8 = e.va.toNat % 2 ^ 55 ∧ t.memNat (o + 8) 8 = e.zt.toNat ∧ t.memNat (o + 16) 8 = e.arg.toNat ∧
          t.memNat (o + 24) 8 = e.log.elim 0 fun g => bits g.addr.toNat 6 49 * 64 + 1) ∧
        (∀ j e, l.events[j]? = some e → j < 64 → t.memNat (a + 0xC00 + 8 * j) 8 = e.toNat) ∧
        (∀ j, j < 64 → t.memBytes (a + 0x1000 + 64 * j) 64 = padTo 64 (Tab.get [] l.shapes j)) ∧
        (∀ j, j < 0x1000 → t.memByte (a + 0x4000 + j) = 0) ∧
        (∀ j, j < 2048 → t.memNat (a + 0x5000 + 8 * j) 8 =
          (barrierWord (((s.core c).bar j).filter fun x => x.owner == n)).toNat) ∧
        ((s.tile c).owner = some n → let u := s.tile c
          (∀ j, j < 8 → t.memNat (a + 0xE00 + 8 * j) 8 = (Tab.get 0 u.hdr j).toNat) ∧
          (∀ j, j < 64 → t.memNat (a + 0xE40 + 2 * j) 2 = (Tab.get 0 u.lut j).toNat) ∧
          t.memNat (a + 0xEC0) 8 = u.flags.toNat ∧
          (∀ j, j < 0xC000 → t.memByte (a + 0xB000 + j) = Tab.get 0 u.tm j) ∧
          ∀ j, j < 0x2000 → t.memNat (a + 0x17000 + 4 * j) 4 = (Tab.get 0 u.acc j).toNat)) ∧
    ((s.core c).ctxBusy = some ⟨3, n⟩ → s.areaPoisoned a = false →
      s.memNat a 4 = 0x31584353 → ∃ t y, exec (.ctxcmdDone c) s = .next t ∧ done t 0 ∧ (t.slot c n).task = some y ∧
        (∀ x, s.saved.find? (fun t => t.area == a) = some x → y.vi = x.task.vi ∧ y.q = x.task.q ∧ y.card = x.task.card ∧
          y.chunk = x.task.chunk ∧ y.gidx = x.task.gidx) ∧
        (t.slot c n).since = s.cycles ∧ (t.slot c n).ctl = ctlFrom ((s.memBytes a 0x9000).drop 0x40) ∧
        ∀ z, t.memByte z = s.memByte z) ∧
    ((s.core c).ctxBusy = some ⟨3, n⟩ → s.areaPoisoned a = false → s.memNat a 4 ≠ 0x31584353 →
      ∃ t, exec (.ctxcmdDone c) s = .next t ∧ done t 3 ∧ t.slot c n = l ∧ ∀ z, t.memByte z = s.memByte z) ∧
    ((s.core c).ctxBusy = some ⟨3, n⟩ → s.areaPoisoned a = true →
      ∃ t, exec (.ctxcmdDone c) s = .next t ∧ done t 2 ∧ t.slot c n = l ∧ ∀ z, t.memByte z = s.memByte z)

/-! ## The host -/

/-- R365, R366: the doorbell of an enabled interface reads every command up to its value from the ring. The command at the head of
a ring that is malformed, or was read from a poisoned entry, is answered BADCMD, and one of interface 0's commands on another
interface PERM (Table 25-2), with nothing performed. The ring's base as a physical address, BADCMD for reserved bytes and for
poison, and the order of the two answers are the model's choice (log entry 50). -/
def Obligations.HostCommandsAdmitted : Prop :=
  ∀ (s : State) (vi : Nat),
    let i := s.iface vi
    (∀ v, DieUp 0 s → v < 2 ^ 64 → i.enabled = true → i.cmdRead < v → ∃ t, exec (.commandDoorbell vi v) s = .next t ∧
      (t.iface vi).cmdRead = v ∧ (t.iface vi).cmds = i.cmds ++ (upFrom i.cmdRead (v - i.cmdRead)).map (fun m =>
        { pos := m, bytes := s.memBytes (i.ringBase + 64 * (m % 2 ^ i.ringK)) 64,
          pois := s.memPois (i.ringBase + 64 * (m % 2 ^ i.ringK)) 64 }) ∧ ∀ a, t.memByte a = s.memByte a) ∧
    (i.enabled = false → ∀ v, exec (.commandDoorbell vi v) s = .next s) ∧
    (∀ h x, DieUp 0 s → i.cmds.head? = some h → s.hostBusy vi = false →
      x ∈ [(1, false, Instr.qcreate vi), (2, false, .qmap vi), (3, false, .qunmap vi), (4, false, .qdestroy vi),
        (5, false, .epattach vi), (6, false, .epdetach vi), (7, false, .coload vi), (8, false, .counload vi),
        (9, true, .partchg vi), (10, true, .quota vi), (11, true, .keyset vi), (12, false, .quote vi)] →
      (h.malformed = true → ∃ t, exec x.2.2 s = .next t ∧ Replied s vi h 1 t ∧ t.cores = s.cores ∧
        (t.iface vi).jnext = i.jnext) ∧
      (h.malformed = false → h.code = x.1 → x.2.1 = true → vi ≠ 0 → ∃ t, exec x.2.2 s = .next t ∧ Replied s vi h 5 t ∧
        t.cores = s.cores ∧ (t.iface vi).jnext = i.jnext) ∧
      (h.malformed = false → h.code ≠ x.1 → exec x.2.2 s = .next s))

/-- R85, R321, R325, Table 25-2: QCREATE of a free number with a descriptor in range makes the queue with full budgets; QMAP
and QUNMAP mark it to be mapped, or unmap it, which frees its hardware slot and leaves a PENDING queue PENDING; QDESTROY unmaps
it and cancels at once the cards that have not completed, and removes it once they all have; EPATTACH sets an endpoint's
address, extent and permissions; EPDETACH removes an endpoint no access still needs, and otherwise lets no later command use
it. What has been performed is journalled and answered OK.
The model's choices: the ring and the journal at physical addresses (log entry 50), and QUNMAP of a PENDING queue, what
QDESTROY cancels and when it is answered (51). -/
def Obligations.QueueAndEndpointCommands : Prop :=
  ∀ (s : State) (vi : Nat) (h : HostCmd),
    let q := h.arg 0 2
    let ep := h.arg 0 1
    (∀ b, HostTurn s vi 1 false h → q < 4096 → s.queue vi q = none →
      (s.partOf (s.iface vi)).1 ≤ h.arg 2 1 → h.arg 2 1 < (s.partOf (s.iface vi)).1 + (s.partOf (s.iface vi)).2 →
      s.devRead vi (h.arg 2 1) (h.arg 8 8) 64 = some b → descOk b = true → ∃ t k, exec (.qcreate vi) s = .next t ∧
        Accepted s vi h t ∧ t.queue vi q = some k ∧ k.die = h.arg 2 1 ∧ k.desc = b ∧ k.st = .unmapped ∧ k.cards = [] ∧
        k.r = 0 ∧ k.cyc = (k.bcyc : Int) ∧ k.pas = (k.bpas : Int) ∧ k.hbm = (k.bhbm : Int) ∧ t.cores = s.cores) ∧
    (∀ k, HostTurn s vi 2 false h → s.openQueue vi q = some k → ∃ t, exec (.qmap vi) s = .next t ∧ Accepted s vi h t ∧
      t.queue vi q = some { k with journal := true } ∧ t.cores = s.cores) ∧
    (∀ k, HostTurn s vi 3 false h → s.openQueue vi q = some k → ∃ t x, exec (.qunmap vi) s = .next t ∧ Accepted s vi h t ∧
      t.queue vi q = some x ∧ x.journal = false ∧ (∀ hw, k.st = .mapped hw → Tab.get none (s.die k.die).hwq hw = some (vi, q) →
        x.st = .unmapped ∧ Tab.get none (t.die k.die).hwq hw = none) ∧
      ((∀ hw, k.st ≠ .mapped hw) → x.st = k.st) ∧ x.cards = k.cards ∧ t.cores = s.cores) ∧
    (∀ k, HostTurn s vi 4 false h → h.begun = false → s.openQueue vi q = some k → ∃ t x, exec (.qdestroy vi) s = .next t ∧
      t.queue vi q = some x ∧ x.destroyed = true ∧
      (∀ y ∈ x.cards, y ∈ k.cards ∧ y.complete = true ∨ y.cancelled = true ∧ 6 ≤ y.status) ∧
      (∀ hw, k.st = .mapped hw → Tab.get none (s.die k.die).hwq hw = some (vi, q) →
        x.st = .unmapped ∧ Tab.get none (t.die k.die).hwq hw = none) ∧
      x.cards.map Card.num = k.cards.map Card.num ∧ (t.iface vi).cmds.head? = some { h with begun := true } ∧
      ∀ a, t.memByte a = s.memByte a) ∧
    (∀ k, HostTurn s vi 4 false h → h.begun = true → s.queue vi q = some k → k.cards = [] →
      ∃ t, exec (.qdestroy vi) s = .next t ∧ Accepted s vi h t ∧ t.queue vi q = none) ∧
    (HostTurn s vi 5 false h → h.arg 1 1 < 4 → h.arg 16 8 ≤ 2 ^ 48 → ∃ t, exec (.epattach vi) s = .next t ∧
      Accepted s vi h t ∧ Tab.get {} (t.iface vi).eps ep =
        { attached := true, addr := h.arg 8 8, extent := h.arg 16 8, r := bitAt (h.arg 1 1) 0, w := bitAt (h.arg 1 1) 1 }) ∧
    (HostTurn s vi 6 false h → s.epBusy vi ep = false → ∃ t, exec (.epdetach vi) s = .next t ∧ Accepted s vi h t ∧
      (Tab.get {} (t.iface vi).eps ep).attached = false) ∧
    (HostTurn s vi 6 false h → s.epBusy vi ep = true → h.begun = false → ∃ t, exec (.epdetach vi) s = .next t ∧
      (Tab.get {} (t.iface vi).eps ep).attached = false ∧ (t.iface vi).cmds.head? = some { h with begun := true } ∧
      ∀ a, t.memByte a = s.memByte a)

/-- R365, R366, R370, R375, R376, R377: COLOAD of a verified object whose pages are ready adds it to the interface under the
next number, extends IMREG, and writes each page of its placed sections with its bytes and its permissions; one that does not
verify is answered SIG, and one that shares a page with a loaded object, or whose pages are not ready, BADCMD. COUNLOAD raises
the interface's generation and ends the object, which is gone once no task of an earlier generation is left. PARTCHG of a good
request begins the change; QUOTA in bounds sets an interface's shares; KEYSET stores the SHA-512 of the modulus; QUOTE writes
its record, which names the device, the lifecycle state, the interface, its measurements and the nonce, with the attestation
signature behind it, and is answered without a journal entry.
The model's choices: which pages are ready, what placing a page sets and the objects' numbers (log entry 27), the object's form
and the placed types (69), the request of PARTCHG as a VA of interface 0 (70), and the ring and the journal at physical
addresses (50). -/
def Obligations.ObjectAndPolicyCommands : Prop :=
  ∀ (s : State) (vi : Nat) (h : HostCmd),
    let i := s.iface vi
    let v := h.arg 0 2
    (∀ o, HostTurn s vi 7 false h → s.readObject vi (h.arg 8 8) (h.arg 16 8) = some o →
      let good := i.keyHash ≠ [] ∧ sha512 o.modulus = i.keyHash ∧ rsaVerifies o.modulus o.sig o.covered = true ∧
        o.images.all Config.firmwareVerifies = true
      let shares := i.sharesPages (h.arg 16 8) o
      (shares = true → ∃ t, exec (.coload vi) s = .next t ∧ Replied s vi h 1 t ∧ t.cores = s.cores) ∧
      (shares = false → good → s.pagesReady vi (h.arg 16 8) o = false → ∃ t, exec (.coload vi) s = .next t ∧
        Replied (s.notePages vi (h.arg 16 8) o) vi h 1 t ∧ t.cores = s.cores) ∧
      (shares = false → good → s.pagesReady vi (h.arg 16 8) o = true → ∃ t x, exec (.coload vi) s = .next t ∧
        (t.iface vi).objs = i.objs ++ [x] ∧ x.id = i.nextObj ∧ x.base = h.arg 16 8 ∧ x.unload = none ∧
        (t.iface vi).nextObj = i.nextObj + 1 ∧ (t.iface vi).imreg = extend i.imreg (sha512 o.covered) ∧
        (t.iface vi).cmds = i.cmds.drop 1 ∧ (t.iface vi).jnext = i.jnext + 1 ∧
        MemFrame [(i.jbase + 64 * (i.jnext % 0x10000), 64), (i.ringBase + 64 * (h.pos % 2 ^ i.ringK), 64)]
          ((o.secs.filter Section.placed).foldl (fun u y => u.placeSection vi (h.arg 16 8) o y) s) t) ∧
      (shares = false → ¬ good → ∃ t, exec (.coload vi) s = .next t ∧ Replied s vi h 4 t ∧ t.cores = s.cores)) ∧
    (∀ o, HostTurn s vi 8 false h → i.objs.find? (fun x => x.id == h.arg 0 4 && x.unload.isNone) = some o →
      ∃ t, exec (.counload vi) s = .next t ∧ (t.iface vi).ig = i.ig + 1 ∧
        (∀ x ∈ (t.iface vi).objs, x.id = o.id → x.unload = some (i.ig + 1)) ∧
        (s.olderTask vi (i.ig + 1) = false → ∀ x ∈ (t.iface vi).objs, x.id ≠ o.id) ∧
        (t.iface vi).cmds = i.cmds.drop 1 ∧ (t.iface vi).jnext = i.jnext + 1) ∧
    (∀ b, HostTurn s vi 9 true h → h.begun = false → s.part = [] → h.arg 8 8 % 64 = 0 →
      s.devRead 0 (s.iface 0).die (h.arg 8 8) 64 = some b → s.partBad b = false → ∃ t op, exec (.partchg vi) s = .next t ∧
        t.part = [op] ∧ op.req = b ∧ op.cmdVi = some vi ∧ (∀ d ∈ rqDies b, (t.die d).quiet = true) ∧
        (t.iface vi).cmds.head? = some { h with begun := true } ∧ ∀ a, t.memByte a = s.memByte a) ∧
    (HostTurn s vi 10 true h → (s.iface v).enabled = true → h.arg 2 1 ≤ 32 → h.arg 4 2 ≤ 2048 →
      s.quotaBad v (h.arg 8 4) (h.arg 12 4) = false → ∃ t, exec (.quota vi) s = .next t ∧
        (t.iface v).winShare = h.arg 2 1 ∧ (t.iface v).barShare = h.arg 4 2 ∧ (t.iface v).qHbm = h.arg 8 4 ∧
        (t.iface v).qLls = h.arg 12 4 ∧ (t.iface vi).cmds = i.cmds.drop 1 ∧ (t.iface vi).jnext = i.jnext + 1) ∧
    (∀ b, HostTurn s vi 11 true h → s.devRead vi i.die (h.arg 8 8) 512 = some b → (s.iface v).enabled = true →
      ∃ t, exec (.keyset vi) s = .next t ∧ Accepted s vi h t ∧ (t.iface v).keyHash = sha512 b ∧ t.cores = s.cores) ∧
    (∀ va code (b : List Byte) a e p, s.pteOf vi va = some (a, e) → s.home (s.iface vi).die (ptePa e) = some p →
      a + 8 ≤ p ∨ p + b.length ≤ a →
      let u := s.placePage vi code va b
      u.memBytes p b.length = b ∧ MemFrame [(a, 8), (p, b.length)] s u ∧
      ∀ n, (u.memNat a 8).testBit n = if n = 4 then true else if n = 5 then !code else if n = 6 then code else e.testBit n) ∧
    (∀ b u, HostTurn s vi 12 false h → s.devRead vi i.die (h.arg 8 8) 64 = some b →
      let q := (upFrom 0 16).map Config.deviceId ++
        toLE 4 (match s.life with | .manuf => 0 | .prod => 1 | .debug => 2 | .rma => 3) ++ toLE 2 vi ++ List.replicate 42 0 ++
        (upFrom 0 8).flatMap (fun n => measured (Tab.get [] s.mregs n)) ++ measured i.imreg ++ padTo 64 b ++ List.replicate 320 0
      s.devWrite vi i.die (h.arg 16 8) (q ++ (upFrom 0 512).map (Config.attest q)) = some u →
      ∃ t, exec (.quote vi) s = .next t ∧ Replied s vi h 0 t ∧ (t.iface vi).jnext = i.jnext ∧
        MemFrame [(i.ringBase + 64 * (h.pos % 2 ^ i.ringK), 64)] u t)

/-- R364, R367, R373, R374, R379: a host write through BAR2 stores its byte in the interface's own memory at that offset, and a
read answers with the bytes of its grant. The doorbell of BAR0, which is write-only, reads 0 (R7), and a doubleword of BAR4's
table of 2,048 vectors reads as it was last written. A read of the trace window gives the next entry of a frozen trace and
passes to the one behind it, and the read of the last one lets the trace go on. A function-level reset adds the destruction of
every queue, endpoint and object to the interface's commands. Enabling an interface gives it a key that no interface has had,
an invalid root and an empty ring; where boot has failed only interface 0 is presented (R372). Disabling it makes what its key
encrypted unreadable. A debug-unlock token that verifies puts a device in PROD into DEBUG with no key left, so that nothing any
interface's key encrypted can be read, and extends MREG4.
The model's choices: what BAR0, BAR2 and the trace window answer, and that no step is an access of BAR4 (log entry 72), the
trace's codes and payload (57), and what enabling and disabling keep (64). -/
def Obligations.InterfaceSteps : Prop :=
  ∀ (s : State) (vi d : Nat),
    let i := s.iface vi
    let tr := (s.die d).trace
    (∀ off len, DieUp 0 s → i.enabled = true → ∃ t, exec (.bar2Access vi off none len) s = .next t ∧
      t.out = .read vi ((upFrom off len).filterMap fun x => (i.barCell x).map s.memByte) :: s.out ∧ t.cores = s.cores ∧
      ∀ x, t.memByte x = s.memByte x) ∧
    (∀ off len a (b : Byte), DieUp 0 s → i.enabled = true → i.barCell off = some a → ∃ t, exec (.bar2Access vi off (some [b]) len) s = .next t ∧
      t.memByte a = b ∧ ∀ x, x ≠ a → t.memByte x = s.memByte x) ∧
    (s.bar0 vi 0x8000 = some 0 ∧ ∀ off x, off % 8 = 0 → off < 0x8000 → i.msix.length ∈ [0, 0x8000] →
      (s.bar4Write vi off x).bar4 vi off = some x ∧
      ∀ o, o % 8 = 0 → o ≠ off → (s.bar4Write vi off x).bar4 vi o = s.bar4 vi o) ∧
    (d < 4 → tr.frozen = true → ∃ t, exec (.traceWindowRead d) s = .next t ∧ (t.die d).trace.entries = tr.entries ∧
      (tr.reading + 1 < tr.entries.length → (t.die d).trace.frozen = true ∧ (t.die d).trace.reading = tr.reading + 1) ∧
      (tr.entries.length ≤ tr.reading + 1 → (t.die d).trace.frozen = false ∧ (t.die d).trace.reading = 0) ∧
      (∀ e, tr.entries[tr.reading]? = some e → ∃ b, t.out = .read 0 b :: s.out ∧ b.length = 32 ∧
        b.take 12 = toLE 8 e.time ++ toLE 2 d ++ toLE 2 e.core ∧ b.drop 16 = (upFrom 0 16).map (Config.tracePayload e.kind e.a e.b)) ∧
      t.cores = s.cores ∧ ∀ a, t.memByte a = s.memByte a) ∧
    (DieUp 0 s → vi ≠ 0 → i.enabled = true → ∃ t l, exec (.functionLevelReset vi) s = .next t ∧ (t.iface vi).cmds = i.cmds ++ l ∧
      (∀ h ∈ l, h.internal = true ∧ h.code ∈ [4, 6, 8]) ∧
      (∀ q k, (q, some k) ∈ i.queues → k.destroyed = false → q < 65536 → ∃ h ∈ l, h.code = 4 ∧ h.arg 0 2 = q) ∧
      (∀ e x, (e, x) ∈ i.eps → x.attached = true → e < 256 → ∃ h ∈ l, h.code = 6 ∧ h.arg 0 1 = e) ∧
      (∀ o ∈ i.objs, o.unload = none → o.id < 2 ^ 32 → ∃ h ∈ l, h.code = 8 ∧ h.arg 0 4 = o.id) ∧
      ∀ a, t.memByte a = s.memByte a) ∧
    (vi ≠ 0 → s.bootFailed.isSome = true → ∀ base k j, exec (.interfaceEnable vi d base k j) s = .next s) ∧
    (∀ base k j, (vi = 0 ∨ DieUp 0 s ∧ s.bootFailed = none) → vi ≤ 1024 → d < 4 → i.enabled = false → 4 ≤ k → k ≤ 12 →
      ∃ t, exec (.interfaceEnable vi d base k j) s = .next t ∧ (t.iface vi).enabled = true ∧
        (t.iface vi).die = (s.die d).first ∧ (t.iface vi).xroot = none ∧ (t.iface vi).imreg = [] ∧ (t.iface vi).cmds = [] ∧
        (t.iface vi).hbmKey = (if s.life = .prod ∨ s.life = .debug then some s.keyNo else none) ∧ t.keyNo = s.keyNo + 1 ∧ (t.iface vi).ringBase = base ∧
        (∀ u, u ≠ vi → t.iface u = s.iface u) ∧ ∀ a, t.memByte a = s.memByte a) ∧
    (DieUp 0 s → i.enabled = true → ∃ t, exec (.interfaceDisable vi) s = .next t ∧ (t.iface vi).enabled = false ∧
      (t.iface vi).xroot = none ∧ (t.iface vi).hbmKey = none ∧ (∀ u ∈ i.hbm, Unreadable s u t) ∧
      ∀ a, (∀ u ∈ i.hbm, a < u * 0x20000000 ∨ (u + 1) * 0x20000000 ≤ a) → t.memByte a = s.memByte a) ∧
    (∀ token, DieUp 0 s → s.life = .prod → ∃ t, exec (.debugUnlock token) s = .next t ∧
      (Config.tokenVerifies token = false → t = s) ∧
      (Config.tokenVerifies token = true → t.life = .debug ∧ t.debugOpen = true ∧
        (∀ u, (t.iface u).keyHash = [] ∧ (t.iface u).hbmKey = none ∧ ∀ x ∈ (s.iface u).hbm, Unreadable s x t) ∧
        Tab.get [] t.mregs 4 = extend (Tab.get [] s.mregs 4) (sha512 token) ∧ t.cores = s.cores)) ∧
    (∀ token, s.life ≠ .prod → exec (.debugUnlock token) s = .next s)

/-! ## The package -/

/-- R95, R96, R371, R372, R379, R381, R382: cold reset puts the package at its reset values with the timer zero; warm reset keeps the
cycle count, the measurements, the lifecycle state and the traces; a core with a permanent fault is out of use after either. A
link counts the replays of one flit, goes down after more than 16 of them, and the trace records it. A warning is recorded and
sent; a thermal stop stops every die; a watchdog freezes its die's trace. A single-bit error is counted, a double-bit error
poisons its word or discards its cache line or translation entry, and the scrubber counts the words it reads. A core with a
permanent fault is recorded and out of use.
The model's choices: what a reset keeps (log entry 28), the record of a permanent fault and the counting and discarding of bit
errors (55), and what a stop freezes, the warning's vector and the counting of replays (56). -/
def Obligations.PackageSteps : Prop :=
  ∀ (s : State),
    let same := fun (t : State) => ∀ a, t.memByte a = s.memByte a
    let outs := fun (t : State) => Tab.sorted s.cores = true → ∀ c, t.core c = { outOfUse := (s.core c).outOfUse }
    (∃ t, exec .coldReset s = .next t ∧ t.mem = [] ∧ outs t ∧ t.ifaces = [] ∧ t.cycles = 0 ∧ t.resvs = [] ∧
      (∀ d, (t.die d).trace = {}) ∧ t.life = (if s.life = .debug then .prod else s.life) ∧ t.agenda = s.agenda) ∧
    (∃ t, exec .warmReset s = .next t ∧ t.mem = [] ∧ outs t ∧ t.ifaces = [] ∧ t.cycles = s.cycles ∧
      t.mregs = s.mregs ∧ t.life = s.life ∧ (∀ d, d < 4 → (t.die d).trace = (s.die d).trace ∧ (t.die d).first = d ∧
        (t.die d).size = 1) ∧ t.agenda = s.agenda) ∧
    (∀ k, k < 16 → let l := Tab.get {} s.links k
      (∀ f, l.up = true → ∃ t, exec (.flitReplay ⟨k, f⟩) s = .next t ∧ Tab.get {} t.links k =
          { l with flit := f, replays := if l.flit = f then l.replays + 1 else 1 } ∧
        t.cores = s.cores ∧ same t) ∧
      (l.up = true → 16 < l.replays → ∃ t, exec (.linkDown k) s = .next t ∧ (Tab.get {} t.links k).up = false ∧
        Traced s 0 0 3 k 0 t ∧
        t.cores = s.cores ∧ same t) ∧
      (l.replays ≤ 16 → exec (.linkDown k) s = .next s)) ∧
    (∀ d, d < 4 →
      (∃ t, exec (.thermalWarning d) s = .next t ∧ 800 ≤ (t.die d).temp ∧ t.out = .msix 0 1 :: s.out ∧ Traced s d 0 4 d 0 t ∧
        t.cores = s.cores ∧ same t) ∧
      (∃ t, exec (.watchdogExpiry d) s = .next t ∧ (t.die d).trace.frozen = true ∧ (t.die d).fatal = (s.die d).fatal ∧
        Traced s d 0 5 1 0 t ∧ t.cores = s.cores ∧ same t)) ∧
    (∃ t, exec .thermalStop s = .next t ∧ (∀ d, d < 4 → (t.die d).fatal = true ∧ (t.die d).trace.frozen = true) ∧
      t.cores = s.cores ∧ same t) ∧
    (∀ loc d, s.locDie loc = some d →
      (∃ t, exec (.storageBitError loc false) s = .next t ∧ (t.die d).corrected = (s.die d).corrected + 1 ∧
        t.poison = s.poison ∧ same t) ∧
      ((∀ c n p, loc ≠ .cache c n ∧ loc ≠ .image c n ∧ loc ≠ .tlb c n ∧ loc ≠ .walk c n ∧ loc ≠ .range c n p) → ∃ t, exec (.storageBitError loc true) s = .next t ∧ loc ∈ t.poison ∧
        (∀ x ∈ s.poison, x ∈ t.poison) ∧ same t) ∧
      (∀ c n, loc = .cache c n → ∃ t, exec (.storageBitError loc true) s = .next t ∧
        (t.core c).icache = (if n < 512 then (s.core c).icache.eraseIdx n else (s.core c).icache) ∧
        (t.core c).dcache = (if n < 512 then (s.core c).dcache else (s.core c).dcache.eraseIdx (n - 512)) ∧ t.poison = s.poison ∧ same t) ∧
      (∀ c n, loc = .image c n → ∃ t, exec (.storageBitError loc true) s = .next t ∧
        (t.core c).imcache = (s.core c).imcache.eraseIdx n ∧ t.poison = s.poison ∧ same t) ∧
      (∀ c n, loc = .tlb c n → ∃ t, exec (.storageBitError loc true) s = .next t ∧
        (t.core c).tlb = (s.core c).tlb.eraseIdx n ∧ t.poison = s.poison ∧ same t) ∧
      (∀ n, loc = .walk d n → ∃ t, exec (.storageBitError loc true) s = .next t ∧
        (t.die d).walks = (s.die d).walks.eraseIdx n ∧ t.poison = s.poison ∧ same t) ∧
      (∀ c p n x, loc = .range c p n → p < 8 → (s.port c p).stream = some x → ∃ t, exec (.storageBitError loc true) s = .next t ∧
        (t.port c p).stream = some { x with ranges := x.ranges.eraseIdx n } ∧ t.poison = s.poison ∧ same t)) ∧
    (∀ g d, DieUp d s → s.locDie (.mem g) = some d → (s.die d).actParked 3 0 0 = false → ∃ t, exec (.scrub g) s = .next t ∧
      (t.die d).scrubbed = (s.die d).scrubbed + 8 ∧ t.poison = s.poison ∧ same t) ∧
    (∀ c, Up c s → ∃ t, exec (.permanentFault c) s = .next t ∧ (t.core c).outOfUse = true ∧
      Traced s (dieOf c) (c % 160) 9 c 0 t ∧
      (∀ d, d ≠ c → t.core d = s.core d) ∧ same t)

/-! ## Lanes -/

/-- R24, R26 to R29, R194, R195: in a row that issues, a lane's operation with a result enters its results with latency,
physical destination and route; the one result or landing that is due is written at the row's end to its register or predicate
unless nw suppresses it, to the latches om selects and, with op, to the bound output stream; with nothing due the lane keeps
all of them. The region gains the flags of the operations issued.
R192, R193, R27, R28, R23, R122: operands a and b come from their origins: a register under the rotating base, the facing
latch of a neighbour (zero at the grid's edge), the bound element of the presented beat, or the immediate; d is a register.
R200 to R208, R45, R56: moves and integer operations give w-bit results in the written form of the type; the saturating forms
clamp the exact result and raise ST where that changes it; SHRR rounds to nearest even; CMP combines with the old predicate.
R209 to R214, R54, R69: floating sums, products and fused products are exact and rounded once; FMIN and FMAX order -0 below
+0; FABS and FNEG change the sign alone; FCMP compares as reals; special operands give Table 13-5, FRCP the rounded quotient,
FEXP2 and FLOG2 their exact powers of two; CVT rounds, extends, saturates or wraps as its formats say.
R215 to R227, R33: LDS, LDT and ACR give their bytes or element; in a row that issues, a single STS or STT stores its bytes and
changes no others; STG, AMOG, BSIG and SSEND enter the store queue in the row's order with address and data; LDG and AMOG take a
landing slot; BRKPT freezes the region with its lowest lane's record, and EXIT ends the loop. -/
def Obligations.LaneOperationsComplete : Prop :=
  (
  ∀ (s : State) (c : Nat), s.rowIssues c → ∃ t, exec (.rowAdvance c) s = .next t ∧
    (∀ b, b < 3 → ((t.region c).flags.getLsbD b = true ↔ (s.region c).flags.getLsbD b = true ∨
      ∃ x ∈ s.laneActs c, x.op.latency 16 ≠ none ∧ x.op ∉ [.ldg, .amog] ∧ (s.laneRes c x).2.getLsbD b = true)) ∧
    ∀ l, l < 16 → ((s.laneActs c).filter fun x => x.lane == l).length ≤ 1 →
      ((∃ x ∈ s.laneActs c, x.lane = l ∧ x.op ∈ [.ldg, .amog]) →
        2 ≤ dGlat (s.region c).desc ∧ ∃ m, m < 4 ∧ (s.region c).landing l m = none) →
      let r := s.region c
      let v := r.lane l
      let u := (t.region c).lane l
      let mine := ((s.laneActs c).filter fun x => x.lane == l).flatMap fun x =>
        match x.op.latency 16 with
        | some n => if x.op ∈ [.ldg, .amog] ∨ (x.aw.nw = true ∧ x.rt.om = 0 ∧ x.rt.op = false) then [] else
            [{ rem := n, op := x.rt.op, om := BitVec.ofNat 4 x.rt.om, pr := x.op.isPred, nw := x.aw.nw,
               dest := if x.op.isPred then x.aw.d % 8 else if x.aw.d < 24 then (x.aw.d + r.rrb) % 24 else x.aw.d,
               value := (s.laneRes c x).1 }]
        | none => []
      let due := ((v.res ++ mine).filter fun x => x.rem ≤ 1) ++
        v.land.filterMap fun (_, y) => y.bind fun z => if z.rem ≤ 1 then some z.result else none
      u.res = ((v.res ++ mine).filter fun x => 1 < x.rem).map (fun x => { x with rem := x.rem - 1 }) ∧
      (due = [] → (∀ n, n < 32 → u.reg n = v.reg n) ∧ (∀ n, n < 8 → u.pred n = v.pred n) ∧
        ∀ n, n < 4 → Tab.get 0 u.lat n = Tab.get 0 v.lat n) ∧
      (∀ x, due = [x] →
        (∀ n, n < 32 → u.reg n = if x.nw = false ∧ x.pr = false ∧ n = x.dest then x.value else v.reg n) ∧
        (∀ n, n < 8 → u.pred n = if x.nw = false ∧ x.pr = true ∧ n = x.dest ∧ n ≠ 0 then x.value != 0 else v.pred n) ∧
        (∀ n, n < 4 → Tab.get 0 u.lat n = if x.om.getLsbD (3 - n) then x.value else Tab.get 0 v.lat n) ∧
        (x.op = true → ∀ p e y, r.outBinding l = some (p, e) → (s.portOf c p).stream = some y → y.exhausted = false →
          y.stop = false → y.isOut = true → p ∉ r.advances →
          (∀ m, m < 16 → m ≠ l → r.outBinding m ≠ some (p, e)) →
          ∃ z, (t.port c p).stream = some z ∧ Tab.get 0 z.pushed e = x.value ∧
            ∀ q, (∀ m, m < 16 → r.outBinding m ≠ some (p, q)) → Tab.get 0 z.pushed q = Tab.get 0 y.pushed q))) ∧
  (
  ∀ (s : State) (c : Nat) (x : LaneAct), x.lane < 16 →
    let r := s.region c
    let l := x.lane
    let reg := fun n => (r.lane l).reg (if n < 24 then (n + r.rrb) % 24 else n)
    let facing := fun o => if o = 1 then (if l < 4 then 0 else Tab.get 0 (r.lane (l - 4)).lat 2)
      else if o = 2 then (if l % 4 = 3 then 0 else Tab.get 0 (r.lane (l + 1)).lat 3)
      else if o = 3 then (if 12 ≤ l then 0 else Tab.get 0 (r.lane (l + 4)).lat 0)
      else if l % 4 = 0 then 0 else Tab.get 0 (r.lane (l - 1)).lat 1
    let from_ := fun (v : W32) (o n : Nat) (off : Bool) =>
      (o = 0 → v = reg n) ∧ (1 ≤ o → o ≤ 4 → v = facing o) ∧
      (∀ ab p e b, ab < 2 → o = 5 + ab → r.inBinding l ab = some (p, e) → (s.portOf c p).shown = some b → v = b.vals.getD e 0) ∧
      (o = 7 → v = if off then BitVec.ofInt 32 (if x.w.im < 512 then (x.w.im : Int) else x.w.im - 1024)
        else if x.w.ty = 2 then BitVec.ofNat 32 x.w.im <<< 22 else if x.w.ty = 3 then BitVec.ofNat 32 x.w.im <<< 6
        else if tySigned x.w.ty then (BitVec.ofNat 10 x.w.im).signExtend 32 else BitVec.ofNat 32 x.w.im)
    x.w.im < 1024 →
    (x.op.readsA = true → from_ (s.laneRead c x).a x.rt.oa x.aw.a false) ∧
    (x.op.readsB x.w.im = true → from_ (s.laneRead c x).b x.rt.ob x.aw.b (x.op == .lds || x.op == .sts)) ∧
    (x.op.readsD x.w.im = true → (s.laneRead c x).d = reg x.aw.d) ∧
    (x.op.isGlobal = true →
      (s.laneRead c x).base = (r.lane l).reg (25 + 2 * (x.w.im % 4)) ++ (r.lane l).reg (24 + 2 * (x.w.im % 4)))) ∧
  (
  ∀ (s : State) (c : Nat) (x : LaneAct),
    let i := s.laneRead c x
    let r := s.region c
    let w := tyWidth x.w.ty
    let A : BitVec w := i.a.setWidth w
    let B : BitVec w := i.b.setWidth w
    let D : BitVec w := i.d.setWidth w
    let sg := tySigned x.w.ty
    let ext := fun (v : BitVec w) => if sg then v.signExtend 32 else v.zeroExtend 32
    let int := fun (v : BitVec w) => if sg then v.toInt else (v.toNat : Int)
    let sh := i.b.toNat % 32
    let lt := fun (p q : BitVec w) => if sg then p.slt q else p.ult q
    let gives := fun (o : LaneOp) (v : W32) => x.op = o → s.laneRes c x = (v, 0)
    let sats := fun (o : LaneOp) (v : Int) => x.op = o →
      let lo : Int := if sg then -(2 ^ (w - 1)) else 0
      let hi : Int := if sg then 2 ^ (w - 1) - 1 else 2 ^ w - 1
      s.laneRes c x = (ext (BitVec.ofInt w (max lo (min hi v))), if v < lo ∨ hi < v then 4 else 0)
    gives .mov (ext A) ∧ gives .sel (ext (if x.w.im % 8 = 0 ∨ (r.lane x.lane).p.getLsbD (x.w.im % 8) = true then A else B)) ∧
    (let v := x.aw.a * 2 ^ 15 + x.aw.b * 2 ^ 10 + x.w.im
     v < 2 ^ 20 → gives .movi (if x.w.ty = 0 then (BitVec.ofNat 20 v).signExtend 32 else if x.w.ty = 1 then BitVec.ofNat 32 v
       else if x.w.ty = 2 then BitVec.ofNat 32 v <<< 12 else ext (BitVec.ofNat w v))) ∧
    (∀ v, [r.ioff + BitVec.ofNat 32 (dIstr r.desc) * (r.k - BitVec.ofNat 32 x.stage), BitVec.ofNat 32 x.lane,
        BitVec.ofNat 32 c, BitVec.ofNat 32 r.kcp, BitVec.ofNat 32 r.ncp, BitVec.ofNat 32 r.rrb, BitVec.ofNat 32 s.time,
        BitVec.ofNat 32 (s.time / 2 ^ 32), r.k - BitVec.ofNat 32 x.stage, r.k][x.w.im]? = some v → gives .rds v) ∧
    (tyFloat x.w.ty = false →
      gives .add (ext (A + B)) ∧ gives .sub (ext (A - B)) ∧
      gives .mulh (ext (if sg then (A.signExtend (2 * w) * B.signExtend (2 * w)).extractLsb' w w
        else (A.zeroExtend (2 * w) * B.zeroExtend (2 * w)).extractLsb' w w)) ∧
      (x.w.im % 2 = 0 → gives .mul (ext (A * B)) ∧ gives .mad (ext (D + A * B)) ∧
        (sg = true → gives .neg (ext (-A)) ∧ gives .abs (ext (if A.slt 0 then -A else A)))) ∧
      (x.w.im % 2 = 1 → sats .mul (int A * int B) ∧ sats .mad (int D + int A * int B) ∧
        (sg = true → sats .neg (-A.toInt) ∧ sats .abs A.toInt.natAbs)) ∧
      sats .adds (int A + int B) ∧ sats .subs (int A - int B) ∧
      gives .and (ext (A &&& B)) ∧ gives .or (ext (A ||| B)) ∧ gives .xor (ext (A ^^^ B)) ∧ gives .andn (ext (A &&& ~~~B)) ∧
      gives .shl (ext (A <<< sh)) ∧ gives .shr (ext (A >>> sh)) ∧ (sg = true → gives .sar (ext (A.sshiftRight sh))) ∧
      gives .shrr (ext (BitVec.ofInt w (nearestQuot (int A) (2 ^ sh)))) ∧
      gives .min (ext (if lt A B then A else B)) ∧ gives .max (ext (if lt A B then B else A)) ∧
      (x.op = .clz → ∃ n, s.laneRes c x = (BitVec.ofNat 32 n, 0) ∧ n ≤ w ∧ A.toNat < 2 ^ (w - n) ∧
        (n < w → 2 ^ (w - n - 1) ≤ A.toNat)) ∧
      gives .popc (BitVec.ofNat 32 ((List.range w).filter fun j => A.getLsbD j).length) ∧
      (∀ h, [A == B, A != B, lt A B, !lt A B, !lt B A, lt B A][x.w.im % 8]? = some h → x.w.im / 16 % 4 ≠ 3 →
        let old := x.aw.d % 8 == 0 || (r.lane x.lane).p.getLsbD (x.aw.d % 8)
        let m := x.w.im / 16 % 4
        gives .cmp (if (if m = 0 then h else if m = 1 then h && old else h || old) then 1 else 0)))) ∧
  (
  ∀ (s : State) (c : Nat) (x : LaneAct), x.w.ty < 8 →
    let i := s.laneRead c x
    let ty := x.w.ty
    let F := tyFmt ty
    let n := tyWidth ty
    let p := i.a.toNat % 2 ^ n
    let q := i.b.toNat % 2 ^ n
    let a := Num.ofBits F p
    let b := Num.ofBits F q
    let d := Num.ofBits F (i.d.toNat % 2 ^ n)
    let word := fun (y : Nat × Flags) => (BitVec.ofNat 32 y.1, y.2)
    let gives := fun (o : LaneOp) (y : Nat × Flags) => x.op = o → s.laneRes c x = word y
    let nan := a.isNan || b.isNan
    let inf := fun (neg : Bool) => F.signBit neg + F.infBits
    let one := roundF F .rne (.fin false 1 0)
    (tyFloat ty = true →
      gives .fadd (roundV F .rne (exactSum [a, b])) ∧ gives .fsub (roundV F .rne (exactSum [a, b.neg])) ∧
      gives .fmul (roundV F .rne (a.mul b)) ∧
      gives .ffma (roundV F .rne ((exactSum [(a.mul b).1, d]).1, ((a.mul b).2 && !d.isNan) || (exactSum [(a.mul b).1, d]).2)) ∧
      (nan = true → gives .fmin (F.canonNan, 0) ∧ gives .fmax (F.canonNan, 0)) ∧
      (nan = false →
        (a.lt b = true → gives .fmin (p, 0) ∧ gives .fmax (q, 0)) ∧ (b.lt a = true → gives .fmin (q, 0) ∧ gives .fmax (p, 0)) ∧
        (a.eqv b = true → a.isZero = false ∨ p = q → gives .fmin (p, 0) ∧ gives .fmax (p, 0)) ∧
        (a.isZero = true → b.isZero = true → gives .fmax (if a.sign then q else p, 0) ∧ gives .fmin (if a.sign then p else q, 0))) ∧
      gives .fabs (if a.isNan then F.canonNan else p % 2 ^ (n - 1), 0) ∧
      gives .fneg (if a.isNan then F.canonNan else if p < 2 ^ (n - 1) then p + 2 ^ (n - 1) else p - 2 ^ (n - 1), 0) ∧
      (x.w.im / 16 % 4 ≠ 3 →
        let h := if nan then x.w.im % 8 == 1 || x.w.im % 8 == 6
          else [a.eqv b, !a.eqv b, a.lt b, b.le a, a.le b, b.lt a, false, true].getD (x.w.im % 8) false
        let old := x.aw.d % 8 == 0 || ((s.region c).lane x.lane).p.getLsbD (x.aw.d % 8)
        let m := x.w.im / 16 % 4
        gives .fcmp (if (if m = 0 then h else if m = 1 then h && old else h || old) then 1 else 0, 0)) ∧
      (a = .nan → gives .frcp (F.canonNan, 0) ∧ gives .frsq (F.canonNan, 0) ∧ gives .fexp2 (F.canonNan, 0) ∧
        gives .flog2 (F.canonNan, 0) ∧ gives .ftanh (F.canonNan, 0)) ∧
      (a = .inf true → gives .frcp (F.signBit true, 0) ∧ gives .frsq (F.canonNan, 1) ∧ gives .fexp2 (0, 0) ∧
        gives .flog2 (F.canonNan, 1) ∧ gives .ftanh (F.signBit true + one.1, 0)) ∧
      (a = .inf false → gives .frcp (0, 0) ∧ gives .frsq (0, 0) ∧ gives .fexp2 (inf false, 0) ∧ gives .flog2 (inf false, 0) ∧
        gives .ftanh one) ∧
      (a.isZero = true → gives .frcp (inf a.sign, 0) ∧ gives .frsq (inf a.sign, 0) ∧ gives .fexp2 one ∧
        gives .flog2 (inf true, 0) ∧ gives .ftanh (p, 0)) ∧
      (∀ m e, a = .fin true m e → m ≠ 0 → gives .frsq (F.canonNan, 1) ∧ gives .flog2 (F.canonNan, 1)) ∧
      (∀ neg m e, a = .fin neg m e → m ≠ 0 → gives .frcp (roundF F .rne (divNum (.fin false 1 0) a))) ∧
      (∀ j : Int, a.eqv (Num.ofInt j) = true → gives .fexp2 (roundF F .rne (.fin false 1 j))) ∧
      (∀ j : Int, a.eqv (.fin false 1 j) = true → gives .flog2 (roundF F .rne (Num.ofInt j)))) ∧
    (x.op = .cvt →
      let src := x.w.im % 8
      let w := tyWidth src
      let mode : RMode := if bitAt x.w.im 3 then .rtz else .rne
      let A := i.a.toNat % 2 ^ w
      let real := Num.ofBits (tyFmt src) A
      let int : Int := if tySigned src ∧ 2 ^ (w - 1) ≤ A then (A : Int) - 2 ^ w else A
      let lo : Int := if tySigned ty then -(2 ^ (n - 1)) else 0
      let hi : Int := if tySigned ty then 2 ^ (n - 1) - 1 else 2 ^ n - 1
      let form := fun (v : Int) => if tySigned ty then (BitVec.ofInt n v).signExtend 32 else (BitVec.ofInt n v).zeroExtend 32
      (src = 2 → ty = 3 → s.laneRes c x = word (if bitAt x.w.im 4 then roundSat F real else roundF F mode real)) ∧
      (src = 3 → ty = 2 → bits x.w.im 3 2 = 0 → s.laneRes c x = word (if real.isNan then F.canonNan else A * 2 ^ 16, 0)) ∧
      (tyFloat src = false → tyFloat ty = true → s.laneRes c x = word (roundF F .rne (Num.ofInt int))) ∧
      (tyFloat src = true → tyFloat ty = false →
        s.laneRes c x = (form (f2i (tyInt ty) mode real).1, (f2i (tyInt ty) mode real).2)) ∧
      (tyFloat src = false → tyFloat ty = false → bitAt x.w.im 4 = true →
        s.laneRes c x = (form (max lo (min hi int)), if int < lo ∨ hi < int then 4 else 0)) ∧
      (tyFloat src = false → tyFloat ty = false → bitAt x.w.im 4 = false → s.laneRes c x = (form int, 0)))) ∧
  (
  ∀ (s : State) (c : Nat),
    let r := s.region c
    let n := r.owner.getD 0
    let acts := s.laneActs c
    let only := fun (o : LaneOp) (x : LaneAct) => acts.filter (fun y => y.op == o) = [x]
    (∀ x : LaneAct,
      let i := s.laneRead c x
      let w := tyBytes x.w.ty
      let ext := fun (y : List Byte) => let v : BitVec (tyWidth x.w.ty) := BitVec.ofNat _ (leNat y)
        if tySigned x.w.ty then v.signExtend 32 else v.zeroExtend 32
      (x.op = .lds → s.laneRes c x = (ext (s.windowBytes c n (i.a + i.b).toNat w), 0)) ∧
      (x.op = .ldt → s.laneRes c x = (ext (Tab.bytes 0 (s.tile c).tm (6144 * (x.w.im % 8) + 192 * i.a.toNat + w * i.b.toNat) w), 0)) ∧
      (x.op = .acr → s.laneRes c x = (Tab.get 0 (s.tile c).acc (1024 * (x.w.im % 8) + 32 * i.a.toNat + i.b.toNat), 0))) ∧
    (s.rowIssues c → ∃ t, exec (.rowAdvance c) s = .next t ∧
      ((∀ x ∈ acts, x.op ≠ .sts) → ∀ a, (t.core c).spadBytes a 1 = (s.core c).spadBytes a 1) ∧
      (∀ x, only .sts x →
        let i := s.laneRead c x
        let at_ := (s.core c).spadAddr n (i.a + i.b).toNat
        let w := tyBytes x.w.ty
        (t.core c).spadBytes at_ w = toLE w i.d.toNat ∧
        ∀ a, (a < at_ ∨ at_ + w ≤ a) → (t.core c).spadBytes a 1 = (s.core c).spadBytes a 1) ∧
      ((∀ x ∈ acts, x.op ≠ .stt) → ∀ a, Tab.get 0 (t.tile c).tm a = Tab.get 0 (s.tile c).tm a) ∧
      (∀ x, only .stt x →
        let i := s.laneRead c x
        let w := tyBytes x.w.ty
        let at_ := 6144 * (x.w.im % 8) + 192 * i.a.toNat + w * i.b.toNat
        Tab.bytes 0 (t.tile c).tm at_ w = toLE w i.d.toNat ∧
        ∀ a, (a < at_ ∨ at_ + w ≤ a) → Tab.get 0 (t.tile c).tm a = Tab.get 0 (s.tile c).tm a) ∧
      (let q := acts.filter fun x => x.op ∈ [.stg, .amog, .bsig, .ssend]
       ∃ es, (t.core c).stq = (s.core c).stq ++ es ∧ es.length = q.length ∧
        ∀ (j : Nat) (x : LaneAct) (e : StqEntry), q[j]? = some x → es[j]? = some e →
          let i := s.laneRead c x
          let b := s.windowBytes c n i.a.toNat 32
          e.slot = n ∧ e.lane = x.lane ∧
          (x.op = .stg → e.kind = 0 ∧ e.ty = BitVec.ofNat 3 x.w.ty ∧ e.va = i.base + i.a.signExtend 64 + i.b.signExtend 64 ∧
            e.data = i.d.zeroExtend 64) ∧
          (x.op = .amog → e.kind = x.w.im / 4 % 16 + 1 ∧ e.ty = BitVec.ofNat 3 x.w.ty ∧ e.va = i.base + i.a.signExtend 64 ∧
            e.data = i.b.zeroExtend 64 ∧ e.cmp = i.d) ∧
          (x.op = .bsig → e.kind = 9 ∧ e.data.toNat = i.a.toNat % 2 ^ 26) ∧
          (x.op = .ssend → e.kind = 10 ∧ e.handle.toNat = fld b 0 8 ∧ e.doff.toNat = fld b 0x10 4 ∧ e.bn.toNat = fld b 0x14 2 ∧
            e.flags.toNat = fld b 0x16 1 ∧
            e.data = if bitAt x.w.im 0 then i.b.zeroExtend 64 else BitVec.ofNat 64 (fld b 8 8))) ∧
      (∀ x m, x ∈ acts → x.op ∈ [.ldg, .amog] → acts.filter (fun y => y.lane == x.lane) = [x] → x.lane < 16 → m < 4 → 2 ≤ dGlat r.desc →
        r.landing x.lane m = none → (∀ k, k < m → r.landing x.lane k ≠ none) →
        let i := s.laneRead c x
        ∃ y, (t.region c).landing x.lane m = some y ∧ y.rem = dGlat r.desc - 1 ∧ y.amo = (x.op == .amog) ∧ y.reply = none ∧
          y.va = (if x.op = .amog then i.base + i.a.signExtend 64 else i.base + i.a.signExtend 64 + i.b.signExtend 64) ∧
          y.dest = (if x.aw.d < 24 then (x.aw.d + r.rrb) % 24 else x.aw.d) ∧ y.ty = BitVec.ofNat 3 x.w.ty) ∧
      (∀ x, acts.find? (fun y => y.op == .brkpt) = some x →
        (t.region c).st = .frozen ∧ (t.region c).t = r.t ∧ (t.region c).skip = true ∧
        ∃ f, (t.core r.issuer.1).frq = (s.core r.issuer.1).frq ++ [f] ∧ f.cause = 24 ∧ f.slot = r.issuer.2 ∧
          fld f.bytes 0 1 = 24 ∧ fld f.bytes 1 1 = 0x16 ∧ fld f.bytes 8 1 = x.lane % 256 ∧ fld f.bytes 9 1 = r.t % 256 ∧
          fld f.bytes 0x14 4 = x.w.im % 2 ^ 32) ∧
      ((t.region c).exited = (r.exited || acts.any fun y => y.op == .exit)) ∧
      ((r.t + 1) % dII r.desc ≠ 0 → ∀ b, b < 8 → (t.region c).mask.getLsbD b =
        (r.mask.getLsbD b && acts.all fun y => y.op != .exit || decide (y.stage ≤ b)))))
end

