-- ==== Sys2Proof/Laws/Tab.lean ====
section
/-! SUPPORT. Finite maps: reading after a write, and the canonical form. -/

namespace Sys2Proof

variable {α : Type}

@[simp] theorem Tab.get_set_self (d : α) (t : Tab α) (k : Nat) (v : α) : Tab.get d (Tab.set t k v) k = v := by
  induction t with
  | nil => simp [Tab.set, Tab.get]
  | cons p t ih =>
    obtain ⟨j, u⟩ := p
    unfold Tab.set
    split
    · simp [Tab.get]
    · split
      · simp [Tab.get]
      · rename_i h; simp [Tab.get, h, ih]

theorem Tab.get_set_ne (d : α) (t : Tab α) {k j : Nat} {v : α} (h : j ≠ k) : Tab.get d (Tab.set t k v) j = Tab.get d t j := by
  induction t with
  | nil => simp [Tab.set, Tab.get, h]
  | cons p t ih =>
    obtain ⟨i, u⟩ := p
    unfold Tab.set
    split
    · simp [Tab.get, h]
    · split
      · rename_i e; simp [Tab.get, h, ← e]
      · simp [Tab.get, ih]

@[simp] theorem Tab.set_set (t : Tab α) (k : Nat) (v w : α) : Tab.set (Tab.set t k v) k w = Tab.set t k w := by
  induction t with
  | nil => simp [Tab.set]
  | cons p t ih =>
    obtain ⟨j, u⟩ := p
    by_cases h : k < j
    · simp [Tab.set, h]
    · by_cases e : k = j
      · simp [Tab.set, e]
      · simp [Tab.set, h, e, ih]

theorem Tab.get_del_ne (d : α) (t : Tab α) {k j : Nat} (h : j ≠ k) : Tab.get d (Tab.del t k) j = Tab.get d t j := by
  induction t with
  | nil => simp [Tab.del]
  | cons p t ih =>
    obtain ⟨i, u⟩ := p
    unfold Tab.del
    split
    · rename_i e; simp [Tab.get, h, ← e, ih]
    · simp [Tab.get, ih]

@[simp] theorem Tab.get_del_self (d : α) (t : Tab α) (k : Nat) : Tab.get d (Tab.del t k) k = d := by
  induction t with
  | nil => rfl
  | cons p t ih =>
    obtain ⟨j, u⟩ := p
    unfold Tab.del
    split
    · exact ih
    · rename_i h; simp [Tab.get, h, ih]

/-! ## The canonical form -/

theorem Tab.get_above (d : α) (t : Tab α) (k : Nat) (h : Tab.above k t = true) : Tab.get d t k = d := by
  induction t with
  | nil => rfl
  | cons p t ih =>
    obtain ⟨j, u⟩ := p
    simp only [Tab.above, Bool.and_eq_true, decide_eq_true_eq] at h
    simp [Tab.get, Nat.ne_of_lt h.1, ih h.2]

theorem Tab.above_mono (t : Tab α) {j k : Nat} (h : j ≤ k) (a : Tab.above k t = true) : Tab.above j t = true := by
  induction t with
  | nil => rfl
  | cons p t ih =>
    simp only [Tab.above, Bool.and_eq_true, decide_eq_true_eq] at a ⊢
    exact ⟨by omega, ih a.2⟩

theorem Tab.above_set (t : Tab α) {j k : Nat} (v : α) (h : j < k) (a : Tab.above j t = true) :
    Tab.above j (Tab.set t k v) = true := by
  induction t with
  | nil => simp [Tab.set, Tab.above, h]
  | cons p t ih =>
    obtain ⟨i, u⟩ := p
    simp only [Tab.above, Bool.and_eq_true, decide_eq_true_eq] at a
    unfold Tab.set
    split
    · simp [Tab.above, h, a]
    · split
      · simp [Tab.above, h, a]
      · simp [Tab.above, a, ih a.2]

theorem Tab.above_del (t : Tab α) {j : Nat} (k : Nat) (a : Tab.above j t = true) : Tab.above j (Tab.del t k) = true := by
  induction t with
  | nil => rfl
  | cons p t ih =>
    obtain ⟨i, u⟩ := p
    simp only [Tab.above, Bool.and_eq_true, decide_eq_true_eq] at a
    unfold Tab.del
    split
    · exact ih a.2
    · simp [Tab.above, a, ih a.2]

theorem Tab.sorted_set (t : Tab α) (k : Nat) (v : α) (s : Tab.sorted t = true) : Tab.sorted (Tab.set t k v) = true := by
  induction t with
  | nil => rfl
  | cons p t ih =>
    obtain ⟨j, u⟩ := p
    simp only [Tab.sorted, Bool.and_eq_true] at s
    unfold Tab.set
    split
    · rename_i h
      simp [Tab.sorted, Tab.above, h, s, Tab.above_mono t (Nat.le_of_lt h) s.1]
    · split
      · rename_i h; simp [Tab.sorted, s, h]
      · rename_i h e
        simp [Tab.sorted, ih s.2, Tab.above_set t v (show j < k by omega) s.1]

theorem Tab.sorted_del (t : Tab α) (k : Nat) (s : Tab.sorted t = true) : Tab.sorted (Tab.del t k) = true := by
  induction t with
  | nil => rfl
  | cons p t ih =>
    obtain ⟨j, u⟩ := p
    simp only [Tab.sorted, Bool.and_eq_true] at s
    unfold Tab.del
    split
    · exact ih s.2
    · simp [Tab.sorted, ih s.2, Tab.above_del t k s.1]

variable [DecidableEq α]

theorem Tab.noDefault_set (d : α) (t : Tab α) (k : Nat) (v : α) (h : v ≠ d) (n : Tab.noDefault d t = true) :
    Tab.noDefault d (Tab.set t k v) = true := by
  induction t with
  | nil => simp [Tab.set, Tab.noDefault, h]
  | cons p t ih =>
    obtain ⟨j, u⟩ := p
    simp only [Tab.noDefault, Bool.and_eq_true, decide_eq_true_eq] at n
    unfold Tab.set
    split
    · simp [Tab.noDefault, h, n]
    · split
      · simp [Tab.noDefault, h, n]
      · simp [Tab.noDefault, n, ih n.2]

theorem Tab.noDefault_del (d : α) (t : Tab α) (k : Nat) (n : Tab.noDefault d t = true) :
    Tab.noDefault d (Tab.del t k) = true := by
  induction t with
  | nil => rfl
  | cons p t ih =>
    obtain ⟨j, u⟩ := p
    simp only [Tab.noDefault, Bool.and_eq_true, decide_eq_true_eq] at n
    unfold Tab.del
    split
    · exact ih n.2
    · simp [Tab.noDefault, n, ih n.2]

/-- A canonical write keeps the canonical form. -/
theorem Tab.canon_put (d : α) (t : Tab α) (k : Nat) (v : α) (c : Tab.canon d t = true) :
    Tab.canon d (Tab.put d t k v) = true := by
  simp only [Tab.canon, Bool.and_eq_true] at c ⊢
  unfold Tab.put
  split
  · exact ⟨Tab.sorted_del t k c.1, Tab.noDefault_del d t k c.2⟩
  · rename_i h; exact ⟨Tab.sorted_set t k v c.1, Tab.noDefault_set d t k v h c.2⟩

theorem Tab.get_put_ne (d : α) (t : Tab α) {k j : Nat} (v : α) (h : j ≠ k) :
    Tab.get d (Tab.put d t k v) j = Tab.get d t j := by
  unfold Tab.put
  split
  · exact Tab.get_del_ne d t h
  · exact Tab.get_set_ne d t h

@[simp] theorem Tab.get_put_self (d : α) (t : Tab α) (k : Nat) (v : α) : Tab.get d (Tab.put d t k v) k = v := by
  unfold Tab.put
  split
  · rename_i h; rw [Tab.get_del_self, h]
  · exact Tab.get_set_self d t k v

end Sys2Proof
end

