-- ==== Sys2Proof/Laws/Mem.lean ====
section
/-! SUPPORT. Memory: every operation on it keeps the canonical form, a read gives what was last written there, and a write
leaves every other byte alone. -/

namespace Sys2Proof.Machine

/-! ## The canonical form -/

/-- The form in terms of the list: addresses rise, and no byte is what an unlisted address reads as. -/
theorem memWfFrom_iff (fog : List (Nat × Nat × Nat)) (t : List Host.Cell) :
    memWfFrom fog t = true ↔ Tab.sorted t = true ∧ ∀ c ∈ t, c.2 ≠ fogDefault fog c.1 := by
  induction t with
  | nil => simp [memWfFrom, Tab.sorted]
  | cons p t ih => simp [memWfFrom, Tab.sorted, ih, and_assoc, and_left_comm]

theorem Tab.mem_set {α : Type} (t : Tab α) (k : Nat) (v : α) (c : Nat × α) (h : c ∈ Tab.set t k v) : c = (k, v) ∨ c ∈ t := by
  induction t with
  | nil => left; simpa [Tab.set] using h
  | cons p t ih =>
    obtain ⟨j, u⟩ := p
    unfold Tab.set at h
    split at h
    · simpa using h
    · split at h
      · rcases List.mem_cons.1 h with h | h
        · exact .inl h
        · exact .inr (List.mem_cons_of_mem _ h)
      · rcases List.mem_cons.1 h with h | h
        · exact .inr (h ▸ List.mem_cons_self ..)
        · exact (ih h).imp_right (List.mem_cons_of_mem _)

theorem Tab.mem_del {α : Type} (t : Tab α) (k : Nat) (c : Nat × α) (h : c ∈ Tab.del t k) : c ∈ t := by
  induction t with
  | nil => exact h
  | cons p t ih =>
    obtain ⟨j, u⟩ := p
    unfold Tab.del at h
    split at h
    · exact List.mem_cons_of_mem _ (ih h)
    · rcases List.mem_cons.1 h with h | h
      · exact h ▸ List.mem_cons_self ..
      · exact List.mem_cons_of_mem _ (ih h)

theorem memWfFrom_put (fog : List (Nat × Nat × Nat)) (t : List Host.Cell) (a : Nat) (b : Byte) (h : memWfFrom fog t = true) :
    memWfFrom fog (Tab.put (fogDefault fog a) t a b) = true := by
  rw [memWfFrom_iff] at h ⊢
  unfold Tab.put
  split
  · exact ⟨Tab.sorted_del t a h.1, fun c m => h.2 c (Tab.mem_del t a c m)⟩
  · rename_i n
    refine ⟨Tab.sorted_set t a b h.1, fun c m => ?_⟩
    rcases Tab.mem_set t a b c m with rfl | m
    · exact n
    · exact h.2 c m

theorem Tab.above_filter {α : Type} (p : Nat × α → Bool) (k : Nat) (t : Tab α) (h : Tab.above k t = true) :
    Tab.above k (t.filter p) = true := by
  induction t with
  | nil => rfl
  | cons q t ih =>
    simp only [Tab.above, Bool.and_eq_true, decide_eq_true_eq] at h
    by_cases e : p q = true
    · rw [List.filter_cons_of_pos e]; simp [Tab.above, h.1, ih h.2]
    · rw [List.filter_cons_of_neg e]; exact ih h.2

theorem Tab.sorted_filter {α : Type} (p : Nat × α → Bool) (t : Tab α) (h : Tab.sorted t = true) : Tab.sorted (t.filter p) = true := by
  induction t with
  | nil => rfl
  | cons q t ih =>
    simp only [Tab.sorted, Bool.and_eq_true] at h
    by_cases e : p q = true
    · rw [List.filter_cons_of_pos e]; simp [Tab.sorted, Tab.above_filter p q.1 t h.1, ih h.2]
    · rw [List.filter_cons_of_neg e]; exact ih h.2

/-- Taking a range out of the list and laying anything over that range keeps the form. -/
theorem memWfFrom_over (fog new : List (Nat × Nat × Nat)) (t : List Host.Cell) (b n : Nat) (h : memWfFrom fog t = true)
    (d : ∀ a, ¬ (b ≤ a ∧ a < b + n) → fogDefault new a = fogDefault fog a) :
    memWfFrom new (t.filter fun c => !(decide (b ≤ c.1 ∧ c.1 < b + n))) = true := by
  rw [memWfFrom_iff] at h ⊢
  refine ⟨Tab.sorted_filter _ t h.1, fun c m => ?_⟩
  obtain ⟨m, o⟩ := List.mem_filter.1 m
  have o : c.1 < b ∨ b + n ≤ c.1 := by simpa using o
  rw [d c.1 (by omega)]
  exact h.2 c m

/-! ## Every operation keeps it -/

theorem wf_reset : Memory.wf State.reset = true := rfl

theorem wf_pokeBytes (bs : List Byte) : ∀ (s : State) (a : Nat), Memory.wf s = true → Memory.wf (s.pokeBytes a bs) = true := by
  induction bs with
  | nil => exact fun _ _ h => h
  | cons b bs ih => exact fun s a h => ih _ _ (memWfFrom_put s.fog s.mem a b h)

theorem wf_setPois (s : State) (l : Loc) (p : Bool) (h : Memory.wf s = true) : Memory.wf (s.setPois l p) = true := by
  unfold State.setPois
  split
  · split
    · exact h
    · exact h
  · exact h

theorem wf_memWrite (s : State) (a : Nat) (bs : List Byte) (h : Memory.wf s = true) : Memory.wf (s.memWrite a bs) = true := by
  unfold State.memWrite
  split
  · exact h
  · exact wf_pokeBytes bs s a h

theorem wf_foldl_setPois (f : Nat → Loc) (l : List Nat) : ∀ s : State, Memory.wf s = true →
    Memory.wf (l.foldl (fun t g => t.setPois (f g) true) s) = true := by
  induction l with
  | nil => exact fun _ h => h
  | cons g l ih => exact fun s h => ih _ (wf_setPois s (f g) true h)

theorem wf_memWritePois (s : State) (a : Nat) (bs : List Byte) (h : Memory.wf s = true) : Memory.wf (s.memWritePois a bs) = true :=
  wf_foldl_setPois Loc.mem _ _ (wf_memWrite s a bs h)

theorem wf_writePieces (l : List (Nat × Nat)) : ∀ (s : State) (bs : List Byte), Memory.wf s = true →
    Memory.wf (s.writePieces l bs) = true := by
  induction l with
  | nil => exact fun _ _ h => h
  | cons p l ih => exact fun s bs h => ih _ _ (wf_memWrite s p.1 (bs.take p.2) h)

theorem wf_addFog (s : State) (b n : Nat) (h : Memory.wf s = true) : Memory.wf (s.addFog b n) = true :=
  memWfFrom_over s.fog _ s.mem b n h fun a o => (if_neg o : fogDefault ((b, n, s.fog.length + 1) :: s.fog) a = fogDefault s.fog a)

theorem wf_zeroRange (s : State) (b n : Nat) (h : Memory.wf s = true) : Memory.wf (s.zeroRange b n) = true := by
  refine memWfFrom_over s.fog _ s.mem b n h fun a o => ?_
  unfold State.zeroRange
  dsimp only
  split
  · exact if_neg o
  · rfl

/-! ## Reading after writing -/

theorem get_put_other {α : Type} [DecidableEq α] (d e : α) (t : Tab α) {k j : Nat} (v : α) (h : j ≠ k) :
    Tab.get d (Tab.put e t k v) j = Tab.get d t j := by
  unfold Tab.put
  split
  · exact Tab.get_del_ne d t h
  · exact Tab.get_set_ne d t h

theorem memByte_pokeBytes_out (bs : List Byte) : ∀ (s : State) (a k : Nat), (k < a ∨ a + bs.length ≤ k) →
    (s.pokeBytes a bs).memByte k = s.memByte k := by
  induction bs with
  | nil => exact fun _ _ _ _ => rfl
  | cons b bs ih =>
    intro s a k h
    simp only [List.length_cons] at h
    rw [State.pokeBytes, ih _ _ _ (by omega)]
    exact get_put_other _ _ _ b (show k ≠ a by omega)

theorem memByte_pokeBytes_in (bs : List Byte) : ∀ (s : State) (a i : Nat) (b : Byte), bs[i]? = some b →
    (s.pokeBytes a bs).memByte (a + i) = b := by
  induction bs with
  | nil => intro s a i b h; simp at h
  | cons c bs ih =>
    intro s a i b h
    cases i with
    | zero =>
      rw [State.pokeBytes, memByte_pokeBytes_out _ _ _ _ (by omega)]
      have : c = b := by simpa using h
      subst this
      exact Tab.get_put_self ..
    | succ i =>
      rw [State.pokeBytes, show a + (i + 1) = a + 1 + i by omega]
      exact ih _ _ _ _ (by simpa using h)

/-- A write leaves every byte it does not store to. -/
theorem memByte_memWrite_out (s : State) (a k : Nat) (bs : List Byte) (h : k < a ∨ a + bs.length ≤ k) :
    (s.memWrite a bs).memByte k = s.memByte k := by
  unfold State.memWrite
  split
  · rfl
  · exact memByte_pokeBytes_out bs s a k h

/-- A read after a write gives the byte written. -/
theorem memByte_memWrite_in (s : State) (a i : Nat) (bs : List Byte) (b : Byte) (h : bs[i]? = some b) :
    (s.memWrite a bs).memByte (a + i) = b := by
  unfold State.memWrite
  split
  · rename_i e
    rw [List.isEmpty_iff.1 e] at h
    simp at h
  · exact memByte_pokeBytes_in bs s a i b h

theorem memByte_addFog_out (s : State) (b n k : Nat) (h : k < b ∨ b + n ≤ k) : (s.addFog b n).memByte k = s.memByte k := by
  have o : ¬ (b ≤ k ∧ k < b + n) := by omega
  have f : ∀ (t : List Host.Cell) (d : Byte),
      Tab.get d (t.filter fun c => !(decide (b ≤ c.1 ∧ c.1 < b + n))) k = Tab.get d t k := by
    intro t d
    induction t with
    | nil => rfl
    | cons c t ih =>
      obtain ⟨a, v⟩ := c
      by_cases e : b ≤ a ∧ a < b + n
      · rw [List.filter_cons_of_neg (by simpa using e), ih, Tab.get, if_neg (show k ≠ a by omega)]
      · rw [List.filter_cons_of_pos (by simpa using Nat.lt_or_ge a b |>.imp_right fun g => by omega), Tab.get, Tab.get, ih]
  have g : (s.addFog b n).memDefault k = s.memDefault k := if_neg o
  rw [State.memByte, State.memByte, g]
  exact f s.mem _

end Sys2Proof.Machine
end

