-- ==== Sys2Proof/Laws/State.lean ====
section
/-! SUPPORT. Reading a state after an update: every named update of a core, a slot or a control context is brought to
`setCore`, and each field of the state, a core or a context is read through it by one rewriting. -/

namespace Sys2Proof.Machine

@[simp] theorem State.setCore_cur (s : State) (c : Nat) (k : Core) : (s.setCore c k).cur = s.cur := rfl
@[simp] theorem State.setCore_agenda (s : State) (c : Nat) (k : Core) : (s.setCore c k).agenda = s.agenda := rfl
@[simp] theorem State.setCore_dies (s : State) (c : Nat) (k : Core) : (s.setCore c k).dies = s.dies := rfl
@[simp] theorem State.setCore_ifaces (s : State) (c : Nat) (k : Core) : (s.setCore c k).ifaces = s.ifaces := rfl
@[simp] theorem State.setCore_mem (s : State) (c : Nat) (k : Core) : (s.setCore c k).mem = s.mem := rfl
@[simp] theorem State.setCore_fog (s : State) (c : Nat) (k : Core) : (s.setCore c k).fog = s.fog := rfl
@[simp] theorem State.setCore_poison (s : State) (c : Nat) (k : Core) : (s.setCore c k).poison = s.poison := rfl
@[simp] theorem State.setCore_resvs (s : State) (c : Nat) (k : Core) : (s.setCore c k).resvs = s.resvs := rfl
@[simp] theorem State.setCore_net (s : State) (c : Nat) (k : Core) : (s.setCore c k).net = s.net := rfl
@[simp] theorem State.setCore_netNo (s : State) (c : Nat) (k : Core) : (s.setCore c k).netNo = s.netNo := rfl
@[simp] theorem State.setCore_tokens (s : State) (c : Nat) (k : Core) : (s.setCore c k).tokens = s.tokens := rfl
@[simp] theorem State.setCore_tokenNo (s : State) (c : Nat) (k : Core) : (s.setCore c k).tokenNo = s.tokenNo := rfl
@[simp] theorem State.setCore_launchNo (s : State) (c : Nat) (k : Core) : (s.setCore c k).launchNo = s.launchNo := rfl
@[simp] theorem State.setCore_handles (s : State) (c : Nat) (k : Core) : (s.setCore c k).handles = s.handles := rfl
@[simp] theorem State.setCore_saved (s : State) (c : Nat) (k : Core) : (s.setCore c k).saved = s.saved := rfl
@[simp] theorem State.setCore_links (s : State) (c : Nat) (k : Core) : (s.setCore c k).links = s.links := rfl
@[simp] theorem State.setCore_routes (s : State) (c : Nat) (k : Core) : (s.setCore c k).routes = s.routes := rfl
@[simp] theorem State.setCore_podid (s : State) (c : Nat) (k : Core) : (s.setCore c k).podid = s.podid := rfl
@[simp] theorem State.setCore_cycles (s : State) (c : Nat) (k : Core) : (s.setCore c k).cycles = s.cycles := rfl
@[simp] theorem State.setCore_life (s : State) (c : Nat) (k : Core) : (s.setCore c k).life = s.life := rfl
@[simp] theorem State.setCore_mregs (s : State) (c : Nat) (k : Core) : (s.setCore c k).mregs = s.mregs := rfl
@[simp] theorem State.setCore_bootFailed (s : State) (c : Nat) (k : Core) : (s.setCore c k).bootFailed = s.bootFailed := rfl
@[simp] theorem State.setCore_debugOpen (s : State) (c : Nat) (k : Core) : (s.setCore c k).debugOpen = s.debugOpen := rfl
@[simp] theorem State.setCore_part (s : State) (c : Nat) (k : Core) : (s.setCore c k).part = s.part := rfl
@[simp] theorem State.setCore_ir (s : State) (c : Nat) (k : Core) : (s.setCore c k).ir = s.ir := rfl
@[simp] theorem State.setCore_keyNo (s : State) (c : Nat) (k : Core) : (s.setCore c k).keyNo = s.keyNo := rfl
@[simp] theorem State.setCore_out (s : State) (c : Nat) (k : Core) : (s.setCore c k).out = s.out := rfl
@[simp] theorem State.setCore_free (s : State) (c : Nat) (k : Core) : (s.setCore c k).free = s.free := rfl

@[simp] theorem State.modDie_cur (s : State) (d : Nat) (g : Die → Die) : (s.modDie d g).cur = s.cur := rfl
@[simp] theorem State.modDie_agenda (s : State) (d : Nat) (g : Die → Die) : (s.modDie d g).agenda = s.agenda := rfl
@[simp] theorem State.modDie_cores (s : State) (d : Nat) (g : Die → Die) : (s.modDie d g).cores = s.cores := rfl
@[simp] theorem State.modDie_ifaces (s : State) (d : Nat) (g : Die → Die) : (s.modDie d g).ifaces = s.ifaces := rfl
@[simp] theorem State.modDie_mem (s : State) (d : Nat) (g : Die → Die) : (s.modDie d g).mem = s.mem := rfl
@[simp] theorem State.modDie_fog (s : State) (d : Nat) (g : Die → Die) : (s.modDie d g).fog = s.fog := rfl
@[simp] theorem State.modDie_poison (s : State) (d : Nat) (g : Die → Die) : (s.modDie d g).poison = s.poison := rfl
@[simp] theorem State.modDie_resvs (s : State) (d : Nat) (g : Die → Die) : (s.modDie d g).resvs = s.resvs := rfl
@[simp] theorem State.modDie_net (s : State) (d : Nat) (g : Die → Die) : (s.modDie d g).net = s.net := rfl
@[simp] theorem State.modDie_netNo (s : State) (d : Nat) (g : Die → Die) : (s.modDie d g).netNo = s.netNo := rfl
@[simp] theorem State.modDie_tokens (s : State) (d : Nat) (g : Die → Die) : (s.modDie d g).tokens = s.tokens := rfl
@[simp] theorem State.modDie_tokenNo (s : State) (d : Nat) (g : Die → Die) : (s.modDie d g).tokenNo = s.tokenNo := rfl
@[simp] theorem State.modDie_launchNo (s : State) (d : Nat) (g : Die → Die) : (s.modDie d g).launchNo = s.launchNo := rfl
@[simp] theorem State.modDie_handles (s : State) (d : Nat) (g : Die → Die) : (s.modDie d g).handles = s.handles := rfl
@[simp] theorem State.modDie_saved (s : State) (d : Nat) (g : Die → Die) : (s.modDie d g).saved = s.saved := rfl
@[simp] theorem State.modDie_links (s : State) (d : Nat) (g : Die → Die) : (s.modDie d g).links = s.links := rfl
@[simp] theorem State.modDie_routes (s : State) (d : Nat) (g : Die → Die) : (s.modDie d g).routes = s.routes := rfl
@[simp] theorem State.modDie_podid (s : State) (d : Nat) (g : Die → Die) : (s.modDie d g).podid = s.podid := rfl
@[simp] theorem State.modDie_cycles (s : State) (d : Nat) (g : Die → Die) : (s.modDie d g).cycles = s.cycles := rfl
@[simp] theorem State.modDie_life (s : State) (d : Nat) (g : Die → Die) : (s.modDie d g).life = s.life := rfl
@[simp] theorem State.modDie_mregs (s : State) (d : Nat) (g : Die → Die) : (s.modDie d g).mregs = s.mregs := rfl
@[simp] theorem State.modDie_bootFailed (s : State) (d : Nat) (g : Die → Die) : (s.modDie d g).bootFailed = s.bootFailed := rfl
@[simp] theorem State.modDie_debugOpen (s : State) (d : Nat) (g : Die → Die) : (s.modDie d g).debugOpen = s.debugOpen := rfl
@[simp] theorem State.modDie_part (s : State) (d : Nat) (g : Die → Die) : (s.modDie d g).part = s.part := rfl
@[simp] theorem State.modDie_ir (s : State) (d : Nat) (g : Die → Die) : (s.modDie d g).ir = s.ir := rfl
@[simp] theorem State.modDie_keyNo (s : State) (d : Nat) (g : Die → Die) : (s.modDie d g).keyNo = s.keyNo := rfl
@[simp] theorem State.modDie_out (s : State) (d : Nat) (g : Die → Die) : (s.modDie d g).out = s.out := rfl
@[simp] theorem State.modDie_free (s : State) (d : Nat) (g : Die → Die) : (s.modDie d g).free = s.free := rfl

@[simp] theorem State.modIface_cur (s : State) (v : Nat) (g : Iface → Iface) : (s.modIface v g).cur = s.cur := rfl
@[simp] theorem State.modIface_agenda (s : State) (v : Nat) (g : Iface → Iface) : (s.modIface v g).agenda = s.agenda := rfl
@[simp] theorem State.modIface_cores (s : State) (v : Nat) (g : Iface → Iface) : (s.modIface v g).cores = s.cores := rfl
@[simp] theorem State.modIface_dies (s : State) (v : Nat) (g : Iface → Iface) : (s.modIface v g).dies = s.dies := rfl
@[simp] theorem State.modIface_mem (s : State) (v : Nat) (g : Iface → Iface) : (s.modIface v g).mem = s.mem := rfl
@[simp] theorem State.modIface_fog (s : State) (v : Nat) (g : Iface → Iface) : (s.modIface v g).fog = s.fog := rfl
@[simp] theorem State.modIface_poison (s : State) (v : Nat) (g : Iface → Iface) : (s.modIface v g).poison = s.poison := rfl
@[simp] theorem State.modIface_resvs (s : State) (v : Nat) (g : Iface → Iface) : (s.modIface v g).resvs = s.resvs := rfl
@[simp] theorem State.modIface_net (s : State) (v : Nat) (g : Iface → Iface) : (s.modIface v g).net = s.net := rfl
@[simp] theorem State.modIface_netNo (s : State) (v : Nat) (g : Iface → Iface) : (s.modIface v g).netNo = s.netNo := rfl
@[simp] theorem State.modIface_tokens (s : State) (v : Nat) (g : Iface → Iface) : (s.modIface v g).tokens = s.tokens := rfl
@[simp] theorem State.modIface_tokenNo (s : State) (v : Nat) (g : Iface → Iface) : (s.modIface v g).tokenNo = s.tokenNo := rfl
@[simp] theorem State.modIface_launchNo (s : State) (v : Nat) (g : Iface → Iface) : (s.modIface v g).launchNo = s.launchNo := rfl
@[simp] theorem State.modIface_handles (s : State) (v : Nat) (g : Iface → Iface) : (s.modIface v g).handles = s.handles := rfl
@[simp] theorem State.modIface_saved (s : State) (v : Nat) (g : Iface → Iface) : (s.modIface v g).saved = s.saved := rfl
@[simp] theorem State.modIface_links (s : State) (v : Nat) (g : Iface → Iface) : (s.modIface v g).links = s.links := rfl
@[simp] theorem State.modIface_routes (s : State) (v : Nat) (g : Iface → Iface) : (s.modIface v g).routes = s.routes := rfl
@[simp] theorem State.modIface_podid (s : State) (v : Nat) (g : Iface → Iface) : (s.modIface v g).podid = s.podid := rfl
@[simp] theorem State.modIface_cycles (s : State) (v : Nat) (g : Iface → Iface) : (s.modIface v g).cycles = s.cycles := rfl
@[simp] theorem State.modIface_life (s : State) (v : Nat) (g : Iface → Iface) : (s.modIface v g).life = s.life := rfl
@[simp] theorem State.modIface_mregs (s : State) (v : Nat) (g : Iface → Iface) : (s.modIface v g).mregs = s.mregs := rfl
@[simp] theorem State.modIface_bootFailed (s : State) (v : Nat) (g : Iface → Iface) : (s.modIface v g).bootFailed = s.bootFailed := rfl
@[simp] theorem State.modIface_debugOpen (s : State) (v : Nat) (g : Iface → Iface) : (s.modIface v g).debugOpen = s.debugOpen := rfl
@[simp] theorem State.modIface_part (s : State) (v : Nat) (g : Iface → Iface) : (s.modIface v g).part = s.part := rfl
@[simp] theorem State.modIface_ir (s : State) (v : Nat) (g : Iface → Iface) : (s.modIface v g).ir = s.ir := rfl
@[simp] theorem State.modIface_keyNo (s : State) (v : Nat) (g : Iface → Iface) : (s.modIface v g).keyNo = s.keyNo := rfl
@[simp] theorem State.modIface_out (s : State) (v : Nat) (g : Iface → Iface) : (s.modIface v g).out = s.out := rfl
@[simp] theorem State.modIface_free (s : State) (v : Nat) (g : Iface → Iface) : (s.modIface v g).free = s.free := rfl

@[simp] theorem State.takeFree_cur (s : State)  : (s.takeFree ).cur = s.cur := rfl
@[simp] theorem State.takeFree_agenda (s : State)  : (s.takeFree ).agenda = s.agenda := rfl
@[simp] theorem State.takeFree_cores (s : State)  : (s.takeFree ).cores = s.cores := rfl
@[simp] theorem State.takeFree_dies (s : State)  : (s.takeFree ).dies = s.dies := rfl
@[simp] theorem State.takeFree_ifaces (s : State)  : (s.takeFree ).ifaces = s.ifaces := rfl
@[simp] theorem State.takeFree_mem (s : State)  : (s.takeFree ).mem = s.mem := rfl
@[simp] theorem State.takeFree_fog (s : State)  : (s.takeFree ).fog = s.fog := rfl
@[simp] theorem State.takeFree_poison (s : State)  : (s.takeFree ).poison = s.poison := rfl
@[simp] theorem State.takeFree_resvs (s : State)  : (s.takeFree ).resvs = s.resvs := rfl
@[simp] theorem State.takeFree_net (s : State)  : (s.takeFree ).net = s.net := rfl
@[simp] theorem State.takeFree_netNo (s : State)  : (s.takeFree ).netNo = s.netNo := rfl
@[simp] theorem State.takeFree_tokens (s : State)  : (s.takeFree ).tokens = s.tokens := rfl
@[simp] theorem State.takeFree_tokenNo (s : State)  : (s.takeFree ).tokenNo = s.tokenNo := rfl
@[simp] theorem State.takeFree_launchNo (s : State)  : (s.takeFree ).launchNo = s.launchNo := rfl
@[simp] theorem State.takeFree_handles (s : State)  : (s.takeFree ).handles = s.handles := rfl
@[simp] theorem State.takeFree_saved (s : State)  : (s.takeFree ).saved = s.saved := rfl
@[simp] theorem State.takeFree_links (s : State)  : (s.takeFree ).links = s.links := rfl
@[simp] theorem State.takeFree_routes (s : State)  : (s.takeFree ).routes = s.routes := rfl
@[simp] theorem State.takeFree_podid (s : State)  : (s.takeFree ).podid = s.podid := rfl
@[simp] theorem State.takeFree_cycles (s : State)  : (s.takeFree ).cycles = s.cycles := rfl
@[simp] theorem State.takeFree_life (s : State)  : (s.takeFree ).life = s.life := rfl
@[simp] theorem State.takeFree_mregs (s : State)  : (s.takeFree ).mregs = s.mregs := rfl
@[simp] theorem State.takeFree_bootFailed (s : State)  : (s.takeFree ).bootFailed = s.bootFailed := rfl
@[simp] theorem State.takeFree_debugOpen (s : State)  : (s.takeFree ).debugOpen = s.debugOpen := rfl
@[simp] theorem State.takeFree_part (s : State)  : (s.takeFree ).part = s.part := rfl
@[simp] theorem State.takeFree_ir (s : State)  : (s.takeFree ).ir = s.ir := rfl
@[simp] theorem State.takeFree_keyNo (s : State)  : (s.takeFree ).keyNo = s.keyNo := rfl
@[simp] theorem State.takeFree_out (s : State)  : (s.takeFree ).out = s.out := rfl

@[simp] theorem Core.setSlot_mode (k : Core) (n : Nat) (l : Slot) : (k.setSlot n l).mode = k.mode := rfl
@[simp] theorem Core.setSlot_running (k : Core) (n : Nat) (l : Slot) : (k.setSlot n l).running = k.running := rfl
@[simp] theorem Core.setSlot_fw (k : Core) (n : Nat) (l : Slot) : (k.setSlot n l).fw = k.fw := rfl
@[simp] theorem Core.setSlot_csr (k : Core) (n : Nat) (l : Slot) : (k.setSlot n l).csr = k.csr := rfl
@[simp] theorem Core.setSlot_swin (k : Core) (n : Nat) (l : Slot) : (k.setSlot n l).swin = k.swin := rfl
@[simp] theorem Core.setSlot_ctxa (k : Core) (n : Nat) (l : Slot) : (k.setSlot n l).ctxa = k.ctxa := rfl
@[simp] theorem Core.setSlot_ctxStatus (k : Core) (n : Nat) (l : Slot) : (k.setSlot n l).ctxStatus = k.ctxStatus := rfl
@[simp] theorem Core.setSlot_ctxSlot (k : Core) (n : Nat) (l : Slot) : (k.setSlot n l).ctxSlot = k.ctxSlot := rfl
@[simp] theorem Core.setSlot_ctxBusy (k : Core) (n : Nat) (l : Slot) : (k.setSlot n l).ctxBusy = k.ctxBusy := rfl
@[simp] theorem Core.setSlot_bars (k : Core) (n : Nat) (l : Slot) : (k.setSlot n l).bars = k.bars := rfl
@[simp] theorem Core.setSlot_spad (k : Core) (n : Nat) (l : Slot) : (k.setSlot n l).spad = k.spad := rfl
@[simp] theorem Core.setSlot_banks (k : Core) (n : Nat) (l : Slot) : (k.setSlot n l).banks = k.banks := rfl
@[simp] theorem Core.setSlot_arm (k : Core) (n : Nat) (l : Slot) : (k.setSlot n l).arm = k.arm := rfl
@[simp] theorem Core.setSlot_region (k : Core) (n : Nat) (l : Slot) : (k.setSlot n l).region = k.region := rfl
@[simp] theorem Core.setSlot_tile (k : Core) (n : Nat) (l : Slot) : (k.setSlot n l).tile = k.tile := rfl
@[simp] theorem Core.setSlot_ports (k : Core) (n : Nat) (l : Slot) : (k.setSlot n l).ports = k.ports := rfl
@[simp] theorem Core.setSlot_stq (k : Core) (n : Nat) (l : Slot) : (k.setSlot n l).stq = k.stq := rfl
@[simp] theorem Core.setSlot_frq (k : Core) (n : Nat) (l : Slot) : (k.setSlot n l).frq = k.frq := rfl
@[simp] theorem Core.setSlot_tlb (k : Core) (n : Nat) (l : Slot) : (k.setSlot n l).tlb = k.tlb := rfl
@[simp] theorem Core.setSlot_icache (k : Core) (n : Nat) (l : Slot) : (k.setSlot n l).icache = k.icache := rfl
@[simp] theorem Core.setSlot_dcache (k : Core) (n : Nat) (l : Slot) : (k.setSlot n l).dcache = k.dcache := rfl
@[simp] theorem Core.setSlot_imcache (k : Core) (n : Nat) (l : Slot) : (k.setSlot n l).imcache = k.imcache := rfl
@[simp] theorem Core.setSlot_sliceUsed (k : Core) (n : Nat) (l : Slot) : (k.setSlot n l).sliceUsed = k.sliceUsed := rfl
@[simp] theorem Core.setSlot_parkTrap (k : Core) (n : Nat) (l : Slot) : (k.setSlot n l).parkTrap = k.parkTrap := rfl
@[simp] theorem Core.setSlot_outOfUse (k : Core) (n : Nat) (l : Slot) : (k.setSlot n l).outOfUse = k.outOfUse := rfl

/-! ## Cores -/

@[simp] theorem State.core_setCore_self (s : State) (c : Nat) (k : Core) : (s.setCore c k).core c = k :=
  Tab.get_set_self ..

@[simp] theorem State.core_setCore_ne (s : State) (c d : Nat) (k : Core) (h : d ≠ c) :
    (s.setCore c k).core d = s.core d := Tab.get_set_ne _ _ h

@[simp] theorem State.setCore_setCore (s : State) (c : Nat) (k l : Core) :
    (s.setCore c k).setCore c l = s.setCore c l := by simp [State.setCore]

/-- A core's update is all that `setCore` changes. -/
theorem State.setCore_only (s : State) (c : Nat) (k : Core) :
    s.setCore c k = { s with cores := (s.setCore c k).cores } := rfl

@[simp] theorem State.modDie_core (s : State) (d c : Nat) (g : Die → Die) : (s.modDie d g).core c = s.core c := rfl
@[simp] theorem State.modIface_core (s : State) (v c : Nat) (g : Iface → Iface) : (s.modIface v g).core c = s.core c := rfl
@[simp] theorem State.setCore_die (s : State) (c d : Nat) (k : Core) : (s.setCore c k).die d = s.die d := rfl
@[simp] theorem State.setCore_iface (s : State) (c v : Nat) (k : Core) : (s.setCore c k).iface v = s.iface v := rfl
@[simp] theorem State.setCore_queue (s : State) (c v q : Nat) (k : Core) : (s.setCore c k).queue v q = s.queue v q := rfl
@[simp] theorem State.die_modDie_self (s : State) (d : Nat) (g : Die → Die) : (s.modDie d g).die d = g (s.die d) :=
  Tab.get_set_self ..
@[simp] theorem State.die_modDie_ne (s : State) (d e : Nat) (g : Die → Die) (h : e ≠ d) :
    (s.modDie d g).die e = s.die e := Tab.get_set_ne _ _ h
@[simp] theorem State.iface_modIface_self (s : State) (v : Nat) (g : Iface → Iface) :
    (s.modIface v g).iface v = g (s.iface v) := Tab.get_set_self ..
@[simp] theorem State.iface_modIface_ne (s : State) (v w : Nat) (g : Iface → Iface) (h : w ≠ v) :
    (s.modIface v g).iface w = s.iface w := Tab.get_set_ne _ _ h

/-! ## Slots and control contexts -/

@[simp] theorem Core.slot_setSlot_self (k : Core) (n : Nat) (l : Slot) : (k.setSlot n l).slot n = l :=
  Tab.get_set_self ..
@[simp] theorem Core.slot_setSlot_ne (k : Core) (n m : Nat) (l : Slot) (h : m ≠ n) :
    (k.setSlot n l).slot m = k.slot m := Tab.get_set_ne _ _ h
@[simp] theorem Core.setSlot_setSlot (k : Core) (n : Nat) (l m : Slot) :
    (k.setSlot n l).setSlot n m = k.setSlot n m := by simp [Core.setSlot]

@[simp] theorem Core.ctl_setCtl (k : Core) (v : Ctl) : (k.setCtl v).ctl = v := by
  cases h : k.running <;> simp [Core.setCtl, Core.ctl, Core.modSlot, h]

@[simp] theorem Core.setCtl_setCtl (k : Core) (v w : Ctl) : (k.setCtl v).setCtl w = k.setCtl w := by
  cases h : k.running <;> simp [Core.setCtl, Core.modSlot, h]

@[simp] theorem Core.setCtl_mode (k : Core) (v : Ctl) : (k.setCtl v).mode = k.mode := by
  unfold Core.setCtl; split <;> rfl
@[simp] theorem Core.setCtl_running (k : Core) (v : Ctl) : (k.setCtl v).running = k.running := by
  unfold Core.setCtl; split <;> rfl
@[simp] theorem Core.setCtl_csr (k : Core) (v : Ctl) : (k.setCtl v).csr = k.csr := by
  unfold Core.setCtl; split <;> rfl
@[simp] theorem Core.setCtl_swin (k : Core) (v : Ctl) : (k.setCtl v).swin = k.swin := by
  unfold Core.setCtl; split <;> rfl
@[simp] theorem Core.setCtl_ctxa (k : Core) (v : Ctl) : (k.setCtl v).ctxa = k.ctxa := by
  unfold Core.setCtl; split <;> rfl
@[simp] theorem Core.setCtl_ctxStatus (k : Core) (v : Ctl) : (k.setCtl v).ctxStatus = k.ctxStatus := by
  unfold Core.setCtl; split <;> rfl
@[simp] theorem Core.setCtl_ctxSlot (k : Core) (v : Ctl) : (k.setCtl v).ctxSlot = k.ctxSlot := by
  unfold Core.setCtl; split <;> rfl
@[simp] theorem Core.setCtl_ctxBusy (k : Core) (v : Ctl) : (k.setCtl v).ctxBusy = k.ctxBusy := by
  unfold Core.setCtl; split <;> rfl
@[simp] theorem Core.setCtl_bars (k : Core) (v : Ctl) : (k.setCtl v).bars = k.bars := by
  unfold Core.setCtl; split <;> rfl
@[simp] theorem Core.setCtl_spad (k : Core) (v : Ctl) : (k.setCtl v).spad = k.spad := by
  unfold Core.setCtl; split <;> rfl
@[simp] theorem Core.setCtl_banks (k : Core) (v : Ctl) : (k.setCtl v).banks = k.banks := by
  unfold Core.setCtl; split <;> rfl
@[simp] theorem Core.setCtl_arm (k : Core) (v : Ctl) : (k.setCtl v).arm = k.arm := by
  unfold Core.setCtl; split <;> rfl
@[simp] theorem Core.setCtl_region (k : Core) (v : Ctl) : (k.setCtl v).region = k.region := by
  unfold Core.setCtl; split <;> rfl
@[simp] theorem Core.setCtl_tile (k : Core) (v : Ctl) : (k.setCtl v).tile = k.tile := by
  unfold Core.setCtl; split <;> rfl
@[simp] theorem Core.setCtl_ports (k : Core) (v : Ctl) : (k.setCtl v).ports = k.ports := by
  unfold Core.setCtl; split <;> rfl
@[simp] theorem Core.setCtl_stq (k : Core) (v : Ctl) : (k.setCtl v).stq = k.stq := by
  unfold Core.setCtl; split <;> rfl
@[simp] theorem Core.setCtl_frq (k : Core) (v : Ctl) : (k.setCtl v).frq = k.frq := by
  unfold Core.setCtl; split <;> rfl
@[simp] theorem Core.setCtl_tlb (k : Core) (v : Ctl) : (k.setCtl v).tlb = k.tlb := by
  unfold Core.setCtl; split <;> rfl
@[simp] theorem Core.setCtl_icache (k : Core) (v : Ctl) : (k.setCtl v).icache = k.icache := by
  unfold Core.setCtl; split <;> rfl
@[simp] theorem Core.setCtl_dcache (k : Core) (v : Ctl) : (k.setCtl v).dcache = k.dcache := by
  unfold Core.setCtl; split <;> rfl
@[simp] theorem Core.setCtl_imcache (k : Core) (v : Ctl) : (k.setCtl v).imcache = k.imcache := by
  unfold Core.setCtl; split <;> rfl
@[simp] theorem Core.setCtl_sliceUsed (k : Core) (v : Ctl) : (k.setCtl v).sliceUsed = k.sliceUsed := by
  unfold Core.setCtl; split <;> rfl
@[simp] theorem Core.setCtl_parkTrap (k : Core) (v : Ctl) : (k.setCtl v).parkTrap = k.parkTrap := by
  unfold Core.setCtl; split <;> rfl
@[simp] theorem Core.setCtl_outOfUse (k : Core) (v : Ctl) : (k.setCtl v).outOfUse = k.outOfUse := by
  unfold Core.setCtl; split <;> rfl

@[simp] theorem Core.setCtl_csr_update (k : Core) (v : Ctl) (m : MCsr) :
    ({ k.setCtl v with csr := m } : Core) = ({ k with csr := m } : Core).setCtl v := by
  cases h : k.running <;> simp [Core.setCtl, Core.modSlot, Core.setSlot, Core.slot, h]

@[simp] theorem Core.ctl_csr_update (k : Core) (m : MCsr) : ({ k with csr := m } : Core).ctl = k.ctl := rfl

theorem State.me_eq (s : State) : s.me = (s.core s.cur).ctl := rfl

@[simp] theorem State.modMe_eq (s : State) (f : Ctl → Ctl) :
    s.modMe f = s.setCore s.cur ((s.core s.cur).setCtl (f s.me)) := rfl

@[simp] theorem State.me_setCore_self (s : State) (k : Core) : (s.setCore s.cur k).me = k.ctl := by
  simp [State.me, State.ctl]

/-! ## Registers -/

@[simp] theorem Ctl.getX_zero (k : Ctl) : k.getX 0#5 = 0#64 := by simp [Ctl.getX]

@[simp] theorem Ctl.setX_zero (k : Ctl) (v : Word) : k.setX 0#5 v = k := by simp [Ctl.setX]

@[simp] theorem Ctl.getX_setX_self (k : Ctl) (r : Reg) (v : Word) (h : r ≠ 0) : (k.setX r v).getX r = v := by
  unfold Ctl.getX Ctl.setX
  rw [if_neg h, if_neg h]
  exact Tab.get_put_self ..

@[simp] theorem Ctl.getX_setX_ne (k : Ctl) (r q : Reg) (v : Word) (h : q ≠ r) : (k.setX r v).getX q = k.getX q := by
  unfold Ctl.getX Ctl.setX
  split
  · rfl
  · split
    · rfl
    · exact Tab.get_put_ne _ _ _ (by intro e; exact h (BitVec.eq_of_toNat_eq e))

theorem Ctl.getX_setX (k : Ctl) (r q : Reg) (v : Word) :
    (k.setX r v).getX q = if q = r ∧ r ≠ 0 then v else k.getX q := by
  by_cases h : q = r
  · subst h
    by_cases z : q = 0
    · subst z; rw [if_neg (by simp)]; exact congrArg (fun c => Ctl.getX c 0) (Ctl.setX_zero k v)
    · rw [if_pos ⟨rfl, z⟩, Ctl.getX_setX_self k q v z]
  · simp [h]

@[simp] theorem Ctl.getF_setF_self (k : Ctl) (r : Reg) (v : Word) : (k.setF r v).getF r = v := by
  simp [Ctl.getF, Ctl.setF]

@[simp] theorem Ctl.getF_setF_ne (k : Ctl) (r q : Reg) (v : Word) (h : q ≠ r) : (k.setF r v).getF q = k.getF q :=
  Tab.get_put_ne _ _ _ (by intro e; exact h (BitVec.eq_of_toNat_eq e))

theorem Ctl.setX_only (k : Ctl) (r : Reg) (v : Word) : k.setX r v = { k with x := (k.setX r v).x } := by
  unfold Ctl.setX; split <;> rfl

end Sys2Proof.Machine
end

