-- ==== Sys2Proof/Laws/Ops.lean ====
section
/-! SUPPORT. What the operations that control-core instructions share do: beginning, writing a register, completing. -/

namespace Sys2Proof.Machine

/-! ## Beginning -/

/-- A ready instruction goes on to its effect. -/
theorem State.begin_ready (s : State) (i : Instr) (rs : List Reg) (k : Out) (h : Ready rs s) : s.begin i rs k = k := by
  obtain ⟨hp, hr⟩ := h
  unfold State.begin
  rw [if_neg (by simp [hp]), if_neg]
  intro hx
  obtain ⟨r, hr', hx⟩ := List.any_eq_true.1 hx
  rcases hr r hr' with h0 | hn
  · subst h0; simp at hx
  · simp [hn] at hx

/-- An instruction that takes no prefix is illegal while a group is pending. -/
theorem State.begin_prefixed (s : State) (i : Instr) (rs : List Reg) (k : Out) (h : s.me.pre.isSome = true) :
    s.begin i rs k = s.illegal (s.bitsOf i) Enc.subMismatch := by
  unfold State.begin
  rw [if_pos h]

/-! ## Completing -/

theorem loopFilter_frame (p f : Bool) (l : List Nat) (k : Ctl) (pc : Word) :
    (loopFilter p f l k pc).1 = { k with loops := (loopFilter p f l k pc).1.loops } := by
  induction l generalizing k with
  | nil => rfl
  | cons m ms ih =>
    unfold loopFilter
    dsimp only
    split
    · split
      · rfl
      · split
        · rfl
        · rw [ih]; rfl
    · split
      · rw [ih]; rfl
      · rfl

/-- Passing an address through the loop levels changes the pc and the levels only. -/
theorem Ctl.goto_frame (k : Ctl) (f : Bool) (a : Word) :
    k.goto f a = { k with pc := (k.goto f a).pc, loops := (k.goto f a).loops } := by
  unfold Ctl.goto
  dsimp only
  rw [loopFilter_frame]

theorem Ctl.takeGroup_frame (k : Ctl) : k.takeGroup = { k with loops := k.takeGroup.loops, pre := none } := by
  unfold Ctl.takeGroup
  split
  · rfl
  · rename_i h
    have : k.pre = none := by simpa using h
    rw [← this]

/-- Completing changes the pc and the loop levels, and leaves no group and no wait. -/
theorem Ctl.advance_frame (k : Ctl) (n : Nat) :
    k.advance n = { k with pc := (k.advance n).pc, loops := (k.advance n).loops, pre := none, wait := none } := by
  unfold Ctl.advance
  dsimp only
  rw [Ctl.goto_frame, Ctl.takeGroup_frame]

theorem Ctl.jump_frame (k : Ctl) (a : Word) :
    k.jump a = { k with pc := (k.jump a).pc, loops := (k.jump a).loops, pre := none, wait := none } := by
  unfold Ctl.jump
  dsimp only
  rw [Ctl.goto_frame, Ctl.takeGroup_frame]

@[simp] theorem Core.counted_ctl (k : Core) (m : Word) : (k.counted m).ctl = k.ctl := rfl
@[simp] theorem Core.counted_running (k : Core) (m : Word) : (k.counted m).running = k.running := rfl
@[simp] theorem Core.counted_counted (k : Core) (m n : Word) : (k.counted m).counted n = k.counted n := rfl
@[simp] theorem Core.counted_minstret (k : Core) (m : Word) : (k.counted m).csr.minstret = m := rfl

@[simp] theorem Core.setCtl_counted (k : Core) (v : Ctl) (m : Word) :
    (k.setCtl v).counted m = (k.counted m).setCtl v := by
  cases h : k.running <;> simp [Core.setCtl, Core.modSlot, Core.setSlot, Core.slot, Core.counted, h]

/-- The core after one more instruction has retired. -/
theorem State.countInstr_eq (s : State) : ∃ m, s.countInstr = s.setCore s.cur ((s.core s.cur).counted m) := by
  unfold State.countInstr State.modCore
  by_cases h : (s.core s.cur).csr.mcountinhibit.getLsbD 2 = true
  · exact ⟨(s.core s.cur).csr.minstret, congrArg (s.setCore s.cur) (if_pos h)⟩
  · exact ⟨(s.core s.cur).csr.minstret + 1, congrArg (s.setCore s.cur) (if_neg h)⟩

/-- Completing an instruction moves one control context and counts. -/
theorem State.retire_eq (s : State) (n : Nat) :
    ∃ m, s.retire n = s.setCore s.cur (((s.core s.cur).counted m).setCtl (s.me.advance n)) := by
  obtain ⟨m, h⟩ := s.countInstr_eq
  exact ⟨m, by unfold State.retire; rw [h]; simp [State.me, State.ctl]⟩

theorem State.retireTo_eq (s : State) (a : Word) :
    ∃ m, s.retireTo a = s.setCore s.cur (((s.core s.cur).counted m).setCtl (s.me.jump a)) := by
  obtain ⟨m, h⟩ := s.countInstr_eq
  exact ⟨m, by unfold State.retireTo; rw [h]; simp [State.me, State.ctl]⟩

/-- A core whose context becomes `k`: `k` differs from the old context in registers, and is then completed. -/
theorem completed_of (s : State) (k c : Ctl) (m : Word) (xs fs : List Reg) (fl : Bool)
    (hk : k = { s.me with x := k.x, f := k.f, fcsr := k.fcsr })
    (hc : c = { k with pc := c.pc, loops := c.loops, pre := none, wait := none })
    (hx : ∀ r, r ∉ xs → k.getX r = s.me.getX r) (hf : ∀ r, r ∉ fs → k.getF r = s.me.getF r)
    (hfl : fl = false → k.fcsr = s.me.fcsr) :
    Completed xs fs fl s (s.setCore s.cur (((s.core s.cur).counted m).setCtl c)) := by
  have me : (s.setCore s.cur (((s.core s.cur).counted m).setCtl c)).me = c := by simp
  have x : ∀ r, (s.setCore s.cur (((s.core s.cur).counted m).setCtl c)).getX r = k.getX r := by
    intro r; rw [State.getX, me, hc]; rfl
  have f : ∀ r, (s.setCore s.cur (((s.core s.cur).counted m).setCtl c)).getF r = k.getF r := by
    intro r; rw [State.getF, me, hc]; rfl
  refine ⟨⟨⟨rfl, fun d hd => by simp [hd]⟩, by simp⟩, ⟨?_, fun r hr => ?_, fun r hr => ?_, fun h => ?_⟩, ?_, ?_, fun _ => rfl⟩
  · rw [me, hc, hk]
  · rw [x]; exact hx r hr
  · rw [f]; exact hf r hr
  · rw [me, hc]; exact hfl h
  · rw [me, hc]
  · rw [me, hc]

/-- Writing one register and completing: the register holds the value (x0 reads zero), nothing else changes. -/
theorem State.result_completed (s : State) (rd : Reg) (v : Word) (n : Nat) :
    ∃ t, s.result rd v n = .next t ∧ t.getX rd = (if rd = 0 then 0 else v) ∧ Completed [rd] [] false s t := by
  obtain ⟨m, h⟩ := (s.setX rd v).retire_eq n
  have e : (s.setX rd v).retire n
      = s.setCore s.cur (((s.core s.cur).counted m).setCtl ((s.me.setX rd v).advance n)) := by
    rw [h]; simp [State.setX, State.me, State.ctl]
  refine ⟨_, rfl, ?_, ?_⟩
  · rw [e, State.getX, State.me_setCore_self, Core.ctl_setCtl, Ctl.advance_frame]
    show (s.me.setX rd v).getX rd = _
    by_cases z : rd = 0
    · subst z; simp [Ctl.getX]
    · rw [Ctl.getX_setX_self _ _ _ z, if_neg z]
  · rw [e]
    exact completed_of s _ _ m [rd] [] false (by rw [Ctl.setX_only]) (Ctl.advance_frame ..)
      (fun r hr => Ctl.getX_setX_ne _ _ _ _ (by simpa using hr)) (fun r _ => by rw [Ctl.setX_only]; rfl)
      (fun _ => by rw [Ctl.setX_only])

end Sys2Proof.Machine
end

