-- ==== Sys2Proof/Tests/Slice0.lean ====
section
/-! SUPPORT. Tests: each encoding of the opcode table decodes, ill-formed terms are refused, and for each statement states that
meet its hypotheses, with results worked out by hand from the rules. -/

open Sys2Proof Sys2Proof.Machine

namespace Sys2Proof.Tests

set_option Elab.async false

/-- Words of region, R129, each field at a value of its own; the bits as spec/opcode_table.json gives them. -/
theorem test_decode_region :
  decodeTableWord 32 0b00000001100101101000100100001011 = some (.rcfg 18 13 25) ∧
  decodeTableWord 32 0b00000011100101101000100100001011 = some (.rlnch 18 13 25) ∧
  decodeTableWord 32 0b00000100000000000000100100001011 = some (.rwait 18) ∧
  decodeTableWord 32 0b00000110000000000000100100001011 = some (.rhalt 18) ∧
  decodeTableWord 32 0b00001000000001101000100100001011 = some (.rsave 18 13) ∧
  decodeTableWord 32 0b00001010000001101000100100001011 = some (.rrstr 18 13) ∧
  decodeTableWord 32 0b00001100000001101000100100001011 = some (.rstat 18 13) ∧
  decodeTableWord 32 0b00001110000000000000100100001011 = some (.riter 18) := by decide +kernel

/-- Words of loops and barriers, R130, R129, each field at a value of its own; the bits as spec/opcode_table.json gives them. -/
theorem test_decode_loops_barriers :
  decodeTableWord 32 0b00101011001001101001000000001011 = some (.loop 2 178 13) ∧
  decodeTableWord 32 0b01101011001001011001000000001011 = some (.loopi 2 178 11) ∧
  decodeTableWord 32 0b10100000000000000001000000001011 = some (.lbrk 2) ∧
  decodeTableWord 32 0b00000001100101101010100100001011 = some (.binit 18 13 25) ∧
  decodeTableWord 32 0b00000010000001101010000000001011 = some (.barv 13) ∧
  decodeTableWord 32 0b00000100000001101010100100001011 = some (.bwait 18 13) ∧
  decodeTableWord 32 0b00000110000001101010100100001011 = some (.barw 18 13) ∧
  decodeTableWord 32 0b00001000000001101010100100001011 = some (.btest 18 13) ∧
  decodeTableWord 32 0b00001010000001101010100100001011 = some (.bphase 18 13) := by decide +kernel

/-- Words of messages and events, R129, each field at a value of its own; the bits as spec/opcode_table.json gives them. -/
theorem test_decode_messages :
  decodeTableWord 32 0b00000001100101101011100100001011 = some (.ssig 18 13 25) ∧
  decodeTableWord 32 0b00000010000000000011100100001011 = some (.evpop 18) ∧
  decodeTableWord 32 0b00000100000000000011100100001011 = some (.evpeek 18) ∧
  decodeTableWord 32 0b00000110000000000011100100001011 = some (.evcnt 18) := by decide +kernel

/-- Words of ordering and atomics, R131, each field at a value of its own; the bits as spec/opcode_table.json gives them. -/
theorem test_decode_atomics :
  decodeTableWord 32 0b00001000000000010100000010001011 = some (.zfence 4 2 1) ∧
  decodeTableWord 32 0b00011001100101101100101100001011 = some (.aaddW 4 25 13 true false 6) ∧
  decodeTableWord 32 0b00101001100101101100101100001011 = some (.aminsW 4 25 13 true false 6) ∧
  decodeTableWord 32 0b00111001100101101100101100001011 = some (.amaxsW 4 25 13 true false 6) ∧
  decodeTableWord 32 0b01001001100101101100101100001011 = some (.axchgW 4 25 13 true false 6) ∧
  decodeTableWord 32 0b01011001100101101100101100001011 = some (.acasW 4 25 13 true false 6) ∧
  decodeTableWord 32 0b10011001100101101100011100001011 = some (.aaddD 4 25 13 false true 6) ∧
  decodeTableWord 32 0b10101001100101101100011100001011 = some (.aminsD 4 25 13 false true 6) ∧
  decodeTableWord 32 0b10111001100101101100011100001011 = some (.amaxsD 4 25 13 false true 6) ∧
  decodeTableWord 32 0b11001001100101101100011100001011 = some (.axchgD 4 25 13 false true 6) ∧
  decodeTableWord 32 0b11011001100101101100011100001011 = some (.acasD 4 25 13 false true 6) := by decide +kernel

/-- Words of tasks, budget, time and prefixes, R129, R132, each field at a value of its own; the bits as spec/opcode_table.json gives them. -/
theorem test_decode_tasks :
  decodeTableWord 32 0b00000000000001101101000000001011 = some (.tend 13) ∧
  decodeTableWord 32 0b00000010000000000101000000001011 = some (.tyield) ∧
  decodeTableWord 32 0b00000100000001101101100100001011 = some (.thand 18 13) ∧
  decodeTableWord 32 0b00000110000000000101100100001011 = some (.tslot 18) ∧
  decodeTableWord 32 0b00001001100101101101100100001011 = some (.tspawn 18 13 25) ∧
  decodeTableWord 32 0b00000000000001101110100100001011 = some (.budq 18 13) ∧
  decodeTableWord 32 0b00000010000000000110100100001011 = some (.tstamp 18) ∧
  decodeTableWord 32 0b00001000000000000111000000001011 = some (.scope 4) ∧
  decodeTableWord 32 0b00100101100101101111000010001011 = some (.logp 0 2 1 25 13) := by decide +kernel

/-- Words of custom-3, R136, R137, each field at a value of its own; the bits as spec/opcode_table.json gives them. -/
theorem test_decode_system :
  decodeTableWord 32 0b00001001100101101000000001111011 = some (.icinv 4 25 13) ∧
  decodeTableWord 32 0b00001001100101101001000001111011 = some (.tlbinv 4 25 13) ∧
  decodeTableWord 32 0b00001001100101101010000001111011 = some (.relatch 4 25 13) ∧
  decodeTableWord 32 0b00000000000001101011100101111011 = some (.partctl 18 13) ∧
  decodeTableWord 32 0b11010010111001101111100101111011 = some (.hint 3374 13 18) := by decide +kernel

/-- Words of tile loads, stores and headers, R134, each field at a value of its own; the bits as spec/opcode_table.json gives them. -/
theorem test_decode_tile_moves :
  decodeTableWord 32 0b00000000000001110010000010101011 = some (.tld 1 25 true) ∧
  decodeTableWord 32 0b00001011000000110010000010101011 = some (.tst 3 25 true) ∧
  decodeTableWord 32 0b00010000000001000000000010101011 = some (.tzero 1 true) ∧
  decodeTableWord 32 0b00011000000001110010000000101011 = some (.thdr 1 25) ∧
  decodeTableWord 32 0b00011000000001110010000100101011 = some (.thdrGet 1 25) ∧
  decodeTableWord 32 0b00011000000000110010001000101011 = some (.thdrFlags 25) ∧
  decodeTableWord 32 0b00011000000000110010001100101011 = some (.thdrFlagsClr 25) ∧
  decodeTableWord 32 0b00100000000001110010000000101011 = some (.tlut 1 25) ∧
  decodeTableWord 32 0b10010000000000000000000000101011 = some (.mxhint) := by decide +kernel

/-- Words of tile products, R134, each field at a value of its own; the bits as spec/opcode_table.json gives them. -/
theorem test_decode_tile_products :
  decodeTableWord 32 0b00101011110001110010010000101011 = some (.tmma 1 3 6 25 true false false) ∧
  decodeTableWord 32 0b00110011110001110011010100101011 = some (.tmms 1 3 6 25 true false true 1) ∧
  decodeTableWord 32 0b00111011110001110010101000101011 = some (.tmmc 1 3 6 25 true false true false) ∧
  decodeTableWord 32 0b01000011110001110010100100101011 = some (.tdist 1 3 6 25 false 2 1) ∧
  decodeTableWord 32 0b01001011110001110010000000101011 = some (.tcupd 1 3 6 25) ∧
  decodeTableWord 32 0b01010011000001110010000100101011 = some (.tcdiv 1 3 25 true) := by decide +kernel

/-- Words of tile element-wise, R134, each field at a value of its own; the bits as spec/opcode_table.json gives them. -/
theorem test_decode_tile_elements :
  decodeTableWord 32 0b01011011000001110010010100101011 = some (.tcvt 1 3 25 true false true false) ∧
  decodeTableWord 32 0b01100011110001000000000100101011 = some (.tadd 1 3 6 false true) ∧
  decodeTableWord 32 0b01101011110001000000001100101011 = some (.tmul 1 3 6 true true) ∧
  decodeTableWord 32 0b01110011000001000000000100101011 = some (.tact 1 3 1) ∧
  decodeTableWord 32 0b01110011110001000000010100101011 = some (.tactD 1 3 6 1) ∧
  decodeTableWord 32 0b01111011000001110010011000101011 = some (.tscl 1 3 25 true 2) ∧
  decodeTableWord 32 0b10000011000001000000110000101011 = some (.tred 1 3 true 2 false) ∧
  decodeTableWord 32 0b10001011000001110010000010101011 = some (.ttrn 1 3 25 true) := by decide +kernel

/-- Words of streams, copies and collectives, R135, each field at a value of its own; the bits as spec/opcode_table.json gives them. -/
theorem test_decode_streams :
  decodeTableWord 32 0b00000001100101101000100101011011 = some (.shape 18 13 25) ∧
  decodeTableWord 32 0b00000011100101101000100101011011 = some (.sbind 18 13 25) ∧
  decodeTableWord 32 0b00000100000001101000100101011011 = some (.sunb 18 13) ∧
  decodeTableWord 32 0b00000011100101101001100101011011 = some (.cpy 1 18 13 25) ∧
  decodeTableWord 32 0b00001011100101101001100101011011 = some (.cpyg 1 18 13 25) ∧
  decodeTableWord 32 0b00010011100101101001100101011011 = some (.cpyx 1 18 13 25) ∧
  decodeTableWord 32 0b00011001100101101001100101011011 = some (.ccmd 18 13 25) ∧
  decodeTableWord 32 0b00000001100101101010000001011011 = some (.cbwait 13 25) ∧
  decodeTableWord 32 0b00000011100101101010100101011011 = some (.cbtest 18 13 25) ∧
  decodeTableWord 32 0b00000000000001101011000001011011 = some (.mould 13) ∧
  decodeTableWord 32 0b00000010000001101011100101011011 = some (.cast 18 13) ∧
  decodeTableWord 32 0b00000100000000000011100101011011 = some (.mstat 18) ∧
  decodeTableWord 32 0b00001100101000000101000001011011 = some (.qfence 202) := by decide +kernel
/-- Standard words as the ratified encodings (R126) write them: `lui x5,0x12345`, `auipc x5,1`, `jal x1,8`, `jalr x0,x1`,
`beq x1,x2,-4`, `ld x6,16(x7)`, `sd x6,24(x7)`, `srai x1,x2,63`, `sub x3,x1,x2`, `mulhu x4,x5,x6`, `sh2add x1,x2,x3`,
`clz x1,x2`, `rev8 x1,x2`. -/
theorem test_decode_integer :
  decodeTableWord 32 0b00010010001101000101001010110111 = some (.standard (.lui 5 0x12345) false) ∧
  decodeTableWord 32 0b00000000000000000001001010010111 = some (.standard (.auipc 5 1) false) ∧
  decodeTableWord 32 0b00000000100000000000000011101111 = some (.standard (.jal 1 4) false) ∧
  decodeTableWord 32 0b00000000000000001000000001100111 = some (.standard (.jalr 0 1 0) false) ∧
  decodeTableWord 32 0b11111110001000001000111011100011 = some (.standard (.branch .beq 1 2 0xFFE) false) ∧
  decodeTableWord 32 0b00000001000000111011001100000011 = some (.standard (.load .ld 6 7 16) false) ∧
  decodeTableWord 32 0b00000000011000111011110000100011 = some (.standard (.store .sd 7 6 24) false) ∧
  decodeTableWord 32 0b01000011111100010101000010010011 = some (.standard (.shift .srai 1 2 63) false) ∧
  decodeTableWord 32 0b01000000001000001000000110110011 = some (.standard (.regOp .sub 3 1 2) false) ∧
  decodeTableWord 32 0b00000010011000101011001000110011 = some (.standard (.regOp .mulhu 4 5 6) false) ∧
  decodeTableWord 32 0b00100000001100010100000010110011 = some (.standard (.regOp .sh2add 1 2 3) false) ∧
  decodeTableWord 32 0b01100000000000010001000010010011 = some (.standard (.unary .clz 1 2) false) ∧
  decodeTableWord 32 0b01101011100000010101000010010011 = some (.standard (.unary .rev8 1 2) false) := by decide +kernel

/-- `csrrw x0,mepc,x5`, `csrrsi x1,fcsr,3`, `lr.d.aq x1,(x2)`, `amomaxu.w x1,x3,(x2)`, `fadd.d f1,f2,f3,rne`,
`fcvt.lu.s x1,f2,rtz`, `fmadd.s f1,f2,f3,f4,dyn`, `fld f1,8(x2)`, `ecall`, `ebreak`, `wfi`, `fence rw,rw`, `fence.i`, `mret`. -/
theorem test_decode_system_and_float :
  decodeTableWord 32 0x34129073 = some (.standard (.csr .rw 0 (.reg 5) 0x341) false) ∧
  decodeTableWord 32 0x0031E0F3 = some (.standard (.csr .rs 1 (.imm 3) 3) false) ∧
  decodeTableWord 32 0x140130AF = some (.standard (.lr true true false 1 2) false) ∧
  decodeTableWord 32 0xE03120AF = some (.standard (.amo .maxu false false false 1 2 3) false) ∧
  decodeTableWord 32 0x023100D3 = some (.standard (.fbin .add .d 0 1 2 3) false) ∧
  decodeTableWord 32 0xC03110D3 = some (.standard (.fcvtToInt .lu .s 1 1 2) false) ∧
  decodeTableWord 32 0x203170C3 = some (.standard (.fma .madd .s 7 1 2 3 4) false) ∧
  decodeTableWord 32 0x00813087 = some (.standard (.fload .d 1 2 8) false) ∧
  decodeTableWord 32 0x00000073 = some (.standard .ecall false) ∧
  decodeTableWord 32 0x00100073 = some (.standard .ebreak false) ∧
  decodeTableWord 32 0x10500073 = some (.standard .wfi false) ∧
  decodeTableWord 32 0x0330000F = some (.standard (.fence 0 3 3 0 0) false) ∧
  decodeTableWord 32 0x0000100F = some (.standard (.fenceI 0 0 0) false) ∧
  decodeTableWord 32 0x30200073 = some .mret := by decide +kernel

/-- `c.addi4spn x8,16`, `c.lw x9,4(x10)`, `c.j 4`, `c.beqz x8,0`, `c.mv x1,x2`, `c.jr x1`, `c.ebreak`, `c.ldsp x1,8`,
`c.sub x8,x9`, `c.addiw x1,-1`, `c.lui x1,1`, `c.li x1,-1`, `c.fld f8,8(x9)`; the all-zero parcel is no instruction. -/
theorem test_decode_compressed :
  decodeTableWord 16 0b0000100000000000 = some (.standard (.immOp .addi 8 2 16) true) ∧
  decodeTableWord 16 0b0100000101000100 = some (.standard (.load .lw 9 10 4) true) ∧
  decodeTableWord 16 0b1010000000010001 = some (.standard (.jal 0 2) true) ∧
  decodeTableWord 16 0b1100000000000001 = some (.standard (.branch .beq 8 0 0) true) ∧
  decodeTableWord 16 0b1000000010001010 = some (.standard (.regOp .add 1 0 2) true) ∧
  decodeTableWord 16 0b1000000010000010 = some (.standard (.jalr 0 1 0) true) ∧
  decodeTableWord 16 0b1001000000000010 = some (.standard .ebreak true) ∧
  decodeTableWord 16 0b0110000010100010 = some (.standard (.load .ld 1 2 8) true) ∧
  decodeTableWord 16 0b1000110000000101 = some (.standard (.regOp .sub 8 8 9) true) ∧
  decodeTableWord 16 0b0011000011111101 = some (.standard (.immOp .addiw 1 1 0xFFF) true) ∧
  decodeTableWord 16 0b0110000010000101 = some (.standard (.lui 1 1) true) ∧
  decodeTableWord 16 0b0101000011111101 = some (.standard (.immOp .addi 1 0 0xFFF) true) ∧
  decodeTableWord 16 0b0010010010000000 = some (.standard (.fload .d 8 9 8) true) ∧
  decodeTableWord 16 0 = none := by decide +kernel

/-- Table 09-11: an unassigned f7 of group 000 has subcode 1, a nonzero unused rs2 of RWAIT subcode 2, an unassigned standard
opcode subcode 0; scope code 110 of SCOPE, loop level 11 and TDIST metric 11 are unassigned. -/
theorem test_decode_illegal :
  decode 0x000B 0x1000 = (.illegal 0x1000000B 1, 4) ∧ decode 0x000B 0x0410 = (.illegal 0x0410000B 2, 4) ∧
  decode 0x007F 0 = (.illegal 0x0000007F 0, 4) ∧ decode 0x700B 0x0C00 = (.illegal 0x0C00700B 1, 4) ∧
  decode 0x100B 0x3000 = (.illegal 0x3000100B 1, 4) ∧ decode 0x032B 0x4000 = (.illegal 0x4000032B 1, 4) := by decide +kernel

/-! ## Well-formedness -/

/-- One ill-formed term for each check, and the check refuses it: an unassigned loop level. -/
theorem test_wf_levels :
  (Instr.loop 3 0 1).wf = false ∧ (Instr.loopi 3 0 1).wf = false ∧ (Instr.lbrk 3).wf = false ∧ (Instr.lbrk 2).wf = true := by
  decide

/-- An unassigned scope code (R2). -/
theorem test_wf_scopes :
  (Instr.zfence 6 0 0).wf = false ∧ (Instr.aaddW 6 1 1 false false 0).wf = false ∧
  (Instr.aminsW 7 1 1 false false 0).wf = false ∧ (Instr.amaxsW 6 1 1 false false 0).wf = false ∧
  (Instr.axchgW 6 1 1 false false 0).wf = false ∧ (Instr.acasW 6 1 1 false false 0).wf = false ∧
  (Instr.aaddD 6 1 1 false false 0).wf = false ∧ (Instr.aminsD 6 1 1 false false 0).wf = false ∧
  (Instr.amaxsD 6 1 1 false false 0).wf = false ∧ (Instr.axchgD 6 1 1 false false 0).wf = false ∧
  (Instr.acasD 6 1 1 false false 0).wf = false ∧ (Instr.scope 6).wf = false ∧ (Instr.icinv 6 1 1).wf = false ∧
  (Instr.tlbinv 6 1 1).wf = false ∧ (Instr.relatch 6 1 1).wf = false ∧ (Instr.scope 5).wf = true := by decide

/-- Format codes of LOGP, codebooks 4 to 7, the registers TMMS spans, TDIST's metric and its NEW modes, SAT without INT, VEC,
the reduction 11, TTRN's operand without TM. -/
theorem test_wf_tile :
  (Instr.logp 3 0 0 1 1).wf = false ∧ (Instr.logp 0 3 0 1 1).wf = false ∧ (Instr.logp 0 0 3 1 1).wf = false ∧
  (Instr.tlut 4 1).wf = false ∧ (Instr.tmms 0 7 0 1 false false false 0).wf = false ∧
  (Instr.tmms 0 5 0 1 false false false 1).wf = false ∧ (Instr.tmms 0 0 0 1 false false false 3).wf = false ∧
  (Instr.tdist 0 0 0 1 false 0 3).wf = false ∧ (Instr.tdist 0 0 0 1 true 1 0).wf = false ∧
  (Instr.tdist 0 0 0 1 true 2 0).wf = false ∧ (Instr.tadd 0 0 0 true false).wf = false ∧
  (Instr.tmul 0 0 0 true false).wf = false ∧ (Instr.tscl 0 0 1 false 3).wf = false ∧
  (Instr.tred 0 0 false 3 false).wf = false ∧ (Instr.ttrn 0 0 1 false).wf = false ∧
  (Instr.tmms 0 6 0 1 false false false 0).wf = true := by decide

/-- Rounding modes 5 and 6, a 16-bit spelling (its operation is written out in 32 bits), and an illegal encoding. -/
theorem test_wf_standard :
  (Instr.standard (.fbin .add .d 5 1 2 3) false).wf = false ∧ (Instr.standard (.fma .madd .s 6 1 2 3 4) false).wf = false ∧
  (Instr.standard (.fsqrt .d 5 1 2) false).wf = false ∧ (Instr.standard (.fcvtToInt .w .s 5 1 2) false).wf = false ∧
  (Instr.standard (.fcvtFromInt .w .s 6 1 2) false).wf = false ∧ (Instr.standard (.fcvtFmt .s 5 1 2) false).wf = false ∧
  (Instr.standard .ecall true).wf = false ∧ (Instr.illegal 0 0).wf = false := by decide

/-! ## Witnesses: encoding, the step, standard instructions

Each theorem gives, for one statement of Certificates/Slice0/Obligations.lean, states and operands that meet the hypotheses of its
clauses, and beside them a value or two the rules give there. -/

/-- The outcome is a next state in which `p` holds. -/
def gives (o : Out) (p : State → Bool) : Bool :=
  match o with
  | .next t => p t
  | _ => false

/-- Core 0 in M mode with these x registers and these bytes of memory. -/
def mx (x : Tab Word) (mem : List Host.Cell := []) : State :=
  { State.reset with cores := [(0, { fw := { x := x } })], mem := mem }

/-- The same with f registers. -/
def mf (f : Tab Word) (fcsr : BitVec 8 := 0) : State := { State.reset with cores := [(0, { fw := { f := f, fcsr := fcsr } })] }

theorem test_EncodeThenDecode :
  (Instr.rlnch 5 6 7).wf = true ∧ encode (.rlnch 5 6 7) = some 0b00000010011100110000001010001011 := by decide +kernel

theorem test_DecodeThenEncode :
  decode 0x028B 0x0273 = (.rlnch 5 6 7, 4) ∧ decode 0x000B 0x1000 = (.illegal 0x1000000B 1, 4) := by decide +kernel

/-- A two-parcel `addi x1,x0,5` placed at the pc of the reset state runs, and so does `c.li x1,-1`. -/
def placed32 : State := State.reset.withFetchWord 32 0b00000000010100000000000010010011
def placed16 : State := State.reset.withFetchWord 16 0b0101000011111101

/-- RWAIT's word has unused bits; TMMS with a class past the last register, an unassigned fl value, an unknown opcode, a longer encoding. -/
theorem test_ReservedWordsAreIllegal :
  (Instr.rwait 18).wf = true ∧ encode (.rwait 18) = some 0x0400090B ∧ (0x8000 : BitVec 32) &&& ~~~(unusedBits (.rwait 18)) = 0 ∧
  decode32 0x0400890B = .illegal 0x0400890B 2 ∧ unassignedWord 0x1000000B = true ∧ unassignedWord 0x8000072B = true ∧
  unassignedWord 0x1000300B = true ∧ unassignedWord 0x3000100B = true ∧ unassignedWord 0x6000400B = true ∧
  unassignedWord 0x0A00500B = true ∧ unassignedWord 0x0400600B = true ∧ unassignedWord 0x0000710B = true ∧
  unassignedWord 0x9800002B = true ∧ unassignedWord 0x0600005B = true ∧ unassignedWord 0x0C00107B = true ∧
  (0x3700002B#32).extractLsb' 27 5 = 6 ∧ decode32 0x3700002B = .illegal 0x3700002B 2 ∧ (0x7F : BitVec 7) ∉ knownOpcodes ∧
  (0x1F#16).extractLsb' 0 5 = 31 ∧ decode 0x1F 0 = (.illegal 0x1F 0, 4) ∧ decode 0x13 0 = (decode32 0x13, 4) := by decide +kernel

/-- Reserved 16-bit encodings, a zero field of each form that excludes it beside an operand that does not. -/
theorem test_CompressedFormsDecode :
  decode 0b0000000000000100 0 = (.illegal 4 0, 2) ∧ decode 0b1000000000000000 0 = (.illegal 0x8000 0, 2) ∧
  decode 0b0010000000000001 0 = (.illegal 0x2001 0, 2) ∧ decode 0b0110000010000001 0 = (.illegal 0x6081 0, 2) ∧
  decode 0b1001110001000001 0 = (.illegal 0x9C41 0, 2) ∧ decode 0b0100000000000010 0 = (.illegal 0x4002 0, 2) ∧
  decode 0b1000000000000010 0 = (.illegal 0x8002 0, 2) ∧
  decode 0b0110000101000001 0 = (.standard (.immOp .addi 2 2 16) true, 2) ∧
  decode 0b0010000000000010 0 = (.standard (.fload .d 0 2 0) true, 2) := by decide +kernel

theorem test_StepRunsDecodedInstruction :
  placed32.agenda = [] ∧ (placed32.die (dieOf placed32.cur)).fatal = false ∧ placed32.standsStill = false ∧
  placed32.me.wait = none ∧
  placed32.fetchParcel 0 placed32.me.pc = ((placed32.fetchParcel 0 placed32.me.pc).1, .parcel 0b0000000010010011) ∧
  ((placed32.fetchParcel 0 placed32.me.pc).1.fetchParcel 0 2).2 = .parcel 0b0000000001010000 ∧
  gives (step placed32) (fun t => t.getX 1 == 5 && t.me.pc == 4) = true ∧
  (placed16.fetchParcel 0 placed16.me.pc).2 = .parcel 0b0101000011111101 ∧ placed16.standsStill = false ∧
  gives (step placed16) (fun t => t.getX 1 == 0xFFFFFFFFFFFFFFFF#64 && t.me.pc == 2) = true := by decide +kernel

/-- With interrupt 16 enabled and pending in U mode the trap comes before the instruction at the pc. -/
theorem test_StepRunsDecodedInstruction_trap :
  let s : State := { State.reset with cores := [(0, { mode := .u, csr := { mie := 0x10000, mip16 := true }, fw := { pc := 0x40 } })] }
  s.agenda = [] ∧ (s.die (dieOf s.cur)).fatal = false ∧ s.trapsNow = true ∧ placed32.trapsNow = false ∧ placed16.trapsNow = false ∧
  gives (step s) (fun t => (t.core 0).csr.mepc == 0x40 && (t.core 0).csr.mcause == 0x8000000000000010#64) = true := by decide +kernel

/-- An event that the agenda puts first is taken: a timer tick lets five cycles pass. -/
theorem test_step_takes_the_agenda :
  gives (step { State.reset with agenda := [.event .packageTimerTick] }) (fun t => t.cycles == 5 && t.agenda == []) = true := by
  decide +kernel

theorem test_MemoryReadsAndFetches :
  (placed32.core 0).mode = .m ∧ placed32.home 0 0 = some 0 ∧ (placed32.core 0).icache = [] ∧ placed32.memPois 0 2 = false ∧
  placed32.memByte 0 = 0x93 ∧ (mx [] [(2, 1)]).memByte 2 = 1 := by decide +kernel

theorem test_StepKeepsMemoryCanonical :
  Memory.wf placed32 = true ∧ Memory.wf { placed32 with mem := [(4, 1), (4, 2)] } = false ∧
  Memory.wf { placed32 with mem := [(4, 0)] } = false ∧ gives (step placed32) Memory.wf = true := by decide +kernel

/-- An `sb x2,0(x1)` of zero over a listed byte removes it. -/
theorem test_StandardKeepsMemoryCanonical :
  Memory.wf (mx [(1, 0x100)] [(0x100, 7)]) = true ∧
  gives (exec (.standard (.store .sb 1 2 0) false) (mx [(1, 0x100)] [(0x100, 7)])) (fun t => t.mem == []) = true := by
  decide +kernel

theorem test_IntegerOperationsComplete :
  Ready [1] State.reset ∧ Ready [1, 2, 3] (mx [(2, 7), (3, 0xFFFFFFFFFFFFFFFE#64)]) ∧ Ready [0] (mx []) ∧
  gives (exec (.standard (.lui 1 0x80000) false) State.reset) (fun t => t.getX 1 == 0xFFFFFFFF80000000#64) = true ∧
  gives (exec (.standard (.immOp .addiw 1 2 1) false) (mx [(2, 0x7FFFFFFF)])) (fun t => t.getX 1 == 0xFFFFFFFF80000000#64) = true ∧
  gives (exec (.standard (.shift .srai 1 2 63) false) (mx [(2, 0x8000000000000000#64)]))
    (fun t => t.getX 1 == 0xFFFFFFFFFFFFFFFF#64) = true ∧
  gives (exec (.standard (.shiftW .roriw 1 2 4) false) (mx [(2, 0x12345678)])) (fun t => t.getX 1 == 0xFFFFFFFF81234567#64) = true ∧
  gives (exec (.standard (.regOp .mulh 1 2 3) false) (mx [(2, 7), (3, 0xFFFFFFFFFFFFFFFE#64)]))
    (fun t => t.getX 1 == 0xFFFFFFFFFFFFFFFF#64) = true ∧
  gives (exec (.standard (.unary .clz 0 2) false) (mx [(2, 1)])) (fun t => t.getX 0 == 0 && t.me.pc == 4) = true := by
  decide +kernel

/-- RISC-V's own corner values: division by zero and the overflowing division, and the word forms. -/
theorem test_division_corners :
  gives (exec (.standard (.regOp .div 1 2 3) false) (mx [(2, 7)])) (fun t => t.getX 1 == 0xFFFFFFFFFFFFFFFF#64) = true ∧
  gives (exec (.standard (.regOp .rem 1 2 3) false) (mx [(2, 7)])) (fun t => t.getX 1 == 7) = true ∧
  gives (exec (.standard (.regOp .div 1 2 3) false) (mx [(2, 0x8000000000000000#64), (3, 0xFFFFFFFFFFFFFFFF#64)]))
    (fun t => t.getX 1 == 0x8000000000000000#64) = true ∧
  gives (exec (.standard (.regOp .remw 1 2 3) false) (mx [(2, 0x80000000#64), (3, 0xFFFFFFFFFFFFFFFF#64)]))
    (fun t => t.getX 1 == 0) = true := by decide +kernel

/-- Core 0 at pc 0x40 with one loop level over its next instruction, with this count. -/
def looping (cnt : W32) : Ctl :=
  { pc := 0x40, loops := [(1, { act := true, bl := 3, cnt := cnt, start := 0x3C, stop := 0x44 })] }

theorem test_ControlFlowCompletes :
  Ready [1, 2] (mx [(1, 0x101), (2, 5)]) ∧
  gives (exec (.standard (.jalr 5 1 4) false) (mx [(1, 0x101)])) (fun t => t.getX 5 == 4 && t.me.pc == 0x104) = true ∧
  gives (exec (.standard (.jal 1 0xFFFFE) true) (mx [])) (fun t => t.getX 1 == 2 && t.me.pc == 0xFFFFFFFFFFFFFFFC#64) = true ∧
  gives (exec (.standard (.branch .bltu 1 2 8) false) (mx [(1, 4), (2, 5)])) (fun t => t.me.pc == 16) = true ∧
  ((looping 2).loop 1).act = true ∧ ((looping 2).loop 1).susp = false ∧ ((looping 2).loop 1).pw = false ∧
  (∀ n, n < 3 → n ≠ 1 → ((looping 2).loop n).act = false) ∧ ((looping 2).loop 1).stop = (looping 2).pc + BitVec.ofNat 64 4 ∧
  ((looping 2).advance 4).pc = 0x3C ∧ ((looping 1).loop 1).cnt = 1 ∧ ((looping 1).advance 4).pc = 0x44 ∧
  (∀ m, m < 3 → ((looping 2).loop m).act = false ∨ ((looping 2).loop m).susp = true ∨ m = 1) ∧
  (∀ m, m < 3 → (State.reset.me.loop m).act = false ∨ (State.reset.me.loop m).susp = true) := by decide +kernel

/-- Level 0 with a body of 4 parcels inside level 1's of 16: a jump to 0x60 leaves level 0 alone, one to 0x200 both; a fall through at
0x48, where level 0 ends, repeats it, and on its last iteration leaves it. -/
def nested (cnt : W32) (pw : Bool := false) (pre : Option Prefixes := none) : Ctl :=
  { pc := 0x44, pre := pre
    loops := [(0, { act := true, bl := 3, cnt := cnt, pw := pw, start := 0x40, stop := 0x48 }),
      (1, { act := true, bl := 31, cnt := 7, start := 0x40, stop := 0x80 })] }

theorem test_LoopLevelsDirectThePc :
  ((nested 2).goto false 0x60).pc = 0x60 ∧ (((nested 2).goto false 0x60).loop 0).act = false ∧
  ((nested 2).goto false 0x60).loop 1 = (nested 2).loop 1 ∧ (((nested 2).goto false 0x200).loop 1).act = false ∧
  ((nested 2).goto true 0x48).pc = 0x40 ∧ (((nested 2).goto true 0x48).loop 0).cnt = 1 ∧
  ((nested 2).goto true 0x48).loop 1 = (nested 2).loop 1 ∧ ((nested 1).goto true 0x48).pc = 0x48 ∧
  (((nested 1).goto true 0x48).loop 0).act = false ∧ (((nested 1).goto true 0x48).loop 0).cnt = 0 ∧
  ((nested 1).goto true 0x48).loop 1 = (nested 1).loop 1 ∧
  (((nested 2 false (some ⟨0x44, none, none⟩)).goto true 0x48).loop 0).pw = true ∧
  ((nested 2 true).goto true 0x48).pc = 0x40 ∧ ((nested 2 true).goto true 0x48).loop 0 = (nested 2 true).loop 0 ∧
  ((nested 2 true (some ⟨0x44, none, none⟩)).advance 4).loop 0 = { (nested 2).loop 0 with cnt := 1 } := by decide +kernel

/-- M mode, with 0x8899AABBCCDDEEFF at 0x100 and x1 naming it. -/
def data : State :=
  mx [(1, 0x100), (2, 0x1122334455667788#64), (9, 0x1122334455667788#64)]
    [(0x100, 0xFF), (0x101, 0xEE), (0x102, 0xDD), (0x103, 0xCC), (0x104, 0xBB), (0x105, 0xAA), (0x106, 0x99), (0x107, 0x88)]

/-- What locating the bytes of an access of M mode leaves. -/
def dataAfter (va n : Nat) (a : Acc) : State := (data.locate 0 (data.core 0).dataMode va n a).1

theorem test_LoadsAndStoresComplete :
  let s : State := { mx [(1, 0xFF8), (2, 7)] with resvs := [⟨0, 62, 0⟩, ⟨1, 63, 0⟩, ⟨2, 64, 0⟩] }
  Ready [3, 1] data ∧ (dataAfter 0x104 4 .read).poisPieces [(0x104, 4)] = false ∧
  data.locate data.cur (data.core data.cur).dataMode (data.getX 1 + sx (4 : BitVec 12)).toNat 4 .read
    = (dataAfter 0x104 4 .read, .pieces [(0x104, 4)]) ∧
  data.locate data.cur (data.core data.cur).dataMode (data.getX 1 + sx (0 : BitVec 12)).toNat 8 .write
    = (dataAfter 0x100 8 .write, .pieces [(0x100, 8)]) ∧
  gives (exec (.standard (.load .lw 3 1 4) false) data) (fun t => t.getX 3 == 0xFFFFFFFF8899AABB#64) = true ∧
  gives (exec (.standard (.load .lhu 3 1 6) false) data) (fun t => t.getX 3 == 0x8899) = true ∧
  gives (exec (.standard (.fload .s 3 1 0) false) data) (fun t => t.getF 3 == 0xFFFFFFFFCCDDEEFF#64) = true ∧
  gives (exec (.standard (.store .sh 1 2 2) false) data) (fun t => t.memBytes 0x101 4 == [0xEE, 0x88, 0x77, 0xBB]) = true ∧
  ((s.locate 0 (s.core 0).dataMode (s.getX 1 + sx (6 : BitVec 12)).toNat 4 .write).2 = .pieces [(0xFFE, 2), (0x1000, 2)]) ∧
  gives (exec (.standard (.store .sw 1 2 6) false) s) (fun t => t.resvs == [⟨0, 62, 0⟩]) = true := by
  decide +kernel

/-! ## Witnesses: atomics, CSRs, floating point, fences, traps -/

theorem test_ReservedAndAtomicComplete :
  (data.getX 1).toNat % 8 = 0 ∧ ReadyScoped [3, 1, 2] data ∧ (dataAfter 0x100 8 .read).poisPieces [(0x100, 8)] = false ∧
  data.locate data.cur (data.core data.cur).dataMode (data.getX 1).toNat 8 .read = (dataAfter 0x100 8 .read, .pieces [(0x100, 8)]) ∧
  data.locate data.cur (data.core data.cur).dataMode (data.getX 1).toNat 8 .rmw = (dataAfter 0x100 8 .rmw, .pieces [(0x100, 8)]) ∧
  gives (exec (.standard (.lr true false false 3 1) false) data)
    (fun t => t.getX 3 == 0x8899AABBCCDDEEFF#64 && t.resvs == [⟨0, 4, t.aScope⟩]) = true ∧
  gives (exec (.standard (.sc true false false 3 1 2) false) { data with resvs := [⟨0, 4, data.aScope⟩] })
    (fun t => t.getX 3 == 0 && t.memNat 0x100 8 == 0x1122334455667788 && t.resvs == []) = true ∧
  gives (exec (.standard (.sc true false false 3 1 2) false) data) (fun t => t.getX 3 == 1 && t.mem == data.mem) = true ∧
  gives (exec (.standard (.amo .min true false false 3 1 2) false) data)
    (fun t => t.getX 3 == 0x8899AABBCCDDEEFF#64 && t.mem == data.mem) = true ∧
  gives (exec (.standard (.amo .minu true false false 3 1 2) false) data)
    (fun t => t.memNat 0x100 8 == 0x1122334455667788) = true := by decide +kernel

/-- A store into granule 4 ends every core's reservation of it and no other; so do a successful SC and an AMO, and a failed SC no
other core's. -/
theorem test_StoresEndReservations :
  let s : State := { data with resvs := [⟨0, 4, data.aScope⟩, ⟨7, 4, 4⟩, ⟨8, 5, 4⟩] }
  Touches [(0x104, 4)] ⟨7, 4, 4⟩ ∧ ¬ Touches [(0x104, 4)] ⟨8, 5, 4⟩ ∧
  gives (exec (.standard (.store .sw 1 2 4) false) s) (fun t => t.resvs == [⟨8, 5, 4⟩]) = true ∧
  gives (exec (.standard (.sc true false false 3 1 2) false) s) (fun t => t.resvs == [⟨8, 5, 4⟩]) = true ∧
  gives (exec (.standard (.amo .add true false false 3 1 2) false) s) (fun t => t.resvs == [⟨8, 5, 4⟩]) = true ∧
  gives (exec (.standard (.sc true false false 3 1 2) false) { s with resvs := s.resvs.drop 1 })
    (fun t => t.getX 3 == 1 && t.resvs == [⟨7, 4, 4⟩, ⟨8, 5, 4⟩]) = true := by
  refine ⟨?_, ?_, ?_⟩
  · exact ⟨(0x104, 4), by simp, by decide, by decide⟩
  · rintro ⟨p, hp, h1, h2⟩
    simp only [List.mem_singleton] at hp
    subst hp
    revert h2
    decide
  · decide +kernel

/-- mtvec is written without bit 1; an fcsr write takes eight bits; zfrec bits 47:6. -/
theorem test_CsrAccessesComplete :
  Ready (stdRegs (.csr .rw 1 (.reg 2) 0x305)) (mx [(2, 0x107)]) ∧ (mx [(2, 0x107)]).csrBad 0x305 true = false ∧
  (mx [(2, 0x107)]).csrBad 0x003 true = false ∧ (mx [(2, 0x107)]).csrBad 0x7C0 true = false ∧
  (mx [(2, 0x107)]).csrBad 0x800 true = false ∧ (mx [(2, 0x107)]).csrBad 0x300 true = false ∧
  (mx [(2, 0x107)]).csrBad 0x804 true = false ∧ (mx []).me.en = false ∧
  gives (exec (.standard (.csr .rw 1 (.reg 2) 0x305) false) (mx [(2, 0x107)]))
    (fun t => t.getX 1 == 0 && t.csrRead 0x305 == some 0x105) = true ∧
  gives (exec (.standard (.csr .rs 1 (.imm 5) 3) false) (mx [])) (fun t => t.csrRead 3 == some 5 && t.csrRead 1 == some 5) = true ∧
  gives (exec (.standard (.csr .rw 0 (.reg 2) 0x7C0) false) (mx [(2, 0xFFFFFFFFFFFFFFFF#64)]))
    (fun t => t.csrRead 0x7C0 == some 0x0000FFFFFFFFFFC0#64) = true := by decide +kernel

/-- With the mould enabled a write of zmlbase, zmlptr or zmlcast is discarded. -/
theorem test_CsrAccessesComplete_enabled :
  let s : State := { State.reset with cores := [(0, { fw := { zmlmode := 1, x := [(2, 0x100040)] } })] }
  s.me.en = true ∧ s.csrBad 0x800 true = false ∧
  gives (exec (.standard (.csr .rw 0 (.reg 2) 0x800) false) s) (fun t => t.csrRead 0x800 == s.csrRead 0x800) = true := by
  decide +kernel

/-- A write of mip takes bit 16, one of zlc1 its level with SUSP set, zmlmode's EN bit is kept, and mstatus and zlc writes are permitted. -/
theorem test_CsrAccessesComplete_fields :
  let s := mx [(2, 0xFFFFFFFFFFFFFFFF#64)]
  let z := mx [(2, 0x8005070000000003#64)]
  (∀ n ∈ [0x344, 0x806, 0x804, 0x300], s.csrBad n true = false) ∧
  gives (exec (.standard (.csr .rw 0 (.reg 2) 0x344) false) s) (fun t => t.csrRead 0x344 == some 0x10000) = true ∧
  gives (exec (.standard (.csr .rw 0 (.reg 2) 0x806) false) z) (fun t =>
    (t.me.loop 1).act && (t.me.loop 1).susp && (t.me.loop 1).off == 5 && (t.me.loop 1).bl == 7 && (t.me.loop 1).cnt == 3 && t.me.pc == 4) = true ∧
  gives (exec (.standard (.csr .rw 0 (.reg 2) 0x804) false) s) (fun t => t.csrRead 0x804 == some modeMask) = true ∧
  gives (exec (.standard (.csr .rs 5 (.reg 0) 0x806) false) s) (fun t => t.getX 5 == 0) = true := by decide +kernel

/-- 1.5 + 0.25 = 1.75, 1/3 rounded to nearest, -7.9 to an integer by truncation, and an invalid rounding mode. -/
theorem test_FloatingPointCompletes :
  Ready [1] (mf []) ∧ (mf []).me.rounding 0 = some .rne ∧ (mf []).me.rounding 7 = some .rne ∧ (mf []).me.rounding 5 = none ∧
  gives (exec (.standard (.fbin .add .d 0 1 2 3) false) (mf [(2, 0x3FF8000000000000#64), (3, 0x3FD0000000000000#64)]))
    (fun t => t.getF 1 == 0x3FFC000000000000#64 && t.me.fcsr == 0) = true ∧
  gives (exec (.standard (.fbin .div .s 0 1 2 3) false) (mf [(2, 0xFFFFFFFF3F800000#64), (3, 0xFFFFFFFF40400000#64)]))
    (fun t => t.getF 1 == 0xFFFFFFFF3EAAAAAB#64 && t.me.fcsr == 1) = true ∧
  gives (exec (.standard (.fcvtToInt .w .d 1 1 2) false) (mf [(2, 0xC01F99999999999A#64)]))
    (fun t => t.getX 1 == 0xFFFFFFFFFFFFFFF9#64 && t.me.fcsr == 1) = true ∧
  gives (exec (.standard (.fcmp .feq .d 1 2 3) false) (mf [(2, 0x8000000000000000#64)])) (fun t => t.getX 1 == 1) = true := by
  decide +kernel

theorem test_FencesAndCachesComplete :
  Ready [] State.reset ∧ (State.reset.core 0).mode = .m ∧
  ({ State.reset with cores := [(0, { mode := .u, csr := { mstatus := 0x200000 } })] } : State).me.pre = none ∧
  ({ State.reset with cores := [(0, { mode := .u, csr := { mstatus := 0x200000 } })] } : State).core 0
    = { mode := .u, csr := { mstatus := 0x200000 } } ∧
  gives (exec (.standard (.fenceI 0 0 0) false) { State.reset with cores := [(0, { icache := [⟨0, []⟩] })] })
    (fun t => (t.core 0).icache == [] && t.me.pc == 4) = true := by decide +kernel

/-- A task of interface 1, queue 2, card 3, chunk 4. -/
def aTask : Task := { vi := 1, q := 2, card := 3, chunk := 4, gidx := 0, die := 0, gang := [(0, 0)], gen := 0, started := true, ran := true }

/-- Core 0 with slot 0 running (in M mode unless `k` says otherwise). -/
def inSlot (l : Slot) (k : Core := {}) (s : State := State.reset) : State :=
  { s with cores := [(0, { k with running := some 0, slots := [(0, l)] })] }

/-- A slot with the task and these x registers. -/
def slotX (x : Tab Word) : Slot := { task := some aTask, ctl := { x := x } }

/-- Little-endian bytes of a list of (width, value) fields. -/
def fields (l : List (Nat × Nat)) : List Byte := l.flatMap fun (w, v) => toLE w v

/-- The cells of bytes placed at an address. -/
def cells (a : Nat) (bs : List Byte) : List Host.Cell := ((upFrom a bs.length).zip bs).filter fun x => x.2 != 0

/-- Tables that map the first 512 MiB of an interface's addresses to the same physical addresses, with every permission: the
level-2 entry at 0x10000 points to 0x20000, whose first entry is a leaf. -/
def tables : List Host.Cell := [(0x10000, 0x01), (0x10002, 0x02), (0x20000, 0x73)]

/-- A descriptor: ring 0x100000 of 2^4 cards, priority 3, device enqueue, slice 1024, W at 0x110000, R at 0x110008, period 12500,
quantum 1, budgets of 1000, 2000 and 3000, cores 0 to 159. -/
def aDesc : List Byte :=
  fields [(8, 0x100000), (1, 4), (1, 0x83), (2, 0), (4, 1024), (8, 0x110000), (8, 0x110008), (4, 12500), (4, 1), (8, 1000),
    (8, 3000), (4, 2000), (1, 0), (1, 160), (2, 0)]

def aQueue : Queue := { die := 0, desc := aDesc, descVa := 0x120000, cyc := 1000, pas := 2000, hbm := 3000, r := 4, w := 4 }

/-- Interface 1 on die 0, with its first 512 MiB mapped, queue 2 with these cards, and these bytes above the tables. -/
def mapped (mem : List Host.Cell) (cards : List Card) (s : State := State.reset) : State :=
  { s with
    mem := tables ++ mem
    ifaces := [(1, { enabled := true, xroot := some 0x10000, hbm := [0], queues := [(2, some { aQueue with cards := cards })] })] }

/-- WFI in U mode with TW set is illegal. -/
theorem test_FencesAndWfiComplete_tw :
  let s : State := { State.reset with cores := [(0, { mode := .u, csr := { mstatus := 0x200000 }, fw := { pc := 0x40 } })] }
  Ready [] s ∧ (s.core 0).csr.mstatus.getLsbD 21 = true ∧
  gives (exec (.standard .wfi false) s) (fun t => t.csrRead 0x342 == some 2 && t.csrRead 0x343 == some 0x10500073 && t.csrRead 0x341 == some 0x40) = true := by
  decide +kernel

/-- ICINV.die over 0x40 to 0x7F leaves the line at 0x80 in core 1 of its die, and core 161 of the next die alone. -/
theorem test_icinv :
  let s : State := { mapped [] [] with
    cores := [(0, { running := some 0, slots := [(0, slotX [(1, 0x40), (2, 0x40)])] }),
      (1, { icache := [⟨0x40, []⟩, ⟨0x80, []⟩] }), (161, { icache := [⟨0x40, []⟩] })] }
  Ready [1, 2] s ∧ inScope 3 0 1 = true ∧ inScope 3 0 161 = false ∧
  gives (exec (.icinv 3 2 1) s) (fun t => (t.core 1).icache == [⟨0x80, []⟩] && (t.core 161).icache == [⟨0x40, []⟩]) = true := by
  decide +kernel

/-- A SCOPE prefix pending at 0x10, in U mode. -/
def scopedU : State :=
  { State.reset with cores := [(0, { mode := .u, fw := { pc := 0x14, x := [(1, 0x102)], pre := some ⟨0x10, some 2, none⟩ } })] }

theorem test_ExceptionsAreTaken :
  Ready [] State.reset ∧ scopedU.me.pre.isSome = true ∧ takesScope (.regOp .add 1 2 3) = false ∧
  (scopedU.getX 1).toNat % 4 ≠ 0 ∧ ReadyScoped [3, 1] scopedU ∧ ReadyScoped [3, 1, 2] scopedU ∧
  (scopedU.core 0).mode = .u ∧
  gives (exec (.standard .ecall false) State.reset) (fun t => t.csrRead 0x342 == some 11) = true ∧
  gives (exec (.standard (.regOp .add 1 2 3) false) scopedU)
    (fun t => t.csrRead 0x342 == some 2 && t.csrRead 0x343 == some 0x00000003003100B3#64 && t.csrRead 0x341 == some 0x14) = true ∧
  gives (exec (.standard (.lr false false false 3 1) false) scopedU)
    (fun t => t.csrRead 0x342 == some 6 && t.csrRead 0x343 == some 0x102 && t.csrRead 0x341 == some 0x10) = true ∧
  gives (exec (.tlbinv 0 2 1) scopedU) (fun t => t.csrRead 0x343 == some 0x000000050020907B#64 && t.csrRead 0x341 == some 0x10) = true := by decide +kernel

/-- An illegal encoding with a prefix pending: PREFIX_MISMATCH saves its own address, UNASSIGNED the first prefix; MRET in U mode is illegal
without a prefix and PREFIX_MISMATCH with one. -/
theorem test_SystemInstructionsTrap_subcodes :
  gives (exec (.illegal 0x55 3) scopedU) (fun t => t.csrRead 0x341 == some 0x14) = true ∧
  gives (exec (.illegal 0x55 1) scopedU) (fun t => t.csrRead 0x341 == some 0x10 && t.csrRead 0x343 == some 0x100000055#64) = true ∧
  gives (exec .mret scopedU) (fun t => t.csrRead 0x343 == some 0x330200073#64) = true ∧
  gives (exec .mret { State.reset with cores := [(0, { mode := .u })] }) (fun t => t.csrRead 0x343 == some 0x30200073#64) = true := by
  decide +kernel

/-- Vectored mode: interrupt 16 enters 64 bytes beyond the base, with bit 63 of mcause. -/
theorem test_TrapEntryEffect :
  let s : State := { State.reset with cores := [(0, { mode := .u, csr := { mtvec := 0x1001, mstatus := 8 }, fw := { pc := 0x40 } })] }
  let t := s.takeTrap 0 true 16 0 0x40
  (t.ctl 0).pc = 0x1040 ∧ (t.core 0).csr.mcause = 0x8000000000000010#64 ∧ (t.core 0).csr.mstatus = 0x80 ∧
  (t.core 0).mode = .m ∧ (t.core 0).csr.mepc = 0x40 := by decide +kernel

def trapped : State := { State.reset with cores := [(0, { csr := { mepc := 0x80, mstatus := 0x80 }, fw := { pc := 0x1000 } })] }
def parked : State := inSlot { slotX [] with haltReq := true, pend := [⟨30, 1⟩] } { parkTrap := some 0, csr := { mepc := 0x80 } }

theorem test_TrapReturnEffect :
  (trapped.core 0).mode = .m ∧ trapped.me.pre = none ∧ (trapped.core 0).parkTrap = none ∧
  (∀ l, l < 3 → (trapped.me.loop l).act = false) ∧
  gives (exec .mret trapped) (fun t => t.me.pc == 0x80 && (t.core 0).mode == .u && (t.core 0).csr.mstatus == 0x88) = true ∧
  (parked.core 0).parkTrap = some 0 ∧ (parked.core 0).running = some 0 ∧ mppOf (parked.core 0).csr.mstatus = .u ∧
  (parked.core 0).mode = .m ∧ parked.me.pre = none ∧ gives (exec .mret parked) (fun t => (t.core 0).running == none && !(t.slot 0 0).haltReq && (t.slot 0 0).pend == []) = true ∧
  (scopedU.core 0).mode = .u := by decide +kernel

theorem test_TrapReturnEffect_prefix :
  let s : State := { State.reset with cores := [(0, { fw := { pre := some ⟨0, none, none⟩ } })] }
  (s.core 0).mode = .m ∧ s.me.pre.isSome = true := by decide +kernel

/-- MRET to U mode clears MPRV and to M mode keeps it; a level that a CSR write set gets its body from mepc and OFF, and is
inactive where OFF is 0x1FF. -/
theorem test_TrapReturnEffect_levels :
  let s (mstatus : Word) (off : BitVec 9) : State := { State.reset with cores := [(0, {
    csr := { mepc := 0x80, mstatus := mstatus }
    fw := { pc := 0x1000, loops := [(1, { act := true, susp := true, off := off, bl := 7, cnt := 2 })] } })] }
  ((s 0x20080 2).core 0).parkTrap = none ∧ (s 0x20080 2).me.pre = none ∧ ((s 0x20080 2).me.loop 1).body = false ∧
  gives (exec .mret (s 0x20080 2)) (fun t => (t.core 0).mode == .u && !(t.core 0).csr.mstatus.getLsbD 17 && t.me.pc == 0x80 &&
    (t.me.loop 1).act && (t.me.loop 1).start == 0x7C && (t.me.loop 1).stop == 0x8C && !(t.me.loop 1).susp) = true ∧
  gives (exec .mret (s 0x21880 0x1FF)) (fun t => (t.core 0).mode == .m && (t.core 0).csr.mstatus.getLsbD 17 &&
    !(t.me.loop 1).act) = true := by decide +kernel

/-! ## Witnesses: loops, barriers, messages -/

theorem test_LoopInstructionsComplete :
  levelOk 2 = true ∧ (mx [(1, 5)]).me.pc.toNat + 1024 < 2 ^ 64 ∧ Ready [1] (mx [(1, 5)]) ∧ (mx [(1, 5)]).getX 1 ≠ 0 ∧
  (mx []).getX 1 = 0 ∧
  gives (exec (.loop 0 3 1) (mx [(1, 5)])) (fun t => (t.me.loop 0).act && (t.me.loop 0).cnt == 5 && (t.me.loop 0).stop == 12) = true ∧
  gives (exec (.loop 0 3 1) (mx [])) (fun t => !(t.me.loop 0).act && t.me.pc == 12) = true ∧
  gives (exec (.loopi 2 3 31) (mx [])) (fun t => (t.me.loop 2).cnt == 32) = true ∧
  (let s : State := { State.reset with cores := [(0, { fw := looping 2 })] }
   Ready [] s ∧ (s.me.loop 1).act = true ∧ (s.me.loop 0).act = false ∧
   (∀ m, m < 3 → m ≠ 1 → (s.me.loop m).act = false) ∧
   gives (exec (.lbrk 1) s) (fun t => t.me.pc == 0x44 && !(t.me.loop 1).act) = true) := by decide +kernel

/-- Barrier 5 of core 0, of slot 0, expecting two arrivals. -/
def barred (b : Barrier) (x : Tab Word) : State := inSlot (slotX x) { bars := [(5, some b)] }

theorem test_BarriersInitialiseAndArrive :
  Ready [3, 1, 2] (barred { owner := 0 } [(1, 5), (2, 0x80002)]) ∧ (barred { owner := 0 } [(1, 5)]).myBar 5 ≠ none ∧
  (barred { owner := 0 } [(1, 6)]).myBar 6 = none ∧
  gives (exec (.binit 3 1 2) (barred { owner := 0 } [(1, 5), (2, 0x80002)]))
    (fun t => t.getX 3 == 0 && (t.core 0).bar 5 == some { owner := 0, exp := 2, te := true }) = true ∧
  gives (exec (.binit 3 1 2) (barred { owner := 0 } [(1, 5)])) (fun t => t.getX 3 == 1) = true ∧
  gives (exec (.binit 3 1 2) (barred { owner := 0 } [(1, 6), (2, 1)])) (fun t => t.getX 3 == 2) = true ∧
  (let s := barred { owner := 0, exp := 2 } [(1, 0x27F0005#64), (2, 0x2800005#64), (3, 0x1805#64)]
   Ready [1] s ∧ s.cur < 640 ∧ ((s.getX 1).extractLsb' 16 10).toNat = 639 ∧ (s.getX 1).getLsbD 12 = false ∧
   640 ≤ ((s.getX 2).extractLsb' 16 10).toNat ∧ (s.getX 2).getLsbD 12 = false ∧ (s.core 0).running = some 0 ∧
   (s.slot 0 0).task = some aTask ∧ (s.getX 3).getLsbD 12 = true ∧
   gives (exec (.barv 1) s) (fun t => t.net.length == 1 && t.netNo == 1) = true ∧
   gives (exec (.barv 2) s) (fun t => (t.slot 0 0).dead == 1 && t.net == []) = true) := by decide +kernel

/-- The second of two arrivals, with ERR, in flight to barrier 5. -/
def arriving : State :=
  { barred { owner := 0, exp := 2, arr := 1, ph := 0xFFFF } [] with
    net := [(7, .arrival ⟨0, 0, 5, true, 1, none, 0, 0⟩), (8, .arrival ⟨0, 0, 6, false, 1, none, 0, 0⟩)] }

theorem test_BarrierArrivalEffect :
  arriving.net.find? (fun x => x.1 == 7) = some (7, .arrival ⟨0, 0, 5, true, 1, none, 0, 0⟩) ∧ arriving.podid = 0 ∧
  (arriving.core 0).bar 5 = some { owner := 0, exp := 2, arr := 1, ph := 0xFFFF } ∧
  (arriving.slot 0 0).task.map Task.vi = some 1 ∧
  gives (exec (.barrierArrival 7) arriving)
    (fun t => (t.core 0).bar 5 == some { owner := 0, exp := 2, ph := 0, el := true }
      && (t.slot 0 0).events == [0x0400000000000005#64]) = true ∧
  arriving.net.find? (fun x => x.1 == 8) = some (8, .arrival ⟨0, 0, 6, false, 1, none, 0, 0⟩) ∧ (arriving.core 0).bar 6 = none := by
  decide +kernel

/-- Barrier 5 in phase 3: a wait for phase 3 is reached, one for phase 4 is not; with EL and TE it traps. -/
def waiting (b : Barrier) : State := barred b [(1, 0x30005), (2, 0x40005)]

theorem test_BarrierWaitsComplete :
  let b : Barrier := { owner := 0, exp := 2, ph := 3 }
  let e : Barrier := { owner := 0, exp := 2, ph := 3, el := true, te := true }
  let one : Barrier := { owner := 0, exp := 1, ph := 3 }
  let bad : Barrier := { owner := 0, exp := 1, ph := 3, ep := true, te := true }
  Ready [3, 1] (waiting b) ∧ (waiting b).myBar 5 = some b ∧
  gives (exec (.btest 3 1) (waiting b)) (fun t => t.getX 3 == 0x0002000300030005#64) = true ∧
  gives (exec (.bwait 3 1) (waiting b)) (fun t => t.getX 3 == 0x0002000300030005#64 && t.me.wait == none) = true ∧
  gives (exec (.bwait 3 2) (waiting b)) (fun t => t.me.wait.isSome) = true ∧
  (waiting e).myBar 5 = some e ∧
  gives (exec (.bwait 3 1) (waiting e)) (fun t => (t.core 0).csr.mcause == 29 && (t.core 0).csr.mepc == 4) = true ∧
  (waiting one).cur < 640 ∧ ((waiting one).core 0).running = some 0 ∧ ((waiting one).slot 0 0).task.isSome = true ∧
  ((waiting one).core 0).bar 5 = some one ∧
  gives (exec (.barw 3 1) (waiting one)) (fun t => t.getX 3 == 0x0002000400040005#64 && (t.core 0).bar 5 == some { one with ph := 4 }) = true ∧
  (waiting bad).cur < 640 ∧ ((waiting bad).core 0).bar 5 = some bad ∧ (bad.ep && bad.te) = true ∧
  gives (exec (.barw 3 1) (waiting bad)) (fun t => t.getX 3 == 0x0003000400040005#64 && (t.core 0).csr.mcause == 29 &&
    (t.core 0).csr.mepc == 4 && (t.core 0).csr.mtval == 0x0003000400040005#64) = true ∧
  gives (exec (.barw 3 1) (waiting b)) (fun t => t.me.wait.isSome && (t.core 0).bar 5 == some { b with arr := 1 }) = true := by
  decide +kernel

theorem test_BarrierStateAndEvents :
  let s := waiting { owner := 0, exp := 2, arr := 1, ph := 3, te := true, sc := 2 }
  let v : State := inSlot { slotX [] with events := [0x0200000000001000#64, 5] }
  Ready [3, 1] s ∧ s.myBar 5 = some { owner := 0, exp := 2, arr := 1, ph := 3, te := true, sc := 2 } ∧
  gives (exec (.bphase 3 1) s) (fun t => t.getX 3 == 0x0002000100140003#64) = true ∧
  (waiting { owner := 0 }).myBar 0 = none ∧ (v.core 0).running = some 0 ∧ Ready [3] v ∧
  gives (exec (.evpop 3) v) (fun t => t.getX 3 == 0x0200000000001000#64 && (t.slot 0 0).events == [5]) = true ∧
  gives (exec (.evcnt 3) v) (fun t => t.getX 3 == 2) = true := by decide +kernel

/-- Slot 0's own task as target: a message block at 0x100 with data 0x1122334455667788, offset 8, NOSIG, 8 bytes. -/
def sending : State :=
  { inSlot (slotX [(1, (State.reset.handleOf aTask)), (2, 0x100), (3, 0x108)]) with
    ifaces := [(1, { enabled := true })]
    mem := [(0x100, 0x88), (0x101, 0x77), (0x108, 8), (0x10D, 0x80), (0x10E, 1)] }
def aMessage : Message := { target := State.reset.handleOf aTask, data := 0x7788, doff := 8, bn := 0x8000, flags := 1 }
def sent : State := { sending with net := [(0, .message aMessage)] }

theorem test_SignalStoresAndMessages :
  Ready [4, 1, 2] sending ∧ (sending.getX 2).toNat % 16 = 0 ∧ (sending.getX 3).toNat % 16 ≠ 0 ∧
  sending.locate 0 (sending.core 0).dataMode 0x100 16 .read = ((sending.locate 0 (sending.core 0).dataMode 0x100 16 .read).1, .pieces [(0x100, 16)]) ∧
  (sending.locate 0 (sending.core 0).dataMode 0x100 16 .read).1.poisPieces [(0x100, 16)] = false ∧
  sending.handleOk (sending.runVi 0) (sending.getX 1) = true ∧ msgBlockOk (sending.readPieces [(0x100, 16)]) = true ∧
  sending.handleOk (sending.runVi 0) (sending.getX 2) = false ∧
  gives (exec (.ssig 4 1 2) sending) (fun t => t.getX 4 == 0 && t.net.length == 1) = true ∧
  sent.net.find? (fun x => x.1 == 0) = some (0, .message aMessage) ∧ sent.firstInOrder 0 aMessage = true ∧
  hPkg aMessage.target = sent.podid.toNat ∧ sent.findTask aMessage.target = some (0, 0) ∧
  (sent.slot 0 0).task.map Task.started = some true ∧ aMessage.bn.getLsbD 15 = true ∧ 8 + 8 ≤ (sent.core 0).winBytes 0 ∧
  gives (exec (.messageDelivery 0) sent) (fun t => (t.core 0).spadBytes 8 4 == [0x88, 0x77, 0, 0]) = true := by decide +kernel

/-- A message to barrier 5, with its store, to a task in this state: placed in slot 0, waiting for its banks, not placed, exited, swapped out. -/
def toBarrier (flags : Byte := 1) (doff : W32 := 8) : Message :=
  { target := State.reset.handleOf aTask, data := 0x7788, doff := doff, bn := 5, flags := flags, sender := some (2, 0)
    senderTask := State.reset.handleOf { aTask with chunk := 9 } }

/-- Slot 0 of core 2 sends `m`; core 0 is `k`. -/
def delivering (m : Message) (k : Core := {}) (s : State := State.reset) : State :=
  { s with cores := [(0, k), (2, { running := some 0, slots := [(0, { task := some { aTask with chunk := 9 } })] })], net := [(0, .message m)] }

def placedAt (b : Barrier) (l : Slot := slotX []) : Core := { slots := [(0, l)], bars := [(5, some b)] }

theorem test_MessageDeliveryEffect_placed :
  let b : Barrier := { owner := 0, exp := 2 }
  let s := delivering (toBarrier) (placedAt b)
  let far := delivering (toBarrier 1 0xFFFFFFF0) (placedAt b)
  let err := delivering (toBarrier 3) (placedAt b)
  let none5 := delivering (toBarrier) (placedAt { owner := 1, exp := 2 })
  s.firstInOrder 0 toBarrier = true ∧ hPkg (toBarrier).target = s.podid.toNat ∧ s.handleState (toBarrier).target = .placed 0 0 ∧
  s.msgWindow 0 0 = (0, 4) ∧ (toBarrier).bn.getLsbD 15 = false ∧
  (s.slot 0 0).task.map Task.vi = some (hVi (toBarrier).target) ∧
  gives (exec (.messageDelivery 0) s) (fun t => (t.core 0).spadBytes 8 4 == [0x88, 0x77, 0, 0] && (t.core 0).bar 5 == some (b.arrive false)) = true ∧
  gives (exec (.messageDelivery 0) far) (fun t => (t.core 0).spad == [] && (t.core 0).bar 5 == some (b.arrive true)) = true ∧
  gives (exec (.messageDelivery 0) err) (fun t => (t.core 0).bar 5 == some (b.arrive true)) = true ∧
  gives (exec (.messageDelivery 0) none5) (fun t => (t.core 0).bar 5 == (none5.core 0).bar 5 && (t.slot 2 0).dead == 1) = true := by
  decide +kernel

theorem test_MessageDeliveryEffect_elsewhere :
  let m := toBarrier
  let out := delivering m
  let full : State := { delivering m with dies := [(0, { first := 0, mail := List.replicate 64 m })] }
  let claim : State := { delivering m (placedAt { owner := 0, exp := 2 } { task := some { aTask with claim := some 7, started := false } }) with
    handles := [{ handle := 7, vi := 1, q := 0, card := 0, core := 0, slot := 1, base := 9, count := 2 }] }
  let gone := delivering m {} (mapped [] [])
  let swapped (n : Nat) : State := { delivering m with saved := [{ area := 0x100000, task := aTask, nmail := n }] }
  out.handleState m.target = .notPlaced ∧ ((full.die 0).mail.filter fun x => x.target == m.target).length = 64 ∧
  claim.handleState m.target = .placed 0 0 ∧ claim.msgWindow 0 0 = (9, 2) ∧ gone.handleState m.target = .exited ∧
  (swapped 63).handleState m.target = .swapped 0x100000 ∧ hDie m.target = 0 ∧
  gives (exec (.messageDelivery 0) out) (fun t => (t.die 0).mail == [m] && (t.slot 2 0).dead == 0) = true ∧
  gives (exec (.messageDelivery 0) full) (fun t => (t.die 0).mail.length == 64 && (t.slot 2 0).dead == 1) = true ∧
  gives (exec (.messageDelivery 0) claim) (fun t => (t.core 0).spadBytes 0x90008 2 == [0x88, 0x77]) = true ∧
  gives (exec (.messageDelivery 0) gone) (fun t => (t.slot 2 0).dead == 1) = true ∧
  gives (exec (.messageDelivery 0) (swapped 63)) (fun t => t.memNat (0x104000 + 32 * 63) 8 == 0x7788 && t.saved.map SavedTask.nmail == [64]) = true ∧
  gives (exec (.messageDelivery 0) (swapped 64)) (fun t => t.mem == [] && (t.slot 2 0).dead == 1) = true := by decide +kernel

/-- A barrier that BINIT has not set up counts no arrival; BWAIT at one with EXP 0 ends at once; a reserved bit of a message block is status 2,
and a misaligned block traps. -/
theorem test_BarriersAndBlocks_unused :
  let idle : State := { arriving with cores := (barred { owner := 0 } []).cores }
  let inv := waiting { owner := 0, ph := 3 }
  let badBlock : State := { sending with mem := [(0x10F, 1)] }
  (idle.core 0).bar 5 = some { owner := 0 } ∧ gives (exec (.barrierArrival 7) idle) (fun t => (t.core 0).bar 5 == some { owner := 0 }) = true ∧
  inv.myBar 5 = some { owner := 0, ph := 3 } ∧
  gives (exec (.bwait 3 2) inv) (fun t => t.getX 3 == 0x0004000300040005#64 && t.me.wait == none) = true ∧
  gives (exec (.bphase 3 0) inv) (fun t => t.getX 3 == 0xFFFFFFFFFFFFFFFF#64) = true ∧
  gives (exec (.ssig 4 1 2) badBlock) (fun t => t.getX 4 == 2 && t.net == []) = true ∧
  gives (exec (.ssig 4 2 2) sending) (fun t => t.getX 4 == 1 && t.net == []) = true ∧
  gives (exec (.ssig 4 1 3) sending) (fun t => t.csrRead 0x342 == some 4 && t.csrRead 0x343 == some 0x108) = true := by decide +kernel

/-- Opening level 1 with a body of 256 parcels ends level 0, whose body is smaller; LBRK of level 1 ends it and level 0 inside it. -/
theorem test_LoopInstructionsComplete_nested :
  let s : State := { State.reset with cores := [(0, { fw := { nested 2 with x := [(1, 5)] } })] }
  gives (exec (.loop 2 255 1) s) (fun t => !(t.me.loop 0).act && !(t.me.loop 1).act && (t.me.loop 2).cnt == 5) = true ∧
  gives (exec (.lbrk 1) s) (fun t => !(t.me.loop 0).act && !(t.me.loop 1).act && t.me.pc == 0x80) = true ∧
  gives (exec (.lbrk 0) s) (fun t => !(t.me.loop 0).act && (t.me.loop 1).act && t.me.pc == 0x48) = true := by decide +kernel

/-- A message behind an earlier one of the same sender to the same target stays. -/
theorem test_message_order :
  let m := { aMessage with sender := some (0, 0), senderTask := State.reset.handleOf aTask }
  let s : State := { sending with net := [(0, .message m), (1, .message m)] }
  s.firstInOrder 1 m = false ∧ s.firstInOrder 0 m = true := by decide +kernel

/-! ## Witnesses: ordering, tasks, system instructions -/

/-- AMINS stores the lesser of -1 and 5, AMAXS the greater; a failed ACAS stores nothing. -/
theorem test_ScopedAtomicsComplete :
  let s := mx [(1, 0x100), (2, 5), (8, 7), (9, 0x80000000#64)] ((upFrom 0x100 4).map fun a => (a, 0xFF#8))
  let u := (s.locate 0 (s.core 0).dataMode 0x100 4 .rmw).1
  Ready [2, 1, 8] s ∧ (s.getX 1).toNat % 4 = 0 ∧ (s.getX 2).toNat % 4 ≠ 0 ∧ (s.getX 1).toNat % 8 = 0 ∧
  u.poisPieces [(0x100, 4)] = false ∧
  s.locate s.cur (s.core s.cur).dataMode (s.getX 1).toNat 4 .rmw = (u, .pieces [(0x100, 4)]) ∧
  (s.locate 0 (s.core 0).dataMode 0x100 8 .rmw).2 = .pieces [(0x100, 8)] ∧
  gives (exec (.aaddW 3 2 1 false false 0) s) (fun t => t.getX 8 == 0xFFFFFFFFFFFFFFFF#64 && t.memNat 0x100 4 == 4) = true ∧
  gives (exec (.aminsW 3 2 1 true true 0) s) (fun t => t.memNat 0x100 4 == 0xFFFFFFFF) = true ∧
  gives (exec (.amaxsD 0 2 1 false false 1) s) (fun t => t.memNat 0x100 8 == 0xFFFFFFFF && t.getX 9 == 0xFFFFFFFF) = true ∧
  gives (exec (.acasW 3 2 1 false false 1) s) (fun t => t.memNat 0x100 4 == 0xFFFFFFFF) = true ∧
  gives (exec (.axchgW 3 1 2 false false 0) s) (fun t => (t.core 0).csr.mcause == 6 && (t.core 0).csr.mtval == 5) = true := by
  decide +kernel

/-- A store by AXCHG ends the reservations of its granule, a failed ACAS none. -/
theorem test_ScopedAtomicsComplete_reservations :
  let s : State := { mx [(1, 0x100), (2, 5), (8, 7)] with resvs := [⟨7, 4, 4⟩, ⟨8, 5, 4⟩] }
  gives (exec (.axchgW 3 2 1 false false 0) s) (fun t => t.resvs == [⟨8, 5, 4⟩] && t.memNat 0x100 4 == 5) = true ∧
  gives (exec (.acasW 3 2 1 false false 0) s) (fun t => t.resvs == s.resvs && t.mem == []) = true := by decide +kernel

/-- Core 0 runs the task of queue 2; 23 cycles of the package have passed; its task has used 9. -/
def tasked : State :=
  inSlot { task := some { aTask with ucyc := 9 }, ctl := { x := [(1, 0), (2, 1), (3, 3), (4, 6), (5, 0x102), (6, 0x402)] } } {}
    { mapped [] [{ num := 3, bytes := List.replicate 128 0, remaining := 0, out := 2 }] with cycles := 23 }

theorem test_PrefixesAndReadsComplete :
  (scopedU.me.pre.any fun p => p.scope.isSome) = true ∧ (scopedU.me.pre.any fun p => p.logp.isSome) = false ∧ RegsFree [1, 2] scopedU ∧
  gives (exec (.logp 0 1 2 2 1) scopedU) (fun t => t.me.pre == some ⟨0x10, some 2, some ⟨0, 1, 2, 0x102, 0⟩⟩ && t.me.pc == 0x18) = true ∧
  gives (exec (.hint 7 1 1) scopedU) (fun t => t.me.pre == none && t.getX 1 == 0x102) = true ∧
  ({ scopedU with cores := [(0, { fw := { pre := some ⟨0, none, some ⟨0, 0, 0, 0, 0⟩⟩ } })] } : State).me.pre.isSome = true ∧
  Ready [7, 4] tasked ∧ tasked.runTask 0 = some { aTask with ucyc := 9 } ∧
  tasked.queue 1 2 = some { aQueue with cards := [{ num := 3, bytes := List.replicate 128 0, remaining := 0, out := 2 }] } ∧
  tasked.getX 1 = 0 ∧ tasked.getX 2 = 1 ∧ tasked.getX 3 = 3 ∧ 6 ≤ (tasked.getX 4).toNat ∧
  gives (exec (.tstamp 7) tasked) (fun t => t.getX 7 == 16) = true ∧
  gives (exec (.tslot 7) tasked) (fun t => t.getX 7 == 0x0000200400060080#64) = true ∧
  gives (exec (.budq 7 1) tasked) (fun t => t.getX 7 == 1000) = true ∧
  gives (exec (.budq 7 3) tasked) (fun t => t.getX 7 == 12477) = true ∧
  gives (exec (.budq 7 4) tasked) (fun t => t.getX 7 == 0xFFFFFFFFFFFFFFFF#64) = true ∧
  gives (exec (.zfence 5 3 3) tasked) (fun t => t.me.pc == 4) = true := by decide +kernel

/-- A prefix at the last parcel pair of a loop's body wraps with PW set; a second SCOPE, and a second LOGP, is PREFIX_REPEAT. -/
theorem test_PrefixesJoinTheGroup_loops :
  let s : State := { State.reset with cores := [(0, { fw := looping 2 })] }
  let g : State := { State.reset with cores := [(0, { fw := { pc := 0x14, pre := some ⟨0x10, some 2, some ⟨0, 0, 0, 0, 0⟩⟩ } })] }
  gives (exec (.scope 3) s) (fun t => t.me.pc == 0x3C && (t.me.loop 1).pw && t.me.pre.isSome) = true ∧
  (g.me.pre.any fun p => p.scope.isSome) = true ∧ (g.me.pre.any fun p => p.logp.isSome) = true ∧
  gives (exec (.scope 3) g) (fun t => t.csrRead 0x343 == some 0x40600700B#64 && t.csrRead 0x341 == some 0x14) = true ∧
  gives (exec (.logp 0 0 0 1 1) g) (fun t => t.csrRead 0x342 == some 2 && t.csrRead 0x341 == some 0x14) = true ∧
  tasked.getX 1 = 0 ∧ gives (exec (.budq 7 2) tasked) (fun t => t.getX 7 == 2000) = true := by decide +kernel

/-- x5 asks for one bank from bank 2 of the window, x6 for four from bank 2 of four. -/
theorem test_TasksEndAndYield :
  let busy : State := inSlot { task := some aTask, ctl := {}, queues := [(2, [{ seq := 0, kind := .cpy, vi := 1, block := [], word := 0 }])] }
  Ready [5] tasked ∧ (tasked.core 0).running = some 0 ∧ tasked.queuesEmpty 0 0 = true ∧ tasked.regionRuns 0 0 = false ∧
  gives (exec (.tend 5) tasked) (fun t => (t.core 0).running == none && (t.slot 0 0).task == none &&
    ((t.queue 1 2).bind fun q => q.card 3).map (fun c => (c.out, c.exit)) == some (1, 0x102)) = true ∧
  busy.queuesEmpty 0 0 = false ∧ Ready [5] busy ∧ gives (exec (.tend 5) busy) (fun t => t.me.wait.isSome) = true ∧
  gives (exec .tyield tasked) (fun t => (t.slot 0 0).yielding && t.me.wait.isSome) = true ∧ Ready [7, 5] tasked ∧
  2 + 1 ≤ ((tasked.core 0).win 0).2 ∧ ((tasked.core 0).win 0).2 < 2 + 4 ∧
  gives (exec (.thand 7 5) tasked) (fun t => t.handles.map (fun h => (h.base, h.count)) == [(2, 1)]) = true ∧
  gives (exec (.thand 7 6) tasked) (fun t => t.handles == [] && t.getX 7 == 0) = true := by decide +kernel

/-- A task that owns a region that has stopped leaves it idle; one with a running region, and one with a paused stream, waits. -/
theorem test_TaskEndRetires_region :
  let own (st : RegionState) (p : Tab Port) : State := { tasked with cores := tasked.cores.map fun (c, k) =>
    (c, { k with region := { k.region with owner := some 0, st := st }, ports := p }) }
  let pausedPort : Tab Port := [(1, { stream := some { bind := ⟨0, 1, 0, [], [], 0⟩, pause := some { va := 0, tag := 1 } } })]
  (own .halted []).regionRuns 0 0 = false ∧ (own .running []).regionRuns 0 0 = true ∧ (own .halted pausedPort).portsPaused 0 0 = true ∧
  (own .halted []).portsPaused 0 0 = false ∧ ((own .halted []).region 0).owner = some 0 ∧
  gives (exec (.tend 5) (own .halted [])) (fun t => (t.region 0).st == .idle && (t.region 0).owner == none) = true ∧
  gives (exec (.tend 5) (own .running [])) (fun t => t.me.wait.isSome) = true ∧
  gives (exec (.tend 5) (own .halted pausedPort)) (fun t => t.me.wait.isSome) = true := by decide +kernel

/-- With four handles outstanding no other is made. -/
theorem test_YieldAndHandover_four :
  let h : Handle := { handle := 1, core := 0, slot := 0, base := 0, count := 1, card := 3, vi := 1, q := 2 }
  let s : State := { tasked with handles := [h, h, h, h] }
  (s.handles.filter fun h => h.core == 0 && h.slot == 0 && !h.handed).length = 4 ∧
  gives (exec (.thand 7 5) s) (fun t => t.getX 7 == 0 && t.handles.length == 4) = true := by decide +kernel

/-- A card at 0x200 (its first byte 0x5A); x1 names queue 2, x3 a queue that does not exist; W is 4 and R 4. -/
def spawning : State :=
  inSlot (slotX [(1, 2), (2, 0x200), (3, 5), (4, 0x220)]) {}
    (mapped (cells 0x110000 (fields [(8, 4), (8, 4)])) [] { State.reset with podid := 0 })
def spawn1 : State := { spawning with mem := (0x200, 0x5A) :: spawning.mem }

theorem test_SpawnEnqueues :
  Ready [7, 1, 2] spawn1 ∧ (spawn1.getX 2).toNat % 64 = 0 ∧ (spawn1.getX 4).toNat % 64 ≠ 0 ∧
  spawn1.locate 0 (spawn1.core 0).dataMode 0x200 128 .read
    = ((spawn1.locate 0 (spawn1.core 0).dataMode 0x200 128 .read).1, .pieces [(0x200, 128)]) ∧
  (spawn1.locate 0 (spawn1.core 0).dataMode 0x200 128 .read).1.poisPieces [(0x200, 128)] = false ∧
  spawn1.queue 1 2 = some { aQueue with cards := [] } ∧ aQueue.devenq = true ∧ spawn1.queue 1 5 = none ∧
  spawn1.devRead 1 0 0x110000 8 = some (toLE 8 4) ∧ spawn1.devRead 1 0 0x110008 8 = some (toLE 8 4) ∧
  (spawn1.devLocate 1 0 .write 0x110000 8).toOption = some [(0x110000, 8)] ∧
  (spawn1.devWrite 1 0 (0x100000 + 128 * 4) (List.replicate 128 0)).isSome = true ∧
  gives (exec (.tspawn 7 1 2) spawn1)
    (fun t => t.getX 7 == 0 && t.memByte 0x100200 == 0x5A && t.memNat 0x110000 8 == 5 && (t.queue 1 2).map Queue.st == some .pending) = true ∧
  gives (exec (.tspawn 7 3 2) spawn1) (fun t => t.getX 7 == 2) = true := by decide +kernel

/-- A queue 2 that is full: W is R + 16. -/
theorem test_SpawnEnqueues_full :
  let s : State := inSlot (slotX []) {} (mapped (cells 0x110000 (fields [(8, 20), (8, 4)])) [])
  s.devRead 1 0 0x110000 8 = some (toLE 8 20) ∧ 4 + 2 ^ aQueue.logn ≤ 20 ∧ (s.spawn 1 2 (List.replicate 128 0)).2 = 1 := by
  decide +kernel

/-- Code 3: a poisoned W index; an index on a page that is not mapped; one on a page that may not be written, where nothing is written. -/
theorem test_SpawnEnqueues_unreadable :
  let at_ (w r : Nat) (p : List Loc) : State :=
    let q := { aQueue with desc := aDesc.take 16 ++ toLE 8 w ++ toLE 8 r ++ aDesc.drop 32 }
    { spawning with poison := p, mem := tables ++ [(0x20008, 0x13), (0x110000, 4), (0x110008, 4)], ifaces := [(1, { spawning.iface 1 with queues := [(2, some q)] })] }
  let bad := at_ 0x110000 0x110008 [.mem (0x110000 / 8)]
  let far := at_ 0x110000 0x40000000 []
  let ro := at_ 0x20000000 0x110008 []
  bad.devRead 1 0 0x110000 8 = none ∧ far.devRead 1 0 0x40000000 8 = none ∧ (ro.devRead 1 0 0x20000000 8).isSome = true ∧
  (ro.devLocate 1 0 .write 0x20000000 8).toOption = none ∧
  gives (exec (.tspawn 7 1 2) bad) (fun t => t.getX 7 == 3 && (t.die 0).trace.entries.length == 1) = true ∧
  gives (exec (.tspawn 7 1 2) far) (fun t => t.getX 7 == 3 && t.mem == far.mem) = true ∧
  gives (exec (.tspawn 7 1 2) ro) (fun t => t.getX 7 == 3 && t.mem == ro.mem) = true := by decide +kernel

/-- Core 0 in M mode holds a translation of interface 1 at VA 0, core 1 of its quad another at 512 MiB. -/
def cached : State :=
  { mx [(1, 0), (2, 0x0001000000010000#64)] with
    cores := [(0, { fw := { x := [(1, 0), (2, 0x0001000000010000#64)] }, tlb := [⟨1, 0, 29, 0, true, true, true, 0, false⟩] }),
      (1, { tlb := [⟨1, 0x20000000, 29, 0, true, true, true, 0, false⟩] })] }

/-- A stream port of core 1 with one range entry of interface 1. -/
def openPort : State :=
  { cached with cores := cached.cores ++ [(2, { ports := [(3, { stream := some { bind := ⟨0, 1, 0, [], [], 0⟩, ranges := [⟨1, 0, 0x1000, 0, true, true, 0, false⟩] } })] })] }

theorem test_TranslationsAreShotDown :
  Ready [1, 2] cached ∧ (cached.core 0).mode = .m ∧ inScope 2 0 1 = true ∧ inScope 1 0 1 = false ∧
  gives (exec (.tlbinv 2 2 1) cached) (fun t => (t.core 0).tlb == [] && (t.core 1).tlb.length == 1) = true ∧
  cached.edgePorts 2 0 = [] ∧ openPort.edgePorts 2 0 = [(2, 3)] ∧ Ready [1, 2] openPort ∧ (openPort.core 0).mode = .m ∧
  (∀ k ∈ openPort.tokens, k.num < openPort.tokenNo) ∧
  gives (exec (.relatch 2 2 1) openPort) (fun t => t.tokens == [⟨0, 0, 0, some 0x10000, some 1, [(2, 3)]⟩] && t.me.wait.isSome) = true ∧
  gives (exec (.relatchToken 0) { openPort with tokens := [⟨0, 0, 0, some 0x10000, some 1, [(2, 3)]⟩] })
    (fun t => t.tokens == [] && (t.port 2 3).stream.map Stream.ranges == some []) = true := by decide +kernel

/-- TLBINV over interface 1's first 64 KiB keeps a walk entry of the second half of its terabytes and another interface's; at die
scope it leaves die 1's. -/
theorem test_ShootDownCompletes_walks :
  let w : List WalkEntry := [⟨1, 2, 0, 0x20000⟩, ⟨1, 2, 1, 0⟩, ⟨1, 1, 0, 0⟩, ⟨1, 1, 1, 0⟩, ⟨2, 2, 0, 0⟩]
  let s : State := { cached with dies := [(0, { first := 0, walks := w }), (1, { first := 1, walks := w })] }
  gives (exec (.tlbinv 3 2 1) s) (fun t => (t.die 0).walks == [⟨1, 2, 1, 0⟩, ⟨1, 1, 1, 0⟩, ⟨2, 2, 0, 0⟩] && (t.die 1).walks == w) = true ∧
  gives (exec (.tlbinv 4 2 1) s) (fun t => (t.die 1).walks == [⟨1, 2, 1, 0⟩, ⟨1, 1, 1, 0⟩, ⟨2, 2, 0, 0⟩]) = true := by decide +kernel

/-- A RELATCH behind a token of its core that is under way waits, with no open port too, and completes once the token is gone. -/
theorem test_RelatchTokenPasses_waits :
  let before : Token := ⟨0, 0, 0, none, some 1, [(2, 3), (2, 4)]⟩
  let s : State := { cached with tokens := [before], tokenNo := 1 }
  let w : Waiting := { instr := .relatch 2 2 1, len := 4, n := 2 }
  let held : State := { s with cores := s.cores.map fun (c, k) => (c, if c = 0 then { k with fw := { k.fw with wait := some w } } else k) }
  s.edgePorts 2 0 = [] ∧ (∀ k ∈ s.tokens, k.num < s.tokenNo) ∧ (cached.tokens = []) ∧ WaitsIn w held ∧ WaitsIn w { held with tokens := [] } ∧
  DieUp 0 { openPort with tokens := [before] } ∧
  gives (exec (.relatch 2 2 1) cached) (fun t => t.me.wait == none && t.tokens == []) = true ∧
  gives (exec (.relatch 2 2 1) s) (fun t => t.me.wait.isSome && t.tokens == [before]) = true ∧
  gives (exec (.waitComplete 0) held) (fun t => t.me.wait == some w) = true ∧
  gives (exec (.waitComplete 0) { held with tokens := [] }) (fun t => t.me.wait == none && t.me.pc == 4) = true ∧
  gives (exec (.relatchToken 0) { openPort with tokens := [before] }) (fun t => t.tokens == [{ before with ports := [(2, 4)] }]) = true := by
  decide +kernel

/-- A request that keeps die 0 a partition of its own, within a limit of 2 * 1,024 cycles. -/
def aRequest : List Byte := fields [(1, 1), (3, 0), (4, 2), (56, 0)]
def asking : State := mx [(1, 0x300), (2, 0x310), (3, 0x400)] (cells 0x300 aRequest)
def changing : State :=
  { asking with
    cores := [(0, { fw := { wait := some { instr := .partctl 3 1, len := 4 } } })]
    part := [{ core := 0, req := aRequest, addr := 0x300, began := 0 }] }

theorem test_PartitionChangeSteps :
  Ready [4, 1] asking ∧ (asking.core 0).mode = .m ∧ (asking.core 0).anyPlaced = false ∧ asking.part = [] ∧
  (asking.getX 1).toNat % 64 = 0 ∧ (asking.getX 2).toNat % 64 ≠ 0 ∧
  (asking.locate 0 (asking.core 0).dataMode 0x300 64 .read).2 = .pieces [(0x300, 64)] ∧ asking.poisPieces [(0x300, 64)] = false ∧
  asking.partBad (asking.readPieces [(0x300, 64)]) = false ∧ asking.partBad (asking.readPieces [(0x400, 64)]) = true ∧
  (asking.locate 0 (asking.core 0).dataMode 0x400 64 .read).2 = .pieces [(0x400, 64)] ∧
  gives (exec (.partctl 4 1) asking) (fun t => t.part.length == 1 && (t.die 0).quiet && t.me.wait.isSome) = true ∧
  gives (exec (.partctl 4 2) asking) (fun t => t.getX 4 == 2) = true ∧
  (let s : State := inSlot (slotX []); (s.core 0).anyPlaced = true ∧ (s.core 0).mode = .m ∧ Ready [4, 1] s ∧
    gives (exec (.partctl 4 1) s) (fun t => t.getX 4 == 3) = true) ∧
  changing.quietFor aRequest = true ∧
  gives (exec (.partctlQuiesced 0) changing)
    (fun t => t.part == [] && (t.die 0).gen == 1 && (t.die 1).gen == 0 && (t.ctl 0).wait.map Waiting.b == some 0x8000000000000000#64) = true := by
  decide +kernel

/-- PARTCTL's wait ends with the result that the change has left in it; a request where nothing is located is BADREQ. -/
theorem test_PartitionChangeSteps_result :
  let w : Waiting := { instr := .partctl 3 1, len := 4, n := 1, b := 0x8000000000030201#64 }
  let s : State := { asking with cores := [(0, { fw := { wait := some w } })] }
  let far := mx [(1, 0x7FFFFFFFFFFFFFC0#64)]
  WaitsIn w s ∧ w.b.getLsbD 63 = true ∧ gives (exec (.waitComplete 0) s) (fun t => t.getX 3 == 0x30201 && t.me.wait == none) = true ∧
  (match (far.locate 0 (far.core 0).dataMode 0x7FFFFFFFFFFFFFC0 64 .read).2 with | .pieces _ => false | _ => true) = true ∧
  gives (exec (.partctl 4 1) far) (fun t => t.getX 4 == 2 && t.part == []) = true := by decide +kernel

/-- BUSY names the lowest busy queue's die and hardware slot; a change gives a listed interface its new die. -/
theorem test_PartitionChangeSteps_names :
  let busy (d hw : Nat) : State := { mapped [] [{ num := 3, bytes := [], remaining := 1 }] with
    cores := changing.cores, part := changing.part, cycles := 2048, dies := [(d, { first := d, hwq := [(hw, some (1, 2))] })] }
  let rq : List Byte := fields [(1, 1), (3, 0), (4, 2), (56, 0)]
  (busy 0 127).queueBusy rq 1 2 = true ∧ ((busy 0 127).queue 1 2).map Queue.die = some 0 ∧ 0 ∈ rqDies rq ∧
  Tab.sorted ((busy 0 127).die 0).hwq = true ∧ Tab.get none ((busy 0 127).die 0).hwq 127 = some (1, 2) ∧ DieUp 0 (busy 0 127) ∧
  gives (exec (.partctlQuiesceTimeout 0) (busy 0 127)) (fun t => (t.ctl 0).wait.map Waiting.b == some 0x80000000007F0001#64) = true := by
  decide +kernel

/-- A queue of die 0 still holds a card when the limit passes: BUSY, and the partitions stand. -/
theorem test_partctl_timeout :
  let s : State := { mapped [] [{ num := 3, bytes := [], remaining := 1 }] with
    cores := changing.cores, part := changing.part, cycles := 2048 }
  s.quietFor aRequest = false ∧ 0 + 1024 * rqLim aRequest ≤ s.cycles ∧ (∀ d, d < 4 → ∀ e ∈ (s.die d).hwq, e.1 < 128) ∧
  gives (exec (.partctlQuiesceTimeout 0) s)
    (fun t => t.part == [] && (t.die 0).gen == 0 && (t.ctl 0).wait.any fun w => w.b.getLsbD 63 && w.b.extractLsb' 0 8 == 1) = true := by
  decide +kernel

/-! ## Witnesses: the region -/

/-- An image with tag 0x77: one record whose lane 0 does nothing in a ring of one row. -/
def anImage : List Byte := fields [(4, 0x77), (2, 1), (2, 0), (4, 128), (52, 0), (3, 0), (1, 1), (60, 0)]

/-- A descriptor for it: bank 0, two rows, hold limit 4, LDG latency 16, trip count 3. -/
def aRegion : List Byte := fields [(4, 1), (4, 0x00040010), (4, 3), (4, 0), (4, 0), (4, 0), (8, 0), (4, 0x77), (220, 0)]

/-- Core 0 in M mode with slot 0 running its task: the image at 0x300000 and in bank 0, the descriptor at 0x310000. -/
def grid (r : Region) (x : Tab Word := []) : State :=
  inSlot (slotX x) { region := r, banks := [(0, bankOf anImage)] } (mapped (cells 0x300000 anImage ++ cells 0x310000 aRegion) [])

def rowing : Region := { st := .running, owner := some 0, dva := 0x310000, desc := aRegion, tag := 0x77, mask := 1, nxt := 1 }

theorem test_ArmatureLoads_issue :
  let s := grid {} [(1, 0x300000), (2, 1), (3, 0x300001)]
  Ready [4, 1, 2] s ∧ (s.region 0).owner = none ∧
  gives (exec (.rcfg 4 1 2) s) (fun t => (t.core 0).arm.map (fun a => (a.addr, a.bank, a.early)) == [(0x300000#64, 1, none)]) = true ∧
  gives (exec (.rcfg 4 3 0) (grid rowing [(3, 0x300001)]))
    (fun t => (t.core 0).arm.map ArmLoad.early == [some 1]) = true := by decide +kernel

/-- A load of the image into bank 1 at the head of the armature's line, in physical addresses. -/
def aLoad (early : Option Nat) (sreg : Bool) (addr : Word) : ArmLoad :=
  { slot := some 0, rd := some 4, addr := addr, bank := 1, sreg := sreg, phys := true, vi := 1, early := early }
def armed (early : Option Nat) (sreg : Bool) (addr : Word) : State :=
  { grid {} with cores := (grid {}).cores.map fun (c, k) => (c, { k with arm := [aLoad early sreg addr] }) }

theorem test_ArmatureLoads :
  let s := armed none false 0x300000
  let p := s.modCore 0 fun k => { k with arm := [] }
  let x := aLoad none false 0x300000
  let u := (p.armRead 0 x 1 0x300000).1
  (s.core 0).arm = [x] ∧
  (s.die 0).fatal = false ∧ (s.die 0).actParked 2 0 1 = false ∧
  (p.armRead 0 x 1 0x300000).2 = (anImage.take 64, false) ∧
  (u.armRead 0 x (imageUnits (anImage.take 64)) 0x300040).2 = (anImage.drop 64, false) ∧
  imageStatus anImage (imgLen anImage) false = 0 ∧
  gives (exec (.armatureLoadDone 0) s)
    (fun t => (Tab.get {} (t.core 0).banks 1).tag == 0x77 && (t.slot 0 0).ctl.getX 4 == 0 && (t.core 0).arm == []) = true := by
  decide +kernel

/-- A load rejected with ALIGN empties its bank, one with BUSY does not; a static load sets c0 of lane 0 to 0x77. -/
theorem test_ArmatureLoads_early :
  (armed (some 5) false 1).cores.length = 1 ∧
  gives (exec (.armatureLoadDone 0) (armed (some 5) false 1)) (fun t => (t.slot 0 0).ctl.getX 4 == 5) = true ∧
  gives (exec (.armatureLoadDone 0) (armed none true 0x300000)) (fun t => ((t.region 0).lane 0).reg 24 == 0x77) = true ∧
  ((armed none true 0x300000).modCore 0 fun k => { k with arm := [] }).armRead 0 (aLoad none true 0x300000) 8 0x300000
    = ((((armed none true 0x300000).modCore 0 fun k => { k with arm := [] }).armRead 0 (aLoad none true 0x300000) 8 0x300000).1,
        anImage ++ List.replicate 384 0, false) := by decide +kernel

theorem test_LaunchStartsTheRegion :
  let s := grid {} [(1, 0x310000)]
  let u := (s.fetchBytes 0x310000 256).1
  let x : Target := ⟨0, 0, 0, 0, 0⟩
  let v := (freeRegions [x] u).1
  Ready [4, 1, 0] s ∧ (s.getX 1).toNat % 64 = 0 ∧ s.getX 0 = 0 ∧ (s.slot 0 0).queue 1 = [] ∧
  s.fetchBytes 0x310000 256 = (u, some aRegion) ∧ (u.core 0).armPending 0 = false ∧ (u.region 0).passes = [] ∧
  freeRegions [x] u = (v, true) ∧ v.copyCauses aRegion x = [] ∧ (v.claimTile 0 0).isSome = true ∧
  gives (exec (.rlnch 4 1 0) s)
    (fun t => (t.region 0).st == .running && (t.region 0).owner == some 0 && t.getX 4 == 0x100 && (t.region 0).mask == 1) = true ∧
  (grid rowing).copyCauses aRegion x = [15] := by decide +kernel

/-- A stamp table of one entry, offset 5 for gang index 0, at 0x320000; a misaligned descriptor; a region that is RUNNING already; a trip
count of 0, with which the region has finished before its first interval. -/
theorem test_LaunchStartsTheRegion_forms :
  let noTrip := aRegion.take 8 ++ toLE 4 0 ++ aRegion.drop 12
  let s : State := { grid {} [(1, 0x310000), (2, 0x320000), (3, 0x310008), (5, 0x330000)] with
    mem := (grid {}).mem ++ cells 0x320000 (fields [(4, 5), (4, 0)]) ++ cells 0x330000 noTrip }
  let w := (s.fetchBytes 0x310000 256).1
  let u := (w.fetchBytes 0x320000 8).1
  let x : Target := ⟨0, 0, 5, 0, 0⟩
  (s.getX 3).toNat % 64 ≠ 0 ∧ bits 0x320000 59 5 + 1 = 1 ∧ bits 0x320000 55 4 = 0 ∧ bits 0x320000 0 55 % 8 = 0 ∧
  (w.fetchBytes 0x320000 8).2 = some (fields [(4, 5), (4, 0)]) ∧ stampBad u.myGang (fields [(4, 5), (4, 0)]) 1 = false ∧
  stampTargets u.myGang (fields [(4, 5), (4, 0)]) 1 = [x] ∧
  gives (exec (.rlnch 4 1 2) s) (fun t => (t.region 0).ioff == 5 && (t.region 0).st == .running && t.getX 4 == 0x100) = true ∧
  gives (exec (.rlnch 4 3 0) s) (fun t => t.getX 4 == 5 && (t.region 0).st == .idle) = true ∧
  lowest ([x].flatMap ((grid rowing).copyCauses aRegion)) = some 15 ∧
  gives (exec (.rlnch 4 1 0) (grid rowing [(1, 0x310000)])) (fun t => t.getX 4 == 0x10F) = true ∧
  gives (exec (.rlnch 4 5 0) s) (fun t => (t.region 0).mask == 0 && (t.region 0).nxt == 0 && (t.region 0).done && (t.region 0).st == .running) = true := by
  decide +kernel

theorem test_RegionWaitsAndReads :
  let h := grid { rowing with st := .halted, asked := some (0, .m, 0), flags := 5, k := 7, nxt := 8, holds := 9 } [(1, 2), (2, 0x108), (3, 4), (5, 1), (6, 0x10)]
  let w : State := { h with cores := h.cores.map fun (c, k) => (c, { k with mode := .u, region := { k.region with owner := some 1 } }) }
  let r : State := grid rowing
  Ready [4] h ∧ h.notOwner = false ∧ (h.region 0).st ≠ .running ∧ h.copies 0 0 = [] ∧ (h.region 0).asked = some (h.mySlot, (h.core 0).mode, h.me.pc) ∧
  w.notOwner = true ∧ w.hidden = true ∧ Ready [4, 3] w ∧ r.notOwner = false ∧ (r.region 0).st = .running ∧ Ready [4] r ∧
  (grid {}).hidden = false ∧ h.hidden = false ∧ h.getX 1 = 2 ∧ h.getX 3 = BitVec.ofNat 64 (4 + 0) ∧
  h.getX 2 = BitVec.ofNat 64 (0x100 + 8 * 1 + 0) ∧ h.getX 5 = 1 ∧ h.getX 6 = 0x10 ∧
  ((grid {}).region 0).asked = none := by decide +kernel

theorem test_RegionFormsComplete :
  let h := grid { rowing with st := .halted, asked := some (0, .m, 0), flags := 5, k := 7, nxt := 8, holds := 9 } [(1, 2), (2, 0x108), (3, 4), (5, 1), (6, 0x10)]
  let w : State := { h with cores := h.cores.map fun (c, k) => (c, { k with mode := .u, region := { k.region with owner := some 1 } }) }
  let r : State := grid rowing
  gives (exec (.rwait 4) h) (fun t => t.getX 4 == 0x200) = true ∧ gives (exec (.rwait 4) r) (fun t => t.me.wait.isSome) = true ∧
  gives (exec (.rhalt 4) r) (fun t => (t.region 0).haltReq) = true ∧ gives (exec (.rhalt 4) h) (fun t => t.getX 4 == 0x200) = true ∧
  gives (exec (.rhalt 4) (grid {})) (fun t => t.getX 4 == 15) = true ∧
  gives (exec (.riter 4) h) (fun t => t.getX 4 == 0x0000000700000008#64) = true ∧
  gives (exec (.rstat 4 1) h) (fun t => t.getX 4 == 5 && (t.region 0).flags == 0) = true ∧
  gives (exec (.rstat 4 3) h) (fun t => t.getX 4 == 0x77) = true ∧
  gives (exec (.rstat 4 5) w) (fun t => t.getX 4 == 0xFFFFFFFFFFFFFFFF#64) = true := by decide +kernel

/-- A region halted at the end of interval 7, and, for runtime firmware with no slot, its block at 0x1000: the mark, the state HALTED with bank 0, the
descriptor's address, the tag, NXT 8, K 7, row 0 and MASK 1. -/
def halted : State := grid { rowing with st := .halted, k := 7, nxt := 8 } [(1, 0x400000)]
def aBlock : List Byte := fields [(4, 0x31425342), (4, 2), (8, 0x310000), (8, 0x77), (4, 8), (4, 7), (1, 0), (1, 1)]
def savedBlock : State :=
  { State.reset with
    mem := cells 0x1000 aBlock ++ cells 0x310000 aRegion
    cores := [(0, { banks := [(0, bankOf anImage)], fw := { x := [(1, 0x1000)] } })] }

theorem test_RegionSave :
  let u := (halted.writable 0x400000 4096).1
  let v := u.flushPorts 0 (u.ownerOf 0)
  Ready [4, 1] halted ∧ (halted.getX 1).toNat % 4096 = 0 ∧ halted.notOwner = false ∧ (halted.region 0).st = .halted ∧
  halted.writable 0x400000 4096 = (u, some [(0x400000, 4096)]) ∧ v.regionSettled 0 = true ∧ (v.core 0).stq = [] ∧
  v.writable 0x400000 4096 = ((v.writable 0x400000 4096).1, some [(0x400000, 4096)]) ∧
  gives (exec (.rsave 4 1) halted) (fun t => (t.region 0).st == .idle && t.getX 4 == 0 && (t.region 0).owner == none) = true := by
  decide +kernel

/-- Selector 0: state HALTED, bank 0, EXIT, MASK 1, II - 1 of 1, S - 1 of 0, HACC 3; selectors 3 and 0x180 are not listed. -/
theorem test_RegionWaitsAndReads_selectors :
  let h := grid { rowing with st := .halted, exited := true, hacc := 3 } [(2, 3), (3, 0x180)]
  Ready [4, 0] h ∧ h.getX 0 = 0 ∧ (h.getX 2).toNat ∉ [0, 1, 2, 4, 5, 6, 7, 0x10] ∧
  gives (exec (.rstat 4 0) h) (fun t => t.getX 4 == 0x0000000300010112#64) = true ∧
  gives (exec (.rstat 4 2) h) (fun t => t.getX 4 == 0xFFFFFFFFFFFFFFFF#64) = true ∧
  gives (exec (.rstat 4 3) h) (fun t => t.getX 4 == 0xFFFFFFFFFFFFFFFF#64) = true := by decide +kernel

/-- RSAVE leaves c0 of lane 0 for the slot that had the region. -/
theorem test_RegionSave_keeps :
  let s := grid { rowing with st := .halted, lanes := [(0, { c := [(0, 0x77)], w := [(1, 5)] })] } [(1, 0x400000)]
  ((s.region 0).lane 0).reg 24 = 0x77 ∧
  gives (exec (.rsave 4 1) s) (fun t => ((t.region 0).lane 0).reg 24 == 0x77 && ((t.region 0).lane 0).reg 1 == 0) = true := by
  decide +kernel

theorem test_RegionRestore :
  let s := savedBlock
  let u := (s.locate 0 (s.core 0).mode 0x1000 4096 .read).1
  let b := s.readPieces [(0x1000, 4096)]
  Ready [4, 1] s ∧ (s.getX 1).toNat % 4096 = 0 ∧ s.freeRegion 0 (some s.mySlot) = (s, true) ∧
  s.locate 0 (s.core 0).mode 0x1000 4096 .read = (u, .pieces [(0x1000, 4096)]) ∧ s.poisonedOffsets 0x1000 4096 = [] ∧
  bitAt (fld b 0 8) 34 = false ∧ (s.core 0).armPending (bits (fld b 0 8) 40 2) = false ∧ (s.region 0).passes = [] ∧
  u.rrstrCauses 0 b true = [] ∧ u.descHeld 0 0 b = some aRegion ∧ (u.claimTile 0 0).isSome = true := by decide +kernel

/-- Blocks with these state and flag bits, at this row of interval 7, and a store tail of one STG. -/
def rowBlock (flags t : Nat) : List Byte :=
  fields [(4, 0x31425342), (4, flags), (8, 0x310000), (8, 0x77), (4, 8), (4, 7), (1, 5), (1, 1), (1, 0), (1, t)]
def stgTail : List Byte := padTo 4096 (StqEntry.bytes { slot := 0, kind := 0, va := 0x320000, data := 9, lane := 2 } 0)

/-- What the block of a HALTED region, of a FROZEN one with and without SKIP, and of one with a TAIL says. -/
theorem test_RegionRestore_forms :
  bitAt (fld (rowBlock 7 1) 0 8) 34 = true ∧ bits (fld (rowBlock 2 0) 0 8) 32 2 = 2 ∧ bits (fld (rowBlock 3 1) 0 8) 32 2 = 3 ∧
  bitAt (fld (rowBlock 0xB 1) 0 8) 35 = true ∧ blockOk (padTo 4096 (rowBlock 0xB 1)) = true := by
  decide +kernel

theorem test_RegionRestore_tail : tailEntryOk stgTail = true ∧ (getTailEntry 0 stgTail).map (fun e => (e.va, e.data)) = some (0x320000, 9) := by
  decide +kernel

/-- At the interval's end a region asked to halt is HALTED and takes no step; one whose step completes it is not; the last iteration of
three shifts a zero into the mask of one stage, and the region has finished. -/
theorem test_RowAdvances_boundary :
  let h := grid { rowing with t := 1, haltReq := true }
  let z := grid { rowing with t := 1, haltReq := true, nxt := 3 }
  dS aRegion = 1 ∧ dTrip aRegion = 3 ∧ h.rowReady 0 = true ∧ h.violation 0 = none ∧ h.held 0 = false ∧ h.rowFault 0 = none ∧
  z.rowReady 0 = true ∧ z.violation 0 = none ∧ z.held 0 = false ∧ z.rowFault 0 = none ∧ (∀ x ∈ h.laneActs 0, x.op ≠ .brkpt ∧ x.op ≠ .exit) ∧
  gives (exec (.rowAdvance 0) h) (fun t => (t.region 0).st == .halted && (t.region 0).k == 0 && !(t.region 0).haltReq) = true ∧
  gives (exec (.rowAdvance 0) z) (fun t => (t.region 0).done && (t.region 0).mask == 0 && (t.region 0).k == 1 && (t.region 0).st == .running) = true := by
  decide +kernel

/-- Row 0 advances to row 1; row 1 ends the interval; a row that holds; a finished region; a pass that is due. -/
theorem test_RegionRows :
  let s := grid rowing
  let e := grid { rowing with t := 1, rrb := 0 }
  s.rowReady 0 = true ∧ s.violation 0 = none ∧ s.held 0 = false ∧ s.rowFault 0 = none ∧ (∀ x ∈ s.laneActs 0, x.op ≠ .brkpt) ∧
  (s.die 0).fatal = false ∧ gives (exec (.rowAdvance 0) s) (fun t => (t.region 0).t == 1 && (t.region 0).k == 0) = true ∧
  e.rowReady 0 = true ∧ e.violation 0 = none ∧ e.held 0 = false ∧ e.rowFault 0 = none ∧ (e.region 0).done = false ∧
  gives (exec (.rowAdvance 0) e) (fun t => (t.region 0).t == 0 && (t.region 0).k == 1 && (t.region 0).rrb == 23) = true ∧
  (let f := grid { rowing with done := true }
   (f.region 0).done = true ∧ (f.core 0).drained = true ∧ gives (exec (.regionComplete 0) f) (fun t => (t.region 0).st == .idle) = true) ∧
  (let p := grid { rowing with passes := [⟨[(2, 5, 0x3F800000)], 4, 16⟩] }
   (p.region 0).passes = [⟨[(2, 5, 0x3F800000)], 4, 16⟩] ∧
   gives (exec (.rowTablePassComplete 0) p)
     (fun t => Tab.get 0 (t.tile 0).acc 2053 == 0x3F800000 && (t.tile 0).flags == 4 && (t.region 0).passes == []) = true) := by
  decide +kernel

/-- A row that waits for barrier 0's phase 1 (hm.bar), and the same at its hold limit of 4. -/
def barRegion : List Byte := fields [(4, 1), (4, 0x00040010), (4, 3), (4, 0), (4, 0), (4, 0), (8, 0), (4, 0x77), (60, 0), (2, 0x8000), (158, 0)]
def holding (h : Nat) : State :=
  { grid { rowing with desc := barRegion, bph := 1, hacc := h, issuer := (0, 0) } with
    cores := (grid { rowing with desc := barRegion, bph := 1, hacc := h }).cores.map fun (c, k) => (c, { k with bars := [(0, some { owner := 0, exp := 2 })] }) }

theorem test_RegionRows_hold :
  (holding 3).holds 0 = true ∧ (3 : Nat) + 1 ≤ dHL barRegion ∧ (holding 4).holds 0 = true ∧ dHL barRegion < 4 + 1 ∧
  gives (exec (.holdCycle 0) (holding 3)) (fun t => (t.region 0).hacc == 4 && (t.region 0).holds == 1) = true ∧
  gives (exec (.deadlineFault 0) (holding 4))
    (fun t => (t.region 0).st == .frozen && (t.core 0).frq.map FaultRec.cause == [25]) = true := by decide +kernel

/-- An LDG of 32 bits at 0x310004, the descriptor's second word; a store and an AMOG add at 0x320000. -/
def loading : State :=
  grid { rowing with lanes := [(2, { land := [(1, some { va := 0x310004, rem := 3, dest := 0, ty := 0 })] })] }
def storing (kind : Nat) : State :=
  let s := grid { rowing with lanes := [(2, { land := [(1, some { va := 0x310008, amo := true, rem := 3, dest := 0 })] })] }
  { s with cores := s.cores.map fun (c, k) =>
      (c, { k with stq := [{ slot := 0, kind := kind, va := 0x310008, data := 0xFFFFFFFE, lane := 2, lslot := 1 }] }) }

theorem test_RegionMemoryAccesses :
  (loading.region 0).landing 2 1 = some { va := 0x310004, rem := 3, dest := 0, ty := 0 } ∧ (loading.region 0).st ≠ .idle ∧
  loading.overlapsStq 0 ((loading.core 0).stq.take 0) [(0x310004, 4)] = false ∧
  ((loading.slotXlate 0 (loading.ownerOf 0) .read 0x310004 (tyBytes 0)).2).toOption = some [(0x310004, 4)] ∧
  loading.poisPieces [(0x310004, 4)] = false ∧
  gives (exec (.ldgReply 0 2 1) loading) (fun t => ((t.region 0).landing 2 1).bind Landing.reply == some 0x00040010) = true ∧
  ((storing 0).slotXlate 0 0 .write 0x310008 4).2.toOption = some [(0x310008, 4)] ∧ (tyBytes 0) = 4 ∧
  ((storing 1).slotXlate 0 0 .rmw 0x310008 4).2.toOption = some [(0x310008, 4)] ∧ ((storing 0).region 0).stuck = false ∧
  (storing 1).poisPieces [(0x310008, 4)] = false ∧ amogNew 1 0 ((storing 1).memNat 0x310008 4) (0xFFFFFFFE % 2 ^ 32) 0 = some 1 ∧
  gives (exec (.storeQueuePerform 0) (storing 0)) (fun t => t.memNat 0x310008 4 == 0xFFFFFFFE && (t.core 0).stq == []) = true ∧
  gives (exec (.storeQueuePerform 0) (storing 1))
    (fun t => t.memNat 0x310008 4 == 1 && ((t.region 0).landing 2 1).bind Landing.reply == some 3) = true := by decide +kernel

/-- An LDG behind a store to the same physical bytes waits, whatever address names them; the store's granule loses its reservations, a
comparison that fails stores nothing. -/
theorem test_RegionMemoryAccesses_order :
  let s : State := { loading with cores := loading.cores.map fun (c, k) => (c, { k with
    region := { k.region with lanes := [(2, { land := [(1, some { va := 0x310004, rem := 3, dest := 0, ty := 0, ahead := 1 })] })] }
    stq := [{ slot := 0, kind := 0, va := 0x310004, data := 5, lane := 2 }] }) }
  let r : State := { storing 0 with resvs := [⟨7, 0x310008 / 64, 4⟩, ⟨8, 0, 4⟩] }
  let f : State := { storing 8 with resvs := [⟨7, 0x310008 / 64, 4⟩] }
  s.overlapsStq 0 ((s.core 0).stq.take 1) [(0x310004, 4)] = true ∧
  gives (exec (.ldgReply 0 2 1) s) (fun t => ((t.region 0).landing 2 1).bind Landing.reply == none) = true ∧
  gives (exec (.storeQueuePerform 0) r) (fun t => t.resvs == [⟨8, 0, 4⟩]) = true ∧
  amogNew 8 0 ((storing 8).memNat 0x310008 4) (0xFFFFFFFE % 2 ^ 32) 0 = none ∧
  gives (exec (.storeQueuePerform 0) f) (fun t => t.resvs == f.resvs && t.memNat 0x310008 4 == 3 && (t.core 0).stq == []) = true := by
  decide +kernel

/-- An LDG whose reply has not come by its landing row, whose mask bit is clear: a violation with subcode 3. It freezes the
region, and waits for the stores of earlier rows first. Of two writes of a pass to one element the second stands. -/
theorem test_RegionRows_violation :
  let s := grid { rowing with lanes := [(2, { land := [(1, some { va := 0x310004, rem := 1, dest := 0 })] })] }
  let w := s.modCore 0 fun k => { k with stq := [{ slot := 0, kind := 0, va := 0x320000, data := 9, lane := 2 }] }
  let p := grid { rowing with passes := [⟨[(2, 5, 7), (2, 5, 8)], 4, 16⟩] }
  (s.conditions 0)[2]? = some (true, 13, 3) ∧ bitAt (rowWord (s.region 0)) 13 = false ∧ s.rowReady 0 = true ∧
  (∀ m, m < 2 → ((s.conditions 0)[m]?.any fun y => !y.1) = true) ∧ s.mayFreeze 0 = true ∧ w.mayFreeze 0 = false ∧
  gives (exec (.rowAdvance 0) s) (fun t => (t.region 0).st == .frozen &&
    (t.core 0).frq.map (fun f => (f.cause, fld f.bytes 1 1)) == [(24, 3)]) = true ∧
  gives (exec (.rowAdvance 0) w) (fun t => t == w) = true ∧
  gives (exec (.rowTablePassComplete 0) p) (fun t => Tab.get 0 (t.tile 0).acc 2053 == 8) = true := by decide +kernel

/-- BSIG of barrier 5 and of barrier 6, which is not in use, and SSEND of 4 bytes to the slot's own window: as the queue performs
them. -/
theorem test_RegionMemoryAccesses_signals :
  let b : Barrier := { owner := 0, exp := 2 }
  let q (e : StqEntry) : State := (grid rowing).modCore 0 fun k => { k with stq := [e], bars := [(5, some b)] }
  let own : StqEntry := { slot := 0, kind := 10, handle := (grid {}).handleOf aTask, doff := 8, bn := 5, data := 0x7788, lane := 0 }
  let sig (n : Nat) : StqEntry := { slot := 0, kind := 9, data := BitVec.ofNat 64 (0x1800 + n), lane := 0 }
  (q own).handleState own.handle = .placed 0 0 ∧ hPkg own.handle = (q own).podid.toNat ∧ ((q own).slot 0 0).claiming = false ∧
  8 + 4 ≤ ((q own).core 0).winBytes 0 ∧ ((q own).slot 0 0).task = some aTask ∧ hVi own.handle = 1 ∧
  gives (exec (.storeQueuePerform 0) (q (sig 5))) (fun t => (t.core 0).bar 5 == some (b.arrive true) && (t.core 0).stq == []) = true ∧
  gives (exec (.storeQueuePerform 0) (q (sig 6))) (fun t => (t.core 0).bar 5 == some b && (t.slot 0 0).dead == 1) = true ∧
  gives (exec (.storeQueuePerform 0) (q own)) (fun t => (t.core 0).spadBytes 8 4 == [0x88, 0x77, 0, 0] &&
    (t.core 0).bar 5 == some (b.arrive false)) = true := by decide +kernel

/-- A row in which lane 1 performs this operation word, route word and address word; its registers 1, 2 and 3 are 8, 4 and 0x55, c0 and c1 hold
0x320000, and a landing due holds 7 for register 9 and the north latch. -/
def laneRow (op rt ra : Nat) (land : Tab (Option Landing) := []) : State :=
  inSlot (slotX []) {
    region := { rowing with lanes := [(1, { w := [(1, 8), (2, 4), (3, 0x55)], c := [(0, 0x320000)], land := land })] }
    bars := [(5, some { owner := 0, exp := 2 })]
    banks := [(0, { tag := 0x77, lanes := [(1, ⟨[BitVec.ofNat 24 op, 0], [BitVec.ofNat 16 rt, 0], [BitVec.ofNat 16 ra, 0], [0, 0]⟩)] })] } (mapped [] [])

/-- Row words: the opcode of Table 09-2 in the type INT32 with this immediate; the address word of d 3, a 1 and b 2. -/
def opOf (code im : Nat) : Nat := code * 2 ^ 17 + im
def d3a1b2 : Nat := 3 * 2 ^ 11 + 1 * 2 ^ 6 + 2 * 2

/-- Whether the row of core 0 issues (State.rowIssues), decided. -/
def issues (s : State) : Bool :=
  s.rowReady 0 && (s.violation 0).isNone && !s.held 0 && (s.rowFault 0).isNone && !(s.die 0).fatal && s.mayFreeze 0

theorem rowIssues_of (s : State) (h : issues s = true) : s.rowIssues 0 := by
  simp only [issues, Bool.and_eq_true, Option.isNone_iff_eq_none, Bool.not_eq_eq_eq_not, Bool.not_true] at h
  exact ⟨⟨by decide, h.1.2⟩, h.1.1.1.1.1, h.1.1.1.1.2, h.1.1.1.2, h.1.1.2, .inl h.2⟩

/-- MOV of 8 and ADD of 8 and 4, to register 3 and the north latch; a landing that is due; the shared row's latches and registers else stand. -/
theorem test_LaneResultsAreWritten :
  let s := laneRow (opOf 1 0) (8 * 2 ^ 6) d3a1b2
  let a := laneRow (opOf 0x10 0) (8 * 2 ^ 6) d3a1b2
  let l := laneRow 0 0 0 [(0, some { va := 8, rem := 1, dest := 9, om := 8, reply := some 7 })]
  issues s = true ∧ issues a = true ∧ issues l = true ∧ (s.laneActs 0).length = 1 ∧ (∀ x ∈ l.laneActs 0, x.op = .nop) ∧
  gives (exec (.rowAdvance 0) s) (fun t => (((t.region 0).lane 1).reg 3, Tab.get 0 ((t.region 0).lane 1).lat 0) == (8, 8)) = true ∧
  gives (exec (.rowAdvance 0) a) (fun t => ((t.region 0).lane 1).reg 3 == 12 && ((t.region 0).lane 1).reg 1 == 8) = true ∧
  gives (exec (.rowAdvance 0) l) (fun t => ((t.region 0).lane 1).reg 9 == 7 && ((t.region 0).lane 1).reg 3 == 0x55) = true := by
  decide +kernel

/-- ADDS of the greatest INT32 and 4 saturates with ST; SHRR of 10 by 2 is 2; FADD of 1.5 and 0.25; CVT of 7.5 in FP32 to INT32 is 8. -/
theorem test_LaneValues :
  let v (s : State) := (s.laneActs 0).map (s.laneRes 0)
  let r (op rt : Nat) (x y : W32) : State := { laneRow op rt d3a1b2 with cores := (laneRow op rt d3a1b2).cores.map fun (c, k) =>
    (c, { k with region := { k.region with lanes := [(1, { w := [(1, x), (2, y)] })] } }) }
  v (r (opOf 0x12 0) 0 0x7FFFFFFF 4) = [(0x7FFFFFFF, 4)] ∧ v (r (opOf 0x1E 0) 0 10 2) = [(2, 0)] ∧
  v (r (opOf 0x30 0 + 3 * 2 ^ 14) 0 0x3FC0 0x3E80) = [(0x3FE0, 0)] ∧ v (r (opOf 0x3E 2) 0 0x40F00000 0) = [(8, 0)] ∧
  v (r (opOf 0x1 0) (1 * 2 ^ 13) 1 2) = [(0, 0)] := by decide +kernel

theorem test_LaneMemoryOperations :
  let go (s : State) (p : State → Bool) : Bool := issues s && gives (exec (.rowAdvance 0) s) p
  let stq (t : State) := (t.core 0).stq.map fun e => (e.kind, e.va, e.data)
  go (laneRow (opOf 0x51 0) 0 d3a1b2) (fun t => (t.core 0).spadBytes 12 4 == [0x55, 0, 0, 0]) = true ∧
  go (laneRow (opOf 0x53 0) 0 d3a1b2) (fun t => stq t == [(0, 0x32000C, 0x55)]) = true ∧
  go (laneRow (opOf 0x54 0) 0 d3a1b2) (fun t => (t.core 0).stq.map StqEntry.kind == [1] && ((t.region 0).landing 1 0).isSome) = true ∧
  go (laneRow (opOf 0x52 0) 0 d3a1b2) (fun t => ((t.region 0).landing 1 0).isSome && (t.core 0).stq == []) = true ∧
  go (laneRow (opOf 0x60 5) 0 d3a1b2) (fun t => (t.core 0).stq.map StqEntry.kind == [9]) = true ∧
  go (laneRow (opOf 0x62 0) 0 d3a1b2) (fun t => (t.region 0).exited) = true ∧
  go (laneRow (opOf 0x63 0) 0 d3a1b2) (fun t => (t.region 0).st == .frozen && (t.core 0).frq.length == 1) = true := by decide +kernel

/-- The first 512 MiB of interface 1 translate; the next do not, and a held leaf is not walked again. -/
theorem test_TranslationRefill :
  let s := mapped [] []
  let h : State := { s with cores := [(0, { tlb := [⟨1, 0, 29, 0, true, true, true, 0, false⟩] })] }
  (s.core 0).tlb = [] ∧ (s.walk 1 0 0x1234 .read).toOption.map Prod.fst = some ⟨1, 0, 29, 0, true, true, true, 0, false⟩ ∧
  (s.walk 1 0 0x20000000 .read).toOption = none ∧ (h.core 0).tlb.any (fun x => x.covers 1 0x1234) = true ∧
  gives (exec (.translationWalk 0 1 0x1234 0) s) (fun t => (t.core 0).tlb == [⟨1, 0, 29, 0, true, true, true, 0, false⟩]) = true ∧
  gives (exec (.translationWalk 0 1 0x20000000 0) s) (fun t => t == s) = true := by decide +kernel

/-- A walk that reads a poisoned entry is recorded by its die's trace. -/
theorem test_TranslationRefill_poison :
  let s : State := { mapped [] [] with poison := [.mem (0x10000 / 8)] }
  (match s.walk 1 0 0x1234 .read with | .error k => k | _ => 0) = 11 ∧
  gives (exec (.translationWalk 0 1 0x1234 0) s) (fun t => (t.core 0).tlb == [] && (t.die 0).trace.entries.map (fun e => (e.kind, e.a)) == [(2, 0x1234)]) = true := by
  decide +kernel

/-- The core caches the leaf of interface 1's first 512 MiB, which lie in its grant; the grant of none but interface 1's page. -/
theorem test_TranslationStaysInsideGrants_cached :
  let s : State := { mapped [] [] with cores := [(0, { mode := .u, running := some 0, slots := [(0, slotX [])], tlb := [⟨1, 0, 29, 0, true, true, true, 0, false⟩] })] }
  s.tlbGranted 0 1 ∧ s.runVi 0 = 1 ∧ (s.xlate 0 1 0x1234 .read).2.toOption = some 0x1234 ∧
  s.locate 0 .u 0x1234 8 .read = ((s.locate 0 .u 0x1234 8 .read).1, .pieces [(0x1234, 8)]) := by
  refine ⟨?_, by decide +kernel, by decide +kernel, by decide +kernel⟩
  intro e he _
  have : e = ⟨1, 0, 29, 0, true, true, true, 0, false⟩ := by simpa [State.core, Tab.get] using he
  subst this
  refine ⟨by decide, by decide, by decide, fun o ho => .inl ?_⟩
  have h1 : (0 + o) / 0x20000000 = 0 := Nat.div_eq_of_lt (by simpa using ho)
  have h2 : 0 + o < 0x20000000 := by simpa using ho
  simp only [h1]
  refine ⟨by decide +kernel, Nat.zero_le _, Nat.lt_of_lt_of_le h2 (by decide +kernel)⟩

theorem test_TranslationStaysInsideGrants :
  let s := mapped [] []
  (∀ e ∈ (s.core 0).tlb, e.covers 1 0x1234 = false) ∧ (s.xlate 0 1 0x1234 .rmw).2.toOption = some 0x1234 ∧
  (0 : BitVec 2).toNat < 2 ∧ 0x1234 / 0x20000000 ∈ (s.iface 1).hbm := by decide +kernel

/-! ## Witnesses: the tile unit and the mould -/

/-- Core 0 in M mode, slot 0 running, with this tile queue and unit. -/
def tiled (tq : List TqEntry) (u : TileUnit := {}) (ctl : Ctl := {}) (mem : List Host.Cell := []) : State :=
  inSlot { task := some aTask, tq := tq, ctl := ctl } { tile := u } (mapped mem [])

/-- TZERO acc1, TLD acc0 from an address that is not aligned, and the header of the TZERO's log entry (index 0, 64 bytes). -/
def zeroing : TqEntry := { seq := 0, va := 0x40, zt := 0x1004002B, arg := 0 }
def badLoad : TqEntry := { seq := 0, va := 0x40, zt := 0x0000002B, arg := 1 }
def zeroHeader : List Byte := fields [(4, 0x1004002B), (10, 0), (2, 0), (4, 0), (4, 0), (8, 0), (8, 0), (16, 2 ^ 128 - 1), (2, 0), (2, 1), (4, 0)]
def zeroLog : LogEntry := { addr := 0x400000, header := zeroHeader, bytes := 64 }

/-- The mould enabled with a log of 8 KiB from 0x400000, and one too small for any entry. -/
def moulding (lim : Word) : State :=
  tiled [] {} { zmlbase := 0x400000, zmlptr := 0x400000, zmllim := lim, zmlmode := 1, x := [(1, 2), (2, 3)] }

theorem test_TileInstructionsEnterTheQueue :
  let s := tiled []
  let m := moulding 0x402000
  let w : TqEntry := { zeroing with seq := 9 }
  tileOperand (.tzero 1 false) = some 0 ∧ ReadyLogp [0] s ∧ (s.claimTile 0 0).isSome = true ∧ s.me.en = false ∧
  (s.claimTile 0 0).map (fun u => ((u.slot 0 0).tq.length, (u.slot 0 0).tqDead)) = some (0, none) ∧
  gives (exec (.tzero 1 false) s) (fun t => (t.slot 0 0).tq == [zeroing.zt].map (fun z => { zeroing with zt := z, va := 0 }) && t.me.pc == 4) = true ∧
  m.me.en = true ∧ ReadyLogp [0] m ∧
  gives (exec (.tzero 1 false) m)
    (fun t => (t.slot 0 0).tq.map (fun e => e.log.map LogEntry.addr) == [some 0x400000#64] && t.me.zmlcast == 0x400000#64) = true ∧
  gives (exec (.tzero 1 false) (moulding 0x400000))
    (fun t => (t.core 0).csr.mcause == 27 && (t.slot 0 0).tq == []) = true ∧
  (tiled [] { owner := some 1, busy := some w }).claimTile 0 0 = none ∧
  ((tiled (List.replicate 64 w) { owner := some 0 }).claimTile 0 0).map (fun u => (u.slot 0 0).tq.length) = some 64 := by
  decide +kernel

theorem test_MouldAndCastComplete :
  let m := moulding 0x402000
  let e : State := { m with cores := m.cores.map fun (c, k) => (c, { k with slots := k.slots.map fun (n, l) =>
    (n, { l with ctl := { l.ctl with x := [(1, 0), (2, 1), (3, 2), (4, 3)] }, prod := [(8, some ⟨0, true⟩)], demoted := 5 }) }) }
  Ready [1] e ∧ Ready [2] e ∧ Ready [3] e ∧ Ready [4] e ∧ Ready [5] e ∧ (e.getX 1).extractLsb' 0 2 = 0 ∧ (e.getX 2).extractLsb' 0 2 = 1 ∧
  (e.getX 3).extractLsb' 0 2 = 2 ∧ (e.getX 4).extractLsb' 0 2 = 3 ∧ e.me.en = true ∧
  gives (exec .mxhint e) (fun t => (t.tile 0).hintAt == some 0) = true ∧
  gives (exec (.mould 1) e) (fun t => !t.me.en && (t.slot 0 0).prod == []) = true ∧
  gives (exec (.mould 2) e) (fun t => t.me.en && t.me.zmlptr == 0x400000#64 && (t.slot 0 0).demoted == 0) = true ∧
  gives (exec (.mould 3) e) (fun t => (t.slot 0 0).tq.map TqEntry.zt == [0] && t.me.zmlcast == 0x400000#64) = true ∧
  gives (exec (.mstat 5) e) (fun t => t.getX 5 == 0x8000000500000000#64) = true ∧
  ((e.claimTile 0 0).map fun u => match u.reserve 0 0 { mark := true } 0 with | .ok _ _ => true | _ => false) = some true := by
  decide +kernel

/-- A CAST instruction at issue, one already in tq, and one that has ended with status 3. -/
theorem test_cast_issue :
  let s := tiled []
  let c : TqEntry := { seq := 4, va := 0, zt := s.bitsOf (.cast 3 1), arg := 0 }
  let d := tiled [] { owner := some 0 } { wait := some { instr := .cast 3 1, len := 4, n := 5, b := 0x8000000000000003#64 } }
  Ready [3, 1] s ∧ s.castInTq 0 0 = none ∧ (s.claimTile 0 0).map (fun u => ((u.slot 0 0).tq.length, (u.slot 0 0).tqDead)) = some (0, none) ∧
  gives (exec (.cast 3 1) s) (fun t => (t.slot 0 0).tq.length == 1 && t.me.wait.map Waiting.n == some 1) = true ∧
  (tiled [c]).castInTq 0 0 = some c ∧ gives (exec (.cast 3 1) (tiled [c])) (fun t => t.me.wait.map Waiting.n == some 5) = true ∧
  Up 0 d ∧ d.standsStill = false ∧ d.me.wait.map Waiting.instr = some (.cast 3 1) ∧
  gives (exec (.waitComplete 0) d) (fun t => t.getX 3 == 3 && t.me.wait == none && t.me.pc == 4) = true := by decide +kernel

/-- The CAST of x1 in progress, over a log whose only entry is the TZERO. -/
def casting (begun : Bool) (ctl : Ctl) : State :=
  tiled [] { owner := some 0, busy := some { seq := 4, va := 0, zt := (tiled []).bitsOf (.cast 3 1), arg := 0, begun := begun } }
    { ctl with zmlbase := 0x400000, wait := some { instr := .cast 3 1, len := 4, n := 5 } } (cells 0x400000 zeroHeader)

theorem test_cast_steps :
  let e := casting false { zmlmode := 1 }
  let m := casting false {}
  let w := casting false { zmlmode := 0x1FFFC000000000#64, zmlcast := 0x400000 }
  let g := casting false { zmlcast := 0x400000 }
  Up 0 g ∧ (g.tile 0).owner = some 0 ∧ ((g.tile 0).busy.map isCast) = some true ∧ (g.core 0).active 0 = true ∧
  (e.ctl 0).en = true ∧ (m.ctl 0).en = false ∧ (m.ctl 0).zmlcast.getLsbD 63 = true ∧
  (w.core 0).winBytes 0 < bits (w.ctl 0).zmlmode.toNat 38 15 * 64 + 18432 ∧ (w.ctl 0).zmlcast.getLsbD 63 = false ∧
  bits (g.ctl 0).zmlmode.toNat 38 15 * 64 + 18432 ≤ (g.core 0).winBytes 0 ∧
  (g.castRead 0 0 0x400000 64).toOption = some zeroHeader ∧ headerGood zeroHeader = true ∧ (headerFrom zeroHeader).mark = false ∧
  (g.castEntry 0 0 0x400000 (headerFrom zeroHeader)).toOption.isSome = true ∧ (headerFrom zeroHeader).back = 0 ∧
  gives (exec (.castEntry 0) e) (fun t => t.me.wait.map Waiting.b == some 0x8000000000000002#64) = true ∧
  gives (exec (.castEntry 0) m) (fun t => t.me.wait.map Waiting.b == some 0x8000000000000006#64) = true ∧
  gives (exec (.castEntry 0) w) (fun t => t.me.wait.map Waiting.b == some 0x8000000000000004#64) = true ∧
  gives (exec (.castEntry 0) g) (fun t => t.me.wait.map Waiting.b == some 0x8000000000000000#64 && (t.tile 0).busy == none) = true := by
  decide +kernel

/-- The same over a second entry 64 bytes further, whose BACK is 1: CAST goes on. -/
def backHeader : List Byte := fields [(4, 0x1004002B), (4, 1), (6, 0), (2, 1), (4, 0), (4, 0), (8, 0), (8, 0), (16, 2 ^ 128 - 1), (2, 0), (2, 1), (4, 0)]
theorem test_cast_goes_back :
  let s := casting true { zmlcast := 0x400040 }
  let s : State := { s with mem := s.mem ++ cells 0x400040 backHeader }
  headerGood backHeader = true ∧ (headerFrom backHeader).back = 1 ∧
  gives (exec (.castEntry 0) s) (fun t => (t.ctl 0).zmlcast == 0x400000#64 && (t.tile 0).busy.isSome) = true := by decide +kernel

theorem test_TileQueueSteps :
  let s := tiled [zeroing] { owner := some 0, acc := [(1024, 7)] }
  let f := tiled [badLoad] { owner := some 0 }
  let l := tiled [{ zeroing with log := some zeroLog }] { owner := some 0 }
  let b := tiled [] { owner := some 0, busy := some zeroing, acc := [(1024, 7), (2048, 7)] }
  let p := tiled [] { owner := some 0, busy := some badLoad }
  Up 0 s ∧ s.tqNext 0 = some (0, zeroing) ∧ (s.entryRun 0 0 zeroing).sub = none ∧ f.tqNext 0 = some (0, badLoad) ∧
  (f.entryRun 0 0 badLoad).sub = some 5 ∧ l.tqNext 0 = some (0, { zeroing with log := some zeroLog }) ∧
  (l.vaWrite 0 0 0x400000 (l.logBytes 0 0 (headerFrom zeroHeader))).isSome = true ∧ (b.tile 0).busy = some zeroing ∧
  ((b.entryRun 0 0 zeroing).sub = none) ∧ (p.entryRun 0 0 badLoad).sub = some 5 ∧
  gives (exec (.tqEntryStart 0) s) (fun t => (t.tile 0).busy == some zeroing && (t.slot 0 0).tq == []) = true ∧
  gives (exec (.tqEntryStart 0) f) (fun t => (t.slot 0 0).pend == [⟨26, 0x4005⟩] && (t.tile 0).busy == none) = true ∧
  gives (exec (.tqEntryStart 0) l) (fun t => t.memNat 0x400000 4 == 0x1004002B && (t.tile 0).busy.isSome) = true ∧
  gives (exec (.tqEntryComplete 0) p) (fun t => (t.slot 0 0).pend == [⟨26, 0x4005⟩]) = true := by decide +kernel

/-- Core 0's tile unit in progress with this instruction at x[rs1] = `arg`: these accumulator elements, headers, tile-register bytes and
window bytes; with 8 banks of window. -/
def tiling (i : Instr) (arg : Word) (acc : Tab W32 := []) (hdr : Tab Word := []) (tm : Tab Byte := []) (spad : Tab Byte := []) : State :=
  inSlot (slotX []) { tile := { owner := some 0, busy := some { seq := 0, va := 0x40, zt := (encode i).getD 0, arg := arg }, acc := acc, hdr := hdr, tm := tm }
                      spad := spad } (mapped [] [])

def tileIs (i : Instr) (arg : Word) (p : State → Bool) (acc : Tab W32 := []) (hdr : Tab Word := []) (tm : Tab Byte := [])
    (spad : Tab Byte := []) : Bool :=
  gives (exec (.tqEntryComplete 0) (tiling i arg acc hdr tm spad)) fun t => (t.tile 0).busy.isNone && p t

/-- Headers: BF16 of 96 elements and of 32, BF16 of 96 with a scale a row, INT8 of 32 elements, BF16 swizzled by code 1. -/
def hBf : Word := 2
def hBf32 : Word := 2 + 32 * 2 ^ 18
def hI8 : Word := 4 + 32 * 2 ^ 18
def hLut : Word := 7 + 64 + 256 + 96 * 2 ^ 18
def hSw : Word := 2 + 2 ^ 14

/-- What the entry in progress names: the operation, its registers, sb and fl. -/
def entryOf (s : State) : Option (Nat × Nat × Nat × Nat × Bool × Nat) :=
  (s.tile 0).busy.map fun e => let z := ztOf e.zt.toNat; (z.top, z.td, z.ta, z.tb, z.sb, z.fl)

theorem test_performing :
  let s := tiling (.tadd 1 2 3 false true) 0
  Up 0 s ∧ (s.tile 0).owner = some 0 ∧ (s.tile 0).busy.map TqEntry.log = some none ∧ s.poison = [] ∧
  (s.tile 0).busy.map (fun e => e.zt.toNat % 128) = some 0x2B ∧ (s.core 0).winBytes 0 = 0x40000 ∧ entryOf s = some (12, 1, 2, 3, false, 1) := by
  decide +kernel

/-- Moves: THDR and its forms, TLUT, a misaligned TLD; TLD, TST and TZERO of accumulators and registers, TTRN of both, as their entries. -/
theorem test_TileMoves :
  tileIs (.thdr 1 1) 2 (fun t => (t.tile 0).hd 1 == 2) = true ∧
  tileIs (.thdrGet 1 1) 8 (fun t => (t.core 0).spadBytes 8 2 == [2, 0]) [] [(1, 2)] = true ∧
  tileIs (.thdrFlagsClr 1) 8 (fun t => (t.tile 0).flags == 0) = true ∧
  tileIs (.tlut 1 1) 0x20 (fun t => (t.tile 0).lutEl 1 3 == 5) [] [] [] [(0x26, 5)] = true ∧
  tileIs (.tld 1 1 false) 0x41 (fun t => (t.slot 0 0).pend == [⟨26, 0x4005⟩]) = true ∧
  tileIs (.tst 1 1 true) 0x41 (fun t => (t.slot 0 0).pend == [⟨26, 0x4005⟩]) = true ∧ hSwz 0 = 0 ∧
  [Instr.tzero 1 false, .tzero 1 true, .tld 1 1 false, .tld 1 1 true, .tst 1 1 false, .tst 1 1 true, .ttrn 1 2 0 false, .ttrn 1 2 1 true].map
    (fun i => (entryOf (tiling i 0x400)).map fun x => (x.1, x.2.2.2.2.1)) =
      [some (2, false), some (2, true), some (0, false), some (0, true), some (1, false), some (1, true), some (17, false), some (17, true)] ∧
  hdrBad hSw.toNat = false ∧ hFmt hSw.toNat < 8 ∧ 0x400 % swzAlign (hSwz hSw.toNat) = 0 ∧ 0x400 % 64 = 0 ∧ 0x400 + 6144 ≤ 0x40000 ∧
  0x400 % 512 + 32 ≤ capOf (hFmt hSw.toNat) ∧ hdrBad (0 : Nat) = false := by decide +kernel

/-- TADD, TMUL, TSCL by rows, TRED, TACT, its gradient, TCVT of both sources, with headers its destination and source may have. -/
theorem test_TileElementwise :
  [Instr.tadd 1 2 3 false true, .tmul 1 2 3 true true, .tscl 1 2 1 true 1, .tred 1 2 true 0 false, .tact 1 2 3, .tactD 1 2 3 0,
    .tcvt 1 2 1 false false true false, .tcvt 1 2 1 false false false true].map
    (fun i => (entryOf (tiling i 0x40)).map fun x => (x.1, x.2.2.2.2.1)) =
      [some (12, false), some (13, false), some (15, false), some (16, false), some (14, false), some (14, false), some (11, false), some (11, true)] ∧
  hdrBad hBf32.toNat = false ∧ hdrBad hI8.toNat = false ∧ fmtIsInt (hFmt hI8.toNat) = true ∧ hFmt hI8.toNat < 7 ∧
  hK hBf32.toNat ≤ capOf (hFmt hI8.toNat) ∧ hFmt hBf32.toNat ∈ [1, 2] ∧ 0x40 + 128 ≤ 0x40000 := by decide +kernel

/-- TMMA of BF16 by LUT4 with a scale a row, TMMS, TMMC, TDIST, TCUPD and TCDIV, with headers and offsets that meet their checks. -/
theorem test_TilePasses :
  [Instr.tmma 1 2 3 1 true false false, .tmms 1 2 4 1 false false true 0, .tmmc 1 2 3 1 true false false false, .tdist 1 2 3 1 false 0 0,
    .tcupd 1 2 3 1, .tcdiv 1 2 1 true].map (fun i => (entryOf (tiling i 0x40)).map fun x => x.1) =
      [some 5, some 6, some 7, some 8, some 9, some 10] ∧
  hdrBad hBf.toNat = false ∧ hdrBad hLut.toNat = false ∧ hK hBf.toNat = 96 ∧ hK hLut.toNat = 96 ∧ hSm hLut.toNat = 1 ∧ hSc hLut.toNat = 1 ∧
  hK hBf32.toNat = 32 ∧ hSm hBf32.toNat = 0 ∧ hSm hBf.toNat = 0 ∧
  (let s := tiling (.tmms 1 2 4 1 false false true 0) 0x40 [] [(2, hBf), (3, hBf), (4, 2 + 64 * 2 ^ 18)] [] ((upFrom 0x40 512).map fun a => (a, if a % 16 < 8 then 0xFF else 0))
   hK ((s.tile 0).hd 4) / 64 = 1 ∧ leNat (s.windowBytes 0 0 0x40 16) = 2 ^ 64 - 1 ∧ 128 * 1 ≤ 2 * capOf 2 ∧
   ((upFrom 0 128).filter fun b => bitAt (leNat (s.windowBytes 0 0 0x40 16)) b).length = 64) := by decide +kernel

/-- Sixteen INT32 elements from 0x400 on. -/
def aShape : List Byte := fields [(8, 0x400), (4, 16), (12, 0), (4, 4), (12, 0), (2, 16), (6, 0), (4, 0), (4, 0), (8, 0)]

/-- The same with a step that is no multiple of its element. -/
def badShape : List Byte := fields [(8, 0x400), (4, 16), (12, 0), (4, 3), (12, 0), (2, 16), (6, 0), (4, 0), (4, 0), (8, 0)]

/-- A copy block from 0x400 to 0x800, both linear, with its completion word at 0x338 where it is read from 0x300. -/
def copyBlock : List Byte := fields [(8, 2 ^ 62 + 0x400), (16, 0), (8, 2 ^ 62 + 0x800), (16, 0), (8, 0), (8, 0)]

/-- Core 0 in M mode, slot 0 with these registers, its shape 1 set and these commands queued. -/
def commanding (x : Tab Word) (mem : List Host.Cell) (queues : Queues := []) (k : Core := {}) : State :=
  inSlot { slotX x with shapes := [(1, aShape)], queues := queues, nseq := queues.length } k (mapped mem [])

/-- A copy of 16 bytes as issued, queued. -/
def aCopy : Cmd :=
  { seq := 0, kind := .cpy, vi := 1, block := copyBlock, word := 0x100000, cw := 0x338, count := 16, chunks := 1 }

/-- x1 = 0x300, a copy of 16 bytes in x2, of none in x3. -/
def copying (queues : Queues := []) : State := commanding [(1, 0x300), (2, 0x100000), (3, 0)] (cells 0x300 copyBlock) queues

/-- What a load of `n` bytes at `a`, all HBM and physical, and a store to the cells of 8 bytes at `b` leave. -/
def afterLoad (s : State) (a n : Nat) : State := (s.locate 0 .m a n .read).1.chargeLoad 0 [(a, n)]
def afterStore (s : State) (a n : Nat) : State := (s.locate 0 .m a n .write).1.dropImages 0 [(a, n)]

def reads (s : State) (a n : Nat) (b : List Byte) : Bool :=
  s.locate s.cur (s.core s.cur).dataMode a n .read == ((s.locate 0 .m a n .read).1, .pieces [(a, n)])
    && !(s.locate 0 .m a n .read).1.poisPieces [(a, n)] && b == (s.locate 0 .m a n .read).1.readPieces [(a, n)]
def writes (s : State) (a n : Nat) : Bool :=
  s.locate s.cur (s.core s.cur).dataMode a n .write == ((s.locate 0 .m a n .write).1, .pieces [(a, n)])

theorem test_CommandsIssue_shape :
  let s := commanding [(1, 0x300), (2, 5)] (cells 0x300 aShape)
  let t := commanding [(1, 0x300), (2, 5)] (cells 0x300 badShape)
  Ready [3, 1, 2] s ∧ (s.getX 1).toNat % 64 = 0 ∧ reads s 0x300 64 aShape = true ∧ firstFail (shapeChecks aShape) = none ∧
  reads t 0x300 64 badShape = true ∧ firstFail (shapeChecks badShape) = some 3 ∧
  gives (exec (.shape 3 1 2) s) (fun t => t.getX 3 == 64 && (t.slot 0 0).shape 5 == aShape) = true ∧
  gives (exec (.shape 3 1 2) t) (fun t => t.csrRead 0x342 == some 28 && t.csrRead 0x343 == some 3) = true := by decide +kernel

/-- The range entry of interface 1's first 512 MiB. -/
def firstRange : RangeEntry := ⟨1, 0, 0x20000000, 0, true, true, 0, false⟩

theorem test_CommandsIssue_copy :
  let s := copying
  let u := afterLoad s 0x300 64
  let v := afterStore u 0x338 8
  let full := copying [(3, List.replicate 32 aCopy)]
  Ready [4, 1, 2] s ∧ reads s 0x300 64 copyBlock = true ∧ writes u 0x338 8 = true ∧
  lowest (v.copyCodes 0 0 (v.copyCmd .cpy 0x300 0x100000 copyBlock)) = none ∧
  lowest (v.copyCodes 0 0 (v.copyCmd .cpy 0x300 0 copyBlock)) = some 8 ∧
  ((s.slot 0 0).queue 3).length < 32 ∧ ((full.slot 0 0).queue 3).length = 32 ∧
  gives (exec (.cpy 1 4 1 2) s) (fun t => t.getX 4 == 0 && (t.slot 0 0).queue 3 == [{ aCopy with issued := s.cycles, ranges := [firstRange] }]) = true ∧
  gives (exec (.cpy 1 4 1 3) s)
    (fun t => t.getX 4 == 8 && t.memNat 0x338 8 == 0x8000000000000008 && (t.slot 0 0).queue 3 == []) = true ∧
  gives (exec (.cpy 1 4 1 2) full) (fun t => t.me.wait.isSome) = true := by decide +kernel

/-- A bind of shape 1 to input port 2; the record at 0x320 has one repetition. -/
def bindRecord : List Byte := fields [(16, 0), (4, 1), (4, 0), (8, 0)]
def binding (queues : Queues := []) : State := commanding [(1, 0x102), (2, 0x320)] (cells 0x320 bindRecord) queues

theorem test_CommandsIssue_bind :
  let s := binding
  let u := afterLoad s 0x320 32
  let v := afterStore u 0x338 8
  let full := binding [(1, List.replicate 32 aCopy)]
  Ready [4, 1, 2] s ∧ (s.getX 2).toNat % 32 = 0 ∧ s.freePort 0 (bwPort (s.getX 1).toNat) 0 = (s, true) ∧
  reads s 0x320 32 bindRecord = true ∧ writes u 0x338 8 = true ∧
  lowest (v.bindCodes 0 0 1 0x102 bindRecord aShape) = none ∧ lowest (v.bindCodes 0 0 1 0x100000102 bindRecord aShape) = some 1 ∧
  ((full.slot 0 0).queue 1).length = 32 ∧
  gives (exec (.sbind 4 1 2) s) (fun t => t.getX 4 == 0 && ((t.slot 0 0).queue 1).map Cmd.src == [aShape]) = true ∧
  gives (exec (.sbind 4 1 2) full) (fun t => t.me.wait.isSome) = true ∧
  gives (exec (.sunb 4 1) s) (fun t => t.getX 4 == 1 && ((t.slot 0 0).queue 1).map Cmd.kind == [.sunb]) = true ∧
  gives (exec (.sunb 4 1) full) (fun t => t.me.wait.isSome) = true := by decide +kernel

/-- The task of slot 1 of core 0, of the same interface, and the group of the two tasks. -/
def bTask : Task := { aTask with chunk := 5, gang := [(0, 1)] }
def aGroup : List Byte := fields [(4, 2), (4, 0), (8, (State.reset.handleOf aTask).toNat), (8, (State.reset.handleOf bTask).toNat)]

/-- An all-reduce of one INT32 sum, rank r, from 0x600 + 16 r to 0x700 + 16 r, with a limit of two units. -/
def collBlock (op r : Nat) : List Byte :=
  fields [(4, op), (2, r), (2, 0), (4, 1), (4, 2), (8, 0x500), (8, 0x600 + 16 * r), (8, 0x700 + 16 * r), (8, 9), (16, 0)]
def collecting (queues : Queues := []) : State :=
  commanding [(1, 0x300), (2, 0), (3, 2)] (cells 0x300 (collBlock 0 0) ++ cells 0x500 aGroup) queues

theorem test_CommandsIssue_collective :
  let s := collecting
  let u := afterLoad s 0x300 64
  let v := afterStore u 0x338 8
  let w := afterLoad v 0x500 8
  let z := afterLoad w 0x500 24
  let b := collBlock 0 0
  Ready [4, 1, 2] s ∧ reads s 0x300 64 b = true ∧ writes u 0x338 8 = true ∧ (fld b 0x10 8) = 0x500 ∧
  reads v 0x500 8 (aGroup.take 8) = true ∧ groupHeadOk (aGroup.take 8) = true ∧ reads w 0x500 (8 + 8 * fld (aGroup.take 8) 0 4) aGroup = true ∧
  lowest ((z.collectiveCmd 0x300 0 b aGroup).collectiveCodes ((z.runTask 0).elim 0 z.handleOf)) = none ∧
  ((collecting [(6, List.replicate 32 aCopy)]).slot 0 0 |>.queue 6).length = 32 ∧
  gives (exec (.ccmd 4 1 2) s) (fun t => t.getX 4 == 0 && ((t.slot 0 0).queue 6).map Cmd.group == [aGroup]) = true ∧
  gives (exec (.ccmd 4 1 2) (collecting [(6, List.replicate 32 aCopy)])) (fun t => t.me.wait.isSome) = true := by decide +kernel

/-- The copy word names an arrival, which a collective's word may not: FIELD. -/
theorem test_CommandsIssue_collective_rejects :
  let s := { collecting with mem := tables ++ cells 0x300 (collBlock 7 0) ++ cells 0x500 aGroup }
  gives (exec (.ccmd 4 1 2) s) (fun t => t.getX 4 == 1 && (t.slot 0 0).queue 6 == []) = true := by decide +kernel

/-- A record or block that is not aligned takes cause 4 with its address. -/
theorem test_CommandsIssue_misaligned :
  let s := commanding [(1, 0x320), (2, 0x330)] []
  let takes4 (o : Out) (a : Word) : Bool := gives o fun t => t.csrRead 0x342 == some 4 && t.csrRead 0x343 == some a
  Ready [4, 1, 2] s ∧ (s.getX 1).toNat % 64 ≠ 0 ∧ (s.getX 2).toNat % 32 ≠ 0 ∧ ((s.slot 0 0).queue 1).length < 32 ∧ ((s.slot 0 0).queue 6).length < 32 ∧
  takes4 (exec (.shape 4 1 2) s) 0x320 = true ∧ takes4 (exec (.sbind 4 1 2) s) 0x330 = true ∧ takes4 (exec (.ccmd 4 1 2) s) 0x320 = true ∧
  takes4 (exec (.cpyx 0 4 1 2) s) 0x320 = true := by decide +kernel

/-- A bitmap word at 0x400 and at offset 0x10 of the window, with bits 0 and 1 set. -/
def bitmaps (q : Queues := []) : State :=
  commanding [(1, 0x400), (2, 3), (3, 4), (4, 0x8000000000000010#64)] [(0x400, 3)] q { spad := [(0x10, 7)] }

theorem test_BitmapsAndFencesComplete :
  let s := bitmaps
  let full := bitmaps [(2, [aCopy])]
  Ready [5, 1, 2] s ∧ (s.getX 1).toNat % 8 = 0 ∧ (s.getX 1).getLsbD 63 = false ∧ reads s 0x400 8 [3, 0, 0, 0, 0, 0, 0, 0] = true ∧
  (s.getX 4).getLsbD 63 = true ∧ (s.getX 4).toNat % 8 = 0 ∧ 0x10 + 8 ≤ (s.core 0).winBytes 0 ∧
  s.spadPois 0 ((s.core 0).spadAddr 0 0x10) 8 = false ∧
  gives (exec (.cbtest 5 1 2) s) (fun t => t.getX 5 == 3) = true ∧ gives (exec (.cbtest 5 4 3) s) (fun t => t.getX 5 == 4) = true ∧
  gives (exec (.cbwait 1 2) s) (fun t => t.me.wait == none && t.me.pc == 4) = true ∧
  gives (exec (.cbwait 1 3) s) (fun t => t.me.wait.isSome) = true ∧
  gives (exec (.qfence 0x84) full) (fun t => t.me.wait.isSome && (t.slot 0 0).fences == [⟨4, 1⟩]) = true ∧
  (s.slot 0 0).standing (s.busyOf 0 0) ⟨4, 0⟩ = false ∧ (full.slot 0 0).standing (full.busyOf 0 0) ⟨4, 1⟩ = true ∧
  gives (exec (.qfence 0x84) s) (fun t => t.me.wait == none && t.me.pc == 4) = true ∧
  gives (exec (.qfence 0x04) full) (fun t => t.me.wait == none && t.me.pc == 4) = true ∧
  gives (exec (.qfence 0x80) s) (fun t => t.me.wait == none && (t.slot 0 0).fences == []) = true := by decide +kernel

/-- Copies of 16 bytes from 0x400, from 0x40000000 (which nothing maps) and to 0x20000000, which may not be written. -/
def started (b : List Byte) : Cmd := { aCopy with block := b, started := true, todo := [0] }
def unmappedBlock : List Byte := fields [(8, 2 ^ 62 + 0x40000000), (16, 0), (8, 2 ^ 62 + 0x800), (16, 0), (8, 0), (8, 0)]
def readOnlyBlock : List Byte := fields [(8, 2 ^ 62 + 0x400), (16, 0), (8, 2 ^ 62 + 0x20000000), (16, 0), (8, 0), (8, 0)]

/-- The copy at the head of queue 3, over the byte 0x77 at 0x400; the second 512 MiB read-only. -/
def engine (k : Cmd) (q : Nat := 3) : State :=
  { commanding [] [(0x400, 0x77), (0x20008, 0x13)] [(q, [k])] with }

def moves (s : State) (k : Cmd) : Except EngStop (Work × Option Nat) := k.elements 0 0 (k.chunkEls 0) { s := s, rs := k.ranges } none

theorem test_EngineSteps_start :
  let c := engine aCopy
  let g := engine { aCopy with kind := .ccmd } 6
  let b : Cmd := { seq := 0, kind := .sbind, vi := 1, block := bindRecord, word := 0x102, cw := 0x338, src := aShape }
  let u : Cmd := { seq := 0, kind := .sunb, vi := 1, block := [], word := 0xA }
  let p : Bind := { slot := 0, vi := 1, word := 0x102, record := bindRecord, shape := aShape, cw := 0x338 }
  let carried : State := commanding [] [] [(1, [u])] { ports := [(2, { stream := some { bind := p }, pending := [{ p with cw := 0x358 }] })] }
  Up 0 c ∧ (c.slot 0 0).queue 3 = [aCopy] ∧ (c.slot 0 0).fenced (c.busyOf 0 0) 3 0 = false ∧ aCopy.started = false ∧
  (g.slot 0 0).fenced (g.busyOf 0 0) 6 0 = false ∧ (engine b 1).portOpen 0 0 2 = true ∧ carried.portOpen 0 0 2 = true ∧
  ((engine b 1).port 0 2).pending.length < 4 ∧ (b.word.extractLsb' 0 3).toNat = 2 ∧ (u.word.extractLsb' 0 3).toNat = 2 ∧
  (carried.port 0 2).stream = some { bind := p } ∧
  gives (exec (.engineCommandStart 0 0 3) c) (fun t => (t.slot 0 0).queue 3 == [started copyBlock]) = true ∧
  gives (exec (.engineCommandStart 0 0 6) g) (fun t => ((t.slot 0 0).queue 6).map Cmd.started == [true]) = true ∧
  gives (exec (.engineCommandStart 0 0 1) (engine b 1)) (fun t => (t.port 0 2).stream.any (fun x => x.bind == p) && (t.port 0 2).pending == []) = true ∧
  gives (exec (.engineCommandStart 0 0 1) carried) (fun t => t.port 0 2 == {} && t.memNat 0x338 8 == 2 ^ 63 && t.memNat 0x358 8 == 2 ^ 63 + 10) = true := by
  decide +kernel

theorem test_EngineSteps_chunk :
  let k := started copyBlock
  let s := engine k
  let m := started unmappedBlock
  let r := started readOnlyBlock
  s.copyGoes 0 0 k = true ∧ (moves s k).toOption.isSome = true ∧ k.chunkWhole 0 = true ∧
  (moves s k).toOption.bind (fun w => (k.setBit 0 0 w.1 0).toOption.map fun x => x.s.memByte 0x800) = some 0x77 ∧
  errOf (moves (engine m) m) = some (.xlate 2 0x40000000) ∧ errOf (moves (engine r) r) = some (.xlate 7 0x20000000) ∧
  gives (exec (.chunkComplete 0 0 3 0) s) (fun t => t.memByte 0x800 == 0x77 && ((t.slot 0 0).queue 3).map Cmd.todo == [[]]) = true ∧
  gives (exec (.chunkComplete 0 0 3 0) (engine m))
    (fun t => ((t.slot 0 0).queue 3).map Cmd.pause == [some { va := 0x40000000, tag := 0 }]) = true ∧
  gives (exec (.chunkComplete 0 0 3 0) (engine r))
    (fun t => ((t.slot 0 0).queue 3).map Cmd.status == [some (16, 7)] && t.memByte 0x800 == 0) = true := by decide +kernel

theorem test_EngineSteps_complete :
  let k : Cmd := { aCopy with started := true, status := some (16, 2) }
  k.finished = true ∧ cwBe k.w = false ∧ Kind.notValid = 2 ∧
  gives (exec (.commandComplete 0 0 3) (engine k))
    (fun t => (t.slot 0 0).queue 3 == [] && t.memNat 0x338 8 == 0x8000000000000210 && (t.slot 0 0).events == [0x0200000000000338#64]) = true := by
  decide +kernel

/-- A gather of 4 indices at the window's start, whose list is poisoned or good; SUNB of an output with a closed beat stays in
rq until the beat is written. -/
theorem test_EngineSteps_stops :
  let k : Cmd := { aCopy with kind := .cpyg, word := 0x40000, count := 16, src := aShape, dst := aShape }
  let g := engine k
  let p : State := { g with poison := [.spad 0 0] }
  let b : Bind := { slot := 0, vi := 1, word := 0x10A, record := bindRecord, shape := aShape, cw := 0x338 }
  let u : Cmd := { seq := 0, kind := .sunb, vi := 1, block := [], word := 0x2 }
  let x : Stream := { bind := b, no := 1, closed := [(0, [(3, 0x55)], 0)] }
  let o : State := commanding [] [] [(1, [u])] { ports := [(2, { stream := some x })] }
  cwLen k.w = 4 ∧ p.spadPois 0 ((p.core 0).spadAddr 0 (64 * cwArg k.w)) 16 = true ∧
  g.spadPois 0 ((g.core 0).spadAddr 0 (64 * cwArg k.w)) 16 = false ∧
  (∀ e, e < k.count → g.gatherBad 0 0 { k with started := true, todo := upFrom 0 k.chunks, group := List.replicate 16 0 } e = none) ∧
  gives (exec (.engineCommandStart 0 0 3) p)
    (fun t => ((t.slot 0 0).queue 3).map Cmd.status == [some (18, 0)] && (t.die 0).trace.entries.map TraceEntry.kind == [2]) = true ∧
  gives (exec (.engineCommandStart 0 0 3) g) (fun t => ((t.slot 0 0).queue 3).map Cmd.todo == [[0]]) = true ∧
  o.portOpen 0 0 2 = true ∧ x.isOut = true ∧ x.ended = false ∧ x.pause = none ∧
  gives (exec (.engineCommandStart 0 0 1) o)
    (fun t => ((t.slot 0 0).queue 1).map Cmd.started == [true] && (t.port 0 2).stream.map Stream.stop == some true) = true := by
  decide +kernel

/-- A bind that finds its port free and the tile engine it names taken by another port's stream waits there. -/
theorem test_EngineSteps_engine :
  let b : Cmd := { seq := 0, kind := .sbind, vi := 1, block := bindRecord, word := 0x112, cw := 0x338, src := aShape }
  let p (w : Word) : Bind := { slot := 0, vi := 1, word := w, record := bindRecord, shape := aShape, cw := 0x338 }
  let s : State := commanding [] [] [(1, [b])] { ports := [(1, { stream := some { bind := p 0x111 } })] }
  (s.port 0 2).free = true ∧ (s.port 0 2).pending = [] ∧ s.engineBusy 0 (p 0x112) = true ∧ s.portOpen 0 0 2 = true ∧
  gives (exec (.engineCommandStart 0 0 1) s) (fun t => t.port 0 2 == { pending := [p 0x112] }) = true := by decide +kernel

/-- SUNB of an input with a bind pending behind it: the bind starts; with ALL none is left; SUNB of a port that another slot
holds ends nothing. -/
theorem test_EngineSteps_unbind :
  let p : Bind := { slot := 0, vi := 1, word := 0x102, record := bindRecord, shape := aShape, cw := 0x338 }
  let u : Cmd := { seq := 0, kind := .sunb, vi := 1, block := [], word := 2 }
  let s (k : Cmd) (n : Nat) : State := commanding [] [] [(1, [k])]
    { ports := [(2, { stream := some { bind := { p with slot := n } }, pending := [{ p with slot := n, cw := 0x358 }] })] }
  let all : Cmd := { u with word := 10 }
  (s u 0).portOpen 0 0 2 = true ∧ (((s u 0).performUnbind 0 u).port 0 2).free = true ∧
  ((s u 0).performUnbind 0 u).engineBusy 0 { p with cw := 0x358 } = false ∧ ((s all 0).performUnbind 0 all |>.port 0 2).pending = [] ∧
  ((s u 1).port 0 2).heldBy 0 = false ∧ ((s u 1).slot 0 0).savedPorts.contains 2 = false ∧
  gives (exec (.engineCommandStart 0 0 1) (s u 0)) (fun t => (t.slot 0 0).queue 1 == [] &&
    (t.port 0 2).stream.map (fun x => x.bind.cw) == some 0x358 && (t.port 0 2).pending == [] && t.memNat 0x338 8 == 2 ^ 63) = true ∧
  gives (exec (.engineCommandStart 0 0 1) (s u 1)) (fun t => (t.slot 0 0).queue 1 == [] && t.port 0 2 == (s u 1).port 0 2) = true := by
  decide +kernel

/-- A command, an operand move and a stream that pause on the page at 0x20000000, with the ring at 0x500000. -/
def aPause : Pause := { va := 0x20000000, tag := 0 }
def aBind (word : Word) : Bind := { slot := 0, vi := 1, word := word, record := bindRecord, shape := aShape, cw := 0x338 }
def pausing : State :=
  let s := commanding [] [] [(3, [{ started unmappedBlock with pause := some aPause }])]
    { ports := [(1, { stream := some { bind := aBind 0x101, pause := some aPause } })] }
  { s with
    dies := [(0, { first := 0, prqb := 0x500000, nextTag := 9 })]
    cores := s.cores.map fun (c, k) => (c, { k with slots := k.slots ++ [(1, { task := some { aTask with opPause := some aPause } })] }) }

def answered (tag : Nat) : State :=
  commanding [] [] [(3, [{ started unmappedBlock with pause := some { aPause with posted := true, tag := tag } }])]

theorem test_PageRequestSteps :
  let s := pausing
  Up 0 s ∧ aPause.posted = false ∧ (s.die 0).prqw - (s.die 0).prqAns < 256 ∧
  ((s.slot 0 0).queue 3).map Cmd.pause = [some aPause] ∧ ((s.slot 0 1).task.bind Task.opPause) = some aPause ∧
  ((s.port 0 (9 - 8)).stream.map Stream.pause) = some (some aPause) ∧
  gives (exec (.pageRequestPost 0 0 3) s) (fun t => t.memNat 0x500000 8 == 0x20000000 && t.memNat 0x500008 2 == 1 && t.memNat 0x50000C 2 == 9) = true ∧
  gives (exec (.pageRequestPost 0 1 7) s) (fun t => ((t.slot 0 1).task.bind Task.opPause).map Pause.tag == some 9) = true ∧
  gives (exec (.pageRequestPost 0 0 9) s) (fun t => ((t.port 0 1).stream.bind Stream.pause).map Pause.posted == some true) = true ∧
  ((answered 5).cores.any fun x => dieOf x.1 == 0 && x.2.named 5) = true ∧
  ((answered 6).cores.any fun x => dieOf x.1 == 0 && x.2.named 5) = false ∧
  gives (exec (.prqaWrite 0 5) (answered 5)) (fun t => ((t.slot 0 0).queue 3).map Cmd.pause == [none] && (t.die 0).prqAns == 1) = true ∧
  gives (exec (.prqaWrite 0 0x8000000000000005#64) (answered 5))
    (fun t => ((t.slot 0 0).queue 3).map Cmd.status == [some (16, 2)]) = true ∧
  gives (exec (.prqaWrite 0 5) (answered 6)) (fun t => t == answered 6) = true := by decide +kernel

/-- The answers to a stream's request. -/
theorem test_PageRequestSteps_stream :
  let p : Pause := { aPause with posted := true, tag := 5 }
  let x : Stream := { bind := aBind 0x101, pause := some p }
  p.answered = false ∧ Stream.answer 5 false x = { x with pause := none } ∧
  Stream.answer 5 true x = { x with pause := none, status := some (16, 2) } := by decide +kernel

/-- Port 1 of core 0 with this stream and these pending binds, over the byte 0x77 at 0x400. -/
def streaming (x : Option Stream) (pending : List Bind := []) : State :=
  commanding [] [(0x400, 0x77)] [] { ports := [(1, { stream := x, pending := pending })] }

/-- An output stream whose first beat, position 3 holding 0x55, is closed; and one with nothing left to write. -/
def closing : Stream := { bind := aBind 0x109, no := 1, closed := [(0, [(3, 0x55)], 0)] }

theorem test_StreamSteps :
  let i : Stream := { bind := aBind 0x101 }
  let s := streaming (some i)
  let w := streaming (some closing)
  let e : Stream := { closing with closed := [] }
  let z : Stream := { e with stop := true }
  Up 0 s ∧ ((streaming none [aBind 0x101]).port 0 1).free = true ∧ (streaming none [aBind 0x101]).engineBusy 0 (aBind 0x101) = false ∧
  i.wants = true ∧ ((i.readBeat 0 (0 + 0) (upFrom 0 16) { s := s, rs := [] }).toOption.map fun x => x.2.1.head?) = some (some 0x77) ∧
  ((closing.writeBeat 0 0 0 [(3, 0x55)] { s := w, rs := [] }).toOption.map fun x => x.s.memByte 0x40C) = some 0x55 ∧
  e.ended = false ∧ e.status = none ∧ e.stop = false ∧ e.exhausted = true ∧ z.stop = true ∧
  gives (exec (.streamStart 0 1) (streaming none [aBind 0x101])) (fun t => t.port 0 1 == { stream := some { i with ranges := [firstRange] } }) = true ∧
  gives (exec (.beatArrival 0 1) s) (fun t => ((t.port 0 1).stream.map fun x => x.beats.length) == some 1) = true ∧
  gives (exec (.beatWrite 0 1) w) (fun t => t.memByte 0x40C == 0x55 && (t.port 0 1).stream.map Stream.closed == some []) = true ∧
  gives (exec (.streamEnd 0 1) (streaming (some e)))
    (fun t => t.memNat 0x338 8 == 2 ^ 63 && (t.port 0 1).stream.map Stream.ended == some true) = true ∧
  gives (exec (.streamEnd 0 1) (streaming (some z))) (fun t => t.memNat 0x338 8 == 2 ^ 63 && (t.port 0 1).stream == none) = true ∧
  gives (exec (.streamEnd 0 1) (streaming (some z) [aBind 0x101])) (fun t => (t.port 0 1).pending == [] &&
    (t.port 0 1).stream.map Stream.bind == some (aBind 0x101)) = true := by
  decide +kernel

/-- A tile engine's stream over the page at 0x40000000, which is not mapped, pauses; over HBM, which is no tile of its, it ends
with kind PA. An output that SUNB has stopped takes its SUNB with it. -/
theorem test_StreamSteps_stops :
  let far : List Byte := fields [(8, 0x40000000), (4, 16), (12, 0), (4, 4), (12, 0), (2, 16), (6, 0), (4, 0), (4, 0), (8, 0)]
  let m : Stream := { bind := { aBind 0x111 with shape := far } }
  let h : Stream := { bind := aBind 0x111, tile := some (0, 5) }
  let err (x : Stream) : Option EngStop :=
    errOf (Stream.readBeat { x with tile := (streaming (some x)).tileOf 0 x } 0 0 (upFrom 0 16) { s := streaming (some x), rs := [] })
  let u : Cmd := { seq := 0, kind := .sunb, vi := 1, block := [], word := 0x1, started := true }
  let z : Stream := { closing with closed := [], stop := true }
  let s : State := commanding [] [] [(1, [u])] { ports := [(1, { stream := some z })] }
  bwEng m.bind.w ≠ 0 ∧ bwEng h.bind.w ≠ 0 ∧ m.wants = true ∧ h.wants = true ∧
  err m = some (.xlate Kind.notValid 0x40000000) ∧ err h = some (.xlate Kind.pa 0x400) ∧
  gives (exec (.beatArrival 0 1) (streaming (some m)))
    (fun t => (t.port 0 1).stream.map Stream.pause == some (some { va := 0x40000000, tag := 0 })) = true ∧
  gives (exec (.beatArrival 0 1) (streaming (some h))) (fun t => (t.port 0 1).stream.map Stream.status == some (some (16, Kind.pa))) = true ∧
  z.status = none ∧ (s.slot 0 0).queue 1 = [u] ∧
  gives (exec (.streamEnd 0 1) s) (fun t => (t.slot 0 0).queue 1 == [] && t.memNat 0x338 8 == 2 ^ 63 && (t.port 0 1).stream == none) = true := by
  decide +kernel

/-- The two participants of aGroup's call with these operations, over the sources 5 and 6. -/
def joined (r op : Nat) : Cmd :=
  { seq := 0, kind := .ccmd, vi := 1, block := collBlock op r, word := 0, cw := 0x338, group := aGroup, started := true }
def calling (a b : Nat) : State :=
  let s := commanding [] [(0x600, 5), (0x610, 6)] [(6, [joined 0 a])]
  { s with cores := s.cores.map fun (c, k) => (c, { k with slots := k.slots ++ [(1, { task := some bTask, queues := [(6, [joined 1 b])] })] }) }
def callers (a b : Nat) : List Party := [⟨0, 0, joined 0 a⟩, ⟨0, 1, joined 1 b⟩]

theorem test_CollectiveSteps :
  let s := calling 0 0
  let m := calling 0 0x20
  let o : State := { commanding [] [] [(6, [joined 0 0])] with cycles := 2048 }
  Up 0 s ∧ s.parties (joined 0 0) = some (callers 0 0) ∧ m.parties (joined 0 0) = some (callers 0 0x20) ∧
  (s.die 0).actParked 1 0 1 = false ∧ (joined 0 0).opw ≠ (joined 1 0x20).opw ∧ (joined 0 0).opw = (joined 1 0).opw ∧
  (joined 0 0).ccount = (joined 1 0).ccount ∧ (joined 0 0).root = (joined 1 0).root ∧ (joined 0 0).pause = none ∧
  (callers 0 0).map (fun p => (s.partySrc p).toOption) = [some [(0x600, 4)], some [(0x610, 4)]] ∧
  (callers 0 0).map (fun p => (s.partyDst p).toOption) = [some [(0x700, 4)], some [(0x710, 4)]] ∧
  (∀ p ∈ callers 0 0, s.reducesPoison p.cmd [[(0x600, 4)], [(0x610, 4)]] p.cmd.rank = false) ∧
  (joined 0 0).outBytes 0 = 4 ∧ ((joined 0 0).result ([[(0x600, 4)], [(0x610, 4)]].map s.readPieces) 0).length = 4 ∧
  gives (exec (.collectiveBegin 0 0) s) (fun t => t.memNat 0x700 4 == 11 && t.memNat 0x710 4 == 11) = true ∧
  gives (exec (.collectiveBegin 0 1) m) (fun t => ((t.slot 0 0).queue 6).map Cmd.status == [some (5, 0)] && t.memNat 0x700 4 == 0) = true ∧
  gives (exec (.collectiveTimeout 0 0) o)
    (fun t => ((t.slot 0 0).queue 6).map Cmd.status == [some (19, 0)]) = true ∧
  o.issues (joined 0 0) = none ∧ s.issues (joined 0 0) = some [joined 0 0, joined 1 0] ∧ (joined 0 0).inTime [joined 0 0, joined 1 0] = true ∧
  gives (exec (.collectiveTimeout 0 0) { s with cycles := 2048 }) (fun t => t == { s with cycles := 2048 }) = true ∧
  (joined 0 0).tmo = 2 ∧ (joined 0 0).done = false ∧ (joined 0 0).todo = [] := by decide +kernel

/-- A participant whose page was declined keeps XLATE and NOT_VALID as the call is performed. -/
theorem test_CollectiveSteps_declined :
  let d : Cmd := { joined 1 0 with status := some (16, 2) }
  let s : State := (calling 0 0).modCore 0 fun k => { k with slots := k.slots.map fun (n, l) =>
    (n, if n = 1 then { l with queues := [(6, [d])] } else l) }
  s.parties (joined 0 0) = some [⟨0, 0, joined 0 0⟩, ⟨0, 1, d⟩] ∧ d.opw = (joined 0 0).opw ∧ d.ccount = (joined 0 0).ccount ∧
  d.root = (joined 0 0).root ∧ (s.partyDst ⟨0, 0, joined 0 0⟩).toOption = some [(0x700, 4)] ∧
  ([⟨0, 0, joined 0 0⟩, ⟨0, 1, d⟩].map fun p => (s.partySrc p).toOption) = [some [(0x600, 4)], some [(0x610, 4)]] ∧
  gives (exec (.collectiveBegin 0 0) s)
    (fun t => ((t.slot 0 1).queue 6).map (fun y => (y.status, y.finished)) == [(some (16, 2), true)]) = true := by decide +kernel

/-! ## Witnesses: queues, cards, tasks, sharing a core -/

/-- A card of `n` records of 8 bytes at 0x140000, entry 0x200000, one core each, four banks, two barriers, record at 0x150000,
CSIG an MSI-X of vector 5, job 0x99, with `handle` in HANDLEIN and `opn` operands listed at 0x160000. -/
def cardBytes (n : Nat) (handle : Nat := 0) (banks : Nat := 4) (opn : Nat := 0) : List Byte :=
  fields [(8, 0x200000), (8, 0x140000), (4, n), (2, 8), (1, 0), (1, banks), (2, 2), (2, opn), (4, 0), (8, handle),
    (8, if opn = 0 then 0 else 0x160000), (8, 0x150000), (8, 2 ^ 63 + 5), (32, 0), (8, 0x99), (24, 0)]

def aCard (n : Nat := 10) (handle : Nat := 0) (opn : Nat := 0) : Card :=
  { num := 4, bytes := cardBytes n handle 4 opn, remaining := n }

/-- Interface 1 with queue 2 as `k` says, in hardware slot 3 of die 0 where `hw` stands. -/
def queueing (k : Queue) (mem : List Host.Cell := []) (hw : Bool := true) (cores : Tab Core := []) : State :=
  let s := mapped mem []
  { s with
    cores := cores
    dies := [(0, { first := 0, hwq := if hw then [(3, some (1, 2))] else [] })]
    ifaces := [(1, { Tab.get {} s.ifaces 1 with
      queues := [(2, some k)], objs := [{ id := 1, base := 0x200000, secs := [(0x200000, 0x1000, true)] }] })] }

/-- Queue 2 mapped, with four cards accepted of `w`. -/
def inHw (w : Nat) (cards : List Card := []) : Queue := { aQueue with st := .mapped 3, w := w, cards := cards }

/-- W of 7 at 0x110000, and the descriptor at 0x120000. -/
def wAndDesc : List Host.Cell := (0x110000, 7) :: cells 0x120000 aDesc

theorem test_QueueSteps_mapping :
  let s := queueing (inHw 4) wAndDesc
  let p := queueing { aQueue with st := .pending } wAndDesc false
  let idle : State := { queueing (inHw 4) with ifaces := [(1, { Tab.get {} (queueing (inHw 4)).ifaces 1 with
    queues := [(2, some (inHw 4)), (3, some { aQueue with st := .pending })] })] }
  s.queue 1 2 = some (inHw 4) ∧ (inHw 4).st = .mapped 3 ∧ s.devRead 1 0 (inHw 4).widx 8 = some [7, 0, 0, 0, 0, 0, 0, 0] ∧
  Tab.get none (p.die 0).hwq 3 = none ∧ p.chosenForMap 0 1 2 = true ∧ p.devRead 1 0 aQueue.descVa 64 = some aDesc ∧
  p.devRead 1 0 (fld aDesc 0x10 8) 8 = some [7, 0, 0, 0, 0, 0, 0, 0] ∧ Tab.get none (idle.die 0).hwq 3 = some (1, 2) ∧
  (inHw 4).w = (inHw 4).r ∧ (inHw 4).head = none ∧ (idle.allQueues.any fun x => idle.mappable 0 x.1 x.2) = true ∧
  gives (exec (.notify 1 2) s) (fun t => (t.queue 1 2).map Queue.w == some 7) = true ∧
  gives (exec (.notify 1 2) (queueing aQueue [] false)) (fun t => (t.queue 1 2).map Queue.st == some .pending) = true ∧
  gives (exec (.queueMap 0 3 1 2) p) (fun t => (t.queue 1 2) == some { inHw 7 with st := .mapped 3 }) = true ∧
  gives (exec (.queueUnmap 0 3) idle) (fun t => (t.queue 1 2).map Queue.st == some .unmapped && Tab.get none (t.die 0).hwq 3 == none) = true := by
  decide +kernel

/-- The card of number 4 lies at ring index 4; one that asks for five banks is refused with RESOURCE. -/
theorem test_QueueSteps_accept :
  let s := queueing (inHw 7) (cells (0x100000 + 128 * 4) (cardBytes 10))
  let k := inHw 7
  let big := queueing (inHw 7) (cells (0x100000 + 128 * 4) (cardBytes 10 0 5))
  let bad := queueing (inHw 7) (cells (0x100000 + 128 * 4) (cardBytes 0))
  (s.die 0).quiet = false ∧ (s.iface 1).xroot.isSome = true ∧ k.r < k.w ∧ k.head = none ∧ k.die = 0 ∧
  s.devRead 1 0 (k.ring + 128 * (k.r % 2 ^ k.logn)) 128 = some (cardBytes 10) ∧
  (s.devLocate 1 0 .write k.ridx 8).toOption = some [(0x110008, 8)] ∧ (aCard).crec % 64 = 0 ∧
  (s.devLocate 1 0 .write (aCard).crec 64).toOption = some [(0x150000, 64)] ∧ s.badCard 1 k aCard = false ∧
  (aCard).slotReq ≤ (s.iface 1).winShare ∧ (aCard).nbar ≤ (s.iface 1).barShare ∧ s.badCard 1 k (aCard 0) = true ∧
  gives (exec (.cardAccept 0 3) s) (fun t => t.queue 1 2 == some { k with r := 5, cards := [aCard], widths := [(4, 1)] } && t.memByte 0x110008 == 5) = true ∧
  gives (exec (.cardAccept 0 3) big) (fun t => (t.queue 1 2).map Queue.cards == some [] && t.memNat 0x150000 8 == 2 ^ 63 + 3) = true ∧
  gives (exec (.cardAccept 0 3) bad) (fun t => t.memNat 0x150000 8 == 2 ^ 63 + 4 && t.memNat 0x150038 8 == 0x99) = true := by
  decide +kernel

/-- A card refused while an earlier one awaits its record stays behind it, with RESOURCE and no record to deal. -/
theorem test_QueueSteps_refused :
  let k : Queue := { inHw 7 [{ aCard with num := 3, remaining := 0 }] with dones := [3] }
  let s := queueing k (cells (0x100000 + 128 * 4) (cardBytes 10 0 5))
  let c : Card := { aCard with bytes := cardBytes 10 0 5 }
  k.head = none ∧ s.badCard 1 k c = false ∧ ¬ c.slotReq ≤ (s.iface 1).winShare ∧
  s.devRead 1 0 (k.ring + 128 * (k.r % 2 ^ k.logn)) 128 = some (cardBytes 10 0 5) ∧
  gives (exec (.cardAccept 0 3) s) (fun t => (t.queue 1 2).map (fun x => x.cards.map fun c => (c.num, c.remaining, c.status)) ==
    some [(3, 0, 0), (4, 0, 3)] && (t.queue 1 2).map Queue.dones == some [3, 4]) = true := by decide +kernel

theorem test_QueueSteps_complete :
  let c : Card := { aCard with remaining := 0, ordinal := 2, exit := 9 }
  let s := queueing { inHw 7 [c] with dones := [4] }
  (inHw 7 [c]).card 4 = some c ∧ c.complete = true ∧ DieUp 0 s ∧ (s.devWrite 1 0 (c.crec + 8) (c.recordTail 1 s.time)).isSome = true ∧
  bits c.csig 62 2 = 2 ∧
  gives (exec (.cardComplete 1 2 4) s)
    (fun t => t.memNat 0x150000 8 == 2 ^ 63 + 9 * 2 ^ 16 + 1 && t.memNat 0x15002C 2 == 2 && t.out == [.msix 1 5]) = true := by
  decide +kernel

/-- Four cores of die 0 are the only ones that are not free of use, so that they alone are eligible. -/
def someCores : Tab Core := (upFrom 0 160).map fun c => (c, { outOfUse := decide (4 ≤ c) })

/-- Queue 2 with this card to deal; and the count of places, 4, halves ten records into chunks of two. -/
def dealing (c : Card) : State := queueing (inHw 7 [c]) [] true someCores

theorem test_DealingAndStart :
  let s := dealing aCard
  let b := dealing (aCard 10 0x55)
  (s.choose 0).map Prod.fst = some 3 ∧ (b.choose 0).map Prod.fst = some 3 ∧ (inHw 7 [aCard]).head = some aCard ∧ s.badClaim aCard = false ∧
  b.badClaim (aCard 10 0x55) = true ∧ s.placeOk 1 (inHw 7 [aCard]) aCard [2] = true ∧ s.count 1 (inHw 7 [aCard]) aCard = 4 ∧
  (s.core 2).freeSlot = some 0 ∧
  gives (exec (.deal 0 3 [2]) s) (fun t => (t.slot 2 0).ctl.getX 11 == 2 && (t.slot 2 0).ctl.pc == 0x200000 &&
    (t.queue 1 2).map (fun q => q.cards.map Card.remaining) == some [8]) = true ∧
  gives (exec (.deal 0 3 [2]) b) (fun t => (t.queue 1 2).map (fun q => q.cards.map Card.status) == some [4] && t.cores == b.cores) = true := by
  decide +kernel

/-- A task of card 4 in slot 0 of core 2, not started, with these operands to move. -/
def placing (ops : List Nat) : State :=
  let c : Card := { aCard 10 0 1 with remaining := 8, next := 2, ordinal := 1, out := 1, live := [(0, 1)] }
  queueing (inHw 7 [c]) [] true [(2, { slots := [(0, { task := some { aTask with card := 4, chunk := 0, gang := [(2, 0)], started := false, ran := false, ops := ops } })] })]

theorem test_DealingAndStart_start :
  let s := placing []
  let f := placing [0]
  let c : Card := { aCard 10 0 1 with remaining := 8, next := 2, ordinal := 1, out := 1, live := [(0, 1)] }
  (s.slot 2 0).task.map Task.started = some false ∧ (s.queue 1 2).bind (fun k => k.card 4) = some c ∧ c.stopped = false ∧
  (s.slot 2 0).task.map Task.claim = some none ∧ (s.slot 2 0).task.map Task.opPause = some none ∧
  ((f.slot 2 0).task.map fun y => match f.moveOperand 2 0 y c 0 with | .failed _ => true | _ => false) = some true ∧ (f.die 0).actParked 0 (quadOf 2) 1 = false ∧
  gives (exec (.taskStart 2 0) s) (fun t => (t.slot 2 0).task.map Task.started == some true && (t.slot 2 0).since == s.cycles) = true ∧
  gives (exec (.taskStart 2 0) f)
    (fun t => (t.slot 2 0).task == none && (t.queue 1 2).map (fun q => q.cards.map Card.status) == some [5]) = true := by
  decide +kernel

/-- Queue 2 of a period of 12,500 with these budgets left, slot 0 of core 0 running its task. -/
def budgeting (k : Queue) : State :=
  queueing k [] true [(0, { mode := .u, running := some 0, slots := [(0, slotX [])] })]

theorem test_BudgetSteps :
  let k : Queue := { inHw 4 with cyc := -7, pas := 100, hbm := 1, xc := true, parked := true, dc := 6 }
  let s : State := { budgeting k with cycles := 12500 }
  let u := budgeting { inHw 4 with cyc := -7 }
  let a : State := { budgeting aQueue with
    cycles := 12500
    dies := [(0, { first := 0, acts := [⟨0, 4, 1, 900, false⟩, ⟨0, 4, 2, 5, false⟩], actLim := [(1, (12500, 800, 0, 0))] })] }
  s.queue 1 2 = some k ∧ k.per = 12500 ∧ (k.perAt / k.per + 1) * k.per ≤ s.cycles ∧ Queue.spent { inHw 4 with cyc := -7 } 0 = true ∧
  Queue.marked { inHw 4 with cyc := -7 } 0 = false ∧ (u.core 0).running = some 0 ∧ (u.slot 0 0).events.length < 64 ∧
  a.activityPeriod 0 1 ≠ 0 ∧ (Tab.get 0 (a.die 0).actAt 1 / a.activityPeriod 0 1 + 1) * a.activityPeriod 0 1 ≤ a.cycles ∧
  (a.die 0).actLimit 0 1 = 800 ∧ (s.coreNums.filter (· == 0)).length = 1 ∧
  gives (exec (.periodBoundary 1 2) s)
    (fun t => (t.queue 1 2).map (fun q => (q.cyc, q.pas, q.hbm, q.parked)) == some (993, 2000, 3000, false)) = true ∧
  gives (exec (.budgetExhausted 1 2 0) u)
    (fun t => (t.slot 0 0).haltReq && (t.slot 0 0).events == [0x0300000000000000#64] && (t.slot 0 0).pend.map Pending.cause == [30]) = true ∧
  gives (exec (.periodBoundary 1 4096) a) (fun t => (t.die 0).acts == [⟨0, 4, 2, 5, false⟩] && Tab.get 0 (t.die 0).actAt 1 == 12500) = true ∧
  gives (exec (.activityBudgetExhausted 0 1 0 4) a) (fun t => (t.die 0).acts == [⟨0, 4, 1, 900, true⟩, ⟨0, 4, 2, 5, false⟩]) = true ∧
  gives (exec .packageTimerTick u) (fun t => t.cycles == 5 && (t.core 0).sliceUsed == 5 && (t.slot 0 0).task.map Task.ucyc == some 5) = true := by
  decide +kernel

/-- Slot 0 runs with its slice used up, and slot 1 of the same queue is ready. -/
def sharing (l : Slot) (k : Queue := inHw 4) : State :=
  queueing k [] true [(0, {
    mode := .u, running := some 0, sliceUsed := 1024, slots := [(0, l), (1, { slotX [] with since := 5 })] })]

theorem test_CoreSharingSteps :
  let s := sharing (slotX [])
  let p := sharing (slotX []) { inHw 4 with parked := true }
  let h := sharing { slotX [(5, 9)] with haltReq := true }
  let b := sharing { slotX [] with haltReq := true, pend := [⟨30, 1⟩] }
  let d := queueing (inHw 4) [] true [(0, { sliceUsed := 3, slots := [(0, slotX [(5, 9)])] })]
  Up 0 s ∧ (s.core 0).running = some 0 ∧ p.mustYield 0 0 = true ∧ (inHw 4).slice ≤ (s.core 0).sliceUsed ∧ s.line 0 ≠ [] ∧
  h.mayHalt 0 0 = true ∧ (h.ctl 0).wait = none ∧ (h.slot 0 0).pend = [] ∧ b.mayHalt 0 0 = true ∧
  (b.slot 0 0).pend.find? (fun p => p.cause == 30) = some ⟨30, 1⟩ ∧ (d.core 0).running = none ∧ d.lineHead 0 = some 0 ∧
  (d.core 0).fw.pre = none ∧ (d.slot 0 0).savedPorts = [] ∧ (d.slot 0 0).savedRegion = false ∧ (d.region 0).owner ≠ some 0 ∧
  (d.slot 0 0).pend = [] ∧ (d.core 0).csr.mie = 0 ∧ (d.core 0).inPartctl = false ∧
  gives (exec (.preemptRequest 0 0) p) (fun t => (t.slot 0 0).haltReq) = true ∧
  gives (exec (.sliceExpiry 0) s) (fun t => (t.slot 0 0).haltReq) = true ∧
  gives (exec (.coreStop 0) h) (fun t => (t.core 0).running == none && (t.core 0).mode == .m && (t.slot 0 0).ctl.getX 5 == 9 && (t.slot 0 0).since == h.cycles) = true ∧
  gives (exec (.coreStop 0) b) (fun t => (t.core 0).csr.mcause == 30 && (t.core 0).csr.mtval == 1 && (t.core 0).running == some 0) = true ∧
  gives (exec (.dispatch 0) d) (fun t => (t.core 0).running == some 0 && (t.core 0).mode == .u && (t.core 0).sliceUsed == 0) = true := by
  decide +kernel

/-- A slot whose region stands HALTED in place: dispatched, the region takes its boundary and runs. -/
theorem test_CoreSharingSteps_resumes :
  let d := queueing (inHw 4) [] true [(0, { region := { owner := some 0, st := .halted, k := 6, tag := 9 }, banks := [(0, { tag := 9 })], slots := [(0, slotX [])] })]
  Up 0 d ∧ (d.core 0).running = none ∧ d.lineHead 0 = some 0 ∧ (d.core 0).fw.pre = none ∧ (d.region 0).owner = some 0 ∧
  (d.region 0).st = .halted ∧ (d.claimFor 0 0 (d.region 0).desc).isSome = true ∧ (d.slot 0 0).pend = [] ∧ (d.core 0).csr.mie = 0 ∧
  gives (exec (.dispatch 0) d) (fun t => (t.region 0).st == .running && (t.region 0).k == 7 && (t.core 0).running == some 0) = true := by
  decide +kernel

/-- A port that stands in the slot's area comes back with its bind. -/
theorem test_CoreSharingSteps_ports :
  let p : Bind := { slot := 0, vi := 1, word := 0x102, record := bindRecord, shape := aShape, cw := 0 }
  let d := queueing (inHw 4) (cells 0x702800 p.bytes) true [(0, { ctxa := [(0, 0x700000)], slots := [(0, { slotX [] with savedPorts := [2] })] })]
  (d.core 0).area 0 = 0x700000 ∧ (d.slot 0 0).savedPorts = [2] ∧ d.poison = [] ∧ d.lineHead 0 = some 0 ∧ (d.port 0 2).stream = none ∧
  (d.port 0 2).pending = [] ∧ (bindFrom 0 1 (d.memBytes 0x702800 1024)) = some p ∧
  gives (exec (.dispatch 0) d) (fun t => (t.port 0 2).stream.map Stream.bind == some p && (t.slot 0 0).savedPorts == []) = true := by
  decide +kernel

/-- A slot whose region's block stands in its area: with its image in the bank the block is restored, with another tag there, or
with no descriptor where the block's address says, the slot takes TAGLOST or DESCLOST before its first instruction. -/
def resuming (tag dva : Nat) : State :=
  queueing (inHw 4) (cells 0x709000 (fields [(4, 0x31425342), (4, 2), (8, dva), (8, 0x77), (4, 8), (4, 7), (1, 0), (1, 1)]) ++ cells 0x310000 aRegion) true
    [(0, { ctxa := [(0, 0x700000)], csr := { zfrec := 0x600000 }, banks := [(0, { bankOf anImage with tag := BitVec.ofNat 32 tag })],
           slots := [(0, { slotX [] with savedRegion := true })] })]

theorem test_CoreSharingSteps_region :
  let s := resuming 0x77 0x310000
  let b := s.memBytes 0x709000 4096
  (s.core 0).area 0 = 0x700000 ∧ (Tab.get {} (s.core 0).banks (bits (fld b 0 8) 40 2)).tag.toNat = fld b 0x10 4 ∧
  s.descHeld 0 0 b = some aRegion ∧ (s.claimFor 0 0 aRegion).isSome = true ∧ (s.core 0).armPending 0 = false ∧
  (s.region 0).st = .idle ∧ (s.region 0).passes = [] ∧ s.lineHead 0 = some 0 ∧ (s.slot 0 0).pend = [] ∧ (s.slot 0 0).ctl.wait = none ∧
  s.recordBusy 0x600000 = false ∧ (s.core 0).recordAddr 0 = 0x600000 := by decide +kernel

theorem test_CoreSharingSteps_tagLost :
  gives (exec (.dispatch 0) (resuming 0x78 0x310000)) (fun t => (t.core 0).csr.mcause == 24 && t.memNat 0x600000 2 == 0x1818 &&
    (t.region 0).st == .idle && (t.core 0).csr.mtval == 0x8000000000600000#64 && !(t.slot 0 0).savedRegion) = true := by decide +kernel

theorem test_CoreSharingSteps_descLost :
  (resuming 0x77 0x40000000).descHeld 0 0 ((resuming 0x77 0x40000000).memBytes 0x709000 4096) = none ∧
  gives (exec (.dispatch 0) (resuming 0x77 0x40000000)) (fun t => (t.core 0).csr.mcause == 24 && t.memNat 0x600000 2 == 0x1918 &&
    (t.region 0).st == .idle) = true := by decide +kernel

/-- A region HALTED in place, whose bank has another tag by now, can be saved. -/
theorem test_CoreSharingSteps_inPlace :
  let d := queueing (inHw 4) [] true [(0, { ctxa := [(0, 0x700000)], csr := { zfrec := 0x600000 }, region := { owner := some 0, st := .halted, k := 6, tag := 9 }, banks := [(0, { tag := 8 })], slots := [(0, slotX [])] })]
  (d.core 0).holdsTag = false ∧ (d.core 0).armPending (dBank (d.region 0).desc) = false ∧ (d.saveRegion 0 0).2 = true ∧
  (d.region 0).passes = [] ∧ (d.slot 0 0).ctl.wait = none ∧ (d.slot 0 0).ctl.pre = none ∧ d.recordBusy 0x600000 = false := by
  decide +kernel

/-! ## Witnesses: pending causes, registers, context commands -/

/-- Core 0 in U mode, slot 0 running, with a pending cause of a trapped lane and with interrupt 16 enabled and pending. -/
def pendingCause : State := inSlot { slotX [] with pend := [⟨24, 0x77⟩] } { mode := .u }
def pendingInt : State := inSlot (slotX []) { mode := .u, csr := { mie := 0x10000, mip16 := true } }

/-- A fault record of slot 0 waits to be written at 0x600000; where VALID still stands it goes on waiting. -/
def recording (mem : List Host.Cell) : State :=
  inSlot (slotX []) { frq := [⟨0, List.replicate 64 7, 24⟩], csr := { zfrec := 0x600000 } } (mapped mem [])

/-- A task of card 4 ended by firmware, its handler running. -/
def ending : State :=
  let s := placing []
  { s with cores := s.cores.map fun (c, k) => (c, { k with running := some 0 }) }

theorem test_PendingCausesAndRecords :
  let w : State := inSlot { slotX [] with ctl := { wait := some { instr := .qfence 0x84, len := 4, n := 2 } } }
  Up 0 pendingCause ∧ (pendingCause.ctl 0).mayStop = true ∧ (pendingCause.ctl 0).wait = none ∧
  (match pendingCause.asyncNext 0 with | some (.cause 0 p) => p == ⟨24, 0x77⟩ && !p.ofTq | _ => false) = true ∧
  (match pendingInt.asyncNext 0 with | some (.interrupt 16) => true | _ => false) = true ∧ (parked.asyncNext 0).isNone = true ∧
  gives (exec (.asyncTrap 0) pendingCause) (fun t => (t.core 0).csr.mcause == 24 && (t.core 0).csr.mtval == 0x77 && (t.slot 0 0).pend == []) = true ∧
  gives (exec (.asyncTrap 0) pendingInt) (fun t => (t.core 0).csr.mcause == 0x8000000000000010#64) = true ∧
  ((recording []).core 0).recordAddr 0 = 0x600000 ∧ (recording []).recordBusy 0x600000 = false ∧
  (recording [(0x60000B, 1)]).recordBusy 0x600000 = true ∧
  gives (exec (.faultRecord 0) (recording []))
    (fun t => t.memByte 0x60003F == 7 && (t.slot 0 0).pend == [⟨24, 0x8000000000600000#64⟩]) = true ∧
  Up 0 w ∧ w.cur = 0 ∧ w.standsStill = false ∧ (w.slot 0 w.mySlot).standing (w.busyOf 0 0) ⟨4, 1⟩ = false ∧
  gives (exec (.waitComplete 0) w) (fun t => t.me.wait == none && t.me.pc == 4) = true ∧
  (ending.slot 2 0).task.map Task.card = some 4 ∧ ((ending.queue 1 2).bind fun k => k.card 4).isSome = true ∧
  gives (exec (.firmwareTaskEnd 2 0) ending)
    (fun t => t.slot 2 0 == {} && (t.core 2).running == none && (t.queue 1 2).map (fun q => q.cards.map fun c => (c.out, c.status)) == some [(0, 2)]) = true := by
  decide +kernel

/-- Slot 0's record waits on its VALID, and slot 1's, behind it, is written. -/
theorem test_PendingCauses_records :
  let s : State := inSlot (slotX []) { frq := [⟨0, List.replicate 64 7, 24⟩, ⟨1, List.replicate 64 9, 25⟩], csr := { zfrec := 0x600000 } }
    (mapped [(0x60000B, 1)] [])
  (s.core 0).recordAddr 1 = 0x600040 ∧ s.recordBusy 0x600000 = true ∧ s.recordBusy 0x600040 = false ∧
  gives (exec (.faultRecord 0) s) (fun t => t.memByte 0x60007F == 9 && (t.core 0).frq.map FaultRec.slot == [0] &&
    (t.slot 0 1).pend == [⟨25, 0x8000000000600040#64⟩]) = true := by decide +kernel

/-- Waits as interrupt 16 is pending: BARW of barrier 5 completes, PARTCTL goes on, RWAIT is abandoned. -/
theorem test_PendingCauses_waits :
  let wait (i : Instr) : State :=
    inSlot { slotX [] with ctl := { pc := 0x40, wait := some { instr := i, len := 4, a := 0x20005 } } }
      { mode := .u, csr := { mie := 0x10000, mip16 := true, mtvec := 0x800 } }
  let int (i : Instr) : Bool := match (wait i).asyncNext 0 with
    | some (.interrupt 16) => true
    | _ => false
  (wait (.barw 3 1)).cur = 0 ∧ Up 0 (wait (.barw 3 1)) ∧ (∀ i ∈ [Instr.barw 3 1, .partctl 3 1, .rwait 3], int i = true) ∧
  gives (exec (.asyncTrap 0) (wait (.barw 3 1))) (fun t => t.getX 3 == 0x0004000000020005#64 && (t.core 0).csr.mepc == 0x44 && t.me.pc == 0x800) = true ∧
  gives (exec (.asyncTrap 0) (wait (.partctl 3 1))) (fun t => t == wait (.partctl 3 1)) = true ∧
  gives (exec (.asyncTrap 0) (wait (.rwait 3))) (fun t => (t.core 0).csr.mepc == 0x40 && t.me.wait == none && t.getX 3 == 0) = true := by
  decide +kernel

/-- Slot 1 takes banks 8 to 11, but not the banks 0 to 3 of slot 0; a larger carve-out zeroes its tile. -/
theorem test_RegisterWritesComplete :
  let s := State.reset
  let m : State := { State.reset with mem := [(llsBase 0 + 47 * 0x1000000, 5), (llsBase 0 + 46 * 0x1000000, 6)] }
  Up 0 s ∧ (s.slot 0 1).task = none ∧ 8 + 4 ≤ 32 ∧
  (∀ j, j < 8 → j ≠ 1 → overlap 4 4 ((s.core 0).win j).1 ((s.core 0).win j).2 = false) ∧
  overlap 0 4 ((s.core 0).win 0).1 ((s.core 0).win 0).2 = true ∧
  gives (exec (.swinWrite 0 1 0x404) s) (fun t => (t.core 0).win 1 == (4, 4)) = true ∧
  gives (exec (.swinWrite 0 1 0x400) s) (fun t => t == s) = true ∧
  gives (exec (.xrootWrite 1 0x10000) s) (fun t => (t.iface 1).xroot == some 0x10000) = true ∧
  gives (exec (.carvdWrite 0 1) m)
    (fun t => (t.die 0).carv == 1 && t.memByte (llsBase 0 + 47 * 0x1000000) == 0 && t.memByte (llsBase 0 + 46 * 0x1000000) == 6) = true ∧
  gives (exec (.zlcWrite 0 1 0x8002030000000007#64) s)
    (fun t => ((t.ctl 0).loop 1).act && ((t.ctl 0).loop 1).susp && ((t.ctl 0).loop 1).off == 2 && ((t.ctl 0).loop 1).bl == 3 && ((t.ctl 0).loop 1).cnt == 7) = true ∧
  gives (exec (.registerWrite (.ctxa 0 3) 0x123456789ABC#64) s) (fun t => Tab.get 0 (t.core 0).ctxa 3 == 0x123456789000#64) = true ∧
  gives (exec (.registerWrite .podid 0x1FF#64) s) (fun t => t.podid == 0xFF) = true ∧
  gives (exec (.registerWrite (.route 7) 2#64) s) (fun t => Tab.get 0 t.routes 7 == 2) = true := by decide +kernel

/-- Slot 0 halted (it has run, and does not run), with its area at 0x700000 and this operation in progress. -/
def context (busy : Option CtxOp) (l : Slot := slotX [(5, 9)]) (k : Core := {}) : State :=
  { mapped [] [] with cores := [(0, { k with ctxa := [(0, 0x700000)], ctxBusy := busy, slots := [(0, l)] })] }

theorem test_ContextCommands :
  let s := context none
  let e := context none {}
  let f := context none { slotX [] with task := some { aTask with ran := false } }
  let h := context none { slotX [] with held := true }
  let b := context (some ⟨1, 0⟩)
  let v := context (some ⟨2, 0⟩)
  Up 0 s ∧ (s.core 0).ctxBusy = none ∧ (s.slot 0 0).task.isSome = true ∧ s.slotHalted 0 0 = true ∧ (e.slot 0 0).task = none ∧
  f.slotHalted 0 0 = false ∧ (h.slot 0 0).held = true ∧ (b.core 0).ctxBusy.isSome = true ∧ (b.core 0).running ≠ some 0 ∧
  (v.slot 0 0).task = some aTask ∧ (v.flushPorts 0 0).saveReady 0 0 = true ∧
  gives (exec (.ctxcmdHalt 0 0) s) (fun t => (t.core 0).ctxBusy == some ⟨1, 0⟩ && (t.slot 0 0).held) = true ∧
  gives (exec (.ctxcmdHalt 0 0) e) (fun t => (t.core 0).ctxBusy == none && (t.core 0).ctxStatus == 1) = true ∧
  gives (exec (.ctxcmdSave 0 0) s) (fun t => (t.core 0).ctxBusy == some ⟨2, 0⟩) = true ∧
  gives (exec (.ctxcmdSave 0 0) f) (fun t => (t.core 0).ctxStatus == 1) = true ∧
  gives (exec (.ctxcmdLoad 0 0) e) (fun t => (t.core 0).ctxBusy == some ⟨3, 0⟩) = true ∧
  gives (exec (.ctxcmdLoad 0 0) s) (fun t => (t.core 0).ctxStatus == 1) = true ∧
  gives (exec (.ctxcmdRelease 0 0) h) (fun t => !(t.slot 0 0).held && (t.slot 0 0).since == h.cycles) = true ∧
  gives (exec (.ctxcmdLoad 0 0) b) (fun t => t == b) = true ∧
  gives (exec (.ctxcmdDone 0) b) (fun t => (t.core 0).ctxBusy == none && (t.core 0).csr.mip16) = true := by decide +kernel

/-- A save of a slot, a load of what it saved, and a load of an area with a poisoned word that carries no register. -/
theorem test_ContextCommands_areas :
  let l := context (some ⟨3, 0⟩) {}
  let p : State := { l with poison := [.mem 0xE0000] }
  p.areaPoisoned 0x700000 = true ∧ ((p.core 0).area 0 = 0x700000) ∧
  gives (exec (.ctxcmdDone 0) p) (fun t => (t.core 0).ctxStatus == 2) = true := by decide +kernel

/-- The marker stands at 0x700000, and the model keeps the saved task's placement facts; without those, BLOCK. -/
theorem test_ContextCommands_load :
  let e := context (some ⟨3, 0⟩) {}
  let x : SavedTask := { area := 0x700000, task := aTask }
  let s : State := { e with saved := [x], mem := tables ++ cells 0x700000 (toLE 4 0x31584353) }
  (s.core 0).area 0 = 0x700000 ∧ s.areaPoisoned 0x700000 = false ∧ s.saved.find? (fun t => t.area == 0x700000) = some x ∧
  s.memNat 0x700000 4 = 0x31584353 ∧ e.areaPoisoned 0x700000 = false ∧ e.saved.find? (fun t => t.area == 0x700000) = none ∧
  gives (exec (.ctxcmdDone 0) e) (fun t => (t.core 0).ctxStatus == 3) = true := by decide +kernel

/-- HALT of a slot that does not run asks the region that runs there to halt, and ends only once it has. -/
theorem test_ContextCommands_region :
  let s := context none (slotX []) { region := { owner := some 0, st := .running } }
  let b := context (some ⟨1, 0⟩) (slotX []) { region := { owner := some 0, st := .running } }
  s.regionRuns 0 0 = true ∧ s.slotHalted 0 0 = false ∧ (context (some ⟨1, 0⟩)).regionRuns 0 0 = false ∧
  gives (exec (.ctxcmdHalt 0 0) s) (fun t => (t.region 0).haltReq) = true ∧
  gives (exec (.ctxcmdSave 0 0) s) (fun t => (t.core 0).ctxStatus == 1) = true ∧
  gives (exec (.ctxcmdDone 0) b) (fun t => t == b) = true := by decide +kernel

/-! ## Witnesses: the host and the package -/

/-- A host command of interface 1 at the head of its ring at 0x180000, whose arguments are these fields. -/
def command (code : Nat) (args : List (Nat × Nat)) (begun : Bool := false) : HostCmd :=
  { pos := 0, bytes := padTo 64 (fields ([(2, code), (2, 0)] ++ args)), begun := begun }

/-- Interface `vi` of die 0, with its first 512 MiB mapped, these bytes and this command at its head. -/
def hosting (vi : Nat) (h : HostCmd) (mem : List Host.Cell := []) (i : Iface := {}) : State :=
  { State.reset with
    mem := tables ++ mem
    ifaces := [(vi, { i with enabled := true, xroot := some 0x10000, hbm := [0], ringBase := 0x180000, cmds := [h] })] }

/-- A doorbell of 2 reads two commands; command 0 has no meaning, and QUOTA is for interface 0. -/
theorem test_HostCommandsAdmitted :
  let s : State := { State.reset with ifaces := [(1, { enabled := true, ringBase := 0x180000 })], mem := [(0x180040, 3)] }
  let bad := hosting 1 (command 0 [])
  let quota := hosting 1 (command 10 [])
  (s.iface 1).enabled = true ∧ (s.iface 1).cmdRead < 2 ∧ (s.iface 2).enabled = false ∧ (command 0 []).malformed = true ∧
  HostCmd.malformed { command 10 [] with pois := true } = true ∧ (command 10 []).malformed = false ∧ (command 10 []).code = 10 ∧ bad.hostBusy 1 = false ∧ quota.hostBusy 1 = false ∧
  gives (exec (.commandDoorbell 1 2) s) (fun t => (t.iface 1).cmds.map HostCmd.code == [0, 3]) = true ∧
  gives (exec (.qmap 1) bad) (fun t => t.memNat 0x180038 8 == 2 ^ 63 + 1 && t.out == [.msix 1 0]) = true ∧
  gives (exec (.quota 1) quota) (fun t => t.memNat 0x180038 8 == 2 ^ 63 + 5) = true ∧
  gives (exec (.qmap 1) quota) (fun t => t == quota) = true := by decide +kernel

theorem test_QueueCommands :
  let create := hosting 1 (command 1 [(2, 2), (1, 0), (5, 0), (8, 0x120000)]) (cells 0x120000 aDesc)
  let withQ (h : HostCmd) (k : Queue) : State := hosting 1 h [] { queues := [(2, some k)] }
  let map := withQ (command 2 [(2, 2)]) aQueue
  let unmap : State := { withQ (command 3 [(2, 2)]) (inHw 4) with dies := [(0, { first := 0, hwq := [(3, some (1, 2))] })] }
  let destroy := withQ (command 4 [(2, 2)]) (inHw 7 [aCard])
  let gone := withQ (command 4 [(2, 2)] true) { aQueue with destroyed := true }
  HostTurn create 1 1 false (command 1 [(2, 2), (1, 0), (5, 0), (8, 0x120000)]) ∧ create.queue 1 2 = none ∧
  create.partOf (create.iface 1) = (0, 1) ∧ create.devRead 1 0 0x120000 64 = some aDesc ∧ descOk aDesc = true ∧
  HostTurn map 1 2 false (command 2 [(2, 2)]) ∧ map.openQueue 1 2 = some aQueue ∧ HostTurn unmap 1 3 false (command 3 [(2, 2)]) ∧
  unmap.openQueue 1 2 = some (inHw 4) ∧ HostTurn destroy 1 4 false (command 4 [(2, 2)]) ∧ destroy.openQueue 1 2 = some (inHw 7 [aCard]) ∧
  HostTurn gone 1 4 false (command 4 [(2, 2)] true) ∧ (gone.queue 1 2).map Queue.cards = some [] ∧
  gives (exec (.qcreate 1) create) (fun t => (t.queue 1 2).map Queue.cyc == some 1000 && t.memNat 0x180038 8 == 2 ^ 63) = true ∧
  gives (exec (.qmap 1) map) (fun t => (t.queue 1 2).map Queue.journal == some true) = true ∧
  gives (exec (.qunmap 1) unmap) (fun t => (t.queue 1 2).map Queue.st == some .unmapped && Tab.get none (t.die 0).hwq 3 == none) = true ∧
  gives (exec (.qdestroy 1) destroy) (fun t => (t.queue 1 2).map (fun q => q.cards.map Card.status) == some [6] && t.out == []) = true ∧
  gives (exec (.qdestroy 1) gone) (fun t => t.queue 1 2 == none && t.out == [.msix 1 0]) = true := by decide +kernel

/-- A mapped queue that is destroyed leaves its hardware slot; a PENDING queue that is unmapped stays PENDING. -/
theorem test_QueueCommands_unmaps :
  let h := command 4 [(2, 2)]
  let p := hosting 1 (command 3 [(2, 2)]) [] { queues := [(2, some { aQueue with st := .pending, journal := true })] }
  let s : State := { hosting 1 h [] { queues := [(2, some (inHw 7 [aCard]))] } with dies := [(0, { first := 0, hwq := [(3, some (1, 2))] })] }
  HostTurn p 1 3 false (command 3 [(2, 2)]) ∧
  gives (exec (.qunmap 1) p) (fun t => (t.queue 1 2).map (fun q => (q.st, q.journal)) == some (.pending, false)) = true ∧
  HostTurn s 1 4 false h ∧ h.begun = false ∧ s.openQueue 1 2 = some (inHw 7 [aCard]) ∧ Tab.get none (s.die 0).hwq 3 = some (1, 2) ∧
  gives (exec (.qdestroy 1) s) (fun t => (t.queue 1 2).map (fun q => (q.st, q.destroyed)) == some (.unmapped, true) &&
    Tab.get none (t.die 0).hwq 3 == none && (t.iface 1).cmds.map HostCmd.begun == [true]) = true := by decide +kernel

theorem test_EndpointCommands :
  let attach := hosting 1 (command 5 [(1, 7), (1, 3), (6, 0), (8, 0x9000), (8, 0x1000)])
  let detach := hosting 1 (command 6 [(1, 7)]) [] { eps := [(7, { attached := true })] }
  let b : Bind := { aBind 0x101 with
    shape := fields [(8, 0), (4, 16), (12, 0), (4, 4), (12, 0), (2, 16), (6, 0), (4, 0), (4, 0x07000080), (8, 0)] }
  let busy : State := { detach with cores := [(0, { ports := [(1, { stream := some { bind := b } })] })] }
  HostTurn attach 1 5 false (command 5 [(1, 7), (1, 3), (6, 0), (8, 0x9000), (8, 0x1000)]) ∧
  HostTurn detach 1 6 false (command 6 [(1, 7)]) ∧ detach.epBusy 1 7 = false ∧ HostTurn busy 1 6 false (command 6 [(1, 7)]) ∧
  busy.epBusy 1 7 = true ∧
  gives (exec (.epattach 1) attach)
    (fun t => Tab.get {} (t.iface 1).eps 7 == { attached := true, addr := 0x9000, extent := 0x1000, r := true, w := true }) = true ∧
  gives (exec (.epdetach 1) detach) (fun t => (Tab.get {} (t.iface 1).eps 7) == {} && t.out == [.msix 1 0]) = true ∧
  gives (exec (.epdetach 1) busy) (fun t => !(Tab.get {} (t.iface 1).eps 7).attached && t.out == []) = true := by decide +kernel

/-- A code object of one CODE section of 64 bytes: its covered bytes, and a 4096-bit modulus and the RSASSA-PSS signature of
those bytes under it, worked out outside the model. -/
def objectBytes : List Byte :=
  fields [(4, 0x34434F4D), (2, 1), (2, 2), (4, 0x4640), (4, 64), (8, 64), (40, 0),
    (2, 1), (2, 0), (1, 6), (3, 0), (8, 128), (8, 64), (8, 0), (2, 15), (2, 0), (1, 6), (3, 0), (8, 192), (8, 1024), (8, 0),
    (4, 0x13), (60, 0)]
def aModulus : List Byte := toBE 512 0xebcbd0f9b177cfe39357e3d5d50f1210867b53cd02236946e82d3c734a68fc86d6fe72e17ebc40720bd2981fa38e7990f50387fc1465def87f9042ab63a81c35b4450977c5fb232557c77656904907a87592caa890965775abef3fcc664ec40941925b736a3a4ead0608300108f8a76c65a4d88b76fdc031d2c148a68e0e1629d4b671e005daba557930651fa0f21f28296e405eaf5a97742b9aae6fc4d3bcd033d2d9964483040f97c1a2fc4987b1f057e811b81ca31488003779b4cd66705db9d57fb71fc9e8f35583cd0af29f1acf07c16145ba39687754ceb31519095a6aa5163ec1b0a16644645a7e8e157764be455f92131e2cc81fb2b6fbb3991d8c3be26f8a44e8825c588484d9ca74205b45b576eee167e0780d9291cb2db36d8550cc6e6374ae79e23511eda5ea50d077547a605177afdb5d9d6a8946c4a0c03592805247e87e7265093804cec262755693115ffedbaa7ac18e5166f0025d5b58ec31fa8e49f96a475bc7e2c971bf454e41c40a9e89cf7f3b4ad037f4a4970e744cc09d3daa1545d38d509101826cc35ba8b6d8ca43a8517fd53b6321a0bd2f45f013c6418260a56c34ad3953e20fadaaa1993b6d1aef07a10e269966a2e6061c2ca81e6e0d6ae7837e350a8fc05aae20cf98d7a63af287977349893dc8ea02b4da4eb0f38aa2441337a6af89ebc8aee3b889e4931548e8e78948a5102cec6a760f
def aSignature : List Byte := toBE 512 0x8d3eb5fbc827ddd3f2e86e2173328e856bd70f2c0741531f5dc9f9de91f0999bc95717c542af6e05618b17b8d058e3003896a4d0d7b23132f74e89c0fbb7adc46ebc5281da59365f875e399c55e1b1e955fe9a4e1fff93e475d62840732401d605f2ea0942266637aa0f2ac6b0a726c10092f82738d4ac6f4c5d46650fe09bd222f4b2ef844ada4f6dfe9c6d0a7535c7fcc7deb91e41ad54b4ea620c475ecafec3c5fe0188e0eb00269a35aa7a81e6db7a084499fd4b106652ea0c8342df71b625fa4453c797608f7fa4394fbbd5960386320e73c4d15068d45f9d6ce2a6158dd9cc6f0f9cc6667abf8173f46419dbcaa3ef6115b67fd7371b5bace0d9b619ec7ce845699302ea65ba39fdcc23e30d7b0b0c9a6d6d15d7647a8c3cf565c19e2592ecad6372db98db4047ec3fb0bd8708c73761278b6c95665d729ca34fa884a1b481a5aa427b65ff53044f722e11b69ed54f711218f3e8599ed6e970c6a94877c49e3a83eb8c6a92f5406c30b9259995e87659a209c176e692e251175cc4d74bd48c0eab4dce1f8bd31a49cac44269a4cc80edc7b74f4f9a3e6a85261cfaf4815c2decd6d6b130ec7e53a6fb803fe37b63a965b06c202d60549740c1d550ba3bebc3f10e2983bfbf4ad786a89c03d97b1f27213b59cd650f46a05a3cbb9b9178390a8348c31873c58b636a565a17f75ccb04f5d4ce3ddb569f1f7c403e7ced3f
def aKeyHash : List Byte := toBE 64 0x9e9655b9dfaafd2c91df1334f3e05d990eb04b90be4ac3dba3deaed214cc70951f95ab08b7b4af828785694626b64c0923374644257b18bc342321437f9405f1
def anObject : Object :=
  { secs := [⟨1, 0, 6, false, 128, 64, 0⟩, ⟨15, 0, 6, false, 192, 1024, 0⟩], covered := objectBytes, modulus := aModulus, sig := aSignature }

/-- The object at 0x300000, to be placed at 0x20000000, whose 64 KiB page lies at 0x400000. (The tables' zero
bytes are listed too, which spares the kernel a search of the file.) -/
def loadCommand : HostCmd := command 7 [(8, 0), (8, 0x300000), (8, 0x20000000)]
def uploading (key : List Byte) (objs : List Obj := []) (leaf : Byte := 3) : State :=
  { hosting 1 loadCommand [] { keyHash := key, objs := objs } with
    mem := (upFrom 0x10000 8).zip [1, 0, 2, 0, 0, 0, 0, 0] ++ (upFrom 0x20000 16).zip [0x73, 0, 0, 0, 0, 0, 0, 0, 1, 0, 3, 0, 0, 0, 0, 0]
      ++ (upFrom 0x30000 8).zip [leaf, 0, 0x40, 0, 0, 0, 0, 0] ++ cells 0x300000 (objectBytes ++ aModulus ++ aSignature) }

theorem cells_cons (a : Nat) (b : Byte) (bs : List Byte) :
    cells a (b :: bs) = if b = 0 then cells (a + 1) bs else (a, b) :: cells (a + 1) bs := by
  by_cases h : b = 0
  · simp [cells, upFrom, h]
  · rw [if_neg h]
    simp only [cells, List.length_cons, upFrom, List.zip_cons_cons]
    rw [List.filter_cons_of_pos]
    simpa using h

theorem get_cells_below (bs : List Byte) : ∀ a k, k < a → Tab.get 0 (cells a bs) k = 0 := by
  induction bs with
  | nil => intros; rfl
  | cons b bs ih =>
    intro a k h
    rw [cells_cons]
    have z := ih (a + 1) k (by omega)
    split
    · exact z
    · rw [Tab.get, if_neg (Nat.ne_of_lt h), z]

/-- Bytes placed with `cells` read back. -/
theorem memBytes_cells (s : State) (bs : List Byte) :
    ∀ a, (∀ k, a ≤ k → s.memByte k = Tab.get 0 (cells a bs) k) → s.memBytes a bs.length = bs := by
  induction bs with
  | nil => intros; rfl
  | cons b bs ih =>
    intro a h
    have hb : s.memByte a = b := by
      rw [h a (Nat.le_refl a), cells_cons]
      split
      · rename_i e; rw [get_cells_below _ _ _ (Nat.lt_succ_self a)]; exact e.symm
      · simp [Tab.get]
    have ht := ih (a + 1) fun k hk => by
      rw [h k (by omega), cells_cons]
      split
      · rfl
      · simp [Tab.get, show k ≠ a by omega]
    simp [State.memBytes, hb, ht]

theorem memBytes_take (s : State) : ∀ n a m, (s.memBytes a (n + m)).take n = s.memBytes a n := by
  intro n
  induction n with
  | zero => intros; simp [State.memBytes]
  | succ n ih => intro a m; simp [State.memBytes, Nat.add_right_comm n 1 m, ih]

theorem memBytes_drop (s : State) : ∀ n a m, (s.memBytes a (n + m)).drop n = s.memBytes (a + n) m := by
  intro n
  induction n with
  | zero => intros; simp
  | succ n ih => intro a m; simp [State.memBytes, Nat.add_right_comm n 1 m, ih, Nat.add_assoc, Nat.add_comm 1 n]

theorem memBytes_get (s : State) (bs : List Byte) (a n o : Nat) (h : s.memBytes a bs.length = bs) (hn : o + n ≤ bs.length) :
    s.memBytes (a + o) n = (bs.drop o).take n := by
  obtain ⟨r, hr⟩ := Nat.exists_eq_add_of_le hn
  have h1 : s.memBytes (a + o) (n + r) = bs.drop o := by
    rw [← memBytes_drop, ← Nat.add_assoc, ← hr, h]
  rw [← h1, memBytes_take]

/-- The file as it lies in memory. -/
def objectFile : List Byte := objectBytes ++ aModulus ++ aSignature

theorem objectFile_read (key : List Byte) (objs : List Obj) (leaf : Byte) : (uploading key objs leaf).memBytes 0x300000 1216 = objectFile := by
  have h : objectFile.length = 1216 := by decide +kernel
  rw [← h]
  refine memBytes_cells _ _ _ fun k hk => ?_
  simp only [State.memByte, State.memDefault, uploading, hosting, fogDefault, State.reset, upFrom, List.zip_cons_cons,
    List.zip_nil_right, List.cons_append, List.nil_append, Tab.get, objectFile]
  repeat rw [if_neg (by omega)]

theorem devRead_of (s : State) (va n : Nat) (h : (s.devLocate 1 0 .read va n).toOption = some [(va, n)])
    (p : s.poison = []) : s.devRead 1 0 va n = some (s.memBytes va n) := by
  unfold State.devRead
  cases e : s.devLocate 1 0 .read va n with
  | error x => simp [e, Except.toOption] at h
  | ok l =>
    have : l = [(va, n)] := by simpa [e, Except.toOption] using h
    subst this
    have q : s.memPois va n = false := by simp [State.memPois, p]
    simp [State.poisPieces, State.readPieces, q]

theorem objectFile_parts :
  objectFile.length = 1216 ∧ (objectFile.drop 0).take 64 = objectBytes.take 64 ∧
  (objectFile.drop 64).take 64 = (objectBytes.drop 64).take 64 ∧ (objectFile.drop 0).take 1216 = objectFile ∧
  (⟨anObject.secs, objectFile.take 192, (objectFile.drop 192).take 512, (objectFile.drop (192 + 512)).take 512⟩ : Object) = anObject := by
  decide +kernel

theorem readObject_of (s : State) (h : s.memBytes 0x300000 1216 = objectFile) (d : (s.iface 1).die = 0) (p : s.poison = [])
    (l1 : (s.devLocate 1 0 .read 0x300000 64).toOption = some [(0x300000, 64)])
    (l2 : (s.devLocate 1 0 .read 0x300040 64).toOption = some [(0x300040, 64)])
    (l3 : (s.devLocate 1 0 .read 0x300000 1216).toOption = some [(0x300000, 1216)]) :
    s.readObject 1 0x300000 0x20000000 = some anObject := by
  have r (o n : Nat) (hn : o + n ≤ 1216) (hl : (s.devLocate 1 0 .read (0x300000 + o) n).toOption = some [(0x300000 + o, n)]) :
      s.devRead 1 0 (0x300000 + o) n = some ((objectFile.drop o).take n) := by
    rw [devRead_of s _ _ hl p, memBytes_get s objectFile 0x300000 n o ?_ ?_]
    · rw [objectFile_parts.1]; exact h
    · rw [objectFile_parts.1]; exact hn
  have r1 := r 0 64 (by omega) l1
  have r2 := r 64 64 (by omega) l2
  have r3 := r 0 1216 (by omega) l3
  obtain ⟨-, e1, e2, e3, fin⟩ := objectFile_parts
  rw [e1] at r1; rw [e2] at r2; rw [e3] at r3
  have m : mcoHeaderOk (objectBytes.take 64) = true := by decide +kernel
  have o : 0x300000 + fld (objectBytes.take 64) 0x10 8 = 0x300000 + 64 := by decide +kernel
  have w : 32 * fld (objectBytes.take 64) 0x06 2 = 64 := by decide +kernel
  have c : (upFrom 0 (fld (objectBytes.take 64) 0x06 2)).map (sectionAt ((objectBytes.drop 64).take 64)) = anObject.secs := by
    decide +kernel
  have f : anObject.secs.find? (fun x => x.type == 15) = some ⟨15, 0, 6, false, 192, 1024, 0⟩ := by decide +kernel
  have ok : sectionsOk anObject.secs 0x20000000 = true := by decide +kernel
  simp only [State.readObject, d]
  simp only [Nat.add_zero] at r1 r3
  simp only [r1, m, o, w, r2, c, ok, f, r3, Bool.not_true, Bool.false_eq_true, if_false]
  exact congrArg some fin

theorem test_readObject :
  let s := uploading aKeyHash
  HostTurn s 1 7 false loadCommand ∧ loadCommand.arg 8 8 = 0x300000 ∧ loadCommand.arg 16 8 = 0x20000000 ∧
  s.readObject 1 0x300000 0x20000000 = some anObject ∧ anObject.images = [] ∧
  s.pagesReady 1 0x20000000 anObject = true ∧ (s.iface 1).sharesPages 0x20000000 anObject = false :=
  ⟨by decide +kernel, by decide +kernel, by decide +kernel,
    readObject_of _ (objectFile_read aKeyHash [] 3) rfl rfl (by decide +kernel) (by decide +kernel) (by decide +kernel),
    by decide +kernel, by decide +kernel, by decide +kernel⟩

/-- With an object loaded on the same page the same object is BADCMD; and so it is where its page is not mapped. -/
theorem test_readObject_shared :
  let s := uploading aKeyHash [{ id := 1, base := 0x20000000, secs := [(0x20008000, 64, false)] }]
  let far := uploading aKeyHash [] 0
  s.readObject 1 0x300000 0x20000000 = some anObject ∧ (s.iface 1).sharesPages 0x20000000 anObject = true ∧
  far.readObject 1 0x300000 0x20000000 = some anObject ∧ far.pagesReady 1 0x20000000 anObject = false ∧ (far.iface 1).sharesPages 0x20000000 anObject = false :=
  ⟨readObject_of _ (objectFile_read aKeyHash _ _) rfl rfl (by decide +kernel) (by decide +kernel) (by decide +kernel),
    by decide +kernel, readObject_of _ (objectFile_read aKeyHash _ _) rfl rfl (by decide +kernel) (by decide +kernel) (by decide +kernel),
    by decide +kernel, by decide +kernel⟩

theorem test_rsaVerifies : rsaVerifies aModulus aSignature objectBytes = true := by decide +kernel

theorem test_coload :
  sha512 anObject.modulus = ((uploading aKeyHash).iface 1).keyHash ∧ aKeyHash ≠ [] ∧ sha512 anObject.modulus ≠ ((uploading [1]).iface 1).keyHash := by
  decide +kernel

theorem test_ObjectAndPolicyCommands_unload :
  let unload := hosting 1 (command 8 [(4, 7)]) [] { objs := [{ id := 7, base := 0, secs := [(0x200000, 0x1000, true)] }], ig := 2 }
  let held := inSlot { task := some { aTask with gen := 2 } } {} unload
  unload.olderTask 1 3 = false ∧ held.olderTask 1 3 = true ∧ HostTurn held 1 8 false (command 8 [(4, 7)]) ∧
  gives (exec (.counload 1) unload) (fun t => (t.iface 1).ig == 3 && (t.iface 1).objs == []) = true ∧
  gives (exec (.counload 1) held) (fun t => (t.iface 1).ig == 3 && (t.iface 1).objs.map Obj.unload == [some 3]) = true := by
  decide +kernel

theorem test_ObjectAndPolicyCommands :
  let unload := hosting 1 (command 8 [(4, 7)]) [] { objs := [{ id := 7, base := 0, secs := [(0x200000, 0x1000, true)] }], ig := 2 }
  let part := hosting 0 (command 9 [(8, 0), (8, 0x300)]) (cells 0x300 aRequest)
  let quota := hosting 0 (command 10 [(2, 0), (1, 8), (1, 0), (2, 64), (2, 0), (4, 0), (4, 0)])
  let keys := hosting 0 (command 11 [(2, 0), (6, 0), (8, 0x300)]) [(0x300, 9)]
  let quote := hosting 0 (command 12 [(8, 0), (8, 0x300), (8, 0x1000)])
  HostTurn unload 1 8 false (command 8 [(4, 7)]) ∧ ((unload.iface 1).objs.find? fun x => x.id == 7 && x.unload.isNone).isSome = true ∧
  HostTurn part 0 9 true (command 9 [(8, 0), (8, 0x300)]) ∧ part.part = [] ∧ part.devRead 0 (part.iface 0).die 0x300 64 = some aRequest ∧
  part.partBad aRequest = false ∧ HostTurn quota 0 10 true (command 10 [(2, 0), (1, 8), (1, 0), (2, 64), (2, 0), (4, 0), (4, 0)]) ∧
  (quota.iface 0).enabled = true ∧ HostTurn keys 0 11 true (command 11 [(2, 0), (6, 0), (8, 0x300)]) ∧
  keys.devRead 0 (keys.iface 0).die 0x300 512 = some (toLE 512 9) ∧ HostTurn quote 0 12 false (command 12 [(8, 0), (8, 0x300), (8, 0x1000)]) ∧
  (quote.devRead 0 0 0x300 64).isSome = true ∧ (quote.devLocate 0 0 .write 0x1000 1536).toOption = some [(0x1000, 1536)] ∧
  gives (exec (.partchg 0) part) (fun t => t.part.map PartOp.cmdVi == [some 0] && (t.die 0).quiet && !(t.die 1).quiet) = true := by
  decide +kernel

/-- A page at 0 is mapped by the leaf at 0x30000; placed, it holds its bytes and is executable and not writable. -/
theorem test_placePage :
  let s := uploading []
  s.pteOf 1 0x20000000 = some (0x30000, 0x400003) ∧ s.home (s.iface 1).die (ptePa 0x400003) = some 0x400000 ∧
  (let u := s.placePage 1 true 0x20000000 [7, 8]
   u.memBytes 0x400000 2 = [7, 8] ∧ u.memNat 0x30000 8 = 0x400053) := by decide +kernel

/-- No die has so many firmware units that a quota of none is too much. -/
theorem test_quota_of_none :
  (hosting 0 (command 10 [(2, 0), (1, 8), (1, 0), (2, 64), (2, 0), (4, 0), (4, 0)])).quotaBad 0 0 0 = false := by
  have h : (hosting 0 (command 10 [(2, 0), (1, 8), (1, 0), (2, 64), (2, 0), (4, 0), (4, 0)])).quotaSum 0 0 Iface.qHbm = 0 := by
    decide +kernel
  have g : (hosting 0 (command 10 [(2, 0), (1, 8), (1, 0), (2, 64), (2, 0), (4, 0), (4, 0)])).quotaSum 0 0 Iface.qLls = 0 := by
    decide +kernel
  have p : (hosting 0 (command 10 [(2, 0), (1, 8), (1, 0), (2, 64), (2, 0), (4, 0), (4, 0)])).partOf
      ((hosting 0 (command 10 [(2, 0), (1, 8), (1, 0), (2, 64), (2, 0), (4, 0), (4, 0)])).iface 0) = (0, 1) := by decide +kernel
  simp only [State.quotaBad, p, h, g]
  simp

theorem test_InterfaceSteps :
  let e : TraceEntry := ⟨1, 2, 3, 4, 5⟩
  let frozen (n : Nat) : State := { State.reset with dies := [(0, { first := 0, trace := { entries := [e, e], frozen := true, reading := n } })] }
  let bar := hosting 1 (command 2 [])
  let read : State := { bar with mem := [(0x1234, 9)], out := [] }
  let flr : State := { bar with ifaces := [(1, { Tab.get {} bar.ifaces 1 with queues := [(2, some aQueue)], eps := [(7, { attached := true })] })] }
  (bar.iface 1).enabled = true ∧ (bar.iface 1).barCell 0x1234 = some 0x1234 ∧ bar.bar0 1 0x8000 = some 0 ∧ (bar.iface 1).msix.length ∈ [0, 0x8000] ∧
  ((frozen 0).die 0).trace.frozen = true ∧
  (0 + 1 < ((frozen 0).die 0).trace.entries.length) ∧ (((frozen 1).die 0).trace.entries.length ≤ 1 + 1) ∧ (flr.iface 1).enabled = true ∧
  (State.reset.iface 1).enabled = false ∧ State.reset.life = .prod ∧ ({ State.reset with life := .rma } : State).life ≠ .prod ∧
  gives (exec (.bar2Access 1 0x1234 (some [9]) 1) bar) (fun t => t.memByte 0x1234 == 9) = true ∧
  gives (exec (.bar2Access 1 0x1234 none 1) read) (fun t => t.out == [.read 1 [9]]) = true ∧
  gives (exec (.traceWindowRead 0) (frozen 0)) (fun t => (t.die 0).trace.reading == 1) = true ∧
  (match exec (.traceWindowRead 0) (frozen 0) with
    | .next t => (match t.out with | [.read 0 b] => b.take 12 == toLE 8 1 ++ toLE 2 0 ++ toLE 2 2 && b.length == 32 | _ => false)
    | _ => false) = true ∧
  gives (exec (.traceWindowRead 0) (frozen 1)) (fun t => !(t.die 0).trace.frozen) = true ∧
  gives (exec (.functionLevelReset 1) flr) (fun t => (t.iface 1).cmds.map HostCmd.code == [2, 4, 6]) = true ∧
  gives (exec (.interfaceEnable 1 0 0x1000 4 0x2000) State.reset) (fun t => (t.iface 1).enabled && (t.iface 1).ringBase == 0x1000) = true ∧
  gives (exec (.interfaceDisable 1) bar) (fun t => !(t.iface 1).enabled && (t.iface 1).xroot == none) = true ∧
  gives (exec (.debugUnlock []) { State.reset with life := .rma }) (fun t => t == { State.reset with life := .rma }) = true := by
  decide +kernel

/-- A function-level reset ends objects too; where boot has failed only interface 0 is presented; what a disabled interface's
key encrypted reads as a value left open. -/
theorem test_InterfaceSteps_ends :
  let bar := hosting 1 (command 2 []) [(0x1234, 9)]
  let flr : State := { bar with ifaces := [(1, { Tab.get {} bar.ifaces 1 with objs := [{ id := 7, base := 0, secs := [] }] })] }
  let failed : State := { State.reset with bootFailed := some 2 }
  (bar.iface 1).hbm = [0] ∧ bar.fog.length < 1 ∧
  gives (exec (.functionLevelReset 1) flr) (fun t => (t.iface 1).cmds.map HostCmd.code == [2, 8]) = true ∧
  gives (exec (.interfaceEnable 1 0 0x1000 4 0x2000) failed) (fun t => t == failed) = true ∧
  gives (exec (.interfaceEnable 0 0 0x1000 4 0x2000) failed) (fun t => (t.iface 0).enabled) = true ∧
  gives (exec (.interfaceDisable 1) bar) (fun t => t.fog == [(0, 0x20000000, 1)] && t.mem.all fun x => decide (0x20000000 ≤ x.1)) = true := by
  decide +kernel

/-- A package with core 3 holding two lines and two translations, an endpoint's stream of two range entries on port 1, and two walk
entries on die 0; link 0 has replayed flit 5 seventeen times. -/
def packaged : State :=
  { State.reset with
    links := [(0, { flit := 5, replays := 17 })], cycles := 10, mem := [(4, 1)]
    dies := [(0, { first := 0, walks := [⟨1, 0, 0, 0⟩, ⟨1, 1, 0, 0⟩] })]
    cores := [(3, { icache := [⟨0, []⟩, ⟨64, []⟩], imcache := [⟨0, []⟩]
                    tlb := [⟨1, 0, 12, 0, true, false, false, 0, false⟩]
                    ports := [(1, { stream := some { bind := aBind 0x101, ranges := [firstRange, firstRange] } })] })] }

theorem test_PackageSteps :
  let s := packaged
  (Tab.get {} s.links 0).up = true ∧ 16 < (Tab.get {} s.links 0).replays ∧ (Tab.get {} s.links 1).replays ≤ 16 ∧
  s.locDie (.mem 0) = some 0 ∧ s.locDie (.cache 3 1) = some 0 ∧ s.locDie (.range 3 1 1) = some 0 ∧ (s.die 0).actParked 3 0 0 = false ∧ Up 3 s ∧
  DieUp 0 s ∧ Tab.sorted s.cores = true ∧ (s.die 2).trace.frozen = false ∧
  gives (exec .warmReset s) (fun t => t.mem == [] && t.cycles == 10 && t.core 3 == {}) = true ∧
  gives (exec (.flitReplay ⟨0, 5⟩) s) (fun t => (Tab.get {} t.links 0).replays == 18) = true ∧
  gives (exec (.flitReplay ⟨0, 6⟩) s) (fun t => (Tab.get {} t.links 0).replays == 1) = true ∧
  gives (exec (.linkDown 0) s) (fun t => !(Tab.get {} t.links 0).up && ((t.die 0).trace.entries.map fun e => (e.kind, e.a)) == [(3, 0)]) = true ∧
  gives (exec (.linkDown 1) s) (fun t => t == s) = true ∧
  gives (exec (.thermalWarning 2) s) (fun t => (t.die 2).temp == 800 && t.out == [.msix 0 1] && (t.die 2).trace.entries.length == 1) = true ∧
  gives (exec (.watchdogExpiry 2) s) (fun t => (t.die 2).trace.frozen && !(t.die 2).fatal) = true ∧
  gives (exec .thermalStop s) (fun t => (t.die 3).fatal) = true ∧
  gives (exec (.storageBitError (.mem 0) false) s) (fun t => (t.die 0).corrected == 1 && t.poison == []) = true ∧
  gives (exec (.storageBitError (.mem 0) true) s) (fun t => t.poison == [.mem 0]) = true := by decide +kernel

/-- A double-bit error in a cache discards the line, translation or entry, which is fetched again. -/
theorem test_PackageSteps_discards :
  let s := packaged
  let outs (o : Out) : Bool := gives o fun t => (t.core 3).outOfUse
  s.locDie (.image 3 0) = some 0 ∧ s.locDie (.tlb 3 0) = some 0 ∧ s.locDie (.walk 0 1) = some 0 ∧
  gives (exec (.storageBitError (.cache 3 1) true) s) (fun t => (t.core 3).icache == [⟨0, []⟩]) = true ∧
  s.locDie (.cache 3 513) = some 0 ∧
  gives (exec (.storageBitError (.cache 3 513) true) (s.modCore 3 fun k => { k with dcache := [0, 64] })) (fun t => (t.core 3).dcache == [0]) = true ∧
  gives (exec (.storageBitError (.image 3 0) true) s) (fun t => (t.core 3).imcache == []) = true ∧
  gives (exec (.storageBitError (.tlb 3 0) true) s) (fun t => (t.core 3).tlb == []) = true ∧
  gives (exec (.storageBitError (.walk 0 1) true) s) (fun t => (t.die 0).walks == [⟨1, 0, 0, 0⟩]) = true ∧
  gives (exec (.storageBitError (.range 3 1 1) true) s) (fun t => (t.port 3 1).stream.map Stream.ranges == some [firstRange]) = true ∧
  gives (exec (.scrub 0) s) (fun t => (t.die 0).scrubbed == 8) = true ∧
  gives (exec (.permanentFault 3) s) (fun t => (t.core 3).outOfUse &&
    outs (exec .warmReset t) && (t.die 0).trace.entries.length == 1) = true := by decide +kernel

end Sys2Proof.Tests
end

section
/-! SUPPORT. Memory as a block of bytes: what a read of consecutive bytes gives, what a zeroed range reads as, and the operations
that leave every byte of memory alone. -/

namespace Sys2Proof.Machine

/-! ## Consecutive bytes (R7) -/

theorem State.memBytes_append (s : State) (m n : Nat) : ∀ a, s.memBytes a (m + n) = s.memBytes a m ++ s.memBytes (a + m) n := by
  induction m with
  | zero => intro a; simp [State.memBytes]
  | succ m ih =>
    intro a
    rw [Nat.succ_add, State.memBytes, State.memBytes, ih, List.cons_append, show a + 1 + m = a + (m + 1) by omega]

@[simp] theorem State.memBytes_length (s : State) (n : Nat) : ∀ a, (s.memBytes a n).length = n := by
  induction n with
  | zero => exact fun _ => rfl
  | succ n ih => intro a; simp [State.memBytes, ih]

theorem State.memBytes_congr {s t : State} (h : ∀ a, t.memByte a = s.memByte a) (n : Nat) : ∀ a, t.memBytes a n = s.memBytes a n := by
  induction n with
  | zero => exact fun _ => rfl
  | succ n ih => intro a; rw [State.memBytes, State.memBytes, h, ih]

/-- A field of bytes read from memory is the number that memory holds there. -/
theorem State.fld_memBytes (s : State) (a o k r : Nat) : fld (s.memBytes a (o + k + r)) o k = s.memNat (a + o) k := by
  rw [Nat.add_assoc, s.memBytes_append o, s.memBytes_append k, fld, List.drop_left' (by simp), List.take_left' (by simp)]
  rfl

/-- Bytes each of which memory holds at its place are what a read of their length gives. -/
theorem State.memBytes_eq_of_getElem? (s : State) (bs : List Byte) : ∀ a, (∀ i b, bs[i]? = some b → s.memByte (a + i) = b) →
    s.memBytes a bs.length = bs := by
  induction bs with
  | nil => exact fun _ _ => rfl
  | cons b bs ih =>
    intro a h
    rw [List.length_cons, State.memBytes, ih (a + 1) fun i c hc => by simpa [Nat.add_assoc, Nat.add_comm 1] using h (i + 1) c hc]
    exact congrArg (· :: bs) (h 0 b rfl)

/-- R7: two bytes, the low one first. -/
theorem State.memNat_two (s : State) (a : Nat) : BitVec.ofNat 16 (s.memNat a 2) = s.memByte (a + 1) ++ s.memByte a := by
  apply BitVec.eq_of_toNat_eq
  have low := (s.memByte a).isLt
  have high := (s.memByte (a + 1)).isLt
  rw [BitVec.toNat_append, ← Nat.shiftLeft_add_eq_or_of_lt low, Nat.shiftLeft_eq]
  simp only [State.memNat, State.memBytes, leNat, BitVec.toNat_ofNat]
  omega

theorem memBytes_memWrite_self (s : State) (a : Nat) (bs : List Byte) : (s.memWrite a bs).memBytes a bs.length = bs :=
  State.memBytes_eq_of_getElem? _ bs a fun i b h => memByte_memWrite_in s a i bs b h

theorem memFrame_memWrite (s : State) (a : Nat) (bs : List Byte) : MemFrame [(a, bs.length)] s (s.memWrite a bs) :=
  fun k h => memByte_memWrite_out s a k bs (h (a, bs.length) (List.mem_singleton_self _))

/-! ## Updates that reach no byte of memory -/

@[simp] theorem memByte_setCore (s : State) (c : Nat) (k : Core) (a : Nat) : (s.setCore c k).memByte a = s.memByte a := rfl
@[simp] theorem memByte_modCore (s : State) (c : Nat) (g : Core → Core) (a : Nat) : (s.modCore c g).memByte a = s.memByte a := rfl
@[simp] theorem memPois_modCore (s : State) (c : Nat) (g : Core → Core) (a n : Nat) : (s.modCore c g).memPois a n = s.memPois a n := rfl
@[simp] theorem memByte_modDie (s : State) (d : Nat) (g : Die → Die) (a : Nat) : (s.modDie d g).memByte a = s.memByte a := rfl
@[simp] theorem memByte_modIface (s : State) (v : Nat) (g : Iface → Iface) (a : Nat) : (s.modIface v g).memByte a = s.memByte a := rfl
@[simp] theorem memByte_dropResv (s : State) (b n a : Nat) : (s.dropResv b n).memByte a = s.memByte a := rfl

theorem State.modQueue_frame (s : State) (vi q : Nat) (g : Queue → Queue) :
    s.modQueue vi q g = { s with ifaces := (s.modQueue vi q g).ifaces } := by
  unfold State.modQueue
  split <;> rfl

theorem State.chargeTask_frame (s : State) (t : Task) (n : Nat) :
    s.chargeTask t n = { s with ifaces := (s.chargeTask t n).ifaces } := by
  unfold State.chargeTask State.modCard
  rw [State.modQueue_frame, State.modQueue_frame s]

theorem State.chargeHbm_frame (s : State) (c n b : Nat) :
    s.chargeHbm c n b = { s with cores := (s.chargeHbm c n b).cores, ifaces := (s.chargeHbm c n b).ifaces } := by
  unfold State.chargeHbm
  split
  case h_1 t _ => rw [s.chargeTask_frame t b]; rfl
  case h_2 => rfl

/-- A charge reaches the task, its card and its queue only (R342). -/
theorem State.chargeRun_frame (s : State) (c b : Nat) :
    s.chargeRun c b = { s with cores := (s.chargeRun c b).cores, ifaces := (s.chargeRun c b).ifaces } := by
  unfold State.chargeRun
  split
  case h_1 n _ =>
    split
    · rfl
    · exact s.chargeHbm_frame c n b
  case h_2 => rfl

@[simp] theorem memByte_chargeRun (s : State) (c b a : Nat) : (s.chargeRun c b).memByte a = s.memByte a := by
  rw [s.chargeRun_frame]; rfl

@[simp] theorem memPois_chargeRun (s : State) (c b a n : Nat) : (s.chargeRun c b).memPois a n = s.memPois a n := by
  rw [s.chargeRun_frame]; rfl

/-! ## Zeroed ranges (R80) -/

/-- What a table reads as once the keys outside `p` are gone. -/
theorem Tab.get_filter_key {α : Type} (d : α) (t : Tab α) (p : Nat → Bool) (k : Nat) :
    Tab.get d (t.filter fun c => p c.1) k = if p k then Tab.get d t k else d := by
  induction t with
  | nil => simp [Tab.get]
  | cons c t ih =>
    obtain ⟨j, v⟩ := c
    by_cases e : k = j
    · subst e
      by_cases h : p k = true
      · simp [List.filter_cons_of_pos, h, Tab.get]
      · rw [List.filter_cons_of_neg (by simpa using h), ih, if_neg h, if_neg h]
    · by_cases h : p j = true
      · rw [List.filter_cons_of_pos (by simpa using h), Tab.get, if_neg e, ih, Tab.get, if_neg e]
      · rw [List.filter_cons_of_neg (by simpa using h), ih, Tab.get, if_neg e]

theorem fogDefault_of_not_covered (fog : List (Nat × Nat × Nat)) (a : Nat) (h : ∀ e ∈ fog, ¬ (e.1 ≤ a ∧ a < e.1 + e.2.1)) :
    fogDefault fog a = 0 := by
  induction fog with
  | nil => rfl
  | cons e fog ih =>
    obtain ⟨b, n, g⟩ := e
    rw [fogDefault, if_neg (h (b, n, g) (List.mem_cons_self ..)), ih fun e m => h e (List.mem_cons_of_mem _ m)]

theorem memDefault_zeroRange_in (s : State) (b n a : Nat) (h : b ≤ a ∧ a < b + n) : (s.zeroRange b n).memDefault a = 0 := by
  unfold State.memDefault State.zeroRange
  dsimp only
  split
  · rw [fogDefault, if_pos h, if_pos rfl]
  · rename_i clear
    simp only [Bool.not_eq_true, List.any_eq_false, decide_eq_true_eq] at clear
    exact fogDefault_of_not_covered s.fog a fun (x, m, g) mem covers => clear (x, m, g) mem (by dsimp only at covers ⊢; omega)

theorem memDefault_zeroRange_out (s : State) (b n a : Nat) (h : ¬ (b ≤ a ∧ a < b + n)) :
    (s.zeroRange b n).memDefault a = s.memDefault a := by
  unfold State.memDefault State.zeroRange
  dsimp only
  split
  · rw [fogDefault, if_neg h]
  · rfl

theorem memByte_zeroRange (s : State) (b n a : Nat) :
    (s.zeroRange b n).memByte a = if b ≤ a ∧ a < b + n then 0 else s.memByte a := by
  have read := Tab.get_filter_key ((s.zeroRange b n).memDefault a) s.mem (fun k => !(decide (b ≤ k ∧ k < b + n))) a
  refine Eq.trans read ?_
  by_cases h : b ≤ a ∧ a < b + n
  · rw [if_neg (by simp [h]), if_pos h, memDefault_zeroRange_in s b n a h]
  · rw [if_pos (by simp only [h, decide_false, Bool.not_false]), if_neg h, memDefault_zeroRange_out s b n a h, State.memByte]

end Sys2Proof.Machine
end

section
/-! PROOF. Memory as instructions see it: a read after a write, and the fetch of a parcel (R7, R118, R126). -/

namespace Sys2Proof.Machine

/-- An aligned M-mode fetch lies in one piece. -/
theorem State.locate_parcel (s : State) (c va a : Nat) (even : va % 2 = 0) (home : s.home (dieOf c) va = some a) :
    s.locate c .m va 2 .fetch = (s, .pieces [(a, 2)]) := by
  have whole : min 2 (0x1000 - va % 0x1000) = 2 := by omega
  simp [State.locate, pieces, State.physPieces, whole, home]

/-- R118: where no line of the address is held, the line's bytes in memory, or nothing where one of them is poisoned. The state
left reads as before. -/
theorem State.fetchLine_missed (s : State) (c a : Nat) (miss : ∀ l ∈ (s.core c).icache, l.pa ≠ a / 64 * 64) :
    ∃ t : State, (∀ x, t.memByte x = s.memByte x) ∧ (∀ x n, t.memPois x n = s.memPois x n) ∧
      (s.fetchLine c a = (t, none) ∨ s.fetchLine c a = (t, some (t.memBytes (a / 64 * 64) 64))) := by
  have none_held : (s.core c).icache.find? (fun l => l.pa == a / 64 * 64) = none := by
    simpa [List.find?_eq_none] using miss
  unfold State.fetchLine
  simp only [none_held]
  split
  · exact ⟨_, by simp, by simp, .inl rfl⟩
  · refine ⟨_, fun x => ?_, fun x n => ?_, .inr (Prod.ext rfl (congrArg some (State.memBytes_congr (fun _ => ?_) 64 _)))⟩
    · rw [memByte_modCore, memByte_chargeRun]
    · rw [memPois_modCore, memPois_chargeRun]
    · rw [memByte_modCore]

/-- R7, R118, R126: the parcel fetched in M mode is the two bytes at its address, the low one first. -/
theorem State.fetchParcel_missed (s : State) (c a : Nat) (va : Word) (machine : (s.core c).mode = .m) (even : va.toNat % 2 = 0)
    (home : s.home (dieOf c) va.toNat = some a) (aligned : a % 2 = 0) (miss : ∀ l ∈ (s.core c).icache, l.pa ≠ a / 64 * 64)
    (clean : s.memPois a 2 = false) : (s.fetchParcel c va).2 = .parcel (s.memByte (a + 1) ++ s.memByte a) := by
  obtain ⟨t, bytes, pois, line⟩ := s.fetchLine_missed c a miss
  rw [← bytes, ← bytes, ← t.memNat_two]
  unfold State.fetchParcel
  rw [machine, s.locate_parcel c _ a even home]
  rcases line with line | line
  · simp [line, pois, clean]
  · have field := t.fld_memBytes (a / 64 * 64) (a % 64) 2 (62 - a % 64)
    rw [show a % 64 + 2 + (62 - a % 64) = 64 by omega, show a / 64 * 64 + a % 64 = a by omega] at field
    simp [line, field]

/-- Settles O5: a write is read back by `memBytes_memWrite_self` and keeps the rest by `memFrame_memWrite`, and the parcel is
`State.fetchParcel_missed`. -/
theorem memoryReadsAndFetches : Obligations.MemoryReadsAndFetches :=
  ⟨fun s a bs => ⟨memBytes_memWrite_self s a bs, memFrame_memWrite s a bs⟩,
   fun s c a va machine even home aligned miss clean => s.fetchParcel_missed c a va machine even home aligned miss clean⟩

end Sys2Proof.Machine
end

section
/-! PROOF. What firmware's register writes do (R7, R76, R81, R87, R163, R190, R371, R380, R384). -/

namespace Sys2Proof.Machine

/-! ## Steps of agents, and the frame of an update -/

/-- An agent of a core that is up takes its step. -/
theorem State.onCore_up (s : State) (c : Nat) (k : Out) (up : Up c s) : s.onCore c k = k := by
  obtain ⟨within, running⟩ := up
  exact if_neg (by simp [running, within])

theorem State.core_modCore_self (s : State) (c : Nat) (g : Core → Core) : (s.modCore c g).core c = g (s.core c) :=
  State.core_setCore_self ..

theorem mem_upFrom (n : Nat) : ∀ a x, x ∈ upFrom a n ↔ a ≤ x ∧ x < a + n := by
  induction n with
  | zero => intro a x; simp [upFrom]
  | succ n ih => intro a x; rw [upFrom, List.mem_cons, ih]; omega

/-- The low field of a word, as a number and as bits. -/
theorem bits_toNat {w : Nat} (v : BitVec w) (lo n : Nat) : bits v.toNat lo n = (v.extractLsb' lo n).toNat := by
  rw [bits, BitVec.extractLsb'_toNat, Nat.shiftRight_eq_div_pow]

/-! ## Windows (R76) -/

/-- Slot `n` of core `c` holds no task, and banks `b` to `b + m` lie in the scratchpad and overlap no other slot's window. -/
def State.windowFree (s : State) (c n b m : Nat) : Prop :=
  (s.slot c n).task = none ∧ b + m ≤ 32 ∧
    ∀ j, j < 8 → j ≠ n → overlap b m ((s.core c).win j).1 ((s.core c).win j).2 = false

theorem exec_swinWrite (s : State) (c n : Nat) (w : W32) : exec (.swinWrite c n w) s = execSwinWrite c n w s := rfl

/-- The test of `SWIN_WRITE` finds a fault exactly where the window is not free. -/
theorem State.swin_refused_iff (s : State) (c n b m : Nat) (slot : n < 8) :
    (8 ≤ n ∨ 32 < b + m ∨ ((upFrom 0 8).any fun j => j != n && overlap b m ((s.core c).win j).1 ((s.core c).win j).2) = true ∨
      ((s.core c).slot n).task.isSome = true) ↔ ¬ s.windowFree c n b m := by
  have clash : ((upFrom 0 8).any fun j => j != n && overlap b m ((s.core c).win j).1 ((s.core c).win j).2) = true ↔
      ∃ j, j < 8 ∧ j ≠ n ∧ overlap b m ((s.core c).win j).1 ((s.core c).win j).2 = true := by
    simp [List.any_eq_true, mem_upFrom]
  rw [clash, State.windowFree, Option.isSome_iff_ne_none, State.slot]
  constructor
  · rintro (absent | wide | ⟨j, known, other, both⟩ | placed) ⟨empty, fits, apart⟩
    · exact Nat.not_le.2 slot absent
    · exact Nat.not_lt.2 fits wide
    · exact Bool.false_ne_true ((apart j known other).symm.trans both)
    · exact placed empty
  · refine fun taken => Classical.byContradiction fun accepted => taken ?_
    simp only [not_or, not_exists, not_and] at accepted
    obtain ⟨-, fits, apart, empty⟩ := accepted
    exact ⟨Classical.not_not.1 empty, Nat.not_lt.1 fits, fun j known other => Bool.eq_false_iff.2 (apart j known other)⟩

theorem exec_swinWrite_free (s : State) (c n : Nat) (w : W32) (up : Up c s) (slot : n < 8)
    (free : s.windowFree c n (w.extractLsb' 0 5).toNat (w.extractLsb' 8 6).toNat) :
    exec (.swinWrite c n w) s = .next (s.modCore c fun k =>
      { k with swin := Tab.set k.swin n ((w.extractLsb' 0 5).toNat, (w.extractLsb' 8 6).toNat) }) := by
  rw [exec_swinWrite, execSwinWrite, s.onCore_up c _ up]
  simp only [bits_toNat]
  exact if_neg fun refused => (s.swin_refused_iff c n _ _ slot).1 refused free

theorem exec_swinWrite_discarded (s : State) (c n : Nat) (w : W32) (up : Up c s) (slot : n < 8)
    (taken : ¬ s.windowFree c n (w.extractLsb' 0 5).toNat (w.extractLsb' 8 6).toNat) : exec (.swinWrite c n w) s = .next s := by
  rw [exec_swinWrite, execSwinWrite, s.onCore_up c _ up]
  simp only [bits_toNat]
  exact if_pos ((s.swin_refused_iff c n _ _ slot).2 taken)

theorem Core.win_set_self (k : Core) (n : Nat) (v : Nat × Nat) : ({ k with swin := Tab.set k.swin n v } : Core).win n = v :=
  Tab.get_set_self ..

theorem Core.win_set_ne (k : Core) (n j : Nat) (v : Nat × Nat) (h : j ≠ n) :
    ({ k with swin := Tab.set k.swin n v } : Core).win j = k.win j := Tab.get_set_ne _ _ h

/-! ## The root of an interface's tables (R87) -/

theorem exec_xrootWrite (s : State) (vi : Nat) (v : Word) (known : vi ≤ 1024) :
    exec (.xrootWrite vi v) s = .next (s.modIface vi fun i => { i with xroot := some v }) :=
  if_neg (Nat.not_lt.2 known)

/-! ## The carve-out (R81) -/

/-- The first byte of die `d`'s LLS that belongs to a carve-out of `c` tiles. -/
def carveStart (d c : Nat) : Nat := llsBase d + (48 - c) * 0x1000000

/-- What `CARVD_WRITE` leaves: the tiles that change sides are zeroed, and what was cached of them is dropped. -/
def State.carved (s : State) (d c : Nat) : State :=
  let a := carveStart d (max c (s.die d).carv)
  let n := carveStart d (min c (s.die d).carv) - a
  (((s.zeroRange a n).dropResv a n).dropLls).modDie d fun k => { k with carv := c }

theorem exec_carvdWrite (s : State) (d : Nat) (v : Word) (known : d < 4) (size : (v.extractLsb' 0 6).toNat ≤ 48) :
    exec (.carvdWrite d v) s = .next (s.carved d (v.extractLsb' 0 6).toNat) := by
  have accepted : ¬ (4 ≤ d ∨ 48 < (v.extractLsb' 0 6).toNat) := by omega
  show execCarvdWrite d v s = _
  unfold execCarvdWrite State.carved carveStart
  simp only [bits_toNat, if_neg accepted, Nat.add_sub_add_left, Nat.sub_mul]

@[simp] theorem memByte_dropLls (s : State) (a : Nat) : s.dropLls.memByte a = s.memByte a := rfl

theorem die_carved (s : State) (d c : Nat) : ((s.carved d c).die d).carv = c := by
  rw [State.carved, State.die_modDie_self]

theorem memByte_carved (s : State) (d c a : Nat) : (s.carved d c).memByte a =
    if carveStart d (max c (s.die d).carv) ≤ a ∧ a < carveStart d (min c (s.die d).carv) then 0 else s.memByte a := by
  have order : carveStart d (max c (s.die d).carv) ≤ carveStart d (min c (s.die d).carv) := by
    unfold carveStart; omega
  simp only [State.carved, memByte_modDie, memByte_dropLls, memByte_dropResv, memByte_zeroRange, Nat.add_sub_cancel' order]

/-! ## Loop levels (R163, Table 11-4) -/

theorem exec_zlcWrite (s : State) (c l : Nat) (v : Word) (core : c < 640) (level : l < 3) :
    exec (.zlcWrite c l v) s = .next (s.setZlc c l v) := if_pos ⟨core, level⟩

theorem State.ctl_setZlc (s : State) (c l : Nat) (v : Word) :
    (s.setZlc c l v).ctl c = (s.ctl c).setLoop l (((s.ctl c).loop l).write v) := by
  simp [State.setZlc, State.modCtl, State.modCore, State.ctl]

@[simp] theorem Ctl.loop_setLoop_self (k : Ctl) (l : Nat) (v : LoopLevel) : (k.setLoop l v).loop l = v := Tab.get_set_self ..

theorem Ctl.loop_setLoop_ne (k : Ctl) (l m : Nat) (v : LoopLevel) (h : m ≠ l) : (k.setLoop l v).loop m = k.loop m :=
  Tab.get_set_ne _ _ h

/-! ## Registers without a behaviour of their own (R7) -/

/-- A write of `v` to the register `name` goes on with the bits of `mask` in the register, which `r` reads, and no byte of memory
changed. -/
def RegisterTakes (s : State) (v : Word) (name : RegName) (r : State → Word) (mask : Word) : Prop :=
  ∃ t, exec (.registerWrite name v) s = .next t ∧ r t = v &&& mask ∧ ∀ a, t.memByte a = s.memByte a

theorem registerTakes_core (s : State) (v : Word) (c : Nat) (name : RegName) (g : Core → Core) (r : Core → Word) (mask : Word)
    (write : exec (.registerWrite name v) s = .next (s.modCore c g)) (value : r (g (s.core c)) = v &&& mask) :
    RegisterTakes s v name (fun t => r (t.core c)) mask :=
  ⟨_, write, (congrArg r (State.core_modCore_self s c g)).trans value, fun _ => memByte_modCore ..⟩

theorem registerTakes_die (s : State) (v : Word) (d : Nat) (name : RegName) (g : Die → Die) (r : Die → Word) (mask : Word)
    (write : exec (.registerWrite name v) s = .next (s.modDie d g)) (value : r (g (s.die d)) = v &&& mask) :
    RegisterTakes s v name (fun t => r (t.die d)) mask :=
  ⟨_, write, (congrArg r (State.die_modDie_self s d g)).trans value, fun _ => memByte_modDie ..⟩

theorem registerTakes_ctxa (s : State) (v : Word) (c n : Nat) (core : c < 640) (slot : n < 8) :
    RegisterTakes s v (.ctxa c n) (fun t => Tab.get 0 (t.core c).ctxa n) 0x0000FFFFFFFFF000#64 :=
  registerTakes_core s v c _ _ (fun k => Tab.get 0 k.ctxa n) _ (if_neg (by omega)) (Tab.get_set_self ..)

theorem registerTakes_zfrec (s : State) (v : Word) (c : Nat) (core : c < 640) :
    RegisterTakes s v (.zfrec c) (fun t => (t.core c).csr.zfrec) 0x0000FFFFFFFFFFC0#64 :=
  registerTakes_core s v c _ _ (fun k => k.csr.zfrec) _ (if_neg (Nat.not_le.2 core)) rfl

theorem registerTakes_prqb (s : State) (v : Word) (d : Nat) (die : d < 4) :
    RegisterTakes s v (.prqb d) (fun t => (t.die d).prqb) (BitVec.allOnes 64) :=
  registerTakes_die s v d _ _ Die.prqb _ (if_neg (Nat.not_le.2 die)) (BitVec.and_allOnes ..).symm

theorem registerTakes_abtd (s : State) (v : Word) (d : Nat) (die : d < 4) :
    RegisterTakes s v (.abtd d) (fun t => (t.die d).abtd) (BitVec.allOnes 64) :=
  registerTakes_die s v d _ _ Die.abtd _ (if_neg (Nat.not_le.2 die)) (BitVec.and_allOnes ..).symm

theorem registerTakes_scrb (s : State) (v : Word) (d : Nat) (die : d < 4) :
    RegisterTakes s v (.scrb d) (fun t => (t.die d).scrb) 0x0000FFFFFFFFFFFF#64 :=
  registerTakes_die s v d _ _ Die.scrb _ (if_neg (Nat.not_le.2 die)) rfl

theorem registerTakes_podid (s : State) (v : Word) :
    RegisterTakes s v .podid (fun t => t.podid.zeroExtend 64) 0xFF#64 := by
  refine ⟨_, rfl, BitVec.eq_of_toNat_eq ?_, fun _ => rfl⟩
  have low : v.toNat &&& 255 % 2 ^ 64 = v.toNat % 256 := Nat.and_two_pow_sub_one_eq_mod v.toNat 8
  simp only [BitVec.truncate_eq_setWidth, BitVec.toNat_setWidth, BitVec.toNat_and, BitVec.toNat_ofNat, low]
  omega

/-- Log entry 61: the number of one of the package's links is what the route's entry holds. -/
theorem registerTakes_route (s : State) (v : Word) (p : Nat) (pkg : p < 256) (link : v.toNat < 16) :
    RegisterTakes s v (.route p) (fun t => BitVec.ofNat 64 (Tab.get 0 t.routes p)) (BitVec.allOnes 64) := by
  have keeps : v.getLsbD 63 = false := Nat.testBit_lt_two_pow (by omega)
  have write : exec (.registerWrite (.route p) v) s = .next { s with routes := Tab.set s.routes p v.toNat } := by
    show execRegisterWrite (.route p) v s = _
    simp only [execRegisterWrite]
    rw [if_neg (by omega), keeps, if_neg (by simp), if_neg (by unfold podLinks; omega)]
  refine ⟨_, write, ?_, fun _ => rfl⟩
  dsimp only
  rw [BitVec.and_allOnes, Tab.get_set_self, BitVec.ofNat_toNat, BitVec.setWidth_eq]

/-! ## The statement -/

/-- Settles O53: each register's write is an equation for `exec` above, and the register is read back in the state it gives. -/
theorem registerWritesComplete : Obligations.RegisterWritesComplete := by
  intro s v same writes
  refine ⟨fun c n w up slot => ⟨fun free => ?window, fun taken => exec_swinWrite_discarded s c n w up slot taken⟩,
    fun vi known => ?root, fun d die size => ?carve, fun c l core level => ?loop,
    fun c n core slot => registerTakes_ctxa s v c n core slot,
    fun d die => ⟨registerTakes_prqb s v d die, registerTakes_abtd s v d die, registerTakes_scrb s v d die⟩,
    registerTakes_podid s v, fun p pkg link => registerTakes_route s v p pkg link,
    fun c core => registerTakes_zfrec s v c core⟩
  case window =>
    refine ⟨_, exec_swinWrite_free s c n w up slot free, ?_, fun j other => ?_,
      fun d other => State.core_setCore_ne _ _ _ _ other, fun _ => memByte_modCore ..⟩
    · rw [State.core_modCore_self, Core.win_set_self]
    · rw [State.core_modCore_self, Core.win_set_ne _ _ _ _ other]
  case root =>
    refine ⟨_, exec_xrootWrite s vi v known, ?_, fun u other => State.iface_modIface_ne _ _ _ _ other, rfl,
      fun _ => memByte_modIface ..⟩
    rw [State.iface_modIface_self]
  case carve =>
    refine ⟨_, exec_carvdWrite s d v die size, die_carved .., fun a low high => ?_, fun a outside => ?_⟩
    · exact (memByte_carved ..).trans (if_pos ⟨low, high⟩)
    · exact (memByte_carved ..).trans (if_neg fun ⟨low, high⟩ => outside.elim (Nat.not_lt.2 low) (Nat.not_le.2 high))
  case loop =>
    refine ⟨_, exec_zlcWrite s c l v core level, ?_, fun m other => ?_, ?_, fun _ => memByte_modCore ..⟩
    · rw [State.ctl_setZlc, Ctl.loop_setLoop_self]
      rfl
    · rw [State.ctl_setZlc, Ctl.loop_setLoop_ne _ _ _ _ other]
    · rw [State.ctl_setZlc]
      rfl

end Sys2Proof.Machine
end

section
/-! PROOF. The F and D instructions of the control core (R71, R126): what they write, the flags they raise, and the rounding modes
that name none. -/

namespace Sys2Proof.Machine

/-! ## Completing does not look at the registers (R147, R161) -/

/-- The context `k` with the x and f registers and `fcsr` of `r`. -/
def Ctl.withRegs (k r : Ctl) : Ctl := { k with x := r.x, f := r.f, fcsr := r.fcsr }

theorem loopFilter_withRegs (p fall : Bool) (r : Ctl) (l : List Nat) : ∀ (k : Ctl) (pc : Word),
    loopFilter p fall l (k.withRegs r) pc = ((loopFilter p fall l k pc).1.withRegs r, (loopFilter p fall l k pc).2) := by
  induction l with
  | nil => exact fun _ _ => rfl
  | cons m ms ih =>
    intro k pc
    have level : (k.withRegs r).loop m = k.loop m := rfl
    have write : ∀ v, (k.withRegs r).setLoop m v = (k.setLoop m v).withRegs r := fun _ => rfl
    simp only [loopFilter, level, write, ih]
    split
    · split
      · rfl
      · split <;> rfl
    · split <;> rfl

theorem insertLevel_withRegs (k r : Ctl) (m : Nat) (l : List Nat) : insertLevel (k.withRegs r) m l = insertLevel k m l := by
  induction l with
  | nil => rfl
  | cons j ls ih =>
    rw [insertLevel, insertLevel, ih]
    rfl

theorem Ctl.liveLevels_withRegs (k r : Ctl) : (k.withRegs r).liveLevels = k.liveLevels := by
  unfold Ctl.liveLevels
  simp only [insertLevel_withRegs]
  rfl

theorem Ctl.goto_withRegs (k r : Ctl) (fall : Bool) (pc : Word) : (k.withRegs r).goto fall pc = (k.goto fall pc).withRegs r := by
  have pending : (k.withRegs r).pre.isSome = k.pre.isSome := rfl
  rw [Ctl.goto, Ctl.liveLevels_withRegs, pending, loopFilter_withRegs]
  rfl

theorem Ctl.takeGroup_withRegs (k r : Ctl) : (k.withRegs r).takeGroup = k.takeGroup.withRegs r := by
  have pending : (k.withRegs r).pre.isSome = k.pre.isSome := rfl
  rw [Ctl.takeGroup, Ctl.takeGroup, pending]
  split <;> rfl

theorem Ctl.advance_withRegs (k r : Ctl) (n : Nat) : (k.withRegs r).advance n = (k.advance n).withRegs r := by
  have group := Ctl.takeGroup_withRegs { k with wait := none } r
  exact (congrArg (fun c => Ctl.goto c true (k.pc + BitVec.ofNat 64 n)) group).trans (Ctl.goto_withRegs ..)

/-! ## Writing registers and completing -/

/-- A context update that moves registers and `fcsr` only, then completion: the registers are those of the update, and the
instruction is done. -/
theorem State.retire_modMe_done (s : State) (g : Ctl → Ctl) (n : Nat) (xs fs : List Reg) (fl : Bool)
    (regs : g s.me = s.me.withRegs (g s.me))
    (hx : ∀ r, r ∉ xs → (g s.me).getX r = s.me.getX r) (hf : ∀ r, r ∉ fs → (g s.me).getF r = s.me.getF r)
    (hfl : fl = false → (g s.me).fcsr = s.me.fcsr) :
    (∀ r, ((s.modMe g).retire n).getX r = (g s.me).getX r) ∧ (∀ r, ((s.modMe g).retire n).getF r = (g s.me).getF r) ∧
    ((s.modMe g).retire n).me.fcsr = (g s.me).fcsr ∧ Done xs fs fl s ((s.modMe g).retire n) n := by
  obtain ⟨m, retired⟩ := (s.modMe g).retire_eq n
  have advanced : (g s.me).advance n = (s.me.advance n).withRegs (g s.me) := by rw [← Ctl.advance_withRegs, ← regs]
  have state : (s.modMe g).retire n
      = s.setCore s.cur (((s.core s.cur).counted m).setCtl ((s.me.advance n).withRegs (g s.me))) := by
    rw [retired, ← advanced]; simp
  have me : ((s.modMe g).retire n).me = (s.me.advance n).withRegs (g s.me) := by
    rw [state, State.me_setCore_self, Core.ctl_setCtl]
  have completed := completed_of s (g s.me) ((g s.me).advance n) m xs fs fl regs (Ctl.advance_frame ..) hx hf hfl
  rw [advanced, ← state] at completed
  refine ⟨fun r => ?_, fun r => ?_, by rw [me]; rfl, completed, by rw [me]; rfl, by rw [me]; rfl⟩
  · rw [State.getX, me]; rfl
  · rw [State.getF, me]; rfl

/-- f[rd] gets `v`, the flags `g` join `fcsr`, and nothing else changes but the pc. -/
def WritesF (o : Out) (s : State) (rd : Reg) (v : Word) (g : BitVec 5) : Prop :=
  ∃ t, o = .next t ∧ t.getF rd = v ∧ t.me.fcsr = s.me.fcsr ||| g.zeroExtend 8 ∧ Done [] [rd] true s t

/-- x[rd] gets `v` (x0 reads zero), the flags `g` join `fcsr`, and nothing else changes but the pc. -/
def WritesX (o : Out) (s : State) (rd : Reg) (v : Word) (g : BitVec 5) : Prop :=
  ∃ t, o = .next t ∧ t.getX rd = (if rd = 0 then 0 else v) ∧ t.me.fcsr = s.me.fcsr ||| g.zeroExtend 8 ∧ Done [rd] [] true s t

theorem State.fpResult_writesF (s : State) (f : FFmt) (rd : Reg) (r : FpRes) :
    WritesF (s.fpResult f rd r) s rd (fpBox f r.1) r.2.bits := by
  obtain ⟨-, readF, flags, done⟩ := s.retire_modMe_done (fun k => (k.setF rd (fpBox f r.1)).accrue r.2) 4 [] [rd] true rfl
    (fun _ _ => rfl) (fun q other => Ctl.getF_setF_ne _ _ _ _ (by simpa using other)) (by simp)
  exact ⟨_, rfl, (readF rd).trans (Ctl.getF_setF_self ..), flags, done⟩

/-- FMV to an f register raises no flag. -/
theorem State.fmvFromInt_done (s : State) (f : FFmt) (rd rs1 : Reg) :
    ∃ t, s.fmvFromInt f rd rs1 = .next t ∧ t.getF rd = fpBox f (s.getX rs1).toNat ∧ Done [] [rd] false s t := by
  obtain ⟨-, readF, -, done⟩ := s.retire_modMe_done (fun k => k.setF rd (fpBox f (s.getX rs1).toNat)) 4 [] [rd] false rfl
    (fun _ _ => rfl) (fun q other => Ctl.getF_setF_ne _ _ _ _ (by simpa using other)) (fun _ => rfl)
  exact ⟨_, rfl, (readF rd).trans (Ctl.getF_setF_self ..), done⟩

theorem Ctl.getX_setX_rd (k : Ctl) (rd : Reg) (v : Word) : (k.setX rd v).getX rd = if rd = 0 then 0 else v := by
  by_cases zero : rd = 0
  · rw [if_pos zero, Ctl.getX, if_pos zero]
  · rw [if_neg zero, Ctl.getX_setX_self _ _ _ zero]

theorem State.modMe_modMe (s : State) (g h : Ctl → Ctl) : (s.modMe g).modMe h = s.modMe fun k => h (g k) := by simp

theorem State.fpToX_writesX (s : State) (rd : Reg) (v : Word) (g : FFlags) : WritesX (s.fpToX rd v g) s rd v g.bits := by
  obtain ⟨readX, -, flags, done⟩ := s.retire_modMe_done (fun k => (k.accrue g).setX rd v) 4 [rd] [] true
    (by rw [Ctl.setX_only]; rfl) (fun q other => Ctl.getX_setX_ne _ _ _ _ (by simpa using other))
    (fun _ _ => by rw [Ctl.setX_only]; rfl) (by simp)
  have state : s.fpToX rd v g = .next ((s.modMe fun k => (k.accrue g).setX rd v).retire 4) := by
    rw [State.fpToX, State.result, State.setX, State.modMe_modMe]
  exact ⟨_, state, (readX rd).trans (Ctl.getX_setX_rd ..), by rw [flags, Ctl.setX_only]; rfl, done⟩

/-- A word written with no flag raised: accruing the empty set leaves `fcsr`. -/
theorem State.result_eq_fpToX (s : State) (rd : Reg) (v : Word) : s.result rd v = s.fpToX rd v {} := by
  have accrued : ∀ k : Ctl, k.accrue {} = k := fun k => by simp [Ctl.accrue, FFlags.bits]
  simp only [State.fpToX, State.result, State.setX, State.modMe_modMe, accrued]

/-! ## Rounding modes and execution -/

theorem State.withMode_some (s : State) (i : Instr) {rm : BitVec 3} {m : RMode} (mode : s.me.rounding rm = some m)
    (k : RMode → Out) : s.withMode i rm k = k m := by
  rw [State.withMode, mode]

/-- Log entry 6: a rounding mode that names none is an illegal instruction with subcode 0. -/
theorem State.withMode_none (s : State) (i : Instr) {rm : BitVec 3} (mode : s.me.rounding rm = none) (pre : s.me.pre = none)
    (k : RMode → Out) : s.withMode i rm k = .next (s.takeTrap s.cur false 2 (zx (s.bitsOf i)) s.me.pc) := by
  have tval : (zx (s.bitsOf i) ||| (zx Enc.subStandard <<< 32) : Word) = zx (s.bitsOf i) := by simp [Enc.subStandard, zx]
  have epc : s.me.epc = s.me.pc := by rw [Ctl.epc, pre]
  simp only [State.withMode, mode, State.illegal, tval, epc, ite_self]

/-- A standard 32-bit instruction other than LR, SC and the AMOs, with nothing pending, has its effect. -/
theorem exec_standard_ready (s : State) {op : Std} (plain : takesScope op = false) (ready : Ready (stdRegs op) s) :
    exec (.standard op false) s = s.stdEffect (.standard op false) 4 op := by
  show execStandard op false s = _
  simp only [execStandard, plain, s.begin_ready _ _ _ ready]
  rfl

theorem Ready.mono {rs qs : List Reg} {s : State} (ready : Ready rs s) (sub : qs ⊆ rs) : Ready qs s :=
  ⟨ready.1, fun r mem => ready.2 r (sub mem)⟩

/-- An instruction whose effect is a result in f[rd]. -/
theorem exec_writesF {s : State} {op : Std} {f : FFmt} {rd : Reg} {r : FpRes} (plain : takesScope op = false)
    (ready : Ready (stdRegs op) s) (effect : s.stdEffect (.standard op false) 4 op = s.fpResult f rd r) :
    WritesF (exec (.standard op false) s) s rd (fpBox f r.1) r.2.bits := by
  rw [exec_standard_ready s plain ready, effect]
  exact s.fpResult_writesF f rd r

/-- An instruction whose effect is a word in x[rd] and the flags it raises. -/
theorem exec_writesX {s : State} {op : Std} {rd : Reg} {v : Word} {g : FFlags} (plain : takesScope op = false)
    (ready : Ready (stdRegs op) s) (effect : s.stdEffect (.standard op false) 4 op = s.fpToX rd v g) :
    WritesX (exec (.standard op false) s) s rd v g.bits := by
  rw [exec_standard_ready s plain ready, effect]
  exact s.fpToX_writesX rd v g

/-- An instruction that rounds, under a mode that names none. -/
theorem exec_noMode {s : State} {op : Std} {rm : BitVec 3} {k : RMode → Out} (mode : s.me.rounding rm = none)
    (plain : takesScope op = false) (ready : Ready (stdRegs op) s)
    (effect : s.stdEffect (.standard op false) 4 op = s.withMode (.standard op false) rm k) :
    exec (.standard op false) s = .next (s.takeTrap s.cur false 2 (zx (s.bitsOf (.standard op false))) s.me.pc) := by
  rw [exec_standard_ready s plain ready, effect, s.withMode_none _ mode ready.1]

/-! ## The statement -/

/-- Settles O14: under a mode the effect of each instruction is one of the writes above, and under none it is the trap of
`State.withMode_none`. -/
theorem floatingPointCompletes : Obligations.FloatingPointCompletes := by
  constructor
  · intro s f rm rd rs1 rs2 rs3 m F gives ready
    have free : Ready [] s := ready.mono (List.nil_subset _)
    refine ⟨fun mode => ⟨fun op => ?fbin, fun op => ?fma, ?fsqrt, ?fcvtFmt, fun ty => ?fcvtFromInt⟩, fun op => ?fsel, ?fmv⟩
    case fbin => exact exec_writesF rfl free (s.withMode_some _ mode _)
    case fma => exact exec_writesF rfl free (s.withMode_some _ mode _)
    case fsqrt => exact exec_writesF rfl free (s.withMode_some _ mode _)
    case fcvtFmt => exact exec_writesF rfl free (s.withMode_some _ mode _)
    case fcvtFromInt => exact exec_writesF rfl ready (s.withMode_some _ mode _)
    case fsel => exact exec_writesF rfl free rfl
    case fmv =>
      have effect := exec_standard_ready s (op := .fmvFromInt f rd rs1) rfl ready
      exact effect ▸ s.fmvFromInt_done f rd rs1
  · intro s f rm rd rs1 rs2 F gives ill ready
    have free : Ready [] s := ready.mono (List.nil_subset _)
    refine ⟨fun op => ?fcmp, ?fclass, ?fmv, fun ty m mode => ?fcvtToInt, fun mode => ?illegal⟩
    case fcmp => exact exec_writesX rfl ready rfl
    case fclass => exact exec_writesX (g := {}) rfl ready (s.result_eq_fpToX ..)
    case fmv => exact exec_writesX (g := {}) rfl ready (s.result_eq_fpToX ..)
    case fcvtToInt => exact exec_writesX rfl ready (s.withMode_some _ mode _)
    case illegal =>
      exact ⟨fun ty => exec_noMode mode rfl ready rfl, fun op => exec_noMode mode rfl free rfl,
        fun op rs3 => exec_noMode mode rfl free rfl, exec_noMode mode rfl free rfl, exec_noMode mode rfl free rfl,
        fun ty both => exec_noMode mode rfl (both.mono (List.subset_cons_self ..)) rfl⟩

end Sys2Proof.Machine
end
